-- ==== Sys2Proof/Word.lean ====
section
/-! DEFINITION. The word types of the block (00_scope.md R7, R90): bytes, 16-bit entries, 32-bit words and positions. -/

namespace Sys2Proof

/-- One byte: the element of the byte memories and of the host slices (R60). -/
abbrev Byte := BitVec 8

/-- One 16-bit entry: the element of `head`, `next` and of the Huffman counts and codes (R22, R24). -/
abbrev Half := BitVec 16

/-- One 32-bit word: the command word and its operand words (R90). -/
abbrev Word := BitVec 32

/-- An absolute stream position, modulo 2^32 (`POS_BITS` = 32, R5, R7). -/
abbrev Pos := BitVec 32

end Sys2Proof
end

