-- ==== Sys2Proof/Config.lean ====
section
/-! DEFINITION. The parameters of the block (00_scope.md R5) and the values it leaves open: the free values, which have no body. -/

namespace Sys2Proof.Config

/-- `WINDOW_SIZE` (R5). -/
@[simp] abbrev windowSize : Nat := 32768
/-- `MIN_MATCH` (R5). -/
@[simp] abbrev minMatch : Nat := 3
/-- `MAX_MATCH` (R5). -/
@[simp] abbrev maxMatch : Nat := 258
/-- `DICT_BUF_SIZE` (R5, R21). -/
@[simp] abbrev dictBufSize : Nat := 33025
/-- `HASH_SIZE` (R5, R22). -/
@[simp] abbrev hashSize : Nat := 32768
/-- `LZ_CODE_BUF_SIZE` (R5, R23). -/
@[simp] abbrev lzCodeBufSize : Nat := 65536
/-- `LZ_FLAG_BUF_SIZE` (R5, R23). -/
@[simp] abbrev lzFlagBufSize : Nat := 8192
/-- `LZ_CLOSE_THRESHOLD` (R5, R264). -/
@[simp] abbrev lzCloseThreshold : Nat := 65528
/-- `RAW_BLOCK_LIMIT` (R5, R264). -/
@[simp] abbrev rawBlockLimit : Nat := 31744
/-- `OUT_STAGE_SIZE` (R5, R25). -/
@[simp] abbrev outStageSize : Nat := 85196
/-- `MAX_SUPPORTED_CODESIZE` (R5, R183). -/
@[simp] abbrev maxSupportedCodesize : Nat := 32
/-- The modulus of Adler-32 (R257). -/
@[simp] abbrev adlerMod : Nat := 65521
/-- The length up to which `FILTER_MATCHES` drops a candidate (R261). -/
@[simp] abbrev filterLimit : Nat := 5

/-- `ZLIB_CMF` (R5, R107). -/
@[simp] abbrev zlibCmf : Byte := 0x78#8

/-- The legal values of `ZLIB_FLG` (92_eei_decisions.md, open parameters), by the level field of RFC1950 in bits 7:6. -/
def zlibFlgOf (level : BitVec 2) : Byte :=
  match level.toNat with
  | 0 => 0x01#8
  | 1 => 0x5E#8
  | 2 => 0x9C#8
  | _ => 0xDA#8

/-- The level field of `ZLIB_FLG`, which each implementation fixes. A free value: it has no body, so that a statement
holds for each of the four legal headers (R5, R107; U22 `parameter`). DESIGN CHOICE, safe (log entry 10). -/
opaque zlibLevel : BitVec 2

/-- `ZLIB_FLG`, a parameter of the block (R5, R107). -/
def zlibFlg : Byte := zlibFlgOf zlibLevel

/-- The sink's answer to its invocation number `n`, when the environment has listed none: `true` accepts. A free
value (R266; 93_implementation_defined.md U14 "`any value` of {accept, refuse}"): it has no body. DESIGN CHOICE,
safe (log entry 9). -/
opaque sinkAnswer : Nat → Bool

/-- Bit `i` of the field that draw number `k` appends for an operand of ENC.PUT_BITS outside the range of R210. A free
value: it has no body. DESIGN CHOICE, safe (log entry 26). -/
opaque fieldBit : Nat → Nat → Bool

/-- What draw number `k` reads at index `i` beyond the end of `dict`, where R60 gives no element. A free value: it has
no body. DESIGN CHOICE, safe (log entry 26). -/
opaque beyondDict : Nat → Nat → Byte

/-- The symbol that stands for a distance above 32768, for which R99 gives none. A free value: it has no body. DESIGN
CHOICE, safe (log entry 29). -/
opaque farDistSym : Nat → BitVec 5

end Sys2Proof.Config
end

