-- ==== Sys2Proof/Syntax.lean ====
section
/-! DEFINITION. The instructions (00_scope.md R6): one constructor per row of spec/opcode_table.json, with the small
enumerations their operands need. Operand ranges that a type does not give stand in WellFormed. -/

namespace Sys2Proof

/-- The three Huffman tables, `t` in 0, 1, 2 (R24). -/
inductive Table where
  | litLen | dist | codeLen
deriving DecidableEq, Repr

/-- `CODE_LIMIT`: 15 for the two data tables, 7 for the code-length table (R5, R183). -/
inductive CodeLimit where
  | fifteen | seven
deriving DecidableEq, Repr

/-- The flush modes None, Sync, Full, Finish (R93). -/
inductive FlushMode where
  | none | sync | full | finish
deriving DecidableEq, Repr

/-- The four statuses (R94). -/
inductive Status where
  | okay | done | badParam | putBufFailed
deriving DecidableEq, Repr

/-- The code spaces in which the table's patterns are read: their numbers overlap, so an instruction is told by its
space and its bits (R6). The host's commands are the only space a host reaches (R90); the others are requests inside
the block (log entries 4 and 5). -/
inductive Space where
  | command       -- host command words, R90
  | micro         -- micro-operation numbers, R114
  | lzRecord      -- LZ records with their flag bit, R95, R96
  | blockHeader   -- BFINAL and BTYPE, R102
  | status        -- the 2-bit status field, R94
  | litLenSym     -- the literal/length alphabet, R98
  | distSym       -- the distance alphabet, R99
  | codeLenSym    -- the code-length alphabet, R101
deriving DecidableEq, Repr

/-- Why the bits of a request stand for no instruction. -/
inductive DecodeError where
  /-- Command opcodes 2 to 15 (R110): the command is answered BadParam. -/
  | reservedOpcode
  /-- No row of the table has this pattern: an unused micro-operation number, `BTYPE` 0b11, literal/length symbols 286
  and 287, distance symbols 30 and 31, code-length symbols from 19, a Huffman table 3, a reserved flush value of
  DRV.CLOSE_BLOCK, a MATCH record with byte 2 above 127, symbol 284 with the extra value 31 (R24, R98, R102, R110, R114,
  R265). Safe. -/
  | unassigned
deriving DecidableEq, Repr

/-- The instructions: one constructor per row of spec/opcode_table.json, in the table's order. -/
inductive Instr where
  -- host commands (R90, R250, R251)
  | init (flags : BitVec 20) (sink : Bool)
  | compress (flush : BitVec 3) (inPresent outPresent : Bool) (inLen outCap : BitVec 32)
  | compressNone (inPresent outPresent : Bool) (inLen outCap : BitVec 32)
  | compressSync (inPresent outPresent : Bool) (inLen outCap : BitVec 32)
  | compressFull (inPresent outPresent : Bool) (inLen outCap : BitVec 32)
  | compressFinish (inPresent outPresent : Bool) (inLen outCap : BitVec 32)
  -- unit DICT (R141 to R145)
  | dictWrite (q : BitVec 32) (c : BitVec 8)
  | dictInsert (q : BitVec 32)
  | dictFind (p : BitVec 32) (maxDist : BitVec 16) (maxLen : BitVec 9) (priorDist : BitVec 16) (priorLen : BitVec 9)
  | dictRle (p : BitVec 32) (maxLen : BitVec 9)
  | dictResetChains
  -- unit REC (R160, R161)
  | recLit (b : BitVec 8)
  | recMatch (len : BitVec 9) (dist : BitVec 16)
  -- unit HUF (R181 to R187)
  | hufSort (t : Table)
  | hufMinred
  | hufLimit (limit : CodeLimit)
  | hufAssignSizes (t : Table)
  | hufAssignCodes (t : Table)
  | hufBuild (t : Table)
  | hufLoadStatic
  -- unit ENC (R210 to R222)
  | encPutBits (v : BitVec 16) (n : BitVec 5)
  | encPad
  | encClPlan
  | encCost
  | encStored
  | encStaticHdr
  | encDynHdr
  | encPayload
  | encZlibHdr
  | encTrailer
  | encSyncMark
  -- unit DRV (R256 to R268)
  | drvFill
  | drvCatchup
  | drvParseStep
  | drvCloseBlock (fl : FlushMode)
  | drvDrain
  | drvAdler (c : BitVec 8)
  -- LZ records (R95): the literal byte; `length - 3` and `distance - 1`
  | lit (b : BitVec 8)
  | matchRec (l3 : BitVec 8) (d1 : BitVec 15)
  -- block headers (R102)
  | blockStored (bfinal : Bool)
  | blockStatic (bfinal : Bool)
  | blockDynamic (bfinal : Bool)
  -- response statuses (R94)
  | statusOkay
  | statusDone
  | statusBadParam
  | statusPutBufFailed
  -- literal/length symbols (R98), with their extra bits
  | symLiteral (byte : BitVec 8)
  | symEob
  | symLen257
  | symLen258
  | symLen259
  | symLen260
  | symLen261
  | symLen262
  | symLen263
  | symLen264
  | symLen265 (extra : BitVec 1)
  | symLen266 (extra : BitVec 1)
  | symLen267 (extra : BitVec 1)
  | symLen268 (extra : BitVec 1)
  | symLen269 (extra : BitVec 2)
  | symLen270 (extra : BitVec 2)
  | symLen271 (extra : BitVec 2)
  | symLen272 (extra : BitVec 2)
  | symLen273 (extra : BitVec 3)
  | symLen274 (extra : BitVec 3)
  | symLen275 (extra : BitVec 3)
  | symLen276 (extra : BitVec 3)
  | symLen277 (extra : BitVec 4)
  | symLen278 (extra : BitVec 4)
  | symLen279 (extra : BitVec 4)
  | symLen280 (extra : BitVec 4)
  | symLen281 (extra : BitVec 5)
  | symLen282 (extra : BitVec 5)
  | symLen283 (extra : BitVec 5)
  | symLen284 (extra : BitVec 5)
  | symLen285
  -- distance symbols (R99), with their extra bits
  | symDist0
  | symDist1
  | symDist2
  | symDist3
  | symDist4 (extra : BitVec 1)
  | symDist5 (extra : BitVec 1)
  | symDist6 (extra : BitVec 2)
  | symDist7 (extra : BitVec 2)
  | symDist8 (extra : BitVec 3)
  | symDist9 (extra : BitVec 3)
  | symDist10 (extra : BitVec 4)
  | symDist11 (extra : BitVec 4)
  | symDist12 (extra : BitVec 5)
  | symDist13 (extra : BitVec 5)
  | symDist14 (extra : BitVec 6)
  | symDist15 (extra : BitVec 6)
  | symDist16 (extra : BitVec 7)
  | symDist17 (extra : BitVec 7)
  | symDist18 (extra : BitVec 8)
  | symDist19 (extra : BitVec 8)
  | symDist20 (extra : BitVec 9)
  | symDist21 (extra : BitVec 9)
  | symDist22 (extra : BitVec 10)
  | symDist23 (extra : BitVec 10)
  | symDist24 (extra : BitVec 11)
  | symDist25 (extra : BitVec 11)
  | symDist26 (extra : BitVec 12)
  | symDist27 (extra : BitVec 12)
  | symDist28 (extra : BitVec 13)
  | symDist29 (extra : BitVec 13)
  -- code-length symbols (R101), with their extra bits
  | symCl0
  | symCl1
  | symCl2
  | symCl3
  | symCl4
  | symCl5
  | symCl6
  | symCl7
  | symCl8
  | symCl9
  | symCl10
  | symCl11
  | symCl12
  | symCl13
  | symCl14
  | symCl15
  | symCl16 (extra : BitVec 2)
  | symCl17 (extra : BitVec 3)
  | symCl18 (extra : BitVec 7)
deriving DecidableEq, Repr

end Sys2Proof
end

