-- ==== Sys2Proof/WellFormed.lean ====
section
/-! DEFINITION. When an instruction's operands lie in the ranges its rule gives them. -/

namespace Sys2Proof

/-- The flush values of R93; 1, 5, 6 and 7 are reserved. -/
def flushRecognised (f : BitVec 3) : Bool := f == 0 || f == 2 || f == 3 || f == 4

/-- An instruction is well-formed when its bits stand for an instruction: the generic COMPRESS row stands for the
reserved flush values, since the other four have rows of their own (R93); REC.MATCH has a length of 3 to 258 and a distance
of 1 to 32768, as its record does (R95, R161); symbol 284 never carries the extra value 31, since length 258 is symbol 285
(R98). -/
def Instr.wf : Instr → Bool
  | .compress flush _ _ _ _ => !flushRecognised flush
  | .recMatch len dist =>
    decide (3 ≤ len.toNat) && decide (len.toNat ≤ 258) && decide (1 ≤ dist.toNat) && decide (dist.toNat ≤ 32768)
  | .symLen284 extra => extra != 31#5
  | _ => true

end Sys2Proof
end

