-- ==== Sys2Proof/Decode.lean ====
section
/-! DEFINITION. The decoder, total on any words of any code space, the encoder after it, and the reading of a row of
spec/opcode_table.json given as a number. -/

namespace Sys2Proof

/-- `v[hi:lo]` with `hi = lo + n - 1` (R7), as a number. -/
def bitField (v lo n : Nat) : Nat := v / 2 ^ lo % 2 ^ n

/-- Word number `i` of a request as a number; a word that is not there reads as zero. -/
def wordAt (ws : List (BitVec 32)) (i : Nat) : Nat := (ws.getD i 0).toNat

/-- The host command of a command word and its operand words (R90, R93). Reserved bits are ignored (R110). -/
def decodeCommand (ws : List (BitVec 32)) : Except DecodeError Instr :=
  let w := wordAt ws 0
  let outPresent := decide (bitField w 4 1 = 1)
  let inPresent := decide (bitField w 3 1 = 1)
  let inLen := BitVec.ofNat 32 (wordAt ws 1)
  let outCap := BitVec.ofNat 32 (wordAt ws 2)
  match bitField w 28 4 with
  | 0 => .ok (.init (BitVec.ofNat 20 w) (decide (bitField w 20 1 = 1)))
  | 1 =>
    match bitField w 0 3 with
    | 0 => .ok (.compressNone inPresent outPresent inLen outCap)
    | 2 => .ok (.compressSync inPresent outPresent inLen outCap)
    | 3 => .ok (.compressFull inPresent outPresent inLen outCap)
    | 4 => .ok (.compressFinish inPresent outPresent inLen outCap)
    | _ => .ok (.compress (BitVec.ofNat 3 w) inPresent outPresent inLen outCap)
  | _ => .error .reservedOpcode

/-- The table operand `t` of a HUF micro-operation, two bits: 0, 1, 2 (R24). -/
def decodeTable (v : Nat) : Except DecodeError Table :=
  match v % 2 ^ 2 with
  | 0 => .ok .litLen
  | 1 => .ok .dist
  | 2 => .ok .codeLen
  | _ => .error .unassigned

/-- The operand of HUF.LIMIT, one bit, 0 for 15 and 1 for 7 (the model's numbering, log entry 6). -/
def decodeLimit (v : Nat) : CodeLimit := if v % 2 = 0 then .fifteen else .seven

/-- The flush mode operand of DRV.CLOSE_BLOCK, three bits, in the numbers of R93. -/
def decodeFlush (v : Nat) : Except DecodeError FlushMode :=
  match v % 2 ^ 3 with
  | 0 => .ok .none
  | 2 => .ok .sync
  | 3 => .ok .full
  | 4 => .ok .finish
  | _ => .error .unassigned

/-- A micro-operation: its 8-bit number in the first word (R114), one word for each operand after it. REC.MATCH's two
operand words hold `length - 3` in 8 bits and `distance - 1` in 15, as its record does (R95). The operand words are the
model's own layout (log entry 6); an operand is the low bits of its word (R7, log entry 21). -/
def decodeMicro (ws : List (BitVec 32)) : Except DecodeError Instr :=
  let a := wordAt ws
  match a 0 % 2 ^ 8 with
  | 0x00 => .ok (.dictWrite (BitVec.ofNat 32 (a 1)) (BitVec.ofNat 8 (a 2)))
  | 0x01 => .ok (.dictInsert (BitVec.ofNat 32 (a 1)))
  | 0x02 => .ok (.dictFind (BitVec.ofNat 32 (a 1)) (BitVec.ofNat 16 (a 2)) (BitVec.ofNat 9 (a 3)) (BitVec.ofNat 16 (a 4))
      (BitVec.ofNat 9 (a 5)))
  | 0x03 => .ok (.dictRle (BitVec.ofNat 32 (a 1)) (BitVec.ofNat 9 (a 2)))
  | 0x04 => .ok .dictResetChains
  | 0x10 => .ok (.recLit (BitVec.ofNat 8 (a 1)))
  | 0x11 => .ok (.recMatch (BitVec.ofNat 9 (bitField (a 1) 0 8 + 3)) (BitVec.ofNat 16 (bitField (a 2) 0 15 + 1)))
  | 0x20 => do return .hufSort (← decodeTable (a 1))
  | 0x21 => .ok .hufMinred
  | 0x22 => .ok (.hufLimit (decodeLimit (a 1)))
  | 0x23 => do return .hufAssignSizes (← decodeTable (a 1))
  | 0x24 => do return .hufAssignCodes (← decodeTable (a 1))
  | 0x25 => do return .hufBuild (← decodeTable (a 1))
  | 0x26 => .ok .hufLoadStatic
  | 0x30 => .ok (.encPutBits (BitVec.ofNat 16 (a 1)) (BitVec.ofNat 5 (a 2)))
  | 0x31 => .ok .encPad
  | 0x32 => .ok .encClPlan
  | 0x33 => .ok .encCost
  | 0x34 => .ok .encStored
  | 0x35 => .ok .encStaticHdr
  | 0x36 => .ok .encDynHdr
  | 0x37 => .ok .encPayload
  | 0x38 => .ok .encZlibHdr
  | 0x39 => .ok .encTrailer
  | 0x3A => .ok .encSyncMark
  | 0x40 => .ok .drvFill
  | 0x41 => .ok .drvCatchup
  | 0x42 => .ok .drvParseStep
  | 0x43 => do return .drvCloseBlock (← decodeFlush (a 1))
  | 0x44 => .ok .drvDrain
  | 0x45 => .ok (.drvAdler (BitVec.ofNat 8 (a 1)))
  | _ => .error .unassigned

/-- An LZ record (R95, R96): the flag bit in bit 0 of the word, the record's bytes in the three bytes above the
lowest (the place of the bytes is the model's own layout, log entry 6). A MATCH record with byte 2 above 127 "cannot be
produced" (R110). -/
def decodeRecord (ws : List (BitVec 32)) : Except DecodeError Instr :=
  let w := wordAt ws 0
  if w % 2 = 0 then .ok (.lit (BitVec.ofNat 8 (bitField w 8 8)))
  else if bitField w 31 1 = 0 then .ok (.matchRec (BitVec.ofNat 8 (bitField w 8 8)) (BitVec.ofNat 15 (bitField w 16 15)))
  else .error .unassigned

/-- A block header (R102): `BFINAL` in bit 0, `BTYPE` in bits 2:1. -/
def decodeHeader (ws : List (BitVec 32)) : Except DecodeError Instr :=
  let w := wordAt ws 0
  let bfinal := decide (w % 2 = 1)
  match bitField w 1 2 with
  | 0 => .ok (.blockStored bfinal)
  | 1 => .ok (.blockStatic bfinal)
  | 2 => .ok (.blockDynamic bfinal)
  | _ => .error .unassigned

/-- The status of the 2-bit field (R94). -/
def decodeStatus (ws : List (BitVec 32)) : Except DecodeError Instr :=
  match bitField (wordAt ws 0) 0 2 with
  | 0 => .ok .statusOkay
  | 1 => .ok .statusDone
  | 2 => .ok .statusBadParam
  | _ => .ok .statusPutBufFailed

/-- A literal/length symbol (R98): the symbol in bits 8:0, its extra value above (the model's own layout, log
entry 6). -/
def decodeLitLenSym (ws : List (BitVec 32)) : Except DecodeError Instr :=
  let w := wordAt ws 0
  let x := w / 2 ^ 9
  if w % 2 ^ 9 < 256 then .ok (.symLiteral (BitVec.ofNat 8 w))
  else match w % 2 ^ 9 with
  | 256 => .ok .symEob
  | 257 => .ok .symLen257
  | 258 => .ok .symLen258
  | 259 => .ok .symLen259
  | 260 => .ok .symLen260
  | 261 => .ok .symLen261
  | 262 => .ok .symLen262
  | 263 => .ok .symLen263
  | 264 => .ok .symLen264
  | 265 => .ok (.symLen265 (BitVec.ofNat 1 x))
  | 266 => .ok (.symLen266 (BitVec.ofNat 1 x))
  | 267 => .ok (.symLen267 (BitVec.ofNat 1 x))
  | 268 => .ok (.symLen268 (BitVec.ofNat 1 x))
  | 269 => .ok (.symLen269 (BitVec.ofNat 2 x))
  | 270 => .ok (.symLen270 (BitVec.ofNat 2 x))
  | 271 => .ok (.symLen271 (BitVec.ofNat 2 x))
  | 272 => .ok (.symLen272 (BitVec.ofNat 2 x))
  | 273 => .ok (.symLen273 (BitVec.ofNat 3 x))
  | 274 => .ok (.symLen274 (BitVec.ofNat 3 x))
  | 275 => .ok (.symLen275 (BitVec.ofNat 3 x))
  | 276 => .ok (.symLen276 (BitVec.ofNat 3 x))
  | 277 => .ok (.symLen277 (BitVec.ofNat 4 x))
  | 278 => .ok (.symLen278 (BitVec.ofNat 4 x))
  | 279 => .ok (.symLen279 (BitVec.ofNat 4 x))
  | 280 => .ok (.symLen280 (BitVec.ofNat 4 x))
  | 281 => .ok (.symLen281 (BitVec.ofNat 5 x))
  | 282 => .ok (.symLen282 (BitVec.ofNat 5 x))
  | 283 => .ok (.symLen283 (BitVec.ofNat 5 x))
  | 284 => if x % 2 ^ 5 = 31 then .error .unassigned else .ok (.symLen284 (BitVec.ofNat 5 x))
  | 285 => .ok .symLen285
  | _ => .error .unassigned

/-- A distance symbol (R99): the symbol in bits 4:0, its extra value above (log entry 6). -/
def decodeDistSym (ws : List (BitVec 32)) : Except DecodeError Instr :=
  let w := wordAt ws 0
  let x := w / 2 ^ 5
  match w % 2 ^ 5 with
  | 0 => .ok .symDist0
  | 1 => .ok .symDist1
  | 2 => .ok .symDist2
  | 3 => .ok .symDist3
  | 4 => .ok (.symDist4 (BitVec.ofNat 1 x))
  | 5 => .ok (.symDist5 (BitVec.ofNat 1 x))
  | 6 => .ok (.symDist6 (BitVec.ofNat 2 x))
  | 7 => .ok (.symDist7 (BitVec.ofNat 2 x))
  | 8 => .ok (.symDist8 (BitVec.ofNat 3 x))
  | 9 => .ok (.symDist9 (BitVec.ofNat 3 x))
  | 10 => .ok (.symDist10 (BitVec.ofNat 4 x))
  | 11 => .ok (.symDist11 (BitVec.ofNat 4 x))
  | 12 => .ok (.symDist12 (BitVec.ofNat 5 x))
  | 13 => .ok (.symDist13 (BitVec.ofNat 5 x))
  | 14 => .ok (.symDist14 (BitVec.ofNat 6 x))
  | 15 => .ok (.symDist15 (BitVec.ofNat 6 x))
  | 16 => .ok (.symDist16 (BitVec.ofNat 7 x))
  | 17 => .ok (.symDist17 (BitVec.ofNat 7 x))
  | 18 => .ok (.symDist18 (BitVec.ofNat 8 x))
  | 19 => .ok (.symDist19 (BitVec.ofNat 8 x))
  | 20 => .ok (.symDist20 (BitVec.ofNat 9 x))
  | 21 => .ok (.symDist21 (BitVec.ofNat 9 x))
  | 22 => .ok (.symDist22 (BitVec.ofNat 10 x))
  | 23 => .ok (.symDist23 (BitVec.ofNat 10 x))
  | 24 => .ok (.symDist24 (BitVec.ofNat 11 x))
  | 25 => .ok (.symDist25 (BitVec.ofNat 11 x))
  | 26 => .ok (.symDist26 (BitVec.ofNat 12 x))
  | 27 => .ok (.symDist27 (BitVec.ofNat 12 x))
  | 28 => .ok (.symDist28 (BitVec.ofNat 13 x))
  | 29 => .ok (.symDist29 (BitVec.ofNat 13 x))
  | _ => .error .unassigned

/-- A code-length symbol (R101): the symbol in bits 4:0, its extra value above (log entry 6). -/
def decodeCodeLenSym (ws : List (BitVec 32)) : Except DecodeError Instr :=
  let w := wordAt ws 0
  let x := w / 2 ^ 5
  match w % 2 ^ 5 with
  | 0 => .ok .symCl0
  | 1 => .ok .symCl1
  | 2 => .ok .symCl2
  | 3 => .ok .symCl3
  | 4 => .ok .symCl4
  | 5 => .ok .symCl5
  | 6 => .ok .symCl6
  | 7 => .ok .symCl7
  | 8 => .ok .symCl8
  | 9 => .ok .symCl9
  | 10 => .ok .symCl10
  | 11 => .ok .symCl11
  | 12 => .ok .symCl12
  | 13 => .ok .symCl13
  | 14 => .ok .symCl14
  | 15 => .ok .symCl15
  | 16 => .ok (.symCl16 (BitVec.ofNat 2 x))
  | 17 => .ok (.symCl17 (BitVec.ofNat 3 x))
  | 18 => .ok (.symCl18 (BitVec.ofNat 7 x))
  | _ => .error .unassigned

/-- The decoder: the instruction of the words of a code space, or why there is none. -/
def decode (sp : Space) (ws : List (BitVec 32)) : Except DecodeError Instr :=
  match sp with
  | .command => decodeCommand ws
  | .micro => decodeMicro ws
  | .lzRecord => decodeRecord ws
  | .blockHeader => decodeHeader ws
  | .status => decodeStatus ws
  | .litLenSym => decodeLitLenSym ws
  | .distSym => decodeDistSym ws
  | .codeLenSym => decodeCodeLenSym ws

/-- A number as a 32-bit word. -/
def word (v : Nat) : BitVec 32 := BitVec.ofNat 32 v

/-- A COMPRESS command: opcode 1, the two present bits, the flush field, the two operand words (R90). -/
def encodeCompress (flush : Nat) (inPresent outPresent : Bool) (inLen outCap : BitVec 32) : List (BitVec 32) :=
  [word (2 ^ 28 + outPresent.toNat * 2 ^ 4 + inPresent.toNat * 2 ^ 3 + flush), inLen, outCap]

/-- The number of a table operand (R24). -/
def encodeTable : Table → Nat
  | .litLen => 0
  | .dist => 1
  | .codeLen => 2

/-- The number of a flush mode (R93). -/
def encodeFlush : FlushMode → Nat
  | .none => 0
  | .sync => 2
  | .full => 3
  | .finish => 4

/-- The encoder: the words of an instruction in its code space, reserved bits 0. -/
def encode : Instr → Space × List (BitVec 32)
  | .init flags sink => (.command, [word (sink.toNat * 2 ^ 20 + flags.toNat)])
  | .compress flush ip op il oc => (.command, encodeCompress flush.toNat ip op il oc)
  | .compressNone ip op il oc => (.command, encodeCompress 0 ip op il oc)
  | .compressSync ip op il oc => (.command, encodeCompress 2 ip op il oc)
  | .compressFull ip op il oc => (.command, encodeCompress 3 ip op il oc)
  | .compressFinish ip op il oc => (.command, encodeCompress 4 ip op il oc)
  | .dictWrite q c => (.micro, [word 0x00, q, word c.toNat])
  | .dictInsert q => (.micro, [word 0x01, q])
  | .dictFind p md ml pd pl => (.micro, [word 0x02, p, word md.toNat, word ml.toNat, word pd.toNat, word pl.toNat])
  | .dictRle p ml => (.micro, [word 0x03, p, word ml.toNat])
  | .dictResetChains => (.micro, [word 0x04])
  | .recLit b => (.micro, [word 0x10, word b.toNat])
  | .recMatch len dist => (.micro, [word 0x11, word (len.toNat - 3), word (dist.toNat - 1)])
  | .hufSort t => (.micro, [word 0x20, word (encodeTable t)])
  | .hufMinred => (.micro, [word 0x21])
  | .hufLimit .fifteen => (.micro, [word 0x22, word 0])
  | .hufLimit .seven => (.micro, [word 0x22, word 1])
  | .hufAssignSizes t => (.micro, [word 0x23, word (encodeTable t)])
  | .hufAssignCodes t => (.micro, [word 0x24, word (encodeTable t)])
  | .hufBuild t => (.micro, [word 0x25, word (encodeTable t)])
  | .hufLoadStatic => (.micro, [word 0x26])
  | .encPutBits v n => (.micro, [word 0x30, word v.toNat, word n.toNat])
  | .encPad => (.micro, [word 0x31])
  | .encClPlan => (.micro, [word 0x32])
  | .encCost => (.micro, [word 0x33])
  | .encStored => (.micro, [word 0x34])
  | .encStaticHdr => (.micro, [word 0x35])
  | .encDynHdr => (.micro, [word 0x36])
  | .encPayload => (.micro, [word 0x37])
  | .encZlibHdr => (.micro, [word 0x38])
  | .encTrailer => (.micro, [word 0x39])
  | .encSyncMark => (.micro, [word 0x3A])
  | .drvFill => (.micro, [word 0x40])
  | .drvCatchup => (.micro, [word 0x41])
  | .drvParseStep => (.micro, [word 0x42])
  | .drvCloseBlock fl => (.micro, [word 0x43, word (encodeFlush fl)])
  | .drvDrain => (.micro, [word 0x44])
  | .drvAdler c => (.micro, [word 0x45, word c.toNat])
  | .lit b => (.lzRecord, [word (b.toNat * 2 ^ 8)])
  | .matchRec l3 d1 => (.lzRecord, [word (d1.toNat * 2 ^ 16 + l3.toNat * 2 ^ 8 + 1)])
  | .blockStored bfinal => (.blockHeader, [word (0 + bfinal.toNat)])
  | .blockStatic bfinal => (.blockHeader, [word (2 + bfinal.toNat)])
  | .blockDynamic bfinal => (.blockHeader, [word (4 + bfinal.toNat)])
  | .statusOkay => (.status, [word 0])
  | .statusDone => (.status, [word 1])
  | .statusBadParam => (.status, [word 2])
  | .statusPutBufFailed => (.status, [word 3])
  | .symLiteral byte => (.litLenSym, [word byte.toNat])
  | .symEob => (.litLenSym, [word 256])
  | .symLen257 => (.litLenSym, [word 257])
  | .symLen258 => (.litLenSym, [word 258])
  | .symLen259 => (.litLenSym, [word 259])
  | .symLen260 => (.litLenSym, [word 260])
  | .symLen261 => (.litLenSym, [word 261])
  | .symLen262 => (.litLenSym, [word 262])
  | .symLen263 => (.litLenSym, [word 263])
  | .symLen264 => (.litLenSym, [word 264])
  | .symLen265 x => (.litLenSym, [word (x.toNat * 2 ^ 9 + 265)])
  | .symLen266 x => (.litLenSym, [word (x.toNat * 2 ^ 9 + 266)])
  | .symLen267 x => (.litLenSym, [word (x.toNat * 2 ^ 9 + 267)])
  | .symLen268 x => (.litLenSym, [word (x.toNat * 2 ^ 9 + 268)])
  | .symLen269 x => (.litLenSym, [word (x.toNat * 2 ^ 9 + 269)])
  | .symLen270 x => (.litLenSym, [word (x.toNat * 2 ^ 9 + 270)])
  | .symLen271 x => (.litLenSym, [word (x.toNat * 2 ^ 9 + 271)])
  | .symLen272 x => (.litLenSym, [word (x.toNat * 2 ^ 9 + 272)])
  | .symLen273 x => (.litLenSym, [word (x.toNat * 2 ^ 9 + 273)])
  | .symLen274 x => (.litLenSym, [word (x.toNat * 2 ^ 9 + 274)])
  | .symLen275 x => (.litLenSym, [word (x.toNat * 2 ^ 9 + 275)])
  | .symLen276 x => (.litLenSym, [word (x.toNat * 2 ^ 9 + 276)])
  | .symLen277 x => (.litLenSym, [word (x.toNat * 2 ^ 9 + 277)])
  | .symLen278 x => (.litLenSym, [word (x.toNat * 2 ^ 9 + 278)])
  | .symLen279 x => (.litLenSym, [word (x.toNat * 2 ^ 9 + 279)])
  | .symLen280 x => (.litLenSym, [word (x.toNat * 2 ^ 9 + 280)])
  | .symLen281 x => (.litLenSym, [word (x.toNat * 2 ^ 9 + 281)])
  | .symLen282 x => (.litLenSym, [word (x.toNat * 2 ^ 9 + 282)])
  | .symLen283 x => (.litLenSym, [word (x.toNat * 2 ^ 9 + 283)])
  | .symLen284 x => (.litLenSym, [word (x.toNat * 2 ^ 9 + 284)])
  | .symLen285 => (.litLenSym, [word 285])
  | .symDist0 => (.distSym, [word 0])
  | .symDist1 => (.distSym, [word 1])
  | .symDist2 => (.distSym, [word 2])
  | .symDist3 => (.distSym, [word 3])
  | .symDist4 x => (.distSym, [word (x.toNat * 2 ^ 5 + 4)])
  | .symDist5 x => (.distSym, [word (x.toNat * 2 ^ 5 + 5)])
  | .symDist6 x => (.distSym, [word (x.toNat * 2 ^ 5 + 6)])
  | .symDist7 x => (.distSym, [word (x.toNat * 2 ^ 5 + 7)])
  | .symDist8 x => (.distSym, [word (x.toNat * 2 ^ 5 + 8)])
  | .symDist9 x => (.distSym, [word (x.toNat * 2 ^ 5 + 9)])
  | .symDist10 x => (.distSym, [word (x.toNat * 2 ^ 5 + 10)])
  | .symDist11 x => (.distSym, [word (x.toNat * 2 ^ 5 + 11)])
  | .symDist12 x => (.distSym, [word (x.toNat * 2 ^ 5 + 12)])
  | .symDist13 x => (.distSym, [word (x.toNat * 2 ^ 5 + 13)])
  | .symDist14 x => (.distSym, [word (x.toNat * 2 ^ 5 + 14)])
  | .symDist15 x => (.distSym, [word (x.toNat * 2 ^ 5 + 15)])
  | .symDist16 x => (.distSym, [word (x.toNat * 2 ^ 5 + 16)])
  | .symDist17 x => (.distSym, [word (x.toNat * 2 ^ 5 + 17)])
  | .symDist18 x => (.distSym, [word (x.toNat * 2 ^ 5 + 18)])
  | .symDist19 x => (.distSym, [word (x.toNat * 2 ^ 5 + 19)])
  | .symDist20 x => (.distSym, [word (x.toNat * 2 ^ 5 + 20)])
  | .symDist21 x => (.distSym, [word (x.toNat * 2 ^ 5 + 21)])
  | .symDist22 x => (.distSym, [word (x.toNat * 2 ^ 5 + 22)])
  | .symDist23 x => (.distSym, [word (x.toNat * 2 ^ 5 + 23)])
  | .symDist24 x => (.distSym, [word (x.toNat * 2 ^ 5 + 24)])
  | .symDist25 x => (.distSym, [word (x.toNat * 2 ^ 5 + 25)])
  | .symDist26 x => (.distSym, [word (x.toNat * 2 ^ 5 + 26)])
  | .symDist27 x => (.distSym, [word (x.toNat * 2 ^ 5 + 27)])
  | .symDist28 x => (.distSym, [word (x.toNat * 2 ^ 5 + 28)])
  | .symDist29 x => (.distSym, [word (x.toNat * 2 ^ 5 + 29)])
  | .symCl0 => (.codeLenSym, [word 0])
  | .symCl1 => (.codeLenSym, [word 1])
  | .symCl2 => (.codeLenSym, [word 2])
  | .symCl3 => (.codeLenSym, [word 3])
  | .symCl4 => (.codeLenSym, [word 4])
  | .symCl5 => (.codeLenSym, [word 5])
  | .symCl6 => (.codeLenSym, [word 6])
  | .symCl7 => (.codeLenSym, [word 7])
  | .symCl8 => (.codeLenSym, [word 8])
  | .symCl9 => (.codeLenSym, [word 9])
  | .symCl10 => (.codeLenSym, [word 10])
  | .symCl11 => (.codeLenSym, [word 11])
  | .symCl12 => (.codeLenSym, [word 12])
  | .symCl13 => (.codeLenSym, [word 13])
  | .symCl14 => (.codeLenSym, [word 14])
  | .symCl15 => (.codeLenSym, [word 15])
  | .symCl16 x => (.codeLenSym, [word (x.toNat * 2 ^ 5 + 16)])
  | .symCl17 x => (.codeLenSym, [word (x.toNat * 2 ^ 5 + 17)])
  | .symCl18 x => (.codeLenSym, [word (x.toNat * 2 ^ 5 + 18)])

/-- The number `v` cut into six 32-bit words, the first the least significant. -/
def tableWords (v : Nat) : List (BitVec 32) :=
  [word v, word (v / 2 ^ 32), word (v / 2 ^ 64), word (v / 2 ^ 96), word (v / 2 ^ 128), word (v / 2 ^ 160)]

/-- Does an 8-bit number stand for a micro-operation (R114)? -/
def isMicroCode (w : Nat) : Bool :=
  decide (w ≤ 0x04) || decide (0x10 ≤ w ∧ w ≤ 0x11) || decide (0x20 ≤ w ∧ w ≤ 0x26) ||
    decide (0x30 ≤ w ∧ w ≤ 0x3A) || decide (0x40 ≤ w ∧ w ≤ 0x45)

/-- The code space in which a row of the opcode table is read from its width and its bits. The rows of eight spaces
share numbers, so a width of 8 bits is a micro-operation where R114 has one and a distance symbol otherwise; the
narrower widths are the ones the table prints (log entry 4). -/
def tableSpace (nbits w : Nat) : Space :=
  if nbits = 1 then .lzRecord
  else if nbits = 2 then .status
  else if nbits = 3 then .blockHeader
  else if nbits ≤ 8 then (if nbits ≠ 5 ∧ isMicroCode w then .micro else .distSym)
  else if nbits ≤ 16 then .litLenSym
  else .command

/-- The words of a row read as the number `w`: in the micro-operation space the first word is the 8-bit code and the
operand words follow it. -/
def tableRow (nbits w : Nat) : Space × List (BitVec 32) :=
  match tableSpace nbits w with
  | .micro => (.micro, word (w % 2 ^ 8) :: tableWords (w / 2 ^ 8))
  | sp => (sp, tableWords w)

/-- The instruction the decoder reads from a row of spec/opcode_table.json whose bits are `w`. -/
def decodeTableWord (nbits w : Nat) : Option Instr :=
  match decode (tableRow nbits w).1 (tableRow nbits w).2 with
  | .ok i => some i
  | .error _ => none

end Sys2Proof
end

