-- ==== Sys2Proof/Machine/State.lean ====
section
/-! DEFINITION. The state of one instance (10_state.md), the reasons a step can stop, and the state after power-on. -/

namespace Sys2Proof.Machine

/-- A memory or register file: the (index, element) pairs it lists, indices strictly rising, no element zero; an
unlisted index reads as zero (log entry 2). The byte memories are lists of `Host.Cell`. -/
abbrev Mem (w : Nat) := List (Nat × BitVec w)

/-- Why the instance stops for good (R303: "treated as unrecoverable/fatal since they indicate a broken invariant"). -/
inductive Fault where
  /-- A byte was to be written to `stage` at or beyond `OUT_STAGE_SIZE`. Raised by ENC.PUT_BITS (R210, R303, U16).
  The spec's own fault; safe. -/
  | stageOverflow
  /-- An LZ record was to be read beyond the end of `lz_code` or `lz_flags`. Raised by ENC.PAYLOAD; no state the driver
  reaches does (R97, R162). Safe. -/
  | lzCodeRange
  /-- Staged bytes were to be read beyond the end of `stage`. Raised by DRV.DRAIN; no state the driver reaches does
  (R33 item 10). Safe. -/
  | stageRange
deriving DecidableEq, Repr

/-- Why the model covers no behaviour (93_implementation_defined.md, treatment `refuse`). -/
inductive Refusal where
  /-- The instruction has no meaning in this model yet. Raised by `exec`'s arms only. Safe. -/
  | notModelled (mnemonic : String)
  /-- The bits of the request stand for no instruction. Raised by the step (R110, R114). Safe. -/
  | undecodable (e : DecodeError)
  /-- An operand for which the spec names the treatment `refuse` or that it never sends: REC.MATCH with length or distance
  out of range (R161, U17), SYM.LEN284 with the extra value 31 (R98). Safe. -/
  | operandRange
  /-- REC.LIT or REC.MATCH with `lz_code_len` above 65528, or no flag bit left (R160 to R162, U17). Safe. -/
  | recorderFull
  /-- DICT.INSERT at a position whose three bytes are not all written, or a search of DICT.FIND beyond the valid window
  (R142, R143, U18). Safe. -/
  | windowRange
  /-- DICT.RLE with `dict_size = 0` (R144, U18). Safe. -/
  | noHistory
  /-- DRV.PARSE_STEP with an empty lookahead ("On entry `lookahead_size >= 1`", 44_driver.md section 4). Safe. -/
  | emptyLookahead
  /-- DRV.CLOSE_BLOCK with staged bytes pending ("Precondition: `flush_remaining = 0`", R265). Safe. -/
  | stagePending
  /-- HUF.LIMIT with a natural code length above 32, or with lengths that are not a code's: below the Kraft equality, for
  which its loop has no end, or so far above it that the deepest bucket runs empty (R183, U19). Safe. -/
  | limiterInput
  /-- HUF.ASSIGN_SIZES with more lengths to deal than symbols to take them (R184: "the sum of `NUM[1..limit]` is `n`"), or
  with a symbol the table has no entry for (R24, U19). Safe. -/
  | sizesInput
deriving DecidableEq, Repr

/-- A stop on its way: once set, the instance answers nothing more (R303 `stuck`). -/
inductive Stop where
  | fault (r : Fault)
  | refusal (r : Refusal)
deriving DecidableEq, Repr

/-- The memories of unit DICT: `dict`, `head`, `next` (R21, R22). -/
structure Window where
  dict : Mem 8
  head : Mem 16
  next : Mem 16
deriving DecidableEq, Repr

/-- Unit REC: `lz_code`, `lz_flags` and their counters (R23, R26). -/
structure Recorder where
  lzCode : Mem 8
  lzFlags : Mem 8
  lzCodeLen : BitVec 17
  lzOpCount : BitVec 17
  totalLzBytes : BitVec 32
deriving DecidableEq, Repr

/-- One Huffman table: `huff_count[t]`, `huff_size[t]`, `huff_code[t]` (R24). -/
structure HuffTable where
  count : Mem 16
  size : Mem 8
  code : Mem 16
deriving DecidableEq, Repr

/-- The Huffman table set (R24). -/
structure Huffman where
  litLen : HuffTable
  dist : HuffTable
  codeLen : HuffTable
deriving DecidableEq, Repr

/-- Unit ENC: the bit accumulator and the staging buffer (R25, R26). -/
structure Encoder where
  bitBuffer : BitVec 32
  bitsIn : BitVec 6
  stagePos : BitVec 17
  stage : Mem 8
deriving DecidableEq, Repr

/-- The datapath registers of unit DRV (R26). -/
structure Driver where
  lookaheadPos : BitVec 32
  lookaheadSize : BitVec 9
  dictSize : BitVec 16
  insPos : BitVec 32
  blockStartPos : BitVec 32
  savedDist : BitVec 16
  savedLen : BitVec 9
  savedLit : BitVec 8
  flushOfs : BitVec 17
  flushRemaining : BitVec 17
deriving DecidableEq, Repr

/-- The control and status registers (R27). -/
structure Control where
  flags : BitVec 20
  maxProbes : BitVec 12
  sinkMode : Bool
  inited : Bool
  prevStatus : Status
  finished : Bool
  wantsFinish : Bool
  blockIndex : BitVec 32
  adler32 : BitVec 32
deriving DecidableEq, Repr

/-- The per-call registers (R31). -/
structure CallRegs where
  inLen : BitVec 32
  inPresent : Bool
  outCap : BitVec 32
  outPresent : Bool
  flush : BitVec 3
  srcPos : BitVec 32
  outOfs : BitVec 32
deriving DecidableEq, Repr

/-- A (frequency, symbol) pair of the working array `SYM` (R180). -/
structure SymKey where
  key : BitVec 16
  sym : Nat
deriving DecidableEq, Repr

/-- An entry of `PACKED`: a code-length symbol and its extra value, 0 where it has none (R214). -/
structure PackEntry where
  c : Nat
  extra : Nat
deriving DecidableEq, Repr

/-- The working values of single micro-operations (R36): the model's own fields, kept so that a micro-operation that
reads them can run by itself (log entry 11). -/
structure Work where
  sym : List SymKey
  lengths : List Nat
  num : List Nat
  numLitCodes : Nat
  numDistCodes : Nat
  numBitLengths : Nat
  packed : List PackEntry
  costStored : Nat
  costStatic : Nat
  costDynamic : Nat
  findDist : BitVec 16
  findLen : BitVec 9
  rleLen : BitVec 9
deriving DecidableEq, Repr

/-- The response to a command (R91). -/
structure Response where
  status : Status
  inConsumed : BitVec 32
  outProduced : BitVec 32
deriving DecidableEq, Repr

/-- One request: the code space it is made in, its words (the first holds the table's pattern), the host's input and
output slices, and the answers the sink is to give during it (log entries 3, 5, 9, 12). -/
structure Request where
  space : Space
  words : List (BitVec 32)
  input : Mem 8
  output : Mem 8
  answers : List Bool
deriving DecidableEq, Repr

/-- The host's side: requests not yet taken, the slices `in` and `out` (R60), the last response (R91), and the sink
(R266): what it was handed, the answers listed for it, how often it was invoked. -/
structure HostSide where
  requests : List Request
  inSlice : Mem 8
  outSlice : Mem 8
  response : Option Response
  sinkOut : List (List (BitVec 8))
  sinkAnswers : List Bool
  sinkCalls : Nat
deriving DecidableEq, Repr

/-- All state of one instance (R20), with the working values, the host's side, the counter of free values drawn (log
entry 26) and the stop latch of the model. -/
structure State where
  win : Window
  lz : Recorder
  huf : Huffman
  enc : Encoder
  drv : Driver
  ctl : Control
  call : CallRegs
  work : Work
  host : HostSide
  draws : Nat
  halt : Option Stop
deriving DecidableEq, Repr

/-- A Huffman table with nothing in it. -/
def HuffTable.reset : HuffTable := { count := [], size := [], code := [] }

/-- The machine after power-on (R35, R330): `INITED = 0` is the spec's; every other value is the one R34 gives after
INIT, or zero. DESIGN CHOICE, unsafe: R330 leaves them unspecified (log entries 1, 2, 11, 26). -/
def State.reset : State where
  win := { dict := [], head := [], next := [] }
  lz := { lzCode := [], lzFlags := [], lzCodeLen := 0, lzOpCount := 0, totalLzBytes := 0 }
  huf := { litLen := HuffTable.reset, dist := HuffTable.reset, codeLen := HuffTable.reset }
  enc := { bitBuffer := 0, bitsIn := 0, stagePos := 0, stage := [] }
  drv := { lookaheadPos := 0, lookaheadSize := 0, dictSize := 0, insPos := 0, blockStartPos := 0, savedDist := 0,
           savedLen := 0, savedLit := 0, flushOfs := 0, flushRemaining := 0 }
  ctl := { flags := 0, maxProbes := 0, sinkMode := false, inited := false, prevStatus := .okay, finished := false,
           wantsFinish := false, blockIndex := 0, adler32 := 1 }
  call := { inLen := 0, inPresent := false, outCap := 0, outPresent := false, flush := 0, srcPos := 0, outOfs := 0 }
  work := { sym := [], lengths := [], num := [], numLitCodes := 257, numDistCodes := 1, numBitLengths := 4,
            packed := [], costStored := 0, costStatic := 0, costDynamic := 0, findDist := 0, findLen := 0, rleLen := 0 }
  host := { requests := [], inSlice := [], outSlice := [], response := none, sinkOut := [], sinkAnswers := [],
            sinkCalls := 0 }
  draws := 0
  halt := none

end Sys2Proof.Machine
end

