-- ==== Sys2Proof/Machine/Ops.lean ====
section
/-! DEFINITION. The shared operations over memory and registers: reading and writing a memory, replacing one unit of
the state, giving a response, raising a status (the block's exception, R300), suspending and resuming (its trap entry
and return, R306, R307), and stopping. -/

namespace Sys2Proof.Machine

/-- What an unlisted element of a memory reads as (log entry 2). -/
def unlisted (w : Nat) : BitVec w := 0

/-- `m[a]` (R8). -/
def Mem.read {w : Nat} : Mem w → Nat → BitVec w
  | [], _ => unlisted w
  | (b, v) :: m, a => if a = b then v else Mem.read m a

/-- `m[a] <- v` (R8), keeping the canonical form: rising indices, no element equal to what an unlisted one reads as. -/
def Mem.write {w : Nat} : Mem w → Nat → BitVec w → Mem w
  | [], a, v => if v = unlisted w then [] else [(a, v)]
  | (b, u) :: m, a, v =>
    if a < b then (if v = unlisted w then (b, u) :: m else (a, v) :: (b, u) :: m)
    else if a = b then (if v = unlisted w then m else (a, v) :: m)
    else (b, u) :: Mem.write m a v

/-- The canonical form: indices strictly rising, no element equal to what an unlisted one reads as. -/
abbrev Mem.wf {w : Nat} (m : Mem w) : Prop :=
  m.Pairwise (fun c d => c.1 < d.1) ∧ ∀ c ∈ m, c.2 ≠ unlisted w

/-- A memory of `n` elements written whole: element `i` is `f i`. -/
def Mem.tabulate {w : Nat} (n : Nat) (f : Nat → BitVec w) : Mem w :=
  (List.range n).filterMap fun i => if f i = unlisted w then none else some (i, f i)

/-- `MemRead(space, a, n)` (R8): `n` consecutive elements from index `a` on. -/
def Mem.readRun {w : Nat} (m : Mem w) (a : Nat) : Nat → List (BitVec w)
  | 0 => []
  | n + 1 => Mem.read m a :: Mem.readRun m (a + 1) n

/-- `MemWrite(space, a, n, v)` (R8): the elements `v` from index `a` on. -/
def Mem.writeRun {w : Nat} (m : Mem w) (a : Nat) : List (BitVec w) → Mem w
  | [] => m
  | v :: vs => Mem.writeRun (Mem.write m a v) (a + 1) vs

/-- The sum over the elements below index `n` of element times weight; unlisted elements add nothing. -/
def Mem.weigh {w : Nat} (m : Mem w) (n : Nat) (f : Nat → Nat) : Nat :=
  match m with
  | [] => 0
  | (a, v) :: m => (if a < n then v.toNat * f a else 0) + Mem.weigh m n f

/-- The state with the memories of DICT (R21, R22) replaced. -/
def State.setWin (s : State) (v : Window) : State := { s with win := v }

/-- The state with unit REC (R23) replaced. -/
def State.setLz (s : State) (v : Recorder) : State := { s with lz := v }

/-- The state with the Huffman tables (R24) replaced. -/
def State.setHuf (s : State) (v : Huffman) : State := { s with huf := v }

/-- The state with unit ENC (R25, R26) replaced. -/
def State.setEnc (s : State) (v : Encoder) : State := { s with enc := v }

/-- The state with the registers of DRV (R26) replaced. -/
def State.setDrv (s : State) (v : Driver) : State := { s with drv := v }

/-- The state with the control and status registers (R27) replaced. -/
def State.setCtl (s : State) (v : Control) : State := { s with ctl := v }

/-- The state with the per-call registers (R31) replaced. -/
def State.setCall (s : State) (v : CallRegs) : State := { s with call := v }

/-- The state with the working values (R36) replaced. -/
def State.setWork (s : State) (v : Work) : State := { s with work := v }

/-- The state with the host's side replaced. -/
def State.setHost (s : State) (v : HostSide) : State := { s with host := v }

/-- The state with the counter of free values replaced. -/
def State.setDraws (s : State) (v : Nat) : State := { s with draws := v }

/-- The state after one more free value was drawn (log entry 26). -/
def State.drawn (s : State) : State := s.setDraws (s.draws + 1)

/-- The state with the stop latch replaced. -/
def State.setHalt (s : State) (v : Option Stop) : State := { s with halt := v }

/-- Stop: the first stop stands, nothing after it is answered (R303 `stuck`). -/
def State.stop (s : State) (r : Stop) : State :=
  match s.halt with
  | none => s.setHalt (some r)
  | some _ => s

/-- Stop with a fault. -/
def State.faulted (s : State) (r : Fault) : State := s.stop (.fault r)

/-- Stop with a refusal. -/
def State.refuse (s : State) (r : Refusal) : State := s.stop (.refusal r)

/-- The outcome of an instruction whose operations have left the state `s`. -/
def settle (s : State) : Host.Outcome State Fault Refusal :=
  match s.halt with
  | none => .next s
  | some (.fault r) => .fault r
  | some (.refusal r) => .refused r

/-- The Huffman table `t` (R24). -/
def Huffman.get (h : Huffman) : Table → HuffTable
  | .litLen => h.litLen
  | .dist => h.dist
  | .codeLen => h.codeLen

/-- The Huffman table set with table `t` replaced. -/
def Huffman.set (h : Huffman) (t : Table) (v : HuffTable) : Huffman :=
  match t with
  | .litLen => { h with litLen := v }
  | .dist => { h with dist := v }
  | .codeLen => { h with codeLen := v }

/-- The state with the Huffman table `t` replaced. -/
def State.setTable (s : State) (t : Table) (v : HuffTable) : State := s.setHuf (s.huf.set t v)

/-- Give the response `(status, in_consumed, out_produced)` (R91). -/
def respond (st : Status) (inConsumed outProduced : BitVec 32) (s : State) : State :=
  s.setHost { s.host with response := some { status := st, inConsumed := inConsumed, outProduced := outProduced } }

/-- `PREV_STATUS <- st` (R27). -/
def setPrevStatus (st : Status) (s : State) : State := s.setCtl { s.ctl with prevStatus := st }

/-- Taking the block's exception: end the command with an error status (R8 `raise`, R300). BadParam changes nothing and
answers `(BadParam, 0, 0)` (R301); PutBufFailed records itself in `PREV_STATUS` and answers the input consumed
(R302). The two normal completions record themselves and answer both counts (R268). -/
def raise (st : Status) (s : State) : State :=
  match st with
  | .badParam => respond .badParam 0 0 s
  | .putBufFailed => respond .putBufFailed s.call.srcPos 0 (setPrevStatus .putBufFailed s)
  | st => respond st s.call.srcPos s.call.outOfs (setPrevStatus st s)

/-- Was PutBufFailed raised in this call? A call is accepted only with `PREV_STATUS = Okay` (R252), so the register
tells. -/
def raised (s : State) : Bool := s.ctl.prevStatus == .putBufFailed

/-- Copy `k` staged bytes from `stage[a]` on to the output slice and advance `out_ofs` (R266, R268). -/
def deliver (a k : Nat) (s : State) : State :=
  (s.setHost { s.host with
    outSlice := Mem.writeRun s.host.outSlice s.call.outOfs.toNat (Mem.readRun s.enc.stage a k) }).setCall
    { s.call with outOfs := s.call.outOfs + BitVec.ofNat 32 k }

/-- The room left in the output slice. -/
def outRoom (s : State) : Nat := s.call.outCap.toNat - s.call.outOfs.toNat

/-- `src_left` (R31). -/
def srcLeft (s : State) : Nat := s.call.inLen.toNat - s.call.srcPos.toNat

/-- Suspension, the trap entry of the block (R306): of `n` staged bytes `k` were delivered; the pair `flush_ofs`,
`flush_remaining` keeps the rest. -/
def suspend (k n : Nat) (s : State) : State :=
  s.setDrv { s.drv with flushOfs := BitVec.ofNat 17 k, flushRemaining := BitVec.ofNat 17 (n - k) }

/-- Resumption, the trap return of the block (R307, R268): copy what fits of the pending bytes to the output slice and
advance the pair. -/
def resume (s : State) : State :=
  let a := s.drv.flushOfs.toNat
  let k := min (outRoom s) s.drv.flushRemaining.toNat
  if k = 0 ∨ a + k ≤ Config.outStageSize then
    (deliver a k s).setDrv { s.drv with
      flushOfs := s.drv.flushOfs + BitVec.ofNat 17 k, flushRemaining := s.drv.flushRemaining - BitVec.ofNat 17 k }
  else s.faulted .stageRange

/-- The sink is invoked with `bytes` (R266): the answer the environment has listed, else a free one
(`Config.sinkAnswer`, log entry 9). -/
def sinkAccepts (s : State) : Bool :=
  match s.host.sinkAnswers with
  | a :: _ => a
  | [] => Config.sinkAnswer s.host.sinkCalls

/-- The host's side after the sink was invoked with `bytes`. -/
def sinkInvoked (bytes : List (BitVec 8)) (s : State) : State :=
  s.setHost { s.host with
    sinkOut := s.host.sinkOut ++ [bytes], sinkAnswers := s.host.sinkAnswers.tail, sinkCalls := s.host.sinkCalls + 1 }

end Sys2Proof.Machine
end

