-- ==== Sys2Proof/Machine/Operands.lean ====
section
/-! DEFINITION. Operand forms: window slots and bytes, the prefix hash, the symbol translations and their constant
tables (30_encoding.md section 3), the Huffman bit reversal, and the host's `flags_from_params`. -/

namespace Sys2Proof.Machine

/-- The slot of position `q`: `q & WINDOW_MASK`, its low 15 bits (R61). -/
def slotOf (q : BitVec 32) : Nat := (q.setWidth 15).toNat

/-- `win(q) = dict[q & WINDOW_MASK]` (R8, R61). -/
def winByte (d : Mem 8) (q : BitVec 32) : BitVec 8 := Mem.read d (slotOf q)

/-- `hash3(b0, b1, b2) = ((b0 << 10) ^ (b1 << 5) ^ b2) & 0x7FFF` (R140). -/
def hash3 (b0 b1 b2 : BitVec 8) : BitVec 15 :=
  ((b0.setWidth 32 <<< 10) ^^^ (b1.setWidth 32 <<< 5) ^^^ b2.setWidth 32).setWidth 15

/-- The prefix hash of the three bytes of `dict` from `slot` on, the mirror serving the wrap (R142). -/
def hashAt (d : Mem 8) (slot : Nat) : Nat :=
  (hash3 (Mem.read d slot) (Mem.read d (slot + 1)) (Mem.read d (slot + 2))).toNat

/-- One row of a symbol table: the symbol, its number of extra bits, the first and the last value it stands for. -/
structure SymRow where
  sym : Nat
  extra : Nat
  base : Nat
  last : Nat
deriving DecidableEq, Repr

/-- The match lengths of the literal/length alphabet (R98). -/
def lenRows : List SymRow :=
  [⟨257, 0, 3, 3⟩, ⟨258, 0, 4, 4⟩, ⟨259, 0, 5, 5⟩, ⟨260, 0, 6, 6⟩, ⟨261, 0, 7, 7⟩, ⟨262, 0, 8, 8⟩,
   ⟨263, 0, 9, 9⟩, ⟨264, 0, 10, 10⟩, ⟨265, 1, 11, 12⟩, ⟨266, 1, 13, 14⟩, ⟨267, 1, 15, 16⟩, ⟨268, 1, 17, 18⟩,
   ⟨269, 2, 19, 22⟩, ⟨270, 2, 23, 26⟩, ⟨271, 2, 27, 30⟩, ⟨272, 2, 31, 34⟩, ⟨273, 3, 35, 42⟩, ⟨274, 3, 43, 50⟩,
   ⟨275, 3, 51, 58⟩, ⟨276, 3, 59, 66⟩, ⟨277, 4, 67, 82⟩, ⟨278, 4, 83, 98⟩, ⟨279, 4, 99, 114⟩,
   ⟨280, 4, 115, 130⟩, ⟨281, 5, 131, 162⟩, ⟨282, 5, 163, 194⟩, ⟨283, 5, 195, 226⟩, ⟨284, 5, 227, 257⟩,
   ⟨285, 0, 258, 258⟩]

/-- The distances of the distance alphabet (R99). -/
def distRows : List SymRow :=
  [⟨0, 0, 1, 1⟩, ⟨1, 0, 2, 2⟩, ⟨2, 0, 3, 3⟩, ⟨3, 0, 4, 4⟩, ⟨4, 1, 5, 6⟩, ⟨5, 1, 7, 8⟩, ⟨6, 2, 9, 12⟩,
   ⟨7, 2, 13, 16⟩, ⟨8, 3, 17, 24⟩, ⟨9, 3, 25, 32⟩, ⟨10, 4, 33, 48⟩, ⟨11, 4, 49, 64⟩, ⟨12, 5, 65, 96⟩,
   ⟨13, 5, 97, 128⟩, ⟨14, 6, 129, 192⟩, ⟨15, 6, 193, 256⟩, ⟨16, 7, 257, 384⟩, ⟨17, 7, 385, 512⟩,
   ⟨18, 8, 513, 768⟩, ⟨19, 8, 769, 1024⟩, ⟨20, 9, 1025, 1536⟩, ⟨21, 9, 1537, 2048⟩, ⟨22, 10, 2049, 3072⟩,
   ⟨23, 10, 3073, 4096⟩, ⟨24, 11, 4097, 6144⟩, ⟨25, 11, 6145, 8192⟩, ⟨26, 12, 8193, 12288⟩,
   ⟨27, 12, 12289, 16384⟩, ⟨28, 13, 16385, 24576⟩, ⟨29, 13, 24577, 32768⟩]

/-- The row whose range holds `v`; `lenSym` and `distSym` ask only for values that some row holds. -/
def rowOf (rows : List SymRow) (v : Nat) : SymRow :=
  (rows.find? fun r => decide (r.base ≤ v) && decide (v ≤ r.last)).getD ⟨0, 0, 0, 0⟩

/-- The extra bits of symbol `s`, 0 for a symbol without a row (R98, R99). -/
def extraOf (rows : List SymRow) (s : Nat) : Nat :=
  match rows.find? fun r => r.sym == s with
  | some r => r.extra
  | none => 0

/-- `len_sym(L)` (R98) for the lengths 3 to 258; the eight bits of a record hold no other. -/
def lenSym (l : Nat) : Nat := (rowOf lenRows l).sym

/-- `dist_sym(D)` (R99). Above 32768, where R99 gives no symbol, a free symbol of the table (log entry 29): ENC.PAYLOAD
comes to it on a record whose byte 2 exceeds 127, which no REC.MATCH makes (R110). -/
def distSym (d : Nat) : Nat :=
  if d ≤ Config.windowSize then (rowOf distRows d).sym else (Config.farDistSym d).toNat

/-- `LEN_EXTRA[s]` (R98), `EXTRA0(s)` of R215. -/
def lenExtra (s : Nat) : Nat := extraOf lenRows s

/-- `DIST_EXTRA[s]` (R99), `EXTRA1(s)` of R215. -/
def distExtra (s : Nat) : Nat := extraOf distRows s

/-- `LEN_SYM_TAB[i]` (R100). -/
def lenSymTab (i : Nat) : Nat := lenSym (i + 3)

/-- `SMALL_DIST_SYM[d]` for `d = distance - 1 < 512` (R100). -/
def smallDistSym (d : Nat) : Nat := distSym (d + 1)

/-- `LARGE_DIST_SYM[h]` for `h = (distance - 1) >> 8`, `distance - 1 >= 512` (R100). -/
def largeDistSym (h : Nat) : Nat := distSym (256 * h + 1)

/-- `BITMASK[n] = 2^n - 1` (R100), applied to `v`. -/
def maskBits (v n : Nat) : Nat := v % 2 ^ n

/-- `CL_EXTRA[c]` (R101). -/
def clExtra (c : Nat) : Nat := if c = 16 then 2 else if c = 17 then 3 else if c = 18 then 7 else 0

/-- `CL_ORDER` (R101). -/
def clOrder : List Nat := [16, 17, 18, 0, 8, 7, 9, 6, 10, 5, 11, 4, 12, 3, 13, 2, 14, 1, 15]

/-- `NUM_SYMS[t]` (R5). -/
def numSyms : Table → Nat
  | .litLen => 288
  | .dist => 32
  | .codeLen => 19

/-- The value of a code limit (R5). -/
def limitValue : CodeLimit → Nat
  | .fifteen => 15
  | .seven => 7

/-- `CODE_LIMIT[t]` (R5). -/
def codeLimit : Table → Nat
  | .litLen => 15
  | .dist => 15
  | .codeLen => 7

/-- The code length of literal/length symbol `s` in the fixed tables (R104), `STATIC0(s)` of R215. -/
def staticLitLenSize (s : Nat) : Nat :=
  if s < 144 then 8 else if s < 256 then 9 else if s < 280 then 7 else if s < 288 then 8 else 0

/-- The code length of a distance symbol in the fixed tables (R104). -/
def staticDistSize (_s : Nat) : Nat := 5

/-- `bitrev(code, L)`: bit `i` of the result is bit `L - 1 - i` of `code` (R185). -/
def bitrev : Nat → Nat → Nat
  | 0, _ => 0
  | l + 1, c => c % 2 * 2 ^ l + bitrev l (c / 2)

/-- `BTYPE` (R102). -/
inductive BlockType where
  | stored | static | dynamic
deriving DecidableEq, Repr

/-- The number of a block type (R102). -/
def BlockType.code : BlockType → Nat
  | .stored => 0
  | .static => 1
  | .dynamic => 2

/-- The 2-bit field of a status (R94). -/
def statusField : Status → BitVec 2
  | .okay => 0b00#2
  | .done => 0b01#2
  | .badParam => 0b10#2
  | .putBufFailed => 0b11#2

/-- The signed value of a status, `sext` of its field (R94). -/
def statusValue (st : Status) : Int := (statusField st).toInt

/-- The flush mode of the 3-bit field, none for the reserved values (R93). -/
def flushMode (f : BitVec 3) : Option FlushMode :=
  match f.toNat with
  | 0 => some .none
  | 2 => some .sync
  | 3 => some .full
  | 4 => some .finish
  | _ => none

/-- The 3-bit field of a flush mode (R93). -/
def flushField : FlushMode → BitVec 3
  | .none => 0
  | .sync => 2
  | .full => 3
  | .finish => 4

/-- `NUM_PROBES[level]`, index 0 to 10 (R113). -/
def numProbes : List Nat := [0, 1, 6, 32, 16, 32, 128, 256, 512, 768, 1500]

/-- `flags_from_params(level, window_bits, strategy)` (R113): the pseudo-instruction that runs in the host and whose
result is the operand of INIT. -/
def flagsFromParams (level windowBits strategy : Int) : BitVec 20 :=
  let idx := if level < 0 then 6 else min level.toNat 10
  let probes := BitVec.ofNat 20 (numProbes.getD idx 0)
  let flags := if level ≤ 3 then probes ||| 0x04000#20 else probes
  let flags := if 0 < windowBits then flags ||| 0x01000#20 else flags
  if level = 0 then flags ||| 0x80000#20
  else if strategy = 1 then flags ||| 0x20000#20
  else if strategy = 2 then flags &&& ~~~0x00FFF#20
  else if strategy = 4 then flags ||| 0x40000#20
  else if strategy = 3 then flags ||| 0x10000#20
  else flags

end Sys2Proof.Machine
end

