-- ==== Sys2Proof/Machine/Flags.lean ====
section
/-! DEFINITION. The fields of `FLAGS` (R28), the status flags (R29), the parameter checks (R252), the driver states
(R30) and the status port (R270). -/

namespace Sys2Proof.Machine

/-- `WRITE_ZLIB_HEADER`, bit 12 (R28). -/
def Control.writeZlibHeader (c : Control) : Bool := c.flags.getLsbD 12
/-- `COMPUTE_ADLER32`, bit 13 (R28). -/
def Control.computeAdler32 (c : Control) : Bool := c.flags.getLsbD 13
/-- `GREEDY_PARSING`, bit 14 (R28). -/
def Control.greedyParsing (c : Control) : Bool := c.flags.getLsbD 14
/-- `RLE_MATCHES`, bit 16 (R28). -/
def Control.rleMatches (c : Control) : Bool := c.flags.getLsbD 16
/-- `FILTER_MATCHES`, bit 17 (R28). -/
def Control.filterMatches (c : Control) : Bool := c.flags.getLsbD 17
/-- `FORCE_ALL_STATIC_BLOCKS`, bit 18 (R28). -/
def Control.forceStatic (c : Control) : Bool := c.flags.getLsbD 18
/-- `FORCE_ALL_RAW_BLOCKS`, bit 19 (R28). -/
def Control.forceRaw (c : Control) : Bool := c.flags.getLsbD 19
/-- `FLAGS[11:0]` (R28, R147). -/
def probesOf (flags : BitVec 20) : BitVec 12 := flags.setWidth 12

/-- The BadParam conditions 1 to 6 of R252 (condition 7, the opcode, is the decoder's). -/
def badParam (flush : BitVec 3) (inPresent outPresent : Bool) (inLen : BitVec 32) (s : State) : Bool :=
  !s.ctl.inited
  || (flushMode flush).isNone
  || s.ctl.prevStatus != .okay
  || (s.ctl.wantsFinish && flushMode flush != some .finish)
  || (s.ctl.sinkMode == outPresent)
  || (!inPresent && inLen != 0)

/-- The driver states of R30. -/
inductive DriverState where
  | invalid | failed | finished | flushingOutput | ready | accumulatingBlock
deriving DecidableEq, Repr

/-- The driver state, a predicate over the registers, tested in the order of R30's table. -/
def driverState (s : State) : DriverState :=
  if s.ctl.inited = false then .invalid
  else if s.ctl.prevStatus = .putBufFailed then .failed
  else if s.ctl.finished = true ∧ s.drv.flushRemaining = 0 then .finished
  else if s.drv.flushRemaining ≠ 0 then .flushingOutput
  else if s.drv.lookaheadPos = 0 ∧ s.drv.lookaheadSize = 0 ∧ s.ctl.blockIndex = 0 ∧ s.ctl.wantsFinish = false then .ready
  else .accumulatingBlock

/-- The status port (R270): `PREV_STATUS` and `ADLER32`, all the host can read between calls. -/
def statusPort (s : State) : BitVec 2 × BitVec 32 := (statusField s.ctl.prevStatus, s.ctl.adler32)

end Sys2Proof.Machine
end

