-- ==== Sys2Proof/Machine/Dict.lean ====
section
/-! DEFINITION. Unit DICT (40_dictionary.md): the sliding window, the hash chains and the match search. -/

namespace Sys2Proof.Machine

/-- `dict` with byte `c` stored as the window byte of position `q`, mirror included (R141). -/
def windowWrite (d : Mem 8) (q : BitVec 32) (c : BitVec 8) : Mem 8 :=
  let slot := slotOf q
  let d := Mem.write d slot c
  if slot < Config.maxMatch - 1 then Mem.write d (Config.windowSize + slot) c else d

/-- DICT.WRITE(q, c) (R141). -/
def opDictWrite (q : BitVec 32) (c : BitVec 8) (s : State) : State :=
  s.setWin { s.win with dict := windowWrite s.win.dict q c }

/-- Are the bytes of the positions `q`, `q + 1`, `q + 2` written (R142, U18): `q + 2 < lookahead_pos + lookahead_size` in
position order, a position being before another when it lies less than 2^31 behind it (the model's reading of the order
modulo 2^32, log entry 28)? -/
def insertable (q : BitVec 32) (s : State) : Bool :=
  let behind := (s.drv.lookaheadPos + s.drv.lookaheadSize.setWidth 32 - q).toNat
  decide (3 ≤ behind) && decide (behind < 2 ^ 31)

/-- The memories of DICT with position `q` put at the front of its chain (R142). -/
def chainInsert (w : Window) (q : BitVec 32) : Window :=
  let slot := slotOf q
  let h := hashAt w.dict slot
  { w with next := Mem.write w.next slot (Mem.read w.head h), head := Mem.write w.head h (q.setWidth 16) }

/-- DICT.INSERT(q) (R142), however far `q` lies behind (log entry 28); a position whose three bytes are not all written is
refused (U18, log entry 7). -/
def opDictInsert (q : BitVec 32) (s : State) : State :=
  if insertable q s then s.setWin (chainInsert s.win q) else s.refuse .windowRange

/-- Element `i` of `dict` as a run reads it; beyond its end, where R60 gives no element, a free byte of draw number `k`
(log entry 26). -/
def dictAt (k : Nat) (d : Mem 8) (i : Nat) : BitVec 8 :=
  if i < Config.dictBufSize then Mem.read d i else Config.beyondDict k i

/-- How many of at most `n` bytes of `dict` agree from index `a` on and from index `b` on (R143, the inner loop). -/
def matchRun (k : Nat) (d : Mem 8) (a b : Nat) : Nat → Nat
  | 0 => 0
  | n + 1 => if dictAt k d a = dictAt k d b then matchRun k d (a + 1) (b + 1) n + 1 else 0

/-- The candidate loop of DICT.FIND (R143): the second argument is the budget, one probe for each candidate compared. -/
def findLoop (k : Nat) (w : Window) (p : BitVec 32) (maxDist maxLen : Nat) : Nat → BitVec 16 → Nat × Nat → Nat × Nat
  | 0, _, best => best
  | budget + 1, cand, best =>
    let dist := (p.setWidth 16 - cand).toNat
    if cand = 0 then best
    else if dist = 0 ∨ maxDist < dist then best
    else
      let cs := (cand.setWidth 15).toNat
      let n := matchRun k w.dict cs (slotOf p) maxLen
      if best.2 < n then
        if n = maxLen then (dist, n) else findLoop k w p maxDist maxLen budget (Mem.read w.next cs) (dist, n)
      else findLoop k w p maxDist maxLen budget (Mem.read w.next cs) best

/-- `find_match`: the pair (distance, length) of DICT.FIND, as the pseudocode of R143 has it. With a prior length of 0 or 1
it can give a length of 1 or 2, where R146 says at least 3: the model follows the pseudocode (log entry 27). -/
def findMatch (k : Nat) (w : Window) (probes : Nat) (p : BitVec 32) (maxDist maxLen : Nat) (prior : Nat × Nat) :
    Nat × Nat :=
  if maxLen ≤ prior.2 ∨ maxLen < Config.minMatch then prior
  else findLoop k w p maxDist maxLen probes (Mem.read w.head (hashAt w.dict (slotOf p))) prior

/-- Does DICT.FIND compare no candidate, whatever the window holds (R143, its first test and corner cases (c), (d))? -/
def searchless (probes maxLen priorLen : Nat) : Bool :=
  decide (maxLen ≤ priorLen) || decide (maxLen < Config.minMatch) || decide (probes = 0)

/-- The precondition of DICT.FIND (R143): the window bytes of positions `p - max_dist` to `p + max_len - 1` are valid,
that is they lie in `[lookahead_pos - dict_size, lookahead_pos + lookahead_size)` (R62). -/
def findable (p : BitVec 32) (maxDist maxLen : Nat) (s : State) : Bool :=
  let off := (p - (s.drv.lookaheadPos - s.drv.dictSize.setWidth 32)).toNat
  decide (maxDist ≤ off) && decide (off + maxLen ≤ s.drv.dictSize.toNat + s.drv.lookaheadSize.toNat)

/-- The state after a run of at most `maxLen` bytes was read: a run longer than `MAX_MATCH` may read beyond `dict` and
draws a free value (log entry 26). -/
def runRead (maxLen : BitVec 9) (s : State) : State := if Config.maxMatch < maxLen.toNat then s.drawn else s

/-- DICT.FIND(p, max_dist, max_len, prior_dist, prior_len) (R143): the result pair goes to `work`. Any prior pair is taken,
and any position when no candidate is compared (log entry 27); a search beyond the valid window is refused (U18, log entry
7). -/
def opDictFind (p : BitVec 32) (maxDist : BitVec 16) (maxLen : BitVec 9) (priorDist : BitVec 16) (priorLen : BitVec 9)
    (s : State) : State :=
  if searchless s.ctl.maxProbes.toNat maxLen.toNat priorLen.toNat || findable p maxDist.toNat maxLen.toNat s then
    let r := findMatch s.draws s.win s.ctl.maxProbes.toNat p maxDist.toNat maxLen.toNat
      (priorDist.toNat, priorLen.toNat)
    runRead maxLen (s.setWork { s.work with findDist := BitVec.ofNat 16 r.1, findLen := BitVec.ofNat 9 r.2 })
  else s.refuse .windowRange

/-- The run of DICT.RLE (R144): how many of at most `n` bytes of `dict` from index `a` on equal `c`. -/
def rleRun (k : Nat) (d : Mem 8) (c : BitVec 8) (a : Nat) : Nat → Nat
  | 0 => 0
  | n + 1 => if dictAt k d a = c then rleRun k d c (a + 1) n + 1 else 0

/-- DICT.RLE(p, max_len) (R144): the result goes to `work`. `dict_size = 0` is refused (U18, log entry 7). -/
def opDictRle (p : BitVec 32) (maxLen : BitVec 9) (s : State) : State :=
  if s.drv.dictSize = 0 then s.refuse .noHistory
  else
    let n := rleRun s.draws s.win.dict (winByte s.win.dict (p - 1)) (slotOf p) maxLen.toNat
    runRead maxLen (s.setWork { s.work with rleLen := BitVec.ofNat 9 n })

/-- DICT.RESET_CHAINS (R145). -/
def opDictResetChains (s : State) : State :=
  (s.setWin { s.win with head := [], next := [] }).setDrv
    { s.drv with dictSize := 0, insPos := s.drv.lookaheadPos }

/-- DICT.WRITE (R141). -/
def execDictWrite (q : BitVec 32) (c : BitVec 8) (s : State) : Host.Outcome State Fault Refusal :=
  settle (opDictWrite q c s)

/-- DICT.INSERT (R142). -/
def execDictInsert (q : BitVec 32) (s : State) : Host.Outcome State Fault Refusal := settle (opDictInsert q s)

/-- DICT.FIND (R143). -/
def execDictFind (p : BitVec 32) (maxDist : BitVec 16) (maxLen : BitVec 9) (priorDist : BitVec 16)
    (priorLen : BitVec 9) (s : State) : Host.Outcome State Fault Refusal :=
  settle (opDictFind p maxDist maxLen priorDist priorLen s)

/-- DICT.RLE (R144). -/
def execDictRle (p : BitVec 32) (maxLen : BitVec 9) (s : State) : Host.Outcome State Fault Refusal :=
  settle (opDictRle p maxLen s)

/-- DICT.RESET_CHAINS (R145). -/
def execDictResetChains (s : State) : Host.Outcome State Fault Refusal := settle (opDictResetChains s)

end Sys2Proof.Machine
end

