-- ==== Sys2Proof/Machine/Rec.lean ====
section
/-! DEFINITION. Unit REC (41_recorder.md): the LZ symbol recorder. -/

namespace Sys2Proof.Machine

/-- The capacity precondition of REC.LIT and REC.MATCH (R162): `lz_code_len <= LZ_CLOSE_THRESHOLD`, and a flag bit left
in `lz_flags` (implied by `lz_op_count <= lz_code_len`, R33 item 5). -/
def recordable (s : State) : Bool :=
  decide (s.lz.lzCodeLen.toNat ≤ Config.lzCloseThreshold) && decide (s.lz.lzOpCount.toNat < 8 * Config.lzFlagBufSize)

/-- `lz_flags` with the flag bit of record `k` set to `f` (R96). -/
def flagWrite (m : Mem 8) (k : Nat) (f : Bool) : Mem 8 :=
  let b := Mem.read m (k / 8)
  let bit := 1#8 <<< (k % 8)
  Mem.write m (k / 8) (if f then b ||| bit else b &&& ~~~bit)

/-- The flag bit of record `k` (R96). -/
def flagRead (m : Mem 8) (k : Nat) : Bool := (Mem.read m (k / 8)).getLsbD (k % 8)

/-- A frequency counter advanced by one (R160, R161). -/
def bump (m : Mem 16) (sym : Nat) : Mem 16 := Mem.write m sym (Mem.read m sym + 1)

/-- The recorder with one record of the bytes `bytes` and the flag `f` appended, covering `n` input bytes (R160, R161). -/
def appendRecord (r : Recorder) (bytes : List (BitVec 8)) (f : Bool) (n : Nat) : Recorder :=
  { lzCode := Mem.writeRun r.lzCode r.lzCodeLen.toNat bytes
    lzFlags := flagWrite r.lzFlags r.lzOpCount.toNat f
    lzCodeLen := r.lzCodeLen + BitVec.ofNat 17 bytes.length
    lzOpCount := r.lzOpCount + 1
    totalLzBytes := r.totalLzBytes + BitVec.ofNat 32 n }

/-- The Huffman table `t` with the count of symbol `sym` advanced. -/
def countSym (t : Table) (sym : Nat) (s : State) : State :=
  s.setTable t { s.huf.get t with count := bump (s.huf.get t).count sym }

/-- REC.LIT(b) (R160); a full recorder is refused (U17, log entry 7). -/
def opRecLit (b : BitVec 8) (s : State) : State :=
  if recordable s then countSym .litLen b.toNat (s.setLz (appendRecord s.lz [b] false 1))
  else s.refuse .recorderFull

/-- The three bytes of a MATCH record (R95). -/
def matchBytes (len dist : Nat) : List (BitVec 8) :=
  [BitVec.ofNat 8 (len - 3), BitVec.ofNat 8 ((dist - 1) % 256), BitVec.ofNat 8 ((dist - 1) / 256)]

/-- REC.MATCH(length, distance) (R161); operands out of range and a full recorder are refused (U17, log entry 7). -/
def opRecMatch (len : BitVec 9) (dist : BitVec 16) (s : State) : State :=
  if (Instr.recMatch len dist).wf then
    if recordable s then
      countSym .dist (distSym dist.toNat) (countSym .litLen (lenSym len.toNat)
        (s.setLz (appendRecord s.lz (matchBytes len.toNat dist.toNat) true len.toNat)))
    else s.refuse .recorderFull
  else s.refuse .operandRange

/-- REC.LIT (R160). -/
def execRecLit (b : BitVec 8) (s : State) : Host.Outcome State Fault Refusal := settle (opRecLit b s)

/-- REC.MATCH (R161). -/
def execRecMatch (len : BitVec 9) (dist : BitVec 16) (s : State) : Host.Outcome State Fault Refusal :=
  settle (opRecMatch len dist s)

end Sys2Proof.Machine
end

