-- ==== Sys2Proof/Machine/Huf.lean ====
section
/-! DEFINITION. Unit HUF (42_huffman.md): the canonical Huffman code builder. -/

namespace Sys2Proof.Machine

/-- HUF.COLLECT (R180): the (frequency, symbol) pairs of the symbols in use, in ascending symbol order. -/
def collect (count : Mem 16) (tableLen : Nat) : List SymKey :=
  count.filterMap fun c => if c.1 < tableLen ∧ c.2 ≠ 0 then some ⟨c.2, c.1⟩ else none

/-- The digit a pass of the radix sort looks at: 8 bits of the key from bit `shift` on (R181). -/
def digit (shift : Nat) (x : SymKey) : Nat := bitField x.key.toNat shift 8

/-- `x` put behind the entries whose digit is not above its own. -/
def insertByDigit (shift : Nat) (x : SymKey) : List SymKey → List SymKey
  | [] => [x]
  | y :: ys => if digit shift x < digit shift y then x :: y :: ys else y :: insertByDigit shift x ys

/-- One pass of HUF.SORT: a stable sort on one digit (R181; "A model may use any stable sort by key"). -/
def sortPass (shift : Nat) (l : List SymKey) : List SymKey :=
  l.foldl (fun acc x => insertByDigit shift x acc) []

/-- HUF.SORT (R181): the pass on the low byte, then the pass on the high byte. -/
def radixSort (l : List SymKey) : List SymKey := sortPass 8 (sortPass 0 l)

/-- `A[i]` of the working array (R182). -/
def arrAt (a : List Nat) (i : Nat) : Nat := a.getD i 0

/-- Phase 1 of HUF.MINRED (R182): `k` rounds from index `nxt` on. -/
def minredMerge (n : Nat) : Nat → Nat → Nat → Nat → List Nat → List Nat
  | 0, _, _, _, a => a
  | k + 1, nxt, root, leaf, a =>
    let inner := decide (n ≤ leaf) || decide (arrAt a root < arrAt a leaf)
    let a1 := if inner then (a.set nxt (arrAt a root)).set root nxt else a.set nxt (arrAt a leaf)
    let root1 := if inner then root + 1 else root
    let leaf1 := if inner then leaf else leaf + 1
    let inner2 := decide (n ≤ leaf1) || (decide (root1 < nxt) && decide (arrAt a1 root1 < arrAt a1 leaf1))
    let a2 := if inner2 then (a1.set nxt (arrAt a1 nxt + arrAt a1 root1)).set root1 nxt
              else a1.set nxt (arrAt a1 nxt + arrAt a1 leaf1)
    minredMerge n k (nxt + 1) (if inner2 then root1 + 1 else root1) (if inner2 then leaf1 else leaf1 + 1) a2

/-- Phase 2 of HUF.MINRED (R182): parent indices become depths, for the indices below `k`, downwards. -/
def minredDepths : Nat → List Nat → List Nat
  | 0, a => a
  | k + 1, a => minredDepths k (a.set k (arrAt a (arrAt a k) + 1))

/-- How many internal nodes, from index `r - 1` down without a gap, have the depth `d` (R182, phase 3). -/
def countAtDepth (a : List Nat) (d : Nat) : Nat → Nat
  | 0 => 0
  | r + 1 => if arrAt a r = d then countAtDepth a d r + 1 else 0

/-- The depth `d` written to `c` leaves from index `m - 1` down (R182, phase 3). -/
def fillDepth (d : Nat) : Nat → Nat → List Nat → List Nat
  | 0, _, a => a
  | _ + 1, 0, a => a
  | c + 1, m + 1, a => fillDepth d c m (a.set m d)

/-- Phase 3 of HUF.MINRED (R182), one depth a round. `r` is `root + 1` and `m` is `nxt + 1`, so that neither is
negative; the first argument bounds the rounds by the number of symbols, which no tree's depth reaches. -/
def minredLeaves : Nat → Nat → Nat → Nat → Nat → List Nat → List Nat
  | 0, _, _, _, _, a => a
  | f + 1, avbl, dpth, r, m, a =>
    if avbl = 0 then a
    else
      let used := countAtDepth a dpth r
      minredLeaves f (2 * used) (dpth + 1) (r - used) (m - (avbl - used)) (fillDepth dpth (avbl - used) m a)

/-- HUF.MINRED (R182): code lengths from ascending frequencies, in place. -/
def minred (a : List Nat) : List Nat :=
  match a.length with
  | 0 => a
  | 1 => [1]
  | n + 2 =>
    let a := minredMerge (n + 2) n 1 0 2 (a.set 0 (arrAt a 0 + arrAt a 1))
    let a := minredDepths n (a.set n 0)
    minredLeaves (n + 3) 1 0 (n + 1) (n + 2) a

/-- `NUM[i] <- NUM[i] + k`. -/
def addAt (l : List Nat) (i k : Nat) : List Nat := l.set i (arrAt l i + k)

/-- The histogram of the code lengths, indices 0 to `MAX_SUPPORTED_CODESIZE` (R183). -/
def lengthHistogram (a : List Nat) : List Nat :=
  a.foldl (fun num l => addAt num l 1) (List.replicate (Config.maxSupportedCodesize + 1) 0)

/-- The too-long codes folded into the deepest allowed bucket (R183). -/
def foldLong (limit : Nat) (num : List Nat) : List Nat :=
  (List.range (Config.maxSupportedCodesize - limit)).foldl
    (fun num j => (addAt num limit (arrAt num (limit + 1 + j))).set (limit + 1 + j) 0) num

/-- The Kraft sum scaled by `2^limit` (R183). -/
def kraftTotal (limit : Nat) (num : List Nat) : Nat :=
  ((List.range limit).map fun j => arrAt num (j + 1) * 2 ^ (limit - (j + 1))).sum

/-- One code of the deepest used length at most `i` becomes two of the next length (R183). -/
def splitDeepest : Nat → List Nat → List Nat
  | 0, num => num
  | i + 1, num =>
    if arrAt num (i + 1) ≠ 0 then addAt (num.set (i + 1) (arrAt num (i + 1) - 1)) (i + 2) 2 else splitDeepest i num

/-- The rebalancing rounds of HUF.LIMIT (R183): each lowers the scaled Kraft sum by one. There is none to borrow from when
the deepest bucket is empty; no input from HUF.MINRED comes to that. -/
def limitRounds (limit : Nat) : Nat → List Nat → Option (List Nat)
  | 0, num => some num
  | k + 1, num =>
    if arrAt num limit = 0 then none
    else limitRounds limit k (splitDeepest (limit - 1) (num.set limit (arrAt num limit - 1)))

/-- HUF.LIMIT (R183): how many symbols shall have each length. None for the inputs it has no result for (U19): a natural
length above 32, a scaled Kraft sum below `2^limit`, for which the loop has no end, or an empty deepest bucket to borrow
from; its operand is "`A[0..n-1]` from HUF.MINRED", which is none of these (log entry 7). -/
def limitLengths (limit : Nat) (a : List Nat) : Option (List Nat) :=
  if a.all fun l => decide (l ≤ Config.maxSupportedCodesize) then
    let num := lengthHistogram a
    if a.length ≤ 1 then some num
    else
      let num := foldLong limit num
      if 2 ^ limit ≤ kraftTotal limit num then limitRounds limit (kraftTotal limit num - 2 ^ limit) num else none
  else none

/-- The lengths to deal, shortest first: length `i`, `NUM[i]` times, for `i` in 1..limit (R184). -/
def dealtLengths (limit : Nat) (num : List Nat) : List Nat :=
  (List.range limit).flatMap fun j => List.replicate (arrAt num (j + 1)) (j + 1)

/-- `huff_size[t]` after HUF.ASSIGN_SIZES (R184): the lengths dealt to the sorted symbols from the end. -/
def assignedSizes (limit : Nat) (sym : List SymKey) (num : List Nat) : Mem 8 :=
  (sym.reverse.zip (dealtLengths limit num)).foldl (fun m p => Mem.write m p.1.sym (BitVec.ofNat 8 p.2)) []

/-- The inputs HUF.ASSIGN_SIZES has a result for (R184, U19): no more lengths to deal than symbols to take them, and every
symbol that takes one an entry of table `t` (R24). -/
def sizeable (t : Table) (w : Work) : Bool :=
  let dealt := (dealtLengths (codeLimit t) w.num).length
  decide (dealt ≤ w.sym.length) && (w.sym.reverse.take dealt).all fun x => decide (x.sym < numSyms t)

/-- `NEXT_CODE[i]` for `i` from 2 on, `k` of them, after the code `c` of length `i - 1` (R185). -/
def nextCodesFrom (lens : List Nat) : Nat → Nat → Nat → List Nat
  | 0, _, _ => []
  | k + 1, i, c =>
    let c := (c + lens.count (i - 1)) * 2
    c :: nextCodesFrom lens k (i + 1) c

/-- `NEXT_CODE[0..limit]` for the code lengths in use (R185). -/
def nextCodes (limit : Nat) (lens : List Nat) : List Nat := 0 :: 0 :: nextCodesFrom lens (limit - 1) 2 0

/-- The codes of the symbols with a length, in ascending symbol order, stored bit-reversed (R185); a code 0 is not
listed. -/
def codesFrom : List (Nat × BitVec 8) → List Nat → Mem 16
  | [], _ => []
  | (s, l) :: rest, next =>
    let code := arrAt next l.toNat
    let stored := BitVec.ofNat 16 (bitrev l.toNat code)
    let tail := codesFrom rest (next.set l.toNat (code + 1))
    if stored = unlisted 16 then tail else (s, stored) :: tail

/-- `huff_code[t]` after HUF.ASSIGN_CODES (R185). -/
def assignedCodes (tableLen limit : Nat) (size : Mem 8) : Mem 16 :=
  let used := size.filter fun c => decide (c.1 < tableLen) && c.2 != 0
  codesFrom used (nextCodes limit (used.map fun c => c.2.toNat))

/-- HUF.COLLECT(t) (R180), the first step of HUF.BUILD. -/
def opHufCollect (t : Table) (s : State) : State :=
  s.setWork { s.work with sym := collect (s.huf.get t).count (numSyms t) }

/-- HUF.SORT (R181) on the working array. The table row's operand `t` names the table whose build it is part of; the
rule reads the working array only (log entry 17). -/
def opHufSort (_t : Table) (s : State) : State := s.setWork { s.work with sym := radixSort s.work.sym }

/-- `A[i] <- SYM[i].key` (R186). -/
def opHufKeys (s : State) : State := s.setWork { s.work with lengths := s.work.sym.map fun x => x.key.toNat }

/-- HUF.MINRED (R182) on the working array. -/
def opHufMinred (s : State) : State := s.setWork { s.work with lengths := minred s.work.lengths }

/-- HUF.LIMIT(limit) (R183); inputs it has no result for are refused (U19, log entry 7). -/
def opHufLimit (limit : Nat) (s : State) : State :=
  match limitLengths limit s.work.lengths with
  | some num => s.setWork { s.work with num := num }
  | none => s.refuse .limiterInput

/-- HUF.ASSIGN_SIZES(t) (R184): all of `huff_size[t]` and `huff_code[t]`; inputs it has no result for are refused
(U19, log entry 7). -/
def opHufAssignSizes (t : Table) (s : State) : State :=
  if sizeable t s.work then
    s.setTable t { s.huf.get t with size := assignedSizes (codeLimit t) s.work.sym s.work.num, code := [] }
  else s.refuse .sizesInput

/-- HUF.ASSIGN_CODES(t) (R185): all of `huff_code[t]`. -/
def opHufAssignCodes (t : Table) (s : State) : State :=
  s.setTable t { s.huf.get t with code := assignedCodes (numSyms t) (codeLimit t) (s.huf.get t).size }

/-- HUF.BUILD(t) (R186). -/
def opHufBuild (t : Table) (s : State) : State :=
  opHufAssignCodes t (opHufAssignSizes t (opHufLimit (codeLimit t) (opHufMinred (opHufKeys (opHufSort t
    (opHufCollect t s))))))

/-- The fixed literal/length code lengths (R104). -/
def staticLitLenSizes : Mem 8 := Mem.tabulate 288 fun s => BitVec.ofNat 8 (staticLitLenSize s)

/-- The fixed distance code lengths (R104). -/
def staticDistSizes : Mem 8 := Mem.tabulate 32 fun s => BitVec.ofNat 8 (staticDistSize s)

/-- HUF.LOAD_STATIC (R187). -/
def opHufLoadStatic (s : State) : State :=
  opHufAssignCodes .dist (opHufAssignCodes .litLen
    (s.setHuf { s.huf with
      litLen := { s.huf.litLen with size := staticLitLenSizes }
      dist := { s.huf.dist with size := staticDistSizes } }))

/-- HUF.SORT (R181). -/
def execHufSort (t : Table) (s : State) : Host.Outcome State Fault Refusal := settle (opHufSort t s)

/-- HUF.MINRED (R182). -/
def execHufMinred (s : State) : Host.Outcome State Fault Refusal := settle (opHufMinred s)

/-- HUF.LIMIT (R183). -/
def execHufLimit (limit : CodeLimit) (s : State) : Host.Outcome State Fault Refusal :=
  settle (opHufLimit (limitValue limit) s)

/-- HUF.ASSIGN_SIZES (R184). -/
def execHufAssignSizes (t : Table) (s : State) : Host.Outcome State Fault Refusal := settle (opHufAssignSizes t s)

/-- HUF.ASSIGN_CODES (R185). -/
def execHufAssignCodes (t : Table) (s : State) : Host.Outcome State Fault Refusal := settle (opHufAssignCodes t s)

/-- HUF.BUILD (R186). -/
def execHufBuild (t : Table) (s : State) : Host.Outcome State Fault Refusal := settle (opHufBuild t s)

/-- HUF.LOAD_STATIC (R187). -/
def execHufLoadStatic (s : State) : Host.Outcome State Fault Refusal := settle (opHufLoadStatic s)

end Sys2Proof.Machine
end

