-- ==== Sys2Proof/Machine/Enc.lean ====
section
/-! DEFINITION. Unit ENC (43_encoder.md): the bit writer and the block encoder. -/

namespace Sys2Proof.Machine

/-- The byte loop of ENC.PUT_BITS (R210), at most `k` bytes: while 8 bits are pending, one byte goes to `stage`. -/
def emitBytes : Nat → State → State
  | 0, s => s
  | k + 1, s =>
    if s.enc.bitsIn.toNat < 8 then s
    else if s.enc.stagePos.toNat < Config.outStageSize then
      emitBytes k (s.setEnc {
        stage := Mem.write s.enc.stage s.enc.stagePos.toNat (s.enc.bitBuffer.setWidth 8)
        stagePos := s.enc.stagePos + 1
        bitBuffer := s.enc.bitBuffer >>> 8
        bitsIn := s.enc.bitsIn - 8 })
    else s.faulted .stageOverflow

/-- The pseudocode of ENC.PUT_BITS (R210). -/
def putField (v n : Nat) (s : State) : State :=
  emitBytes 8 (s.setEnc { s.enc with
    bitBuffer := s.enc.bitBuffer ||| (BitVec.ofNat 32 v <<< s.enc.bitsIn.toNat)
    bitsIn := s.enc.bitsIn + BitVec.ofNat 6 n })

/-- Free bits of the current draw, from bit `i` on, `n` of them (log entry 26). -/
def putFree : Nat → Nat → State → State
  | _, 0, s => s
  | i, n + 1, s => putFree (i + 1) n (putField (Config.fieldBit s.draws i).toNat 1 s)

/-- ENC.PUT_BITS(v, n) (R210): the field `v` of `n` bits. For operands outside `n` in 0..16 and `v < 2^n` R210 states no
result: `n` bits are appended and their value is free (log entry 26). -/
def putBits (v n : Nat) (s : State) : State :=
  if n ≤ 16 ∧ v < 2 ^ n then putField v n s else (putFree 0 n s).drawn

/-- ENC.PAD (R211). -/
def opEncPad (s : State) : State := if s.enc.bitsIn = 0 then s else putBits 0 (8 - s.enc.bitsIn.toNat) s

/-- The two bytes of the RFC1950 header with the second byte `flg` (R107, R212). -/
def zlibHeader (flg : BitVec 8) (s : State) : State := putField flg.toNat 8 (putField Config.zlibCmf.toNat 8 s)

/-- ENC.ZLIB_HDR (R212). Its caller tests `WRITE_ZLIB_HEADER` and `BLOCK_INDEX` (R265; log entry 16). -/
def opEncZlibHdr (s : State) : State := zlibHeader Config.zlibFlg s

/-- The `BFINAL` bit (R213). -/
def putFinal (bfinal : Bool) (s : State) : State := putBits bfinal.toNat 1 s

/-- The `BTYPE` field (R102). -/
def putType (bt : BlockType) (s : State) : State := putBits bt.code 2 s

/-- A block header, `BFINAL` then `BTYPE` (R102). -/
def putHeader (bfinal : Bool) (bt : BlockType) (s : State) : State := putType bt (putFinal bfinal s)

/-- The code of symbol `sym` of table `t` (R220). -/
def putCode (t : Table) (sym : Nat) (s : State) : State :=
  putBits (Mem.read (s.huf.get t).code sym).toNat (Mem.read (s.huf.get t).size sym).toNat s

/-- A symbol of table `t` and its extra bits: the code, then `n` bits holding `extra` (R105, R106). -/
def putSymbol (t : Table) (sym extra n : Nat) (s : State) : State := putBits extra n (putCode t sym s)

/-- A LIT record in the output (R106, R220). -/
def putLit (b : BitVec 8) (s : State) : State := putCode .litLen b.toNat s

/-- A MATCH record in the output, from `l3 = length - 3` and `d1 = distance - 1` (R106, R220). -/
def putMatch (l3 d1 : Nat) (s : State) : State :=
  let s0 := lenSym (l3 + 3)
  let s1 := distSym (d1 + 1)
  putSymbol .dist s1 (maskBits d1 (distExtra s1)) (distExtra s1)
    (putSymbol .litLen s0 (maskBits l3 (lenExtra s0)) (lenExtra s0) s)

/-- `num_lit_codes`, `num_dist_codes` (R214): from `n` down to `floor` while the last length is zero. -/
def trimCodes (size : Mem 8) (floor : Nat) : Nat → Nat
  | 0 => 0
  | n + 1 => if floor < n + 1 ∧ Mem.read size n = 0 then trimCodes size floor n else n + 1

/-- The state of the packing of ENC.CL_PLAN (R214): `huff_count[2]`, `PACKED`, `zeros`, `reps`, `prev`. -/
structure Packing where
  count : Mem 16
  packed : List PackEntry
  zeros : Nat
  reps : Nat
  prev : Nat
deriving DecidableEq, Repr

/-- `huff_count[2][c] += k` and `entries` appended to `PACKED`. -/
def Packing.append (p : Packing) (c k : Nat) (entries : List PackEntry) : Packing :=
  { p with count := Mem.write p.count c (Mem.read p.count c + BitVec.ofNat 16 k), packed := p.packed ++ entries }

/-- FLUSH_REPS (R214). -/
def Packing.flushReps (p : Packing) : Packing :=
  if p.reps = 0 then p
  else if p.reps < 3 then { p.append p.prev p.reps (List.replicate p.reps ⟨p.prev, 0⟩) with reps := 0 }
  else { p.append 16 1 [⟨16, p.reps - 3⟩] with reps := 0 }

/-- FLUSH_ZEROS (R214). -/
def Packing.flushZeros (p : Packing) : Packing :=
  if p.zeros = 0 then p
  else if p.zeros < 3 then { p.append 0 p.zeros (List.replicate p.zeros ⟨0, 0⟩) with zeros := 0 }
  else if p.zeros ≤ 10 then { p.append 17 1 [⟨17, p.zeros - 3⟩] with zeros := 0 }
  else { p.append 18 1 [⟨18, p.zeros - 11⟩] with zeros := 0 }

/-- One code length of the sequence (R214). -/
def Packing.step (p : Packing) (cs : Nat) : Packing :=
  if cs = 0 then
    let p := p.flushReps
    let p := { p with zeros := p.zeros + 1 }
    { (if p.zeros = 138 then p.flushZeros else p) with prev := cs }
  else
    let p := p.flushZeros
    if cs ≠ p.prev then { p.flushReps.append cs 1 [⟨cs, 0⟩] with prev := cs }
    else
      let p := { p with reps := p.reps + 1 }
      { (if p.reps = 6 then p.flushReps else p) with prev := cs }

/-- The packing of a sequence of code lengths (R214). -/
def packLengths (seq : List Nat) : Packing :=
  let p := seq.foldl Packing.step { count := [], packed := [], zeros := 0, reps := 0, prev := 0xFF }
  if p.reps ≠ 0 then p.flushReps else p.flushZeros

/-- `SEQ` (R214). -/
def lengthSequence (huf : Huffman) (numLit numDist : Nat) : List Nat :=
  (Mem.readRun huf.litLen.size 0 numLit).map BitVec.toNat ++ (Mem.readRun huf.dist.size 0 numDist).map BitVec.toNat

/-- `num_bit_lengths` (R214): one more than the last place of `CL_ORDER`, below place `n`, with a length; at least 4. -/
def bitLengths (size : Mem 8) : Nat → Nat
  | 0 => 4
  | n + 1 => if Mem.read size (clOrder.getD n 0) = 0 then bitLengths size n else max 4 (n + 1)

/-- ENC.CL_PLAN (R214). -/
def opEncClPlan (s : State) : State :=
  let numLit := trimCodes s.huf.litLen.size 257 286
  let numDist := trimCodes s.huf.dist.size 1 30
  let p := packLengths (lengthSequence s.huf numLit numDist)
  let s := opHufBuild .codeLen (s.setTable .codeLen { s.huf.codeLen with count := p.count })
  s.setWork { s.work with
    numLitCodes := numLit, numDistCodes := numDist, packed := p.packed
    numBitLengths := bitLengths s.huf.codeLen.size 19 }

/-- `cost_static` (R215). -/
def costStatic (huf : Huffman) : Nat :=
  2 + Mem.weigh huf.litLen.count 288 (fun s => staticLitLenSize s + lenExtra s)
    + Mem.weigh huf.dist.count 32 (fun s => staticDistSize s + distExtra s)

/-- `cost_dynamic` (R215). -/
def costDynamic (huf : Huffman) (numBitLengths : Nat) : Nat :=
  2 + 5 + 5 + 4 + 3 * numBitLengths
    + Mem.weigh huf.codeLen.count 19 (fun c => (Mem.read huf.codeLen.size c).toNat + clExtra c)
    + Mem.weigh huf.litLen.count 288 (fun s => (Mem.read huf.litLen.size s).toNat + lenExtra s)
    + Mem.weigh huf.dist.count 32 (fun s => (Mem.read huf.dist.size s).toNat + distExtra s)

/-- `cost_stored` (R215). -/
def costStored (bitsIn totalLzBytes : Nat) : Nat := 2 + (8 - (bitsIn + 2) % 8) % 8 + 32 + 8 * totalLzBytes

/-- ENC.COST (R215): the three costs go to `work`. -/
def opEncCost (s : State) : State :=
  s.setWork { s.work with
    costStored := costStored s.enc.bitsIn.toNat s.lz.totalLzBytes.toNat
    costStatic := costStatic s.huf
    costDynamic := costDynamic s.huf s.work.numBitLengths }

/-- `stored_ok` (R216): every byte of the block is still in the window. -/
def storedOk (s : State) : Bool :=
  decide ((s.drv.lookaheadPos - s.drv.blockStartPos).toNat ≤ s.drv.dictSize.toNat)

/-- The choice of block type (R216). -/
def chooseType (s : State) : BlockType :=
  if s.ctl.forceRaw && storedOk s then .stored
  else if s.ctl.forceStatic then .static
  else
    let dynamicWins := decide (s.work.costDynamic < s.work.costStatic)
    let best := if dynamicWins then s.work.costDynamic else s.work.costStatic
    if storedOk s && decide (s.work.costStored < best) then .stored
    else if dynamicWins then .dynamic else .static

/-- The data bytes of a stored block: `n` window bytes from position `q` on (R217). -/
def putWindow : Nat → BitVec 32 → State → State
  | 0, _, s => s
  | n + 1, q, s => putWindow n (q + 1) (putBits (winByte s.win.dict q).toNat 8 s)

/-- ENC.STORED (R217). -/
def opEncStored (s : State) : State :=
  let len := s.lz.totalLzBytes.setWidth 16
  putWindow s.lz.totalLzBytes.toNat s.drv.blockStartPos
    (putBits (~~~len).toNat 16 (putBits len.toNat 16 (opEncPad (putType .stored s))))

/-- ENC.STATIC_HDR (R218). -/
def opEncStaticHdr (s : State) : State := putType .static (opHufLoadStatic s)

/-- The lengths of the code-length code, in `CL_ORDER` (R219). -/
def putClLengths (order : List Nat) (s : State) : State :=
  order.foldl (fun s c => putBits (Mem.read s.huf.codeLen.size c).toNat 3 s) s

/-- The packed code lengths (R219). -/
def putPacked (packed : List PackEntry) (s : State) : State :=
  packed.foldl (fun s e => putSymbol .codeLen e.c e.extra (clExtra e.c) s) s

/-- ENC.DYN_HDR (R219). -/
def opEncDynHdr (s : State) : State :=
  let w := s.work
  putPacked w.packed (putClLengths (clOrder.take w.numBitLengths)
    (putBits (w.numBitLengths - 4) 4 (putBits (w.numDistCodes - 1) 5 (putBits (w.numLitCodes - 257) 5
      (putType .dynamic s)))))

/-- The record loop of ENC.PAYLOAD (R97, R220): `n` records from ordinal `k` and index `pos` on. A record that would be
read beyond the memories is a fault; none is in a state the driver reaches (R97, R162). -/
def putRecords : Nat → Nat → Nat → State → State
  | 0, _, _, s => s
  | n + 1, k, pos, s =>
    if Config.lzFlagBufSize ≤ k / 8 then s.faulted .lzCodeRange
    else if flagRead s.lz.lzFlags k then
      if pos + 3 ≤ Config.lzCodeBufSize then
        let l3 := (Mem.read s.lz.lzCode pos).toNat
        let d1 := (Mem.read s.lz.lzCode (pos + 1)).toNat + 256 * (Mem.read s.lz.lzCode (pos + 2)).toNat
        putRecords n (k + 1) (pos + 3) (putMatch l3 d1 s)
      else s.faulted .lzCodeRange
    else
      if pos + 1 ≤ Config.lzCodeBufSize then
        putRecords n (k + 1) (pos + 1) (putLit (Mem.read s.lz.lzCode pos) s)
      else s.faulted .lzCodeRange

/-- ENC.PAYLOAD (R220): the records, then EOB. -/
def opEncPayload (s : State) : State := putCode .litLen 256 (putRecords s.lz.lzOpCount.toNat 0 0 s)

/-- ENC.TRAILER (R221). -/
def opEncTrailer (s : State) : State :=
  let s := opEncPad s
  if s.ctl.writeZlibHeader then
    [24, 16, 8, 0].foldl (fun s sh => putBits (bitField s.ctl.adler32.toNat sh 8) 8 s) s
  else s

/-- ENC.SYNC_MARK (R222). -/
def opEncSyncMark (s : State) : State := putBits 0xFFFF 16 (putBits 0 16 (opEncPad (putBits 0 3 s)))

/-- ENC.PUT_BITS (R210). -/
def execEncPutBits (v : BitVec 16) (n : BitVec 5) (s : State) : Host.Outcome State Fault Refusal :=
  settle (putBits v.toNat n.toNat s)

/-- ENC.PAD (R211). -/
def execEncPad (s : State) : Host.Outcome State Fault Refusal := settle (opEncPad s)

/-- ENC.CL_PLAN (R214). -/
def execEncClPlan (s : State) : Host.Outcome State Fault Refusal := settle (opEncClPlan s)

/-- ENC.COST (R215). -/
def execEncCost (s : State) : Host.Outcome State Fault Refusal := settle (opEncCost s)

/-- ENC.STORED (R217). -/
def execEncStored (s : State) : Host.Outcome State Fault Refusal := settle (opEncStored s)

/-- ENC.STATIC_HDR (R218). -/
def execEncStaticHdr (s : State) : Host.Outcome State Fault Refusal := settle (opEncStaticHdr s)

/-- ENC.DYN_HDR (R219). -/
def execEncDynHdr (s : State) : Host.Outcome State Fault Refusal := settle (opEncDynHdr s)

/-- ENC.PAYLOAD (R220). -/
def execEncPayload (s : State) : Host.Outcome State Fault Refusal := settle (opEncPayload s)

/-- ENC.ZLIB_HDR (R212). -/
def execEncZlibHdr (s : State) : Host.Outcome State Fault Refusal := settle (opEncZlibHdr s)

/-- ENC.TRAILER (R221). -/
def execEncTrailer (s : State) : Host.Outcome State Fault Refusal := settle (opEncTrailer s)

/-- ENC.SYNC_MARK (R222). -/
def execEncSyncMark (s : State) : Host.Outcome State Fault Refusal := settle (opEncSyncMark s)

end Sys2Proof.Machine
end

