-- ==== Sys2Proof/Machine/Drv.lean ====
section
/-! DEFINITION. The micro-operations of unit DRV (44_driver.md): fill, checksum, catch-up, parse step, block close,
drain. -/

namespace Sys2Proof.Machine

/-- The Adler-32 of `adler` advanced by one byte (R257). -/
def adlerNext (adler : BitVec 32) (c : BitVec 8) : BitVec 32 :=
  let a := (bitField adler.toNat 0 16 + c.toNat) % Config.adlerMod
  let b := (bitField adler.toNat 16 16 + a) % Config.adlerMod
  BitVec.ofNat 32 (b * 2 ^ 16 + a)

/-- DRV.ADLER(c) (R257). -/
def opDrvAdler (c : BitVec 8) (s : State) : State := s.setCtl { s.ctl with adler32 := adlerNext s.ctl.adler32 c }

/-- One byte of DRV.FILL (R256). -/
def fillOne (s : State) : State :=
  let c := Mem.read s.host.inSlice s.call.srcPos.toNat
  let s := s.setCall { s.call with srcPos := s.call.srcPos + 1 }
  let s := opDictWrite (s.drv.lookaheadPos + s.drv.lookaheadSize.setWidth 32) c s
  let s := s.setDrv { s.drv with lookaheadSize := s.drv.lookaheadSize + 1 }
  if s.ctl.writeZlibHeader || s.ctl.computeAdler32 then opDrvAdler c s else s

/-- `k` bytes of DRV.FILL. -/
def fillBytes : Nat → State → State
  | 0, s => s
  | k + 1, s => fillBytes k (fillOne s)

/-- The last line of DRV.FILL: `dict_size <- min(WINDOW_SIZE - lookahead_size, dict_size)` (R256). -/
def capDict (s : State) : State :=
  s.setDrv { s.drv with
    dictSize := BitVec.ofNat 16 (min (Config.windowSize - s.drv.lookaheadSize.toNat) s.drv.dictSize.toNat) }

/-- DRV.FILL (R256): as many bytes as are left of the input and as fit a lookahead of `MAX_MATCH`. -/
def opDrvFill (s : State) : State :=
  capDict (fillBytes (min (srcLeft s) (Config.maxMatch - s.drv.lookaheadSize.toNat)) s)

/-- The loop of DRV.CATCHUP (R258), at most `k` insertions. -/
def catchupLoop : Nat → State → State
  | 0, s => s
  | k + 1, s =>
    let lag := (s.drv.lookaheadPos - s.drv.insPos).toNat
    if lag ≠ 0 ∧ 3 ≤ lag + s.drv.lookaheadSize.toNat then
      let s := opDictInsert s.drv.insPos s
      catchupLoop k (s.setDrv { s.drv with insPos := s.drv.insPos + 1 })
    else s

/-- DRV.CATCHUP (R258): each insertion lowers the lag `lookahead_pos - ins_pos` by one, which bounds the loop. -/
def opDrvCatchup (s : State) : State := catchupLoop (s.drv.lookaheadPos - s.drv.insPos).toNat s

/-- Candidate selection (R260): the state after the search, `cur_dist` and `cur_len`. -/
def selectCandidate (s : State) : State × BitVec 16 × BitVec 9 :=
  let p := s.drv.lookaheadPos
  let prior := if s.drv.savedLen ≠ 0 then s.drv.savedLen else 2
  if s.ctl.rleMatches || s.ctl.forceRaw then
    if s.drv.dictSize ≠ 0 ∧ s.ctl.forceRaw = false then
      let s := opDictRle p s.drv.lookaheadSize s
      if s.work.rleLen.toNat < Config.minMatch then (s, 0, 0) else (s, 1, s.work.rleLen)
    else (s, 0, prior)
  else
    let s := opDictFind p s.drv.dictSize s.drv.lookaheadSize 0 prior s
    (s, s.work.findDist, s.work.findLen)

/-- Match filtering (R261). -/
def filterCandidate (c : Control) (dist : BitVec 16) (len : BitVec 9) : BitVec 16 × BitVec 9 :=
  if c.filterMatches = true ∧ len.toNat ≤ Config.filterLimit then (0, 0) else (dist, len)

/-- Hold the match (`dist`, `len`) that starts at the position being parsed (R262). -/
def holdMatch (dist : BitVec 16) (len : BitVec 9) (s : State) : State :=
  s.setDrv { s.drv with savedLit := winByte s.win.dict s.drv.lookaheadPos, savedDist := dist, savedLen := len }

/-- The decision (R262): the state after it and `move`. -/
def decideStep (dist : BitVec 16) (len : BitVec 9) (s : State) : State × Nat :=
  if s.drv.savedLen ≠ 0 then
    if s.drv.savedLen.toNat < len.toNat then (holdMatch dist len (opRecLit s.drv.savedLit s), 1)
    else
      let move := s.drv.savedLen.toNat - 1
      let s := opRecMatch s.drv.savedLen s.drv.savedDist s
      (s.setDrv { s.drv with savedLen := 0 }, move)
  else if dist = 0 then (opRecLit (winByte s.win.dict s.drv.lookaheadPos) s, 1)
  else if s.ctl.greedyParsing || s.ctl.rleMatches then (opRecMatch len dist s, len.toNat)
  else (holdMatch dist len s, 1)

/-- Advance by `move` bytes (R263). -/
def advance (move : Nat) (s : State) : State :=
  s.setDrv { s.drv with
    lookaheadPos := s.drv.lookaheadPos + BitVec.ofNat 32 move
    lookaheadSize := s.drv.lookaheadSize - BitVec.ofNat 9 move
    dictSize := BitVec.ofNat 16 (min (s.drv.dictSize.toNat + move) Config.windowSize) }

/-- DRV.PARSE_STEP (R260 to R263); an empty lookahead is refused (log entry 7). -/
def opDrvParseStep (s : State) : State :=
  if s.drv.lookaheadSize = 0 then s.refuse .emptyLookahead
  else
    let c := selectCandidate s
    let f := filterCandidate c.1.ctl c.2.1 c.2.2
    let d := decideStep f.1 f.2 c.1
    advance d.2 d.1

/-- The hand-over of the staged bytes (R266): to the sink, whose refusal raises PutBufFailed, or to the output slice,
suspending when they do not all fit. -/
def handOver (s : State) : State :=
  let n := s.enc.stagePos.toNat
  if n = 0 then s
  else if s.ctl.sinkMode then
    let t := sinkInvoked (Mem.readRun s.enc.stage 0 n) s
    if sinkAccepts s then t else raise .putBufFailed t
  else
    let k := min n (outRoom s)
    let t := deliver 0 k s
    if k < n then suspend k n t else t

/-- The block in the chosen type (R265). -/
def encodeBlock (bt : BlockType) (s : State) : State :=
  match bt with
  | .stored => opEncStored s
  | .static => opEncPayload (opEncStaticHdr s)
  | .dynamic => opEncPayload (opEncDynHdr s)

/-- What follows the block: the trailer after Finish, the marker after Sync and Full (R265). -/
def closeTail (fl : FlushMode) (s : State) : State :=
  match fl with
  | .finish => opEncTrailer s
  | .sync => opEncSyncMark s
  | .full => opEncSyncMark s
  | .none => s

/-- The start of DRV.CLOSE_BLOCK (R265): the cursors, the RFC1950 header of the first block, `BFINAL`, the EOB count. -/
def closeStart (fl : FlushMode) (s : State) : State :=
  let s := (s.setEnc { s.enc with stagePos := 0 }).setDrv { s.drv with flushOfs := 0 }
  let s := if s.ctl.writeZlibHeader = true ∧ s.ctl.blockIndex = 0 then opEncZlibHdr s else s
  let s := putFinal (fl == .finish) s
  s.setTable .litLen { s.huf.litLen with count := Mem.write s.huf.litLen.count 256 1 }

/-- The tables, the plan and the costs of DRV.CLOSE_BLOCK (R265). -/
def closePlan (s : State) : State := opEncCost (opEncClPlan (opHufBuild .dist (opHufBuild .litLen s)))

/-- The bookkeeping at the end of DRV.CLOSE_BLOCK (R265). -/
def closeBooks (s : State) : State :=
  let s := s.setHuf { s.huf with
    litLen := { s.huf.litLen with count := [] }, dist := { s.huf.dist with count := [] } }
  let s := s.setDrv { s.drv with blockStartPos := s.drv.blockStartPos + s.lz.totalLzBytes }
  let s := s.setLz { s.lz with lzCodeLen := 0, lzOpCount := 0, totalLzBytes := 0 }
  s.setCtl { s.ctl with blockIndex := s.ctl.blockIndex + 1 }

/-- The block encoded into `stage`, all of DRV.CLOSE_BLOCK but the hand-over (R265). -/
def stageBlock (fl : FlushMode) (s : State) : State :=
  let s := closePlan (closeStart fl s)
  closeBooks (closeTail fl (encodeBlock (chooseType s) s))

/-- DRV.CLOSE_BLOCK(fl) (R265); staged bytes pending are refused (log entry 7). -/
def opDrvCloseBlock (fl : FlushMode) (s : State) : State :=
  if s.drv.flushRemaining = 0 then handOver (stageBlock fl s) else s.refuse .stagePending

/-- DRV.DRAIN (R268): in slice mode, resume the delivery. -/
def opDrvDrain (s : State) : State := if s.ctl.sinkMode then s else resume s

/-- DRV.FILL (R256). -/
def execDrvFill (s : State) : Host.Outcome State Fault Refusal := settle (opDrvFill s)

/-- DRV.CATCHUP (R258). -/
def execDrvCatchup (s : State) : Host.Outcome State Fault Refusal := settle (opDrvCatchup s)

/-- DRV.PARSE_STEP (R260 to R263). -/
def execDrvParseStep (s : State) : Host.Outcome State Fault Refusal := settle (opDrvParseStep s)

/-- DRV.CLOSE_BLOCK (R265). -/
def execDrvCloseBlock (fl : FlushMode) (s : State) : Host.Outcome State Fault Refusal := settle (opDrvCloseBlock fl s)

/-- DRV.DRAIN (R268). -/
def execDrvDrain (s : State) : Host.Outcome State Fault Refusal := settle (opDrvDrain s)

/-- DRV.ADLER (R257). -/
def execDrvAdler (c : BitVec 8) (s : State) : Host.Outcome State Fault Refusal := settle (opDrvAdler c s)

end Sys2Proof.Machine
end

