-- ==== Sys2Proof/Machine/Command.lean ====
section
/-! DEFINITION. The host commands INIT and COMPRESS (44_driver.md). -/

namespace Sys2Proof.Machine

/-- The state INIT leaves (R34, R250): `dict`, `lz_code`, `lz_flags`, `stage` and the remaining Huffman arrays stay as
they are (R331, log entry 23). -/
def initState (flags : BitVec 20) (sink : Bool) (s : State) : State :=
  { s with
    win := { s.win with head := [], next := [] }
    lz := { s.lz with lzCodeLen := 0, lzOpCount := 0, totalLzBytes := 0 }
    huf := { s.huf with litLen := { s.huf.litLen with count := [] }, dist := { s.huf.dist with count := [] } }
    enc := { s.enc with bitBuffer := 0, bitsIn := 0, stagePos := 0 }
    drv := { lookaheadPos := 0, lookaheadSize := 0, dictSize := 0, insPos := 0, blockStartPos := 0, savedDist := 0,
             savedLen := 0, savedLit := 0, flushOfs := 0, flushRemaining := 0 }
    ctl := { flags := flags, maxProbes := probesOf flags, sinkMode := sink, inited := true, prevStatus := .okay,
             finished := false, wantsFinish := false, blockIndex := 0, adler32 := 1 } }

/-- INIT(flags, sink) (R250), answered `(Okay, 0, 0)` (R91). -/
def opInit (flags : BitVec 20) (sink : Bool) (s : State) : State := respond .okay 0 0 (initState flags sink s)

/-- Call setup (R253), with the per-call registers loaded from the command (R31). In sink mode `out_cap` is 0. -/
def callSetup (flush : BitVec 3) (inPresent outPresent : Bool) (inLen outCap : BitVec 32) (s : State) : State :=
  { s with
    call := { inLen := inLen, inPresent := inPresent, outCap := if s.ctl.sinkMode then 0 else outCap,
              outPresent := outPresent, flush := flush, srcPos := 0, outOfs := 0 }
    ctl := { s.ctl with wantsFinish := s.ctl.wantsFinish || flushMode flush == some .finish } }

/-- Is a block to be closed after a parse step (R264, conditions 1 and 2)? -/
def closeDue (s : State) : Bool :=
  decide (Config.lzCloseThreshold < s.lz.lzCodeLen.toNat)
  || (s.ctl.forceRaw && decide (Config.rawBlockLimit < s.lz.totalLzBytes.toNat))

/-- Does the parse loop go on (R255, its condition)? -/
def parseMore (fl : FlushMode) (s : State) : Bool :=
  decide (0 < srcLeft s) || (fl != .none && decide (0 < s.drv.lookaheadSize.toNat))

/-- The parse loop (R255), at most `k` rounds. -/
def parseLoop (fl : FlushMode) : Nat → State → State
  | 0, s => s
  | k + 1, s =>
    if parseMore fl s then
      let s := opDrvCatchup (opDrvFill s)
      if fl = .none ∧ s.drv.lookaheadSize.toNat < Config.maxMatch then s
      else
        let s := opDrvParseStep s
        if closeDue s then
          let s := opDrvCloseBlock .none s
          if raised s = true ∨ s.drv.flushRemaining ≠ 0 then s else parseLoop fl k s
        else parseLoop fl k s
    else s

/-- How many rounds the parse loop can make: every round but one that leaves the loop parses at least one byte, of the
input left and the lookahead (R255, R263). -/
def parseBound (s : State) : Nat := srcLeft s + s.drv.lookaheadSize.toNat

/-- The flush at the end of the call (R267). -/
def endFlush (fl : FlushMode) (s : State) : State :=
  if fl ≠ .none ∧ s.drv.lookaheadSize = 0 ∧ srcLeft s = 0 ∧ s.drv.flushRemaining = 0 then
    let s := opDrvCloseBlock fl s
    if raised s then s
    else
      match fl with
      | .finish => s.setCtl { s.ctl with finished := true }
      | .full => opDictResetChains s
      | _ => s
  else s

/-- The status of an accepted call (R268). -/
def callStatus (s : State) : Status := if s.ctl.finished = true ∧ s.drv.flushRemaining = 0 then .done else .okay

/-- Step 6 of a call (R251, R268): DRV.DRAIN, the status, the response. -/
def finishCall (s : State) : State :=
  let s := opDrvDrain s
  raise (callStatus s) s

/-- Steps 3 to 6 of an accepted call (R251): drain only (R254), or parse, flush and answer. -/
def callBody (fl : FlushMode) (s : State) : State :=
  if s.drv.flushRemaining ≠ 0 ∨ s.ctl.finished = true then finishCall s
  else
    let s := parseLoop fl (parseBound s) s
    if raised s then s
    else
      let s := endFlush fl s
      if raised s then s else finishCall s

/-- COMPRESS (R251): the parameter checks (R252), then the call. -/
def compressCall (flush : BitVec 3) (inPresent outPresent : Bool) (inLen outCap : BitVec 32) (s : State) : State :=
  if badParam flush inPresent outPresent inLen s then raise .badParam s
  else
    match flushMode flush with
    | none => raise .badParam s
    | some fl => callBody fl (callSetup flush inPresent outPresent inLen outCap s)

/-- INIT (R250). -/
def execInit (flags : BitVec 20) (sink : Bool) (s : State) : Host.Outcome State Fault Refusal :=
  settle (opInit flags sink s)

/-- COMPRESS, any flush value (R251): the reserved ones are answered BadParam (R93, R252). -/
def execCompress (flush : BitVec 3) (inPresent outPresent : Bool) (inLen outCap : BitVec 32) (s : State) :
    Host.Outcome State Fault Refusal :=
  settle (compressCall flush inPresent outPresent inLen outCap s)

/-- COMPRESS with flush mode None (R251, R259). -/
def execCompressNone (inPresent outPresent : Bool) (inLen outCap : BitVec 32) (s : State) :
    Host.Outcome State Fault Refusal :=
  settle (compressCall (flushField .none) inPresent outPresent inLen outCap s)

/-- COMPRESS with flush mode Sync (R251, R267). -/
def execCompressSync (inPresent outPresent : Bool) (inLen outCap : BitVec 32) (s : State) :
    Host.Outcome State Fault Refusal :=
  settle (compressCall (flushField .sync) inPresent outPresent inLen outCap s)

/-- COMPRESS with flush mode Full (R251, R267). -/
def execCompressFull (inPresent outPresent : Bool) (inLen outCap : BitVec 32) (s : State) :
    Host.Outcome State Fault Refusal :=
  settle (compressCall (flushField .full) inPresent outPresent inLen outCap s)

/-- COMPRESS with flush mode Finish (R251, R267). -/
def execCompressFinish (inPresent outPresent : Bool) (inLen outCap : BitVec 32) (s : State) :
    Host.Outcome State Fault Refusal :=
  settle (compressCall (flushField .finish) inPresent outPresent inLen outCap s)

end Sys2Proof.Machine
end

