-- ==== Sys2Proof/Machine/LitLenSym.lean ====
section
/-! DEFINITION. The literal/length symbols of the output (R98, R106): the symbol's code, then its extra bits. -/

namespace Sys2Proof.Machine

/-- SYM.LITERAL (R98, R106). -/
def execSymLiteral (byte : BitVec 8) (s : State) : Host.Outcome State Fault Refusal :=
  settle (putSymbol .litLen byte.toNat 0 0 s)

/-- SYM.EOB (R98, R106). -/
def execSymEob (s : State) : Host.Outcome State Fault Refusal := settle (putSymbol .litLen 256 0 0 s)

/-- SYM.LEN257 (R98, R106). -/
def execSymLen257 (s : State) : Host.Outcome State Fault Refusal := settle (putSymbol .litLen 257 0 0 s)

/-- SYM.LEN258 (R98, R106). -/
def execSymLen258 (s : State) : Host.Outcome State Fault Refusal := settle (putSymbol .litLen 258 0 0 s)

/-- SYM.LEN259 (R98, R106). -/
def execSymLen259 (s : State) : Host.Outcome State Fault Refusal := settle (putSymbol .litLen 259 0 0 s)

/-- SYM.LEN260 (R98, R106). -/
def execSymLen260 (s : State) : Host.Outcome State Fault Refusal := settle (putSymbol .litLen 260 0 0 s)

/-- SYM.LEN261 (R98, R106). -/
def execSymLen261 (s : State) : Host.Outcome State Fault Refusal := settle (putSymbol .litLen 261 0 0 s)

/-- SYM.LEN262 (R98, R106). -/
def execSymLen262 (s : State) : Host.Outcome State Fault Refusal := settle (putSymbol .litLen 262 0 0 s)

/-- SYM.LEN263 (R98, R106). -/
def execSymLen263 (s : State) : Host.Outcome State Fault Refusal := settle (putSymbol .litLen 263 0 0 s)

/-- SYM.LEN264 (R98, R106). -/
def execSymLen264 (s : State) : Host.Outcome State Fault Refusal := settle (putSymbol .litLen 264 0 0 s)

/-- SYM.LEN265 (R98, R106). -/
def execSymLen265 (extra : BitVec 1) (s : State) : Host.Outcome State Fault Refusal :=
  settle (putSymbol .litLen 265 extra.toNat 1 s)

/-- SYM.LEN266 (R98, R106). -/
def execSymLen266 (extra : BitVec 1) (s : State) : Host.Outcome State Fault Refusal :=
  settle (putSymbol .litLen 266 extra.toNat 1 s)

/-- SYM.LEN267 (R98, R106). -/
def execSymLen267 (extra : BitVec 1) (s : State) : Host.Outcome State Fault Refusal :=
  settle (putSymbol .litLen 267 extra.toNat 1 s)

/-- SYM.LEN268 (R98, R106). -/
def execSymLen268 (extra : BitVec 1) (s : State) : Host.Outcome State Fault Refusal :=
  settle (putSymbol .litLen 268 extra.toNat 1 s)

/-- SYM.LEN269 (R98, R106). -/
def execSymLen269 (extra : BitVec 2) (s : State) : Host.Outcome State Fault Refusal :=
  settle (putSymbol .litLen 269 extra.toNat 2 s)

/-- SYM.LEN270 (R98, R106). -/
def execSymLen270 (extra : BitVec 2) (s : State) : Host.Outcome State Fault Refusal :=
  settle (putSymbol .litLen 270 extra.toNat 2 s)

/-- SYM.LEN271 (R98, R106). -/
def execSymLen271 (extra : BitVec 2) (s : State) : Host.Outcome State Fault Refusal :=
  settle (putSymbol .litLen 271 extra.toNat 2 s)

/-- SYM.LEN272 (R98, R106). -/
def execSymLen272 (extra : BitVec 2) (s : State) : Host.Outcome State Fault Refusal :=
  settle (putSymbol .litLen 272 extra.toNat 2 s)

/-- SYM.LEN273 (R98, R106). -/
def execSymLen273 (extra : BitVec 3) (s : State) : Host.Outcome State Fault Refusal :=
  settle (putSymbol .litLen 273 extra.toNat 3 s)

/-- SYM.LEN274 (R98, R106). -/
def execSymLen274 (extra : BitVec 3) (s : State) : Host.Outcome State Fault Refusal :=
  settle (putSymbol .litLen 274 extra.toNat 3 s)

/-- SYM.LEN275 (R98, R106). -/
def execSymLen275 (extra : BitVec 3) (s : State) : Host.Outcome State Fault Refusal :=
  settle (putSymbol .litLen 275 extra.toNat 3 s)

/-- SYM.LEN276 (R98, R106). -/
def execSymLen276 (extra : BitVec 3) (s : State) : Host.Outcome State Fault Refusal :=
  settle (putSymbol .litLen 276 extra.toNat 3 s)

/-- SYM.LEN277 (R98, R106). -/
def execSymLen277 (extra : BitVec 4) (s : State) : Host.Outcome State Fault Refusal :=
  settle (putSymbol .litLen 277 extra.toNat 4 s)

/-- SYM.LEN278 (R98, R106). -/
def execSymLen278 (extra : BitVec 4) (s : State) : Host.Outcome State Fault Refusal :=
  settle (putSymbol .litLen 278 extra.toNat 4 s)

/-- SYM.LEN279 (R98, R106). -/
def execSymLen279 (extra : BitVec 4) (s : State) : Host.Outcome State Fault Refusal :=
  settle (putSymbol .litLen 279 extra.toNat 4 s)

/-- SYM.LEN280 (R98, R106). -/
def execSymLen280 (extra : BitVec 4) (s : State) : Host.Outcome State Fault Refusal :=
  settle (putSymbol .litLen 280 extra.toNat 4 s)

/-- SYM.LEN281 (R98, R106). -/
def execSymLen281 (extra : BitVec 5) (s : State) : Host.Outcome State Fault Refusal :=
  settle (putSymbol .litLen 281 extra.toNat 5 s)

/-- SYM.LEN282 (R98, R106). -/
def execSymLen282 (extra : BitVec 5) (s : State) : Host.Outcome State Fault Refusal :=
  settle (putSymbol .litLen 282 extra.toNat 5 s)

/-- SYM.LEN283 (R98, R106). -/
def execSymLen283 (extra : BitVec 5) (s : State) : Host.Outcome State Fault Refusal :=
  settle (putSymbol .litLen 283 extra.toNat 5 s)

/-- SYM.LEN284 (R98, R106); the extra value 31 would be length 258, which is never sent so: refused (log entry 24). -/
def execSymLen284 (extra : BitVec 5) (s : State) : Host.Outcome State Fault Refusal :=
  settle (if (Instr.symLen284 extra).wf then putSymbol .litLen 284 extra.toNat 5 s else s.refuse .operandRange)

/-- SYM.LEN285 (R98, R106). -/
def execSymLen285 (s : State) : Host.Outcome State Fault Refusal := settle (putSymbol .litLen 285 0 0 s)

end Sys2Proof.Machine
end

