-- ==== Sys2Proof/Machine/DistSym.lean ====
section
/-! DEFINITION. The distance symbols of the output (R99, R106): the symbol's code, then its extra bits. -/

namespace Sys2Proof.Machine

/-- SYM.DIST0 (R99, R106). -/
def execSymDist0 (s : State) : Host.Outcome State Fault Refusal := settle (putSymbol .dist 0 0 0 s)

/-- SYM.DIST1 (R99, R106). -/
def execSymDist1 (s : State) : Host.Outcome State Fault Refusal := settle (putSymbol .dist 1 0 0 s)

/-- SYM.DIST2 (R99, R106). -/
def execSymDist2 (s : State) : Host.Outcome State Fault Refusal := settle (putSymbol .dist 2 0 0 s)

/-- SYM.DIST3 (R99, R106). -/
def execSymDist3 (s : State) : Host.Outcome State Fault Refusal := settle (putSymbol .dist 3 0 0 s)

/-- SYM.DIST4 (R99, R106). -/
def execSymDist4 (extra : BitVec 1) (s : State) : Host.Outcome State Fault Refusal :=
  settle (putSymbol .dist 4 extra.toNat 1 s)

/-- SYM.DIST5 (R99, R106). -/
def execSymDist5 (extra : BitVec 1) (s : State) : Host.Outcome State Fault Refusal :=
  settle (putSymbol .dist 5 extra.toNat 1 s)

/-- SYM.DIST6 (R99, R106). -/
def execSymDist6 (extra : BitVec 2) (s : State) : Host.Outcome State Fault Refusal :=
  settle (putSymbol .dist 6 extra.toNat 2 s)

/-- SYM.DIST7 (R99, R106). -/
def execSymDist7 (extra : BitVec 2) (s : State) : Host.Outcome State Fault Refusal :=
  settle (putSymbol .dist 7 extra.toNat 2 s)

/-- SYM.DIST8 (R99, R106). -/
def execSymDist8 (extra : BitVec 3) (s : State) : Host.Outcome State Fault Refusal :=
  settle (putSymbol .dist 8 extra.toNat 3 s)

/-- SYM.DIST9 (R99, R106). -/
def execSymDist9 (extra : BitVec 3) (s : State) : Host.Outcome State Fault Refusal :=
  settle (putSymbol .dist 9 extra.toNat 3 s)

/-- SYM.DIST10 (R99, R106). -/
def execSymDist10 (extra : BitVec 4) (s : State) : Host.Outcome State Fault Refusal :=
  settle (putSymbol .dist 10 extra.toNat 4 s)

/-- SYM.DIST11 (R99, R106). -/
def execSymDist11 (extra : BitVec 4) (s : State) : Host.Outcome State Fault Refusal :=
  settle (putSymbol .dist 11 extra.toNat 4 s)

/-- SYM.DIST12 (R99, R106). -/
def execSymDist12 (extra : BitVec 5) (s : State) : Host.Outcome State Fault Refusal :=
  settle (putSymbol .dist 12 extra.toNat 5 s)

/-- SYM.DIST13 (R99, R106). -/
def execSymDist13 (extra : BitVec 5) (s : State) : Host.Outcome State Fault Refusal :=
  settle (putSymbol .dist 13 extra.toNat 5 s)

/-- SYM.DIST14 (R99, R106). -/
def execSymDist14 (extra : BitVec 6) (s : State) : Host.Outcome State Fault Refusal :=
  settle (putSymbol .dist 14 extra.toNat 6 s)

/-- SYM.DIST15 (R99, R106). -/
def execSymDist15 (extra : BitVec 6) (s : State) : Host.Outcome State Fault Refusal :=
  settle (putSymbol .dist 15 extra.toNat 6 s)

/-- SYM.DIST16 (R99, R106). -/
def execSymDist16 (extra : BitVec 7) (s : State) : Host.Outcome State Fault Refusal :=
  settle (putSymbol .dist 16 extra.toNat 7 s)

/-- SYM.DIST17 (R99, R106). -/
def execSymDist17 (extra : BitVec 7) (s : State) : Host.Outcome State Fault Refusal :=
  settle (putSymbol .dist 17 extra.toNat 7 s)

/-- SYM.DIST18 (R99, R106). -/
def execSymDist18 (extra : BitVec 8) (s : State) : Host.Outcome State Fault Refusal :=
  settle (putSymbol .dist 18 extra.toNat 8 s)

/-- SYM.DIST19 (R99, R106). -/
def execSymDist19 (extra : BitVec 8) (s : State) : Host.Outcome State Fault Refusal :=
  settle (putSymbol .dist 19 extra.toNat 8 s)

/-- SYM.DIST20 (R99, R106). -/
def execSymDist20 (extra : BitVec 9) (s : State) : Host.Outcome State Fault Refusal :=
  settle (putSymbol .dist 20 extra.toNat 9 s)

/-- SYM.DIST21 (R99, R106). -/
def execSymDist21 (extra : BitVec 9) (s : State) : Host.Outcome State Fault Refusal :=
  settle (putSymbol .dist 21 extra.toNat 9 s)

/-- SYM.DIST22 (R99, R106). -/
def execSymDist22 (extra : BitVec 10) (s : State) : Host.Outcome State Fault Refusal :=
  settle (putSymbol .dist 22 extra.toNat 10 s)

/-- SYM.DIST23 (R99, R106). -/
def execSymDist23 (extra : BitVec 10) (s : State) : Host.Outcome State Fault Refusal :=
  settle (putSymbol .dist 23 extra.toNat 10 s)

/-- SYM.DIST24 (R99, R106). -/
def execSymDist24 (extra : BitVec 11) (s : State) : Host.Outcome State Fault Refusal :=
  settle (putSymbol .dist 24 extra.toNat 11 s)

/-- SYM.DIST25 (R99, R106). -/
def execSymDist25 (extra : BitVec 11) (s : State) : Host.Outcome State Fault Refusal :=
  settle (putSymbol .dist 25 extra.toNat 11 s)

/-- SYM.DIST26 (R99, R106). -/
def execSymDist26 (extra : BitVec 12) (s : State) : Host.Outcome State Fault Refusal :=
  settle (putSymbol .dist 26 extra.toNat 12 s)

/-- SYM.DIST27 (R99, R106). -/
def execSymDist27 (extra : BitVec 12) (s : State) : Host.Outcome State Fault Refusal :=
  settle (putSymbol .dist 27 extra.toNat 12 s)

/-- SYM.DIST28 (R99, R106). -/
def execSymDist28 (extra : BitVec 13) (s : State) : Host.Outcome State Fault Refusal :=
  settle (putSymbol .dist 28 extra.toNat 13 s)

/-- SYM.DIST29 (R99, R106). -/
def execSymDist29 (extra : BitVec 13) (s : State) : Host.Outcome State Fault Refusal :=
  settle (putSymbol .dist 29 extra.toNat 13 s)

end Sys2Proof.Machine
end

