-- ==== Sys2Proof/Machine/CodeLenSym.lean ====
section
/-! DEFINITION. The code-length symbols of the output (R101, R105): the symbol's code, then its extra bits. -/

namespace Sys2Proof.Machine

/-- SYM.CL0 (R101, R105). -/
def execSymCl0 (s : State) : Host.Outcome State Fault Refusal := settle (putSymbol .codeLen 0 0 0 s)

/-- SYM.CL1 (R101, R105). -/
def execSymCl1 (s : State) : Host.Outcome State Fault Refusal := settle (putSymbol .codeLen 1 0 0 s)

/-- SYM.CL2 (R101, R105). -/
def execSymCl2 (s : State) : Host.Outcome State Fault Refusal := settle (putSymbol .codeLen 2 0 0 s)

/-- SYM.CL3 (R101, R105). -/
def execSymCl3 (s : State) : Host.Outcome State Fault Refusal := settle (putSymbol .codeLen 3 0 0 s)

/-- SYM.CL4 (R101, R105). -/
def execSymCl4 (s : State) : Host.Outcome State Fault Refusal := settle (putSymbol .codeLen 4 0 0 s)

/-- SYM.CL5 (R101, R105). -/
def execSymCl5 (s : State) : Host.Outcome State Fault Refusal := settle (putSymbol .codeLen 5 0 0 s)

/-- SYM.CL6 (R101, R105). -/
def execSymCl6 (s : State) : Host.Outcome State Fault Refusal := settle (putSymbol .codeLen 6 0 0 s)

/-- SYM.CL7 (R101, R105). -/
def execSymCl7 (s : State) : Host.Outcome State Fault Refusal := settle (putSymbol .codeLen 7 0 0 s)

/-- SYM.CL8 (R101, R105). -/
def execSymCl8 (s : State) : Host.Outcome State Fault Refusal := settle (putSymbol .codeLen 8 0 0 s)

/-- SYM.CL9 (R101, R105). -/
def execSymCl9 (s : State) : Host.Outcome State Fault Refusal := settle (putSymbol .codeLen 9 0 0 s)

/-- SYM.CL10 (R101, R105). -/
def execSymCl10 (s : State) : Host.Outcome State Fault Refusal := settle (putSymbol .codeLen 10 0 0 s)

/-- SYM.CL11 (R101, R105). -/
def execSymCl11 (s : State) : Host.Outcome State Fault Refusal := settle (putSymbol .codeLen 11 0 0 s)

/-- SYM.CL12 (R101, R105). -/
def execSymCl12 (s : State) : Host.Outcome State Fault Refusal := settle (putSymbol .codeLen 12 0 0 s)

/-- SYM.CL13 (R101, R105). -/
def execSymCl13 (s : State) : Host.Outcome State Fault Refusal := settle (putSymbol .codeLen 13 0 0 s)

/-- SYM.CL14 (R101, R105). -/
def execSymCl14 (s : State) : Host.Outcome State Fault Refusal := settle (putSymbol .codeLen 14 0 0 s)

/-- SYM.CL15 (R101, R105). -/
def execSymCl15 (s : State) : Host.Outcome State Fault Refusal := settle (putSymbol .codeLen 15 0 0 s)

/-- SYM.CL16 (R101, R105). -/
def execSymCl16 (extra : BitVec 2) (s : State) : Host.Outcome State Fault Refusal :=
  settle (putSymbol .codeLen 16 extra.toNat 2 s)

/-- SYM.CL17 (R101, R105). -/
def execSymCl17 (extra : BitVec 3) (s : State) : Host.Outcome State Fault Refusal :=
  settle (putSymbol .codeLen 17 extra.toNat 3 s)

/-- SYM.CL18 (R101, R105). -/
def execSymCl18 (extra : BitVec 7) (s : State) : Host.Outcome State Fault Refusal :=
  settle (putSymbol .codeLen 18 extra.toNat 7 s)

end Sys2Proof.Machine
end

