-- ==== Sys2Proof/Machine/Stream.lean ====
section
/-! DEFINITION. The LZ records as ENC.PAYLOAD runs them (R97, R106), the block headers (R102) and the response statuses
(R94). What running a row of these kinds by itself does is read from the rules cited (log entry 15). -/

namespace Sys2Proof.Machine

/-- LIT: the literal's code (R106, R220). -/
def execLit (b : BitVec 8) (s : State) : Host.Outcome State Fault Refusal := settle (putLit b s)

/-- MATCH: the length symbol, its extra bits, the distance symbol, its extra bits (R106, R220). -/
def execMatchRec (l3 : BitVec 8) (d1 : BitVec 15) (s : State) : Host.Outcome State Fault Refusal :=
  settle (putMatch l3.toNat d1.toNat s)

/-- BLOCK.STORED: the header bits (R102). -/
def execBlockStored (bfinal : Bool) (s : State) : Host.Outcome State Fault Refusal :=
  settle (putHeader bfinal .stored s)

/-- BLOCK.STATIC: the header bits (R102). -/
def execBlockStatic (bfinal : Bool) (s : State) : Host.Outcome State Fault Refusal :=
  settle (putHeader bfinal .static s)

/-- BLOCK.DYNAMIC: the header bits (R102). -/
def execBlockDynamic (bfinal : Bool) (s : State) : Host.Outcome State Fault Refusal :=
  settle (putHeader bfinal .dynamic s)

/-- STATUS.Okay (R268). -/
def execStatusOkay (s : State) : Host.Outcome State Fault Refusal := settle (raise .okay s)

/-- STATUS.Done (R268). -/
def execStatusDone (s : State) : Host.Outcome State Fault Refusal := settle (raise .done s)

/-- STATUS.BadParam (R301). -/
def execStatusBadParam (s : State) : Host.Outcome State Fault Refusal := settle (raise .badParam s)

/-- STATUS.PutBufFailed (R302). -/
def execStatusPutBufFailed (s : State) : Host.Outcome State Fault Refusal := settle (raise .putBufFailed s)

end Sys2Proof.Machine
end

