-- ==== Sys2Proof/Machine/Dispatch.lean ====
section
/-! DEFINITION. The meaning of every instruction, one arm per constructor. -/

namespace Sys2Proof.Machine

def exec (i : Instr) (s : State) : Host.Outcome State Fault Refusal :=
  match i with
  | .init flags sink => Sys2Proof.Machine.execInit flags sink s
  | .compress flush inPresent outPresent inLen outCap => Sys2Proof.Machine.execCompress flush inPresent outPresent inLen outCap s
  | .compressNone inPresent outPresent inLen outCap => Sys2Proof.Machine.execCompressNone inPresent outPresent inLen outCap s
  | .compressSync inPresent outPresent inLen outCap => Sys2Proof.Machine.execCompressSync inPresent outPresent inLen outCap s
  | .compressFull inPresent outPresent inLen outCap => Sys2Proof.Machine.execCompressFull inPresent outPresent inLen outCap s
  | .compressFinish inPresent outPresent inLen outCap => Sys2Proof.Machine.execCompressFinish inPresent outPresent inLen outCap s
  | .dictWrite q c => Sys2Proof.Machine.execDictWrite q c s
  | .dictInsert q => Sys2Proof.Machine.execDictInsert q s
  | .dictFind p maxDist maxLen priorDist priorLen => Sys2Proof.Machine.execDictFind p maxDist maxLen priorDist priorLen s
  | .dictRle p maxLen => Sys2Proof.Machine.execDictRle p maxLen s
  | .dictResetChains => Sys2Proof.Machine.execDictResetChains s
  | .recLit b => Sys2Proof.Machine.execRecLit b s
  | .recMatch len dist => Sys2Proof.Machine.execRecMatch len dist s
  | .hufSort t => Sys2Proof.Machine.execHufSort t s
  | .hufMinred => Sys2Proof.Machine.execHufMinred s
  | .hufLimit limit => Sys2Proof.Machine.execHufLimit limit s
  | .hufAssignSizes t => Sys2Proof.Machine.execHufAssignSizes t s
  | .hufAssignCodes t => Sys2Proof.Machine.execHufAssignCodes t s
  | .hufBuild t => Sys2Proof.Machine.execHufBuild t s
  | .hufLoadStatic => Sys2Proof.Machine.execHufLoadStatic s
  | .encPutBits v n => Sys2Proof.Machine.execEncPutBits v n s
  | .encPad => Sys2Proof.Machine.execEncPad s
  | .encClPlan => Sys2Proof.Machine.execEncClPlan s
  | .encCost => Sys2Proof.Machine.execEncCost s
  | .encStored => Sys2Proof.Machine.execEncStored s
  | .encStaticHdr => Sys2Proof.Machine.execEncStaticHdr s
  | .encDynHdr => Sys2Proof.Machine.execEncDynHdr s
  | .encPayload => Sys2Proof.Machine.execEncPayload s
  | .encZlibHdr => Sys2Proof.Machine.execEncZlibHdr s
  | .encTrailer => Sys2Proof.Machine.execEncTrailer s
  | .encSyncMark => Sys2Proof.Machine.execEncSyncMark s
  | .drvFill => Sys2Proof.Machine.execDrvFill s
  | .drvCatchup => Sys2Proof.Machine.execDrvCatchup s
  | .drvParseStep => Sys2Proof.Machine.execDrvParseStep s
  | .drvCloseBlock fl => Sys2Proof.Machine.execDrvCloseBlock fl s
  | .drvDrain => Sys2Proof.Machine.execDrvDrain s
  | .drvAdler c => Sys2Proof.Machine.execDrvAdler c s
  | .lit b => Sys2Proof.Machine.execLit b s
  | .matchRec l3 d1 => Sys2Proof.Machine.execMatchRec l3 d1 s
  | .blockStored bfinal => Sys2Proof.Machine.execBlockStored bfinal s
  | .blockStatic bfinal => Sys2Proof.Machine.execBlockStatic bfinal s
  | .blockDynamic bfinal => Sys2Proof.Machine.execBlockDynamic bfinal s
  | .statusOkay => Sys2Proof.Machine.execStatusOkay s
  | .statusDone => Sys2Proof.Machine.execStatusDone s
  | .statusBadParam => Sys2Proof.Machine.execStatusBadParam s
  | .statusPutBufFailed => Sys2Proof.Machine.execStatusPutBufFailed s
  | .symLiteral byte => Sys2Proof.Machine.execSymLiteral byte s
  | .symEob => Sys2Proof.Machine.execSymEob s
  | .symLen257 => Sys2Proof.Machine.execSymLen257 s
  | .symLen258 => Sys2Proof.Machine.execSymLen258 s
  | .symLen259 => Sys2Proof.Machine.execSymLen259 s
  | .symLen260 => Sys2Proof.Machine.execSymLen260 s
  | .symLen261 => Sys2Proof.Machine.execSymLen261 s
  | .symLen262 => Sys2Proof.Machine.execSymLen262 s
  | .symLen263 => Sys2Proof.Machine.execSymLen263 s
  | .symLen264 => Sys2Proof.Machine.execSymLen264 s
  | .symLen265 extra => Sys2Proof.Machine.execSymLen265 extra s
  | .symLen266 extra => Sys2Proof.Machine.execSymLen266 extra s
  | .symLen267 extra => Sys2Proof.Machine.execSymLen267 extra s
  | .symLen268 extra => Sys2Proof.Machine.execSymLen268 extra s
  | .symLen269 extra => Sys2Proof.Machine.execSymLen269 extra s
  | .symLen270 extra => Sys2Proof.Machine.execSymLen270 extra s
  | .symLen271 extra => Sys2Proof.Machine.execSymLen271 extra s
  | .symLen272 extra => Sys2Proof.Machine.execSymLen272 extra s
  | .symLen273 extra => Sys2Proof.Machine.execSymLen273 extra s
  | .symLen274 extra => Sys2Proof.Machine.execSymLen274 extra s
  | .symLen275 extra => Sys2Proof.Machine.execSymLen275 extra s
  | .symLen276 extra => Sys2Proof.Machine.execSymLen276 extra s
  | .symLen277 extra => Sys2Proof.Machine.execSymLen277 extra s
  | .symLen278 extra => Sys2Proof.Machine.execSymLen278 extra s
  | .symLen279 extra => Sys2Proof.Machine.execSymLen279 extra s
  | .symLen280 extra => Sys2Proof.Machine.execSymLen280 extra s
  | .symLen281 extra => Sys2Proof.Machine.execSymLen281 extra s
  | .symLen282 extra => Sys2Proof.Machine.execSymLen282 extra s
  | .symLen283 extra => Sys2Proof.Machine.execSymLen283 extra s
  | .symLen284 extra => Sys2Proof.Machine.execSymLen284 extra s
  | .symLen285 => Sys2Proof.Machine.execSymLen285 s
  | .symDist0 => Sys2Proof.Machine.execSymDist0 s
  | .symDist1 => Sys2Proof.Machine.execSymDist1 s
  | .symDist2 => Sys2Proof.Machine.execSymDist2 s
  | .symDist3 => Sys2Proof.Machine.execSymDist3 s
  | .symDist4 extra => Sys2Proof.Machine.execSymDist4 extra s
  | .symDist5 extra => Sys2Proof.Machine.execSymDist5 extra s
  | .symDist6 extra => Sys2Proof.Machine.execSymDist6 extra s
  | .symDist7 extra => Sys2Proof.Machine.execSymDist7 extra s
  | .symDist8 extra => Sys2Proof.Machine.execSymDist8 extra s
  | .symDist9 extra => Sys2Proof.Machine.execSymDist9 extra s
  | .symDist10 extra => Sys2Proof.Machine.execSymDist10 extra s
  | .symDist11 extra => Sys2Proof.Machine.execSymDist11 extra s
  | .symDist12 extra => Sys2Proof.Machine.execSymDist12 extra s
  | .symDist13 extra => Sys2Proof.Machine.execSymDist13 extra s
  | .symDist14 extra => Sys2Proof.Machine.execSymDist14 extra s
  | .symDist15 extra => Sys2Proof.Machine.execSymDist15 extra s
  | .symDist16 extra => Sys2Proof.Machine.execSymDist16 extra s
  | .symDist17 extra => Sys2Proof.Machine.execSymDist17 extra s
  | .symDist18 extra => Sys2Proof.Machine.execSymDist18 extra s
  | .symDist19 extra => Sys2Proof.Machine.execSymDist19 extra s
  | .symDist20 extra => Sys2Proof.Machine.execSymDist20 extra s
  | .symDist21 extra => Sys2Proof.Machine.execSymDist21 extra s
  | .symDist22 extra => Sys2Proof.Machine.execSymDist22 extra s
  | .symDist23 extra => Sys2Proof.Machine.execSymDist23 extra s
  | .symDist24 extra => Sys2Proof.Machine.execSymDist24 extra s
  | .symDist25 extra => Sys2Proof.Machine.execSymDist25 extra s
  | .symDist26 extra => Sys2Proof.Machine.execSymDist26 extra s
  | .symDist27 extra => Sys2Proof.Machine.execSymDist27 extra s
  | .symDist28 extra => Sys2Proof.Machine.execSymDist28 extra s
  | .symDist29 extra => Sys2Proof.Machine.execSymDist29 extra s
  | .symCl0 => Sys2Proof.Machine.execSymCl0 s
  | .symCl1 => Sys2Proof.Machine.execSymCl1 s
  | .symCl2 => Sys2Proof.Machine.execSymCl2 s
  | .symCl3 => Sys2Proof.Machine.execSymCl3 s
  | .symCl4 => Sys2Proof.Machine.execSymCl4 s
  | .symCl5 => Sys2Proof.Machine.execSymCl5 s
  | .symCl6 => Sys2Proof.Machine.execSymCl6 s
  | .symCl7 => Sys2Proof.Machine.execSymCl7 s
  | .symCl8 => Sys2Proof.Machine.execSymCl8 s
  | .symCl9 => Sys2Proof.Machine.execSymCl9 s
  | .symCl10 => Sys2Proof.Machine.execSymCl10 s
  | .symCl11 => Sys2Proof.Machine.execSymCl11 s
  | .symCl12 => Sys2Proof.Machine.execSymCl12 s
  | .symCl13 => Sys2Proof.Machine.execSymCl13 s
  | .symCl14 => Sys2Proof.Machine.execSymCl14 s
  | .symCl15 => Sys2Proof.Machine.execSymCl15 s
  | .symCl16 extra => Sys2Proof.Machine.execSymCl16 extra s
  | .symCl17 extra => Sys2Proof.Machine.execSymCl17 extra s
  | .symCl18 extra => Sys2Proof.Machine.execSymCl18 extra s

end Sys2Proof.Machine
end

