-- ==== Sys2Proof/Machine/Fetch.lean ====
section
/-! DEFINITION. Taking the next request, and what a request that stands for no instruction does. -/

namespace Sys2Proof.Machine

/-- The oldest request, and the state with it taken: its slices and the sink's answers are presented (log entries 3,
12). -/
def fetch (s : State) : Option (Request × State) :=
  match s.host.requests with
  | [] => none
  | r :: rest =>
    some (r, s.setHost { s.host with requests := rest, inSlice := r.input, outSlice := r.output, sinkAnswers := r.answers })

/-- A request whose bits stand for no instruction: a reserved command opcode is answered BadParam (R110, R252 item 7),
any other is refused by name. -/
def rejected (e : DecodeError) (s : State) : Host.Outcome State Fault Refusal :=
  match e with
  | .reservedOpcode => settle (raise .badParam s)
  | e => .refused (.undecodable e)

/-- The request of the code space `sp` with the words `ws`, empty slices and no listed answer. -/
def requestOf (sp : Space) (ws : List (BitVec 32)) : Request :=
  { space := sp, words := ws, input := [], output := [], answers := [] }

/-- A request put before the pending ones. -/
def pushRequest (r : Request) (s : State) : State := s.setHost { s.host with requests := r :: s.host.requests }

end Sys2Proof.Machine
end

