-- ==== Sys2Proof/Machine/Step.lean ====
section
/-! DEFINITION. One step of the machine: take the oldest request, decode it, run it. -/

namespace Sys2Proof.Machine

/-- One step. A stopped instance answers nothing more (R303); with no request pending nothing happens ("the block does
nothing until commanded", R35); otherwise the oldest request is taken, decoded and run. -/
def step (s : State) : Host.Outcome State Fault Refusal :=
  match s.halt with
  | some _ => settle s
  | none =>
    match fetch s with
    | none => .next s
    | some (r, t) =>
      match decode r.space r.words with
      | .ok i => exec i t
      | .error e => rejected e t

/-- `s` with the row of the opcode table whose bits are `w` as its next request. -/
def State.withFetchWord (s : State) (nbits w : Nat) : State :=
  pushRequest (requestOf (tableRow nbits w).1 (tableRow nbits w).2) s

end Sys2Proof.Machine
end

