-- ==== Sys2Proof/Safety.lean ====
section
/-! DEFINITION. What counts as a safe state and a safe run, and the terms the statements use: canonical memories, the
invariants of the driver (10_state.md R33), and the bits an instruction appends to the output. -/

namespace Sys2Proof.Machine

/-- A memory in canonical form whose indices lie below its size `n` (R60). -/
def Mem.fits {w : Nat} (m : Mem w) (n : Nat) : Prop := Mem.wf m ∧ ∀ c ∈ m, c.1 < n

/-- A Huffman table of `n` symbols: canonical arrays, code lengths at most `limit` (R24). -/
structure HuffTable.Canonical (h : HuffTable) (n limit : Nat) : Prop where
  count : Mem.fits h.count n
  size : Mem.fits h.size n
  code : Mem.fits h.code n
  capped : ∀ c ∈ h.size, c.2.toNat ≤ limit

/-- Every memory and table of the state is in canonical form and holds no element beyond its size (R21 to R25, R60);
code lengths keep to their tables' limits (R24, R189 item 2). -/
structure State.Canonical (s : State) : Prop where
  dict : Mem.fits s.win.dict Config.dictBufSize
  head : Mem.fits s.win.head Config.hashSize
  next : Mem.fits s.win.next Config.windowSize
  lzCode : Mem.fits s.lz.lzCode Config.lzCodeBufSize
  lzFlags : Mem.fits s.lz.lzFlags Config.lzFlagBufSize
  stage : Mem.fits s.enc.stage Config.outStageSize
  table : ∀ t, (s.huf.get t).Canonical (numSyms t) (codeLimit t)
  input : Mem.wf s.host.inSlice
  output : Mem.wf s.host.outSlice
  requests : ∀ r ∈ s.host.requests, Mem.wf r.input ∧ Mem.wf r.output

/-- The bit accumulator between micro-operations (R33 item 8). -/
def Encoder.Sound (e : Encoder) : Prop := e.bitsIn.toNat ≤ 7 ∧ e.bitBuffer.toNat < 2 ^ e.bitsIn.toNat

/-- The mirror (R33 item 3, R61). -/
def Mirrored (d : Mem 8) : Prop := ∀ i < 257, Mem.read d (Config.windowSize + i) = Mem.read d i

/-- `lag`, the positions passed and not yet inserted (R33 item 9). -/
def lag (s : State) : Nat := (s.drv.lookaheadPos - s.drv.insPos).toNat

/-- The invariants of the driver (R33), with `lz_code_len` at most `cap`: 65528 between two commands (R162), 65531 after
a parse step. Items 4 and 6 of R33 speak of the bytes of the whole stream, which no state holds; they are not here, but for
what `RecordsHeld` says of the records. -/
structure Driving (cap : Nat) (s : State) : Prop where
  canonical : Mem.wf s.win.dict
  window : s.drv.dictSize.toNat + s.drv.lookaheadSize.toNat ≤ Config.windowSize
  ahead : s.drv.lookaheadSize.toNat ≤ Config.maxMatch
  mirror : Mirrored s.win.dict
  recorded : s.lz.lzCodeLen.toNat ≤ cap ∧ s.lz.lzOpCount.toNat ≤ s.lz.lzCodeLen.toNat
  span : s.drv.lookaheadPos - s.drv.blockStartPos = s.lz.totalLzBytes + (if s.drv.savedLen = 0 then 0 else 1)
  bits : s.enc.Sound
  staged : s.enc.stagePos.toNat ≤ Config.outStageSize
  behind : lag s ≤ 258
  pending : s.drv.flushRemaining ≠ 0 →
    s.drv.flushOfs.toNat + s.drv.flushRemaining.toNat = s.enc.stagePos.toNat
  sink : s.ctl.sinkMode = true → s.drv.flushRemaining = 0
  held : s.drv.savedLen ≠ 0 →
    s.ctl.greedyParsing = false ∧ s.ctl.rleMatches = false ∧ s.ctl.forceRaw = false
    ∧ 3 ≤ s.drv.savedLen.toNat ∧ s.drv.savedLen.toNat ≤ 258
    ∧ 1 ≤ s.drv.savedDist.toNat ∧ s.drv.savedDist.toNat ≤ 32768
    ∧ s.drv.savedLen.toNat - 1 ≤ s.drv.lookaheadSize.toNat

/-- Did the step not stop with a fault? -/
def faultFree : Host.Outcome State Fault Refusal → Bool
  | .fault _ => false
  | _ => true

/-- A safe run: none of the first `k` steps faults (R223, R303). -/
def SafeRun : Nat → State → Prop
  | 0, _ => True
  | k + 1, s => faultFree (step s) = true ∧ ∀ t, step s = .next t → SafeRun k t

/-! The bits of the output stream: a field is a value and its width, sent as ENC.PUT_BITS sends it (R67). -/

/-- A field of the bitstream: a value and how many bits carry it. -/
abbrev Field := Nat × Nat

/-- How many bits the fields have. -/
def bitCount (fs : List Field) : Nat := (fs.map Prod.snd).sum

/-- The fields as one number, the first in the low bits (R67). -/
def bitValue : List Field → Nat
  | [] => 0
  | f :: fs => f.1 + 2 ^ f.2 * bitValue fs

/-- Every field is one ENC.PUT_BITS takes (R210). -/
def FieldsFit (fs : List Field) : Prop := ∀ f ∈ fs, f.2 ≤ 16 ∧ f.1 < 2 ^ f.2

/-- Bytes as one number, the first the least significant. -/
def bytesValue : List (BitVec 8) → Nat
  | [] => 0
  | b :: bs => b.toNat + 256 * bytesValue bs

/-- The whole bytes the accumulator and the fields fill. -/
def wholeBytes (e : Encoder) (fs : List Field) : Nat := (e.bitsIn.toNat + bitCount fs) / 8

/-- The encoder can take the fields: the accumulator is sound, `stage` is canonical and has room for the whole bytes. -/
def Encoder.TakesBits (e : Encoder) (fs : List Field) : Prop :=
  e.Sound ∧ Mem.wf e.stage ∧ e.stagePos.toNat + wholeBytes e fs ≤ Config.outStageSize

/-- `e'` is `e` with the fields appended: whole bytes go to `stage` from `stage_pos` on, the rest stays in the
accumulator, nothing else of `stage` changes (R67, R210). -/
structure Encoder.Appended (e : Encoder) (fs : List Field) (e' : Encoder) : Prop where
  pos : e'.stagePos.toNat = e.stagePos.toNat + wholeBytes e fs
  bits : e'.bitsIn.toNat = (e.bitsIn.toNat + bitCount fs) % 8
  value : bytesValue (Mem.readRun e'.stage e.stagePos.toNat (wholeBytes e fs))
      + 256 ^ wholeBytes e fs * e'.bitBuffer.toNat
    = e.bitBuffer.toNat + 2 ^ e.bitsIn.toNat * bitValue fs
  small : e'.bitBuffer.toNat < 2 ^ e'.bitsIn.toNat
  frame : ∀ a, a < e.stagePos.toNat ∨ e'.stagePos.toNat ≤ a → Mem.read e'.stage a = Mem.read e.stage a
  canonical : Mem.wf e'.stage

/-- The zero bits to the next byte boundary when `b` bits are pending (R211). -/
def padBits (b : Nat) : Nat := (8 - b % 8) % 8

/-- The code of symbol `sym` of table `t` as a field (R220). -/
def codeField (s : State) (t : Table) (sym : Nat) : Field :=
  ((Mem.read (s.huf.get t).code sym).toNat, (Mem.read (s.huf.get t).size sym).toNat)

/-- The fields of a match with `l3 = length - 3` and `d1 = distance - 1` (R106, R220). -/
def matchFields (s : State) (l3 d1 : Nat) : List Field :=
  let s0 := lenSym (l3 + 3)
  let s1 := distSym (d1 + 1)
  [codeField s .litLen s0, (l3 % 2 ^ lenExtra s0, lenExtra s0),
   codeField s .dist s1, (d1 % 2 ^ distExtra s1, distExtra s1)]

/-- The flag bit of record `k` (R96). -/
def recordFlag (s : State) (k : Nat) : Bool := (Mem.read s.lz.lzFlags (k / 8)).toNat.testBit (k % 8)

/-- The fields of `n` records from ordinal `k` and index `pos` on (R97, R220). -/
def recordFields (s : State) : Nat → Nat → Nat → List Field
  | 0, _, _ => []
  | n + 1, k, pos =>
    if recordFlag s k then
      matchFields s (Mem.read s.lz.lzCode pos).toNat
          ((Mem.read s.lz.lzCode (pos + 1)).toNat + 256 * (Mem.read s.lz.lzCode (pos + 2)).toNat)
        ++ recordFields s n (k + 1) (pos + 3)
    else codeField s .litLen (Mem.read s.lz.lzCode pos).toNat :: recordFields s n (k + 1) (pos + 1)

/-- The index after `n` records from ordinal `k` and index `pos` on (R97). -/
def recordsEnd (s : State) : Nat → Nat → Nat → Nat
  | 0, _, pos => pos
  | n + 1, k, pos => recordsEnd s n (k + 1) (if recordFlag s k then pos + 3 else pos + 1)

/-- The fields of a stored block's body (R103, R217), `b` bits being pending: `BTYPE`, padding, `LEN`, `NLEN`, the data. -/
def storedFields (b : Nat) (bytes : List Nat) : List Field :=
  [(0, 2), (0, padBits (b + 2)), (bytes.length % 65536, 16), (65535 - bytes.length % 65536, 16)]
    ++ bytes.map fun v => (v, 8)

/-- The fields of the description of a dynamic block (R105, R219). -/
def dynamicFields (s : State) : List Field :=
  [(2, 2), (s.work.numLitCodes - 257, 5), (s.work.numDistCodes - 1, 5), (s.work.numBitLengths - 4, 4)]
    ++ ((clOrder.take s.work.numBitLengths).map fun c => ((Mem.read s.huf.codeLen.size c).toNat, 3))
    ++ s.work.packed.flatMap fun p => [codeField s .codeLen p.c, (p.extra, clExtra p.c)]

/-- The four trailer bytes, most significant first, when the header flag is set (R108, R221). -/
def trailerFields (c : Control) : List Field :=
  if c.writeZlibHeader then
    [(c.adler32.toNat / 2 ^ 24, 8), (c.adler32.toNat / 2 ^ 16 % 256, 8), (c.adler32.toNat / 2 ^ 8 % 256, 8),
     (c.adler32.toNat % 256, 8)]
  else []

/-- The flush marker, `b` bits being pending (R109, R222). -/
def markerFields (b : Nat) : List Field := [(0, 3), (0, padBits (b + 3)), (0, 16), (0xFFFF, 16)]

/-- How many bytes `n` records from ordinal `k` and index `pos` on cover: a LIT one, a MATCH its length (R163). -/
def recordsSpan (s : State) : Nat → Nat → Nat → Nat
  | 0, _, _ => 0
  | n + 1, k, pos =>
    if recordFlag s k then (Mem.read s.lz.lzCode pos).toNat + 3 + recordsSpan s n (k + 1) (pos + 3)
    else 1 + recordsSpan s n (k + 1) (pos + 1)

/-- The records fill `lz_code` up to `lz_code_len` and cover `total_lz_bytes` bytes (R97, R163): the part of R33 item 6 that
a state holds. -/
structure RecordsHeld (s : State) : Prop where
  code : Mem.wf s.lz.lzCode
  flags : Mem.wf s.lz.lzFlags
  ends : recordsEnd s s.lz.lzOpCount.toNat 0 0 = s.lz.lzCodeLen.toNat
  spans : recordsSpan s s.lz.lzOpCount.toNat 0 0 = s.lz.totalLzBytes.toNat

/-- The lengths a list of packed code lengths stands for, `prev` being the last one before it (R101). -/
def expandLengths : Nat → List PackEntry → List Nat
  | _, [] => []
  | prev, p :: ps =>
    if p.c < 16 then p.c :: expandLengths p.c ps
    else if p.c = 16 then List.replicate (p.extra + 3) prev ++ expandLengths prev ps
    else if p.c = 17 then List.replicate (p.extra + 3) 0 ++ expandLengths 0 ps
    else List.replicate (p.extra + 11) 0 ++ expandLengths 0 ps

/-- The Kraft sum of the first `n` symbols of a table, scaled by `2^limit` (R24, R189). -/
def kraftOf (size : Mem 8) (n limit : Nat) : Nat :=
  ((List.range n).map fun s =>
    if Mem.read size s = 0 then 0 else 2 ^ (limit - (Mem.read size s).toNat)).sum

/-- How many of the first `n` symbols have been counted. -/
def usedCount (count : Mem 16) (n : Nat) : Nat :=
  ((List.range n).filter fun s => decide (Mem.read count s ≠ 0)).length

/-- The natural code lengths of a table of `n` symbols: what HUF.MINRED makes of its counts (R182, R186). -/
def naturalOf (count : Mem 16) (n : Nat) : List Nat :=
  minred ((radixSort (collect count n)).map fun x => x.key.toNat)

/-- The natural code lengths of table `t` (R182, R186). -/
def naturalLengths (t : Table) (s : State) : List Nat := naturalOf (s.huf.get t).count (numSyms t)

/-- The counts of table 0 when a block of the literals `bytes` is closed: each byte as often as it occurs, EOB once (R160,
R265). -/
def literalCounts (bytes : List (BitVec 8)) : Mem 16 :=
  Mem.tabulate 288 fun a => if a = 256 then 1 else BitVec.ofNat 16 (bytes.countP fun b => b.toNat == a)

/-! The match search and the parse step (R143, R260 to R263). -/

/-- The distances a search at `p` examines, newest first, from the stored position `cand` on: the chain ends at a stored
0, at a distance of 0 or beyond `maxDist`, and when the budget is spent (R143). -/
def chainDistances (w : Window) (p : BitVec 32) (maxDist : Nat) : Nat → BitVec 16 → List (BitVec 16)
  | 0, _ => []
  | budget + 1, cand =>
    let d := p.setWidth 16 - cand
    if cand = 0 ∨ d = 0 ∨ maxDist < d.toNat then []
    else d :: chainDistances w p maxDist budget (Mem.read w.next (cand.toNat % 32768))

/-- The distances DICT.FIND examines at `p`: at most `MAX_PROBES` of the chain of the prefix hash (R143, R147). -/
def searched (s : State) (p : BitVec 32) (maxDist : Nat) : List (BitVec 16) :=
  chainDistances s.win p maxDist s.ctl.maxProbes.toNat (Mem.read s.win.head (hashAt s.win.dict (slotOf p)))

/-- `n` is how many of at most `maxLen` bytes from `p` on equal the bytes `dist` before them (R143, the inner loop). -/
structure RunAt (d : Mem 8) (p : BitVec 32) (dist : BitVec 16) (maxLen n : Nat) : Prop where
  bound : n ≤ maxLen
  same : ∀ k < n, winByte d (p - dist.setWidth 32 + BitVec.ofNat 32 k) = winByte d (p + BitVec.ofNat 32 k)
  ends : n < maxLen → winByte d (p - dist.setWidth 32 + BitVec.ofNat 32 n) ≠ winByte d (p + BitVec.ofNat 32 n)

/-- `(dist, len)` is the result of a search with at most `maxLen` bytes that is to beat the prior pair (R143): the longest
of the runs examined, the nearest of several so long, when it is longer than the prior one; else the prior pair. -/
def SearchResult (s : State) (p : BitVec 32) (maxDist maxLen : Nat) (priorDist : BitVec 16) (priorLen : BitVec 9)
    (dist : BitVec 16) (len : BitVec 9) : Prop :=
  if maxLen ≤ priorLen.toNat ∨ maxLen < 3 then dist = priorDist ∧ len = priorLen
  else
    (dist = priorDist ∧ len = priorLen
      ∧ ∀ c ∈ searched s p maxDist, ∀ n, RunAt s.win.dict p c maxLen n → n ≤ priorLen.toNat)
    ∨ ∃ before after, searched s p maxDist = before ++ dist :: after
      ∧ RunAt s.win.dict p dist maxLen len.toNat ∧ priorLen.toNat < len.toNat
      ∧ (∀ c ∈ before, ∀ n, RunAt s.win.dict p c maxLen n → n < len.toNat)
      ∧ ∀ c ∈ after, ∀ n, RunAt s.win.dict p c maxLen n → n ≤ len.toNat

/-- The chains after the positions `q`, `q + 1`, ..., `n` of them, were inserted in this order (R142, R258). -/
def insertRun : Nat → BitVec 32 → Window → Window
  | 0, _, w => w
  | n + 1, q, w => insertRun n (q + 1) (chainInsert w q)

/-- The length a match must beat: the held one's, else 2 (R260). -/
def lengthToBeat (s : State) : BitVec 9 := if s.drv.savedLen = 0 then 2 else s.drv.savedLen

/-- `(dist, len)` is the candidate R260 selects: none in forced-raw mode, a run in RLE mode, else what DICT.FIND gives. -/
def Candidate (s : State) (dist : BitVec 16) (len : BitVec 9) : Prop :=
  if s.ctl.forceRaw = true ∨ s.ctl.rleMatches = true ∧ s.drv.dictSize = 0 then dist = 0 ∧ len = lengthToBeat s
  else if s.ctl.rleMatches = true then
    ∃ u, exec (.dictRle s.drv.lookaheadPos s.drv.lookaheadSize) s = .next u
      ∧ (if u.work.rleLen.toNat < 3 then dist = 0 ∧ len = 0 else dist = 1 ∧ len = u.work.rleLen)
  else
    ∃ u, exec (.dictFind s.drv.lookaheadPos s.drv.dictSize s.drv.lookaheadSize 0 (lengthToBeat s)) s = .next u
      ∧ dist = u.work.findDist ∧ len = u.work.findLen

/-- `(dist, len)` is the candidate after the match filter of R261. -/
def Filtered (s : State) (dist : BitVec 16) (len : BitVec 9) : Prop :=
  ∃ d l, Candidate s d l
    ∧ if s.ctl.filterMatches = true ∧ l.toNat ≤ 5 then dist = 0 ∧ len = 0 else dist = d ∧ len = l

/-- From `s` to `t` the recorder and the counts changed as the record `i` changes them (R160, R161). -/
def Records (i : Instr) (s t : State) : Prop := ∃ u, exec i s = .next u ∧ t.lz = u.lz ∧ t.huf = u.huf

/-- The registers of DRV after an advance by `move` with the match `(dist, len)` and the literal `lit` held (R262, R263). -/
def advanced (move : Nat) (dist : BitVec 16) (len : BitVec 9) (lit : BitVec 8) (d : Driver) : Driver :=
  { d with
    lookaheadPos := d.lookaheadPos + BitVec.ofNat 32 move
    lookaheadSize := d.lookaheadSize - BitVec.ofNat 9 move
    dictSize := BitVec.ofNat 16 (min (d.dictSize.toNat + move) 32768)
    savedDist := dist, savedLen := len, savedLit := lit }

/-! The steps of DRV.CLOSE_BLOCK as instructions (R265). -/

/-- Instructions run one after another, each on the state the one before it leaves. -/
def runAll : List Instr → State → Host.Outcome State Fault Refusal
  | [], s => .next s
  | i :: is, s =>
    match exec i s with
    | .next t => runAll is t
    | o => o

/-- What is emitted before the tables are built: the stream header of a first block, `BFINAL` (R212, R213). -/
def headInstrs (fl : FlushMode) (s : State) : List Instr :=
  (if s.ctl.writeZlibHeader = true ∧ s.ctl.blockIndex = 0 then [.encZlibHdr] else [])
    ++ [.encPutBits (if fl = .finish then 1 else 0) 1]

/-- The emitters of a block of the chosen type (R265). -/
def bodyInstrs : BlockType → List Instr
  | .stored => [.encStored]
  | .static => [.encStaticHdr, .encPayload]
  | .dynamic => [.encDynHdr, .encPayload]

/-- What follows the block (R265). -/
def tailInstrs : FlushMode → List Instr
  | .none => []
  | .sync => [.encSyncMark]
  | .full => [.encSyncMark]
  | .finish => [.encTrailer]

/-- From `s`, the steps of DRV.CLOSE_BLOCK up to the bookkeeping all complete and leave `u`: the head; with one EOB counted,
the two tables, the plan and the costs; the emitters of the chosen type and what follows the block (R265, R216). -/
def BlockStaged (fl : FlushMode) (s u : State) : Prop :=
  ∃ a b,
    runAll (headInstrs fl s) ((s.setEnc { s.enc with stagePos := 0 }).setDrv { s.drv with flushOfs := 0 }) = .next a
    ∧ runAll [.hufBuild .litLen, .hufBuild .dist, .encClPlan, .encCost]
        (a.setTable .litLen { a.huf.litLen with count := Mem.write a.huf.litLen.count 256 1 }) = .next b
    ∧ runAll (bodyInstrs (chooseType b) ++ tailInstrs fl) b = .next u

/-! A call of COMPRESS as instructions (R251). -/

/-- An accepted call, begun (R253). -/
def callBegun (fl : FlushMode) (ip op : Bool) (il oc : BitVec 32) (s : State) : State :=
  (s.setCall { inLen := il, inPresent := ip, outCap := if s.ctl.sinkMode then 0 else oc, outPresent := op,
               flush := flushField fl, srcPos := 0, outOfs := 0 }).setCtl
    { s.ctl with wantsFinish := s.ctl.wantsFinish || fl == .finish }

/-- The condition of the parse loop: input is left, or the call flushes and the lookahead is not empty (R255). -/
abbrev LoopGoesOn (fl : FlushMode) (s : State) : Prop :=
  s.call.srcPos.toNat < s.call.inLen.toNat ∨ fl ≠ .none ∧ s.drv.lookaheadSize ≠ 0

/-- The conditions 1 and 2 of R264 under which a block closes after a parse step. -/
abbrev BlockFull (s : State) : Prop :=
  65528 < s.lz.lzCodeLen.toNat ∨ s.ctl.forceRaw = true ∧ 31744 < s.lz.totalLzBytes.toNat

/-- From `s` to `u` one round of the parse loop up to DRV.PARSE_STEP: DRV.FILL and DRV.CATCHUP complete (R255). -/
def Filled (fl : FlushMode) (s u : State) : Prop := LoopGoesOn fl s ∧ runAll [.drvFill, .drvCatchup] s = .next u

/-- From `s` to `v` a round that parses: the lookahead is full or the call flushes, and DRV.PARSE_STEP completes (R255,
R259). -/
def Stepped (fl : FlushMode) (s v : State) : Prop :=
  ∃ u, Filled fl s u ∧ (fl = .none → 258 ≤ u.drv.lookaheadSize.toNat) ∧ exec .drvParseStep u = .next v

/-- The parse loop of R255 as instructions, from the state before it to the state after it. -/
inductive Parsed (fl : FlushMode) : State → State → Prop
  /-- The condition fails. -/
  | done {s} : ¬ LoopGoesOn fl s → Parsed fl s s
  /-- The first `break`: more input is needed (R259). -/
  | short {s u} : Filled fl s u → fl = .none → u.drv.lookaheadSize.toNat < 258 → Parsed fl s u
  /-- A round after which no block closes. -/
  | round {s v t} : Stepped fl s v → ¬ BlockFull v → Parsed fl v t → Parsed fl s t
  /-- A round after which a block closes and the loop goes on. -/
  | closed {s v w t} : Stepped fl s v → BlockFull v → exec (.drvCloseBlock .none) v = .next w →
      w.ctl.prevStatus ≠ .putBufFailed → w.drv.flushRemaining = 0 → Parsed fl w t → Parsed fl s t
  /-- The second `break`, and the sink's refusal, which ends the call. -/
  | full {s v w} : Stepped fl s v → BlockFull v → exec (.drvCloseBlock .none) v = .next w →
      w.ctl.prevStatus = .putBufFailed ∨ w.drv.flushRemaining ≠ 0 → Parsed fl s w

/-- The flush at the end of the call as instructions, from `u` to `w` (R267). -/
def Flushed (fl : FlushMode) (u w : State) : Prop :=
  if fl ≠ .none ∧ u.drv.lookaheadSize = 0 ∧ u.call.inLen.toNat ≤ u.call.srcPos.toNat ∧ u.drv.flushRemaining = 0 then
    ∃ v, exec (.drvCloseBlock fl) u = .next v
      ∧ if v.ctl.prevStatus = .putBufFailed then w = v
        else if fl = .finish then w = v.setCtl { v.ctl with finished := true }
        else if fl = .full then exec .dictResetChains v = .next w
        else w = v
  else w = u

/-- The end of the call as instructions, from `w` to `t`: DRV.DRAIN, the status, the response (R268). -/
def Answered (w t : State) : Prop :=
  ∃ x, exec .drvDrain w = .next x
    ∧ exec (if x.ctl.finished = true ∧ x.drv.flushRemaining = 0 then .statusDone else .statusOkay) x = .next t

/-- Steps 4 to 6 of a call as instructions, from `s` to `t`; a sink that refuses ends the call where it does (R251, R302). -/
def CallRuns (fl : FlushMode) (s t : State) : Prop :=
  ∃ u, Parsed fl s u
    ∧ if u.ctl.prevStatus = .putBufFailed then t = u
      else ∃ w, Flushed fl u w ∧ if w.ctl.prevStatus = .putBufFailed then t = w else Answered w t

/-! The instructions by their shape. -/

/-- The parts of a COMPRESS command: its flush field, `in_present`, `out_present`, `in_len`, `out_cap` (R90, R93). -/
def compressParts : Instr → Option (BitVec 3 × Bool × Bool × BitVec 32 × BitVec 32)
  | .compress f ip op il oc => some (f, ip, op, il, oc)
  | .compressNone ip op il oc => some (0, ip, op, il, oc)
  | .compressSync ip op il oc => some (2, ip, op, il, oc)
  | .compressFull ip op il oc => some (3, ip, op, il, oc)
  | .compressFinish ip op il oc => some (4, ip, op, il, oc)
  | _ => none

/-- The conditions 1 to 6 of R252 under which a COMPRESS is rejected. -/
def Rejected (f : BitVec 3) (ip op : Bool) (il : BitVec 32) (s : State) : Prop :=
  s.ctl.inited = false
  ∨ (f ≠ 0 ∧ f ≠ 2 ∧ f ≠ 3 ∧ f ≠ 4)
  ∨ s.ctl.prevStatus ≠ .okay
  ∨ (s.ctl.wantsFinish = true ∧ f ≠ 4)
  ∨ (s.ctl.sinkMode = true ∧ op = true ∨ s.ctl.sinkMode = false ∧ op = false)
  ∨ (ip = false ∧ il ≠ 0)

/-- The COMPRESS command of a flush mode (R93). -/
def compressOf (fl : FlushMode) (ip op : Bool) (il oc : BitVec 32) : Instr :=
  match fl with
  | .none => .compressNone ip op il oc
  | .sync => .compressSync ip op il oc
  | .full => .compressFull ip op il oc
  | .finish => .compressFinish ip op il oc

/-- The symbols of the three alphabets (R98, R99, R101): the table, the symbol, the extra value and its width. -/
def symbolParts : Instr → Option (Table × Nat × Nat × Nat)
  | .symLiteral byte => some (.litLen, byte.toNat, 0, 0)
  | .symEob => some (.litLen, 256, 0, 0)
  | .symLen257 => some (.litLen, 257, 0, 0)
  | .symLen258 => some (.litLen, 258, 0, 0)
  | .symLen259 => some (.litLen, 259, 0, 0)
  | .symLen260 => some (.litLen, 260, 0, 0)
  | .symLen261 => some (.litLen, 261, 0, 0)
  | .symLen262 => some (.litLen, 262, 0, 0)
  | .symLen263 => some (.litLen, 263, 0, 0)
  | .symLen264 => some (.litLen, 264, 0, 0)
  | .symLen265 x => some (.litLen, 265, x.toNat, 1)
  | .symLen266 x => some (.litLen, 266, x.toNat, 1)
  | .symLen267 x => some (.litLen, 267, x.toNat, 1)
  | .symLen268 x => some (.litLen, 268, x.toNat, 1)
  | .symLen269 x => some (.litLen, 269, x.toNat, 2)
  | .symLen270 x => some (.litLen, 270, x.toNat, 2)
  | .symLen271 x => some (.litLen, 271, x.toNat, 2)
  | .symLen272 x => some (.litLen, 272, x.toNat, 2)
  | .symLen273 x => some (.litLen, 273, x.toNat, 3)
  | .symLen274 x => some (.litLen, 274, x.toNat, 3)
  | .symLen275 x => some (.litLen, 275, x.toNat, 3)
  | .symLen276 x => some (.litLen, 276, x.toNat, 3)
  | .symLen277 x => some (.litLen, 277, x.toNat, 4)
  | .symLen278 x => some (.litLen, 278, x.toNat, 4)
  | .symLen279 x => some (.litLen, 279, x.toNat, 4)
  | .symLen280 x => some (.litLen, 280, x.toNat, 4)
  | .symLen281 x => some (.litLen, 281, x.toNat, 5)
  | .symLen282 x => some (.litLen, 282, x.toNat, 5)
  | .symLen283 x => some (.litLen, 283, x.toNat, 5)
  | .symLen284 x => some (.litLen, 284, x.toNat, 5)
  | .symLen285 => some (.litLen, 285, 0, 0)
  | .symDist0 => some (.dist, 0, 0, 0)
  | .symDist1 => some (.dist, 1, 0, 0)
  | .symDist2 => some (.dist, 2, 0, 0)
  | .symDist3 => some (.dist, 3, 0, 0)
  | .symDist4 x => some (.dist, 4, x.toNat, 1)
  | .symDist5 x => some (.dist, 5, x.toNat, 1)
  | .symDist6 x => some (.dist, 6, x.toNat, 2)
  | .symDist7 x => some (.dist, 7, x.toNat, 2)
  | .symDist8 x => some (.dist, 8, x.toNat, 3)
  | .symDist9 x => some (.dist, 9, x.toNat, 3)
  | .symDist10 x => some (.dist, 10, x.toNat, 4)
  | .symDist11 x => some (.dist, 11, x.toNat, 4)
  | .symDist12 x => some (.dist, 12, x.toNat, 5)
  | .symDist13 x => some (.dist, 13, x.toNat, 5)
  | .symDist14 x => some (.dist, 14, x.toNat, 6)
  | .symDist15 x => some (.dist, 15, x.toNat, 6)
  | .symDist16 x => some (.dist, 16, x.toNat, 7)
  | .symDist17 x => some (.dist, 17, x.toNat, 7)
  | .symDist18 x => some (.dist, 18, x.toNat, 8)
  | .symDist19 x => some (.dist, 19, x.toNat, 8)
  | .symDist20 x => some (.dist, 20, x.toNat, 9)
  | .symDist21 x => some (.dist, 21, x.toNat, 9)
  | .symDist22 x => some (.dist, 22, x.toNat, 10)
  | .symDist23 x => some (.dist, 23, x.toNat, 10)
  | .symDist24 x => some (.dist, 24, x.toNat, 11)
  | .symDist25 x => some (.dist, 25, x.toNat, 11)
  | .symDist26 x => some (.dist, 26, x.toNat, 12)
  | .symDist27 x => some (.dist, 27, x.toNat, 12)
  | .symDist28 x => some (.dist, 28, x.toNat, 13)
  | .symDist29 x => some (.dist, 29, x.toNat, 13)
  | .symCl0 => some (.codeLen, 0, 0, 0)
  | .symCl1 => some (.codeLen, 1, 0, 0)
  | .symCl2 => some (.codeLen, 2, 0, 0)
  | .symCl3 => some (.codeLen, 3, 0, 0)
  | .symCl4 => some (.codeLen, 4, 0, 0)
  | .symCl5 => some (.codeLen, 5, 0, 0)
  | .symCl6 => some (.codeLen, 6, 0, 0)
  | .symCl7 => some (.codeLen, 7, 0, 0)
  | .symCl8 => some (.codeLen, 8, 0, 0)
  | .symCl9 => some (.codeLen, 9, 0, 0)
  | .symCl10 => some (.codeLen, 10, 0, 0)
  | .symCl11 => some (.codeLen, 11, 0, 0)
  | .symCl12 => some (.codeLen, 12, 0, 0)
  | .symCl13 => some (.codeLen, 13, 0, 0)
  | .symCl14 => some (.codeLen, 14, 0, 0)
  | .symCl15 => some (.codeLen, 15, 0, 0)
  | .symCl16 x => some (.codeLen, 16, x.toNat, 2)
  | .symCl17 x => some (.codeLen, 17, x.toNat, 3)
  | .symCl18 x => some (.codeLen, 18, x.toNat, 7)
  | _ => none

/-- The instructions that append fixed fields, a record's or a header's (R102, R106, R211, R212, R221, R222). -/
def fixedFields (s : State) : Instr → Option (List Field)
  | .encPutBits v n => some [(v.toNat, n.toNat)]
  | .encPad => some [(0, padBits s.enc.bitsIn.toNat)]
  | .encZlibHdr => some [(0x78, 8), (Config.zlibFlg.toNat, 8)]
  | .encTrailer => some ((0, padBits s.enc.bitsIn.toNat) :: trailerFields s.ctl)
  | .encSyncMark => some (markerFields s.enc.bitsIn.toNat)
  | .lit b => some [codeField s .litLen b.toNat]
  | .matchRec l3 d1 => some (matchFields s l3.toNat d1.toNat)
  | .blockStored bfinal => some [(bfinal.toNat, 1), (0, 2)]
  | .blockStatic bfinal => some [(bfinal.toNat, 1), (1, 2)]
  | .blockDynamic bfinal => some [(bfinal.toNat, 1), (2, 2)]
  | _ => none

/-- The parts of the state, by unit. -/
inductive UnitName where
  | win | lz | huf | enc | drv | ctl | call | work | host | draws
deriving DecidableEq, Repr

/-- The parts of the state an instruction may write (the "written by" columns of R21 to R27, and the state each rule
lists; the draws of free values are the model's, log entry 26). -/
def writes : Instr → List UnitName
  | .init _ _ => [.win, .lz, .huf, .enc, .drv, .ctl, .host]
  | .compress _ _ _ _ _ | .compressNone _ _ _ _ | .compressSync _ _ _ _ | .compressFull _ _ _ _
  | .compressFinish _ _ _ _ => [.win, .lz, .huf, .enc, .drv, .ctl, .call, .work, .host, .draws]
  | .dictWrite _ _ | .dictInsert _ => [.win]
  | .dictFind _ _ _ _ _ | .dictRle _ _ => [.work, .draws]
  | .dictResetChains => [.win, .drv]
  | .recLit _ | .recMatch _ _ => [.lz, .huf]
  | .hufSort _ | .hufMinred | .hufLimit _ => [.work]
  | .hufAssignSizes _ | .hufAssignCodes _ | .hufLoadStatic => [.huf]
  | .hufBuild _ | .encClPlan => [.huf, .work]
  | .encCost => [.work]
  | .encStaticHdr => [.huf, .enc]
  | .drvFill => [.win, .drv, .ctl, .call]
  | .drvCatchup => [.win, .drv]
  | .drvParseStep => [.lz, .huf, .drv, .work, .draws]
  | .drvCloseBlock _ => [.lz, .huf, .enc, .drv, .ctl, .call, .work, .host, .draws]
  | .drvDrain => [.drv, .call, .host]
  | .drvAdler _ => [.ctl]
  | .statusOkay | .statusDone | .statusPutBufFailed => [.ctl, .host]
  | .statusBadParam => [.host]
  | .encPad | .encStored | .encZlibHdr | .encTrailer | .encSyncMark | .blockStored _ | .blockStatic _
  | .blockDynamic _ => [.enc]
  | _ => [.enc, .draws]

/-- A state between two blocks: nothing in the lookahead, no record, no count, nothing staged. -/
structure Quiet (s : State) : Prop where
  running : s.halt = none
  empty : s.drv.lookaheadSize = 0
  span : s.drv.lookaheadPos = s.drv.blockStartPos
  records : s.lz.lzOpCount = 0 ∧ s.lz.totalLzBytes = 0
  counts : s.huf.litLen.count = [] ∧ s.huf.dist.count = []
  bits : s.enc.Sound
  stage : Mem.wf s.enc.stage
  pending : s.drv.flushRemaining = 0

/-- The fields of a block without a record, closed with `fl` (R265): the stream header before the first block, `BFINAL`,
an empty stored block in forced-raw mode and an empty static block otherwise, the trailer or the marker. -/
def emptyBlockFields (s : State) (fl : FlushMode) : List Field :=
  let b := s.enc.bitsIn.toNat + 1
  let body := if s.ctl.forceRaw then storedFields b [] else [(1, 2), (0, 7)]
  let after := b + bitCount body
  (if s.ctl.writeZlibHeader = true ∧ s.ctl.blockIndex = 0 then [(0x78, 8), (Config.zlibFlg.toNat, 8)] else [])
    ++ [(if fl = .finish then 1 else 0, 1)] ++ body
    ++ match fl with
       | .none => []
       | .sync => markerFields after
       | .full => markerFields after
       | .finish => (0, padBits after) :: trailerFields s.ctl

/-- From `s` to `t`, `k` bytes of `stage` from index `a` on were copied to the output slice, and `out_ofs` advanced;
nothing else of the slice changed (R266, R268). -/
def Delivered (stage : Mem 8) (a k : Nat) (s t : State) : Prop :=
  t.call.outOfs.toNat = s.call.outOfs.toNat + k
  ∧ (∀ i < k, Mem.read t.host.outSlice (s.call.outOfs.toNat + i) = Mem.read stage (a + i))
  ∧ ∀ j, j < s.call.outOfs.toNat ∨ s.call.outOfs.toNat + k ≤ j →
      Mem.read t.host.outSlice j = Mem.read s.host.outSlice j

end Sys2Proof.Machine
end

