-- ==== Sys2Proof/Certificates/Slice0/Obligations.lean ====
section
/-! DEFINITION. The statements for the provers. Each says what a rule of spec/ says an instruction or the machine does;
OBLIGATIONS.json names the rules. A conclusion `exec i s = .next t` says that the instruction completes; where `t` is `s`
with some parts replaced, everything else is unchanged. -/

open Sys2Proof Sys2Proof.Machine

/-! Encoding and the step. -/

/-- Decoding the words of a well-formed instruction in its code space gives the instruction back, for every constructor
and every operand value (R90, R93 to R96, R98, R99, R101, R102, R114; the operand words are the model's, log entry 6). -/
def Obligations.DecodeEncode : Prop :=
  ∀ i : Instr, i.wf = true → decode (encode i).1 (encode i).2 = .ok i

/-- Whatever the decoder reads, from any words of any code space, is a well-formed instruction: a generic COMPRESS has a
reserved flush value (R93), REC.MATCH operands in range (R161), SYM.LEN284 never the extra value 31 (R98). The operand words
and that their low bits are taken are the model's choice (log entries 4, 6, 21, 24). -/
def Obligations.DecodedIsWellFormed : Prop :=
  ∀ (sp : Space) (ws : List (BitVec 32)) (i : Instr), decode sp ws = .ok i → i.wf = true

/-- Words written out from the encodings of the spec decode to the instructions they stand for. The operand word of
DRV.ADLER, the byte places of the LZ record word and the extra values above the symbols are the model's choice (log entry
6). -/
def Obligations.DecodedWords : Prop :=
  decode .command [0x00101080#32] = .ok (.init 0x01080#20 true)
  ∧ decode .command [0x10000018#32, 7#32, 9#32] = .ok (.compressNone true true 7#32 9#32)
  ∧ decode .command [0x1000000C#32, 1#32, 0#32] = .ok (.compressFinish true false 1#32 0#32)
  ∧ decode .command [0x10000015#32, 0#32, 5#32] = .ok (.compress 5#3 false true 0#32 5#32)
  ∧ decode .micro [0x26#32] = .ok .hufLoadStatic
  ∧ decode .micro [0x45#32, 0x61#32] = .ok (.drvAdler 0x61#8)
  ∧ decode .lzRecord [0x00020201#32] = .ok (.matchRec 2#8 2#15)
  ∧ decode .blockHeader [0b101#32] = .ok (.blockDynamic true)
  ∧ decode .status [0b10#32] = .ok .statusBadParam
  ∧ decode .litLenSym [0x100#32] = .ok .symEob
  ∧ decode .distSym [0x1D#32] = .ok (.symDist29 0#13)
  ∧ decode .codeLenSym [0b01010010#32] = .ok (.symCl18 2#7)

/-- The reserved bits of a command word are ignored: bits 27:21 of INIT, bits 27:5 of COMPRESS (R110). -/
def Obligations.ReservedBitsIgnored : Prop :=
  (∀ (w : BitVec 32) (ws : List (BitVec 32)), w.toNat / 2 ^ 28 = 0 →
    decode .command ((w &&& 0xF01FFFFF#32) :: ws) = decode .command (w :: ws))
  ∧ ∀ (w : BitVec 32) (ws : List (BitVec 32)), w.toNat / 2 ^ 28 = 1 →
    decode .command ((w &&& 0xF000001F#32) :: ws) = decode .command (w :: ws)

/-- A command word with a reserved opcode is answered `(BadParam, 0, 0)`; nothing of the instance changes (R110, R252
item 7). The request is taken and its slices presented (log entries 3, 25). -/
def Obligations.ReservedOpcodeRejected : Prop :=
  ∀ (s : State) (r : Request) (rest : List Request) (w : BitVec 32) (ws : List (BitVec 32)), s.halt = none →
    s.host.requests = r :: rest → r.space = .command → r.words = w :: ws → 2 ≤ w.toNat / 2 ^ 28 →
    step s = .next (s.setHost { s.host with
      requests := rest, inSlice := r.input, outSlice := r.output, sinkAnswers := r.answers
      response := some { status := .badParam, inConsumed := 0, outProduced := 0 } })

/-- A step takes the oldest request and, when its words decode to an instruction, runs that instruction on the state with
the request taken and its slices and sink answers presented (log entries 3, 12). -/
def Obligations.StepRunsDecoded : Prop :=
  ∀ (s : State) (r : Request) (rest : List Request) (i : Instr), s.halt = none →
    s.host.requests = r :: rest → decode r.space r.words = .ok i →
    step s = exec i (s.setHost { s.host with
      requests := rest, inSlice := r.input, outSlice := r.output, sinkAnswers := r.answers })

/-- With no request the step changes nothing (R35 "the block does nothing until commanded"); a stopped instance never
goes on (R303). -/
def Obligations.StepIdleOrStopped : Prop :=
  (∀ s : State, s.halt = none → s.host.requests = [] → step s = .next s)
  ∧ ∀ (s t : State), s.halt ≠ none → step s ≠ .next t

/-! Reset and the host commands. -/

/-- After power-on the instance is invalid, and every COMPRESS is answered BadParam and changes nothing (R35, R330). -/
def Obligations.PowerOnRejectsCompress : Prop :=
  State.reset.ctl.inited = false ∧ driverState State.reset = .invalid
  ∧ ∀ (i : Instr) (p : BitVec 3 × Bool × Bool × BitVec 32 × BitVec 32), compressParts i = some p →
    exec i State.reset = .next (State.reset.setHost { State.reset.host with
      response := some { status := .badParam, inConsumed := 0, outProduced := 0 } })

/-- The power-on state has canonical memories and meets the driver's invariants, that of the records among them (but for item
4 and the bytes of item 6 of R33, which no state holds). The register values are the model's
choice (log entries 1, 2). -/
def Obligations.ResetMeetsInvariants : Prop :=
  State.reset.Canonical ∧ Driving 65528 State.reset ∧ RecordsHeld State.reset
  ∧ State.reset.ctl.maxProbes = probesOf State.reset.ctl.flags

/-- INIT completes in every state, leaves the values of R34, keeps `dict`, `lz_code`, `lz_flags`, `stage` and the other
Huffman arrays (R331), and answers `(Okay, 0, 0)`; the driver is Ready (R250, R269). That the per-call
registers, the working values and the counter of free values stay is the model's choice (log entries 11, 13, 26). -/
def Obligations.InitLeaves : Prop :=
  ∀ (flags : BitVec 20) (sink : Bool) (s : State), s.halt = none →
    ∃ t, exec (.init flags sink) s = .next t
      ∧ t.ctl = { flags := flags, maxProbes := flags.setWidth 12, sinkMode := sink, inited := true, prevStatus := .okay,
                  finished := false, wantsFinish := false, blockIndex := 0, adler32 := 1 }
      ∧ t.drv = { lookaheadPos := 0, lookaheadSize := 0, dictSize := 0, insPos := 0, blockStartPos := 0,
                  savedDist := 0, savedLen := 0, savedLit := 0, flushOfs := 0, flushRemaining := 0 }
      ∧ (∀ a, Mem.read t.win.head a = 0 ∧ Mem.read t.win.next a = 0) ∧ t.win.dict = s.win.dict
      ∧ t.lz = { s.lz with lzCodeLen := 0, lzOpCount := 0, totalLzBytes := 0 }
      ∧ t.enc = { s.enc with bitBuffer := 0, bitsIn := 0, stagePos := 0 }
      ∧ (∀ a, Mem.read t.huf.litLen.count a = 0 ∧ Mem.read t.huf.dist.count a = 0)
      ∧ t.huf.litLen.size = s.huf.litLen.size ∧ t.huf.litLen.code = s.huf.litLen.code
      ∧ t.huf.dist.size = s.huf.dist.size ∧ t.huf.dist.code = s.huf.dist.code ∧ t.huf.codeLen = s.huf.codeLen
      ∧ t.host = { s.host with response := some { status := .okay, inConsumed := 0, outProduced := 0 } }
      ∧ t.call = s.call ∧ t.work = s.work ∧ t.draws = s.draws ∧ t.halt = none ∧ driverState t = .ready

/-- A COMPRESS under any of the conditions 1 to 6 of R252 is answered `(BadParam, 0, 0)` and nothing else changes (R301);
a well-formed generic COMPRESS row, whose flush value is a reserved one, always is (R93). -/
def Obligations.BadParamRejected : Prop :=
  (∀ (i : Instr) (f : BitVec 3) (ip op : Bool) (il oc : BitVec 32) (s : State), s.halt = none →
    compressParts i = some (f, ip, op, il, oc) → Rejected f ip op il s →
    exec i s = .next (s.setHost { s.host with
      response := some { status := .badParam, inConsumed := 0, outProduced := 0 } }))
  ∧ ∀ (f : BitVec 3) (ip op : Bool) (il oc : BitVec 32) (s : State), s.halt = none →
    (Instr.compress f ip op il oc).wf = true →
    exec (.compress f ip op il oc) s = .next (s.setHost { s.host with
      response := some { status := .badParam, inConsumed := 0, outProduced := 0 } })

/-- An accepted COMPRESS that answers never answers BadParam; it answers Done only when the final block is encoded and all
of it delivered, Okay only when it is not, and PutBufFailed only in sink mode; `PREV_STATUS` records the answer (R268, R302,
R305). -/
def Obligations.AcceptedStatus : Prop :=
  ∀ (i : Instr) (f : BitVec 3) (ip op : Bool) (il oc : BitVec 32) (s t : State),
    compressParts i = some (f, ip, op, il, oc) → ¬ Rejected f ip op il s → exec i s = .next t →
    ∃ r, t.host.response = some r ∧ t.ctl.prevStatus = r.status ∧ r.status ≠ .badParam
      ∧ (r.status = .done → t.ctl.finished = true ∧ t.drv.flushRemaining = 0)
      ∧ (r.status = .okay → t.ctl.finished = false ∨ t.drv.flushRemaining ≠ 0)
      ∧ (r.status = .putBufFailed → s.ctl.sinkMode = true ∧ r.outProduced = 0)

/-- The counts of a response lie within the lengths the command gave: `in_consumed <= in_len`, `out_produced <= out_cap`,
and nothing is produced in sink mode (R91). No byte of the output slice at or beyond `out_produced` is written (R66). -/
def Obligations.ResponseBounds : Prop :=
  ∀ (i : Instr) (f : BitVec 3) (ip op : Bool) (il oc : BitVec 32) (s t : State),
    compressParts i = some (f, ip, op, il, oc) → Mem.wf s.host.outSlice → exec i s = .next t →
    ∃ r, t.host.response = some r ∧ r.inConsumed.toNat ≤ il.toNat ∧ r.outProduced.toNat ≤ oc.toNat
      ∧ (s.ctl.sinkMode = true → r.outProduced = 0)
      ∧ ∀ j, r.outProduced.toNat ≤ j → Mem.read t.host.outSlice j = Mem.read s.host.outSlice j

/-- The drain-only call: an accepted COMPRESS in slice mode with staged bytes pending, or after the final block, copies
what fits of them, consumes nothing, leaves the rest of the slice, and answers Done exactly when the stream is over (R66,
R254, R307). -/
def Obligations.DrainOnlyCall : Prop :=
  ∀ (fl : FlushMode) (ip : Bool) (il oc : BitVec 32) (s : State), s.halt = none →
    ¬ Rejected (flushField fl) ip true il s → s.ctl.sinkMode = false → Mem.wf s.host.outSlice →
    s.drv.flushRemaining ≠ 0 ∨ s.ctl.finished = true →
    s.drv.flushOfs.toNat + s.drv.flushRemaining.toNat ≤ 85196 →
    ∃ t, exec (compressOf fl ip true il oc) s = .next t
      ∧ let k := min oc.toNat s.drv.flushRemaining.toNat
        let st : Status := if s.ctl.finished = true ∧ k = s.drv.flushRemaining.toNat then .done else .okay
        (∀ j, Mem.read t.host.outSlice j =
            if j < k then Mem.read s.enc.stage (s.drv.flushOfs.toNat + j) else Mem.read s.host.outSlice j)
        ∧ t.drv = { s.drv with flushOfs := s.drv.flushOfs + BitVec.ofNat 17 k,
                               flushRemaining := s.drv.flushRemaining - BitVec.ofNat 17 k }
        ∧ t.ctl = { s.ctl with prevStatus := st, wantsFinish := s.ctl.wantsFinish || fl == .finish }
        ∧ t.host.response = some { status := st, inConsumed := 0, outProduced := BitVec.ofNat 32 k }
        ∧ t.win = s.win ∧ t.lz = s.lz ∧ t.huf = s.huf ∧ t.enc = s.enc ∧ t.work = s.work

/-- What an accepted COMPRESS does with its input. COMPRESS.None with input that does not fill the lookahead: all of it is
consumed into the window, nothing is parsed or encoded, the answer is Okay. Every flush mode, any input and lookahead, in
slice or sink mode, from any state that meets R33: when the call's micro-operations complete one after another, COMPRESS
completes and leaves what they leave: the rounds of the parse loop, DRV.FILL, DRV.CATCHUP, the break of R259, DRV.PARSE_STEP,
the closing of a full block (R255, R264), the flush at the end (R267), DRV.DRAIN and the answer (R251, R253, R256, R268). -/
def Obligations.NoneTakesInput : Prop :=
  (∀ (ip op : Bool) (il oc : BitVec 32) (s : State), s.halt = none → Mem.wf s.win.dict →
    ¬ Rejected 0 ip op il s → s.drv.flushRemaining = 0 → s.ctl.finished = false → lag s ≤ 258 →
    il.toNat + s.drv.lookaheadSize.toNat < 258 →
    ∃ t, exec (.compressNone ip op il oc) s = .next t
      ∧ t.host.response = some { status := .okay, inConsumed := il, outProduced := 0 }
      ∧ t.drv.lookaheadSize.toNat = s.drv.lookaheadSize.toNat + il.toNat
      ∧ t.drv.lookaheadPos = s.drv.lookaheadPos
      ∧ (∀ j < il.toNat, winByte t.win.dict (s.drv.lookaheadPos + s.drv.lookaheadSize.setWidth 32 + BitVec.ofNat 32 j)
          = Mem.read s.host.inSlice j)
      ∧ t.lz = s.lz ∧ t.huf = s.huf ∧ t.enc = s.enc
      ∧ t.drv.savedLen = s.drv.savedLen ∧ t.drv.savedDist = s.drv.savedDist ∧ t.drv.savedLit = s.drv.savedLit
      ∧ t.ctl.wantsFinish = s.ctl.wantsFinish ∧ t.ctl.finished = false ∧ t.ctl.prevStatus = .okay)
  ∧ ∀ (fl : FlushMode) (ip op : Bool) (il oc : BitVec 32) (s t : State), s.halt = none → Driving 65528 s →
    ¬ Rejected (flushField fl) ip op il s → s.drv.flushRemaining = 0 → s.ctl.finished = false →
    CallRuns fl (callBegun fl ip op il oc s) t → exec (compressOf fl ip op il oc) s = .next t

/-- Sync, Full and Finish with an empty lookahead and no input. Between two blocks, with room in the slice: one block
without a record is closed and delivered, with the marker or the trailer; Finish ends the stream, Full forgets all history.
In any other state, with records or without, in slice or sink mode: the call does what DRV.CLOSE_BLOCK does and answers;
when the sink refuses, the call ends there (R66, R253, R265, R267, R268, R302). -/
def Obligations.FlushClosesEmptyBlock : Prop :=
  (∀ (fl : FlushMode) (ip : Bool) (oc : BitVec 32) (s : State), Quiet s → fl ≠ .none →
    ¬ Rejected (flushField fl) ip true 0 s → s.ctl.sinkMode = false → Mem.wf s.host.outSlice → s.ctl.finished = false →
    16 ≤ oc.toNat →
    ∃ t, exec (compressOf fl ip true 0 oc) s = .next t
      ∧ let e : Encoder := { s.enc with stagePos := 0 }
        let n := wholeBytes e (emptyBlockFields s fl)
        e.Appended (emptyBlockFields s fl) t.enc
        ∧ (∀ j, Mem.read t.host.outSlice j = if j < n then Mem.read t.enc.stage j else Mem.read s.host.outSlice j)
        ∧ t.host.response = some
            { status := if fl = .finish then .done else .okay, inConsumed := 0, outProduced := BitVec.ofNat 32 n }
        ∧ t.ctl.finished = (fl == .finish) ∧ t.ctl.blockIndex = s.ctl.blockIndex + 1
        ∧ t.drv.flushRemaining = 0
        ∧ (if fl = .full then (∀ a, Mem.read t.win.head a = 0 ∧ Mem.read t.win.next a = 0) ∧ t.drv.dictSize = 0
              ∧ t.drv.insPos = s.drv.lookaheadPos ∧ t.win.dict = s.win.dict
            else t.win = s.win ∧ t.drv.dictSize = s.drv.dictSize ∧ t.drv.insPos = s.drv.insPos))
  ∧ ∀ (fl : FlushMode) (ip op : Bool) (oc : BitVec 32) (s u : State), s.halt = none → fl ≠ .none →
    ¬ Rejected (flushField fl) ip op 0 s → s.drv.lookaheadSize = 0 → s.drv.flushRemaining = 0 → s.ctl.finished = false →
    exec (.drvCloseBlock fl) (callBegun fl ip op 0 oc s) = .next u →
    (u.ctl.prevStatus = .putBufFailed → exec (compressOf fl ip op 0 oc) s = .next u)
    ∧ (u.ctl.prevStatus ≠ .putBufFailed → ∃ t, exec (compressOf fl ip op 0 oc) s = .next t
        ∧ t.host.response = some
            { status := if fl = .finish ∧ u.drv.flushRemaining = 0 then .done else .okay
              inConsumed := 0, outProduced := u.call.outOfs }
        ∧ t.ctl = { u.ctl with
            finished := fl == .finish
            prevStatus := if fl = .finish ∧ u.drv.flushRemaining = 0 then .done else .okay }
        ∧ t.enc = u.enc ∧ t.lz = u.lz ∧ t.huf = u.huf ∧ t.host.outSlice = u.host.outSlice
        ∧ t.host.sinkOut = u.host.sinkOut ∧ t.drv.flushOfs = u.drv.flushOfs
        ∧ t.drv.flushRemaining = u.drv.flushRemaining
        ∧ (if fl = .full then (∀ a, Mem.read t.win.head a = 0 ∧ Mem.read t.win.next a = 0) ∧ t.drv.dictSize = 0
              ∧ t.drv.insPos = s.drv.lookaheadPos ∧ t.win.dict = s.win.dict
            else t.win = s.win ∧ t.drv.dictSize = s.drv.dictSize ∧ t.drv.insPos = s.drv.insPos))

/-- Forced-raw mode sends the input verbatim: after an INIT with `FORCE_ALL_RAW_BLOCKS` and without the header flag, one
COMPRESS.Finish of at most 31744 bytes gives the final stored block `01 LEN NLEN data`, whatever the slice held before (R216,
R217, R264). The natural code lengths of the input's bytes are at most 32, as HUF.LIMIT asks (R183, U19). -/
def Obligations.ForcedRawVerbatim : Prop :=
  ∀ (flags : BitVec 20) (oc : BitVec 32) (n : Nat) (s s' : State), s.halt = none → Mem.wf s.win.dict → Mem.wf s.enc.stage →
    Mem.wf s.host.outSlice → n ≤ 31744 → n + 5 ≤ oc.toNat →
    (∀ l ∈ naturalOf (literalCounts (Mem.readRun s.host.inSlice 0 n)) 288, l ≤ 32) →
    flags.getLsbD 19 = true → flags.getLsbD 12 = false → exec (.init flags false) s = .next s' →
    ∃ t, exec (.compressFinish true true (BitVec.ofNat 32 n) oc) s' = .next t
      ∧ t.host.response = some
          { status := .done, inConsumed := BitVec.ofNat 32 n, outProduced := BitVec.ofNat 32 (n + 5) }
      ∧ Mem.readRun t.host.outSlice 0 5
          = [1#8, BitVec.ofNat 8 n, BitVec.ofNat 8 (n / 256), BitVec.ofNat 8 (255 - n % 256), BitVec.ofNat 8 (255 - n / 256)]
      ∧ ∀ j < n, Mem.read t.host.outSlice (5 + j) = Mem.read s.host.inSlice j

/-! Unit DICT. -/

/-- DICT.WRITE stores the byte at its slot and, for a slot below 257, in the mirror; it writes nothing else (R141). -/
def Obligations.DictWriteStores : Prop :=
  ∀ (q : BitVec 32) (c : BitVec 8) (s : State), s.halt = none → Mem.wf s.win.dict →
    ∃ d, exec (.dictWrite q c) s = .next (s.setWin { s.win with dict := d })
      ∧ ∀ a, Mem.read d a =
          if a = q.toNat % 32768 ∨ (q.toNat % 32768 < 257 ∧ a = 32768 + q.toNat % 32768) then c
          else Mem.read s.win.dict a

/-- DICT.INSERT puts any position whose three bytes are written at the front of the chain of its prefix hash: one entry of
`next` and one of `head` are written (R140, R142; however far it lies behind, log entry 28). -/
def Obligations.DictInsertLinks : Prop :=
  ∀ (q : BitVec 32) (s : State), s.halt = none → Mem.wf s.win.head → Mem.wf s.win.next →
    3 ≤ (s.drv.lookaheadPos + s.drv.lookaheadSize.setWidth 32 - q).toNat →
    (s.drv.lookaheadPos + s.drv.lookaheadSize.setWidth 32 - q).toNat < 2 ^ 31 →
    let slot := q.toNat % 32768
    let b := fun k => (Mem.read s.win.dict (slot + k)).toNat
    let h := ((b 0 * 1024) ^^^ (b 1 * 32) ^^^ b 2) % 32768
    ∃ hd nx, exec (.dictInsert q) s = .next (s.setWin { s.win with head := hd, next := nx })
      ∧ (∀ a, Mem.read nx a = if a = slot then Mem.read s.win.head h else Mem.read s.win.next a)
      ∧ ∀ a, Mem.read hd a = if a = h then q.setWidth 16 else Mem.read s.win.head a

/-- DICT.FIND completes on every valid search and finds what R143 says: of the runs it examines, at most `MAX_PROBES`, the
longest, the nearest of several so long, when it beats the prior pair; else the prior pair, as with a budget of 0 or fewer
than three bytes. What it reports is a true match in range, whatever the chains hold (R143, R146, R147); R146's `3 <= len`
holds from a prior length of 2 on, below it the pseudocode of R143 can give 1 or 2 (log entry 27). Any prior pair is
taken, and any position when no candidate is compared (log entry 27); a search for more than 258 bytes completes with a free pair no
longer than asked for (log entry 26). -/
def Obligations.DictFindSound : Prop :=
  ∀ (p : BitVec 32) (maxDist : BitVec 16) (maxLen : BitVec 9) (priorDist : BitVec 16) (priorLen : BitVec 9) (s : State),
    s.halt = none →
    (maxLen.toNat ≤ priorLen.toNat ∨ maxLen.toNat < 3 ∨ s.ctl.maxProbes = 0
      ∨ maxDist.toNat ≤ (p - (s.drv.lookaheadPos - s.drv.dictSize.setWidth 32)).toNat
        ∧ (p - (s.drv.lookaheadPos - s.drv.dictSize.setWidth 32)).toNat + maxLen.toNat
          ≤ s.drv.dictSize.toNat + s.drv.lookaheadSize.toNat) →
    (Mirrored s.win.dict → maxLen.toNat ≤ 258 →
      ∃ (d : BitVec 16) (l : BitVec 9),
        exec (.dictFind p maxDist maxLen priorDist priorLen) s
          = .next (s.setWork { s.work with findDist := d, findLen := l })
        ∧ SearchResult s p maxDist.toNat maxLen.toNat priorDist priorLen d l
        ∧ (d = priorDist ∧ l = priorLen
           ∨ 1 ≤ d.toNat ∧ d.toNat ≤ maxDist.toNat ∧ l.toNat ≤ maxLen.toNat ∧ priorLen.toNat < l.toNat
             ∧ (2 ≤ priorLen.toNat → 3 ≤ l.toNat)
             ∧ ∀ k < l.toNat, winByte s.win.dict (p - d.setWidth 32 + BitVec.ofNat 32 k)
                 = winByte s.win.dict (p + BitVec.ofNat 32 k))
        ∧ (s.ctl.maxProbes = 0 ∨ maxLen.toNat < 3 → d = priorDist ∧ l = priorLen))
    ∧ (258 < maxLen.toNat →
      ∃ (d : BitVec 16) (l : BitVec 9),
        exec (.dictFind p maxDist maxLen priorDist priorLen) s
          = .next ((s.setWork { s.work with findDist := d, findLen := l }).drawn)
        ∧ (d = priorDist ∧ l = priorLen ∨ d ∈ searched s p maxDist.toNat ∧ priorLen.toNat < l.toNat ∧ l.toNat ≤ maxLen.toNat))

/-- DICT.RLE counts the bytes from `p` on that equal the byte before `p`, at most `max_len` (R144). With `max_len` above
258 it completes too; what it reads beyond the end of `dict` is free, so only the first 258 bytes are as R144 says (log
entry 26). -/
def Obligations.DictRleCounts : Prop :=
  ∀ (p : BitVec 32) (maxLen : BitVec 9) (s : State), s.halt = none → Mirrored s.win.dict → s.drv.dictSize ≠ 0 →
    ∃ n : BitVec 9,
      (let u := s.setWork { s.work with rleLen := n }
       exec (.dictRle p maxLen) s = .next (if maxLen.toNat ≤ 258 then u else u.drawn))
      ∧ n.toNat ≤ maxLen.toNat
      ∧ (∀ k < n.toNat, k < 258 → winByte s.win.dict (p + BitVec.ofNat 32 k) = winByte s.win.dict (p - 1))
      ∧ (n.toNat < maxLen.toNat → n.toNat < 258 →
          winByte s.win.dict (p + BitVec.ofNat 32 n.toNat) ≠ winByte s.win.dict (p - 1))

/-- DICT.RESET_CHAINS clears every entry of `head` and `next`, sets `dict_size` to 0 and `ins_pos` to `lookahead_pos`, and
leaves the rest (R145). -/
def Obligations.DictResetForgets : Prop :=
  ∀ s : State, s.halt = none →
    ∃ hd nx, exec .dictResetChains s
        = .next ((s.setWin { s.win with head := hd, next := nx }).setDrv
            { s.drv with dictSize := 0, insPos := s.drv.lookaheadPos })
      ∧ ∀ a, Mem.read hd a = 0 ∧ Mem.read nx a = 0

/-! Unit REC. -/

/-- REC.LIT appends a LIT record: its byte, a clear flag bit, the three counters and the symbol's frequency advance (R160). -/
def Obligations.RecLitAppends : Prop :=
  ∀ (b : BitVec 8) (s : State), s.halt = none → Mem.wf s.lz.lzCode → Mem.wf s.lz.lzFlags →
    Mem.wf s.huf.litLen.count → s.lz.lzCodeLen.toNat ≤ 65528 → s.lz.lzOpCount.toNat < 65536 →
    ∃ code flags counts, exec (.recLit b) s
        = .next ((s.setLz { lzCode := code, lzFlags := flags, lzCodeLen := s.lz.lzCodeLen + 1,
                            lzOpCount := s.lz.lzOpCount + 1, totalLzBytes := s.lz.totalLzBytes + 1 }).setHuf
            { s.huf with litLen := { s.huf.litLen with count := counts } })
      ∧ (∀ a, Mem.read code a = if a = s.lz.lzCodeLen.toNat then b else Mem.read s.lz.lzCode a)
      ∧ (∀ k, (Mem.read flags (k / 8)).toNat.testBit (k % 8)
            = if k = s.lz.lzOpCount.toNat then false else (Mem.read s.lz.lzFlags (k / 8)).toNat.testBit (k % 8))
      ∧ ∀ a, Mem.read counts a = Mem.read s.huf.litLen.count a + if a = b.toNat then 1 else 0

/-- REC.MATCH appends a MATCH record: its three bytes, a set flag bit, the counters, and the frequencies of its length and
distance symbols advance (R161; the symbols are those of R98, R99). -/
def Obligations.RecMatchAppends : Prop :=
  ∀ (len : BitVec 9) (dist : BitVec 16) (s : State), s.halt = none → Mem.wf s.lz.lzCode → Mem.wf s.lz.lzFlags →
    Mem.wf s.huf.litLen.count → Mem.wf s.huf.dist.count →
    3 ≤ len.toNat → len.toNat ≤ 258 → 1 ≤ dist.toNat → dist.toNat ≤ 32768 →
    s.lz.lzCodeLen.toNat ≤ 65528 → s.lz.lzOpCount.toNat < 65536 →
    ∃ code flags lits dists, exec (.recMatch len dist) s
        = .next ((s.setLz { lzCode := code, lzFlags := flags, lzCodeLen := s.lz.lzCodeLen + 3,
                            lzOpCount := s.lz.lzOpCount + 1,
                            totalLzBytes := s.lz.totalLzBytes + len.setWidth 32 }).setHuf
            { s.huf with litLen := { s.huf.litLen with count := lits }, dist := { s.huf.dist with count := dists } })
      ∧ (∀ a, (Mem.read code a).toNat =
            if a = s.lz.lzCodeLen.toNat then len.toNat - 3
            else if a = s.lz.lzCodeLen.toNat + 1 then (dist.toNat - 1) % 256
            else if a = s.lz.lzCodeLen.toNat + 2 then (dist.toNat - 1) / 256
            else (Mem.read s.lz.lzCode a).toNat)
      ∧ (∀ k, (Mem.read flags (k / 8)).toNat.testBit (k % 8)
            = if k = s.lz.lzOpCount.toNat then true else (Mem.read s.lz.lzFlags (k / 8)).toNat.testBit (k % 8))
      ∧ (∀ a, Mem.read lits a = Mem.read s.huf.litLen.count a + if a = lenSym len.toNat then 1 else 0)
      ∧ ∀ a, Mem.read dists a = Mem.read s.huf.dist.count a + if a = distSym dist.toNat then 1 else 0

/-- The length and distance symbols: every length of 3 to 258 and every distance of 1 to 32768 lies in the range of its
symbol, and the extra value is `L - LEN_BASE`, `D - DIST_BASE`; the look-up tables agree (R98, R99, R100). -/
def Obligations.SymbolRanges : Prop :=
  (∀ l, 3 ≤ l → l ≤ 258 → ∃ r ∈ lenRows, r.sym = lenSym l ∧ r.base ≤ l ∧ l ≤ r.last
    ∧ r.extra = lenExtra (lenSym l) ∧ l - r.base = (l - 3) % 2 ^ lenExtra (lenSym l) ∧ lenSymTab (l - 3) = lenSym l)
  ∧ ∀ d, 1 ≤ d → d ≤ 32768 → ∃ r ∈ distRows, r.sym = distSym d ∧ r.base ≤ d ∧ d ≤ r.last
    ∧ r.extra = distExtra (distSym d) ∧ d - r.base = (d - 1) % 2 ^ distExtra (distSym d)
    ∧ distSym d = if d - 1 < 512 then smallDistSym (d - 1) else largeDistSym ((d - 1) / 256)

/-! Unit HUF. -/

/-- HUF.SORT leaves a rearrangement of the pairs in ascending order of frequency in which pairs of one frequency keep
their order (R181). -/
def Obligations.HufSortStable : Prop :=
  ∀ (t : Table) (s : State), s.halt = none →
    ∃ l : List SymKey, exec (.hufSort t) s = .next (s.setWork { s.work with sym := l })
      ∧ l.Perm s.work.sym ∧ l.Pairwise (fun x y => x.key.toNat ≤ y.key.toNat)
      ∧ ∀ k : BitVec 16, l.filter (fun x => x.key == k) = s.work.sym.filter (fun x => x.key == k)

/-- HUF.MINRED gives one length for each frequency, never shorter for a rarer symbol; for two symbols or more the lengths
meet the Kraft sum with equality, a single symbol gets length 1 (R182, R188). -/
def Obligations.HufMinredKraft : Prop :=
  ∀ s : State, s.halt = none →
    ∃ a : List Nat, exec .hufMinred s = .next (s.setWork { s.work with lengths := a })
      ∧ a.length = s.work.lengths.length ∧ a.Pairwise (fun x y => y ≤ x)
      ∧ (s.work.lengths.length = 1 → a = [1])
      ∧ (2 ≤ s.work.lengths.length → (∀ l ∈ a, 1 ≤ l ∧ l < a.length)
          ∧ (a.map fun l => 2 ^ (a.length - l)).sum = 2 ^ a.length)

/-- HUF.LIMIT on the lengths of a full code of at most `2^limit` symbols, none longer than 32: as many lengths as symbols,
none above the limit, the Kraft sum still exactly 1; lengths within the limit are left as they are. On at most one symbol
it is the histogram (R183). -/
def Obligations.HufLimitKraft : Prop :=
  ∀ (lim : CodeLimit) (s : State), s.halt = none → (∀ l ∈ s.work.lengths, l ≤ 32) →
    let n := s.work.lengths.length
    let top := limitValue lim
    (2 ≤ n → n ≤ 2 ^ top → (s.work.lengths.map fun l => 2 ^ (32 - l)).sum = 2 ^ 32 →
      ∃ num : List Nat, exec (.hufLimit lim) s = .next (s.setWork { s.work with num := num })
        ∧ ((List.range top).map fun j => arrAt num (j + 1)).sum = n
        ∧ ((List.range top).map fun j => arrAt num (j + 1) * 2 ^ (top - (j + 1))).sum = 2 ^ top
        ∧ ((∀ l ∈ s.work.lengths, l ≤ top) → ∀ i, 1 ≤ i → i ≤ top → arrAt num i = s.work.lengths.count i))
    ∧ (n ≤ 1 → ∃ num : List Nat, exec (.hufLimit lim) s = .next (s.setWork { s.work with num := num })
        ∧ ∀ i ≤ 32, arrAt num i = s.work.lengths.count i)

/-- HUF.ASSIGN_SIZES deals the lengths to the sorted symbols from the end: `NUM[i]` symbols get length `i`, a symbol later
in the list never a longer one, all others length 0, and every code is 0 (R184). -/
def Obligations.HufAssignSizesDeals : Prop :=
  ∀ (t : Table) (s : State), s.halt = none → (s.work.sym.map fun x => x.sym).Nodup →
    (∀ x ∈ s.work.sym, x.sym < numSyms t) →
    ((List.range (codeLimit t)).map fun j => arrAt s.work.num (j + 1)).sum = s.work.sym.length →
    ∃ size code, exec (.hufAssignSizes t) s
        = .next (s.setTable t { s.huf.get t with size := size, code := code })
      ∧ (∀ a, Mem.read code a = 0)
      ∧ (∀ a, a ∉ s.work.sym.map (fun x => x.sym) → Mem.read size a = 0)
      ∧ (∀ i, 1 ≤ i → i ≤ codeLimit t →
          (s.work.sym.filter fun x => decide ((Mem.read size x.sym).toNat = i)).length = arrAt s.work.num i)
      ∧ (s.work.sym.map fun x => (Mem.read size x.sym).toNat).Pairwise (fun x y => y ≤ x)

/-- HUF.ASSIGN_CODES completes on any lengths, gives unused symbols the code 0, and for lengths that obey the Kraft
inequality gives every used symbol a code of its length, no code being the start of another, increasing with the symbol
within one length; codes are stored bit-reversed (R185, R189 item 4). -/
def Obligations.HufAssignCodesPrefixFree : Prop :=
  ∀ (t : Table) (s : State), s.halt = none → Mem.wf (s.huf.get t).size →
    ∃ code, exec (.hufAssignCodes t) s = .next (s.setTable t { s.huf.get t with code := code })
      ∧ let len := fun a => (Mem.read (s.huf.get t).size a).toNat
        let c := fun a => (Mem.read code a).toNat
        (∀ a < numSyms t, len a = 0 → c a = 0)
        ∧ ((∀ a < numSyms t, len a ≤ codeLimit t) →
            kraftOf (s.huf.get t).size (numSyms t) (codeLimit t) ≤ 2 ^ codeLimit t →
            (∀ a < numSyms t, c a < 2 ^ len a)
            ∧ (∀ a < numSyms t, ∀ b < numSyms t, len a ≠ 0 → len a ≤ len b → a ≠ b → c b % 2 ^ len a ≠ c a)
            ∧ ∀ a b, a < b → b < numSyms t → len a ≠ 0 → len a = len b →
                bitrev (len a) (c a) < bitrev (len b) (c b))

/-- HUF.BUILD completes whenever no natural code length exceeds 32, and the table it builds is valid: exactly the counted
symbols have a length, none above the limit; the Kraft sum is 1 for two symbols or more, 1/2 for one, 0 for none; a more
frequent symbol never has the longer code; every code has its length, none is the start of another, and within one length
they increase with the symbol; a single symbol and an unused one have the code 0; counts and the other tables stay (R185,
R186, R188, R189). -/
def Obligations.HufBuildValid : Prop :=
  ∀ (t : Table) (s : State), s.halt = none → Mem.wf (s.huf.get t).count → (∀ l ∈ naturalLengths t s, l ≤ 32) →
    ∃ size code w, exec (.hufBuild t) s
        = .next ((s.setTable t { s.huf.get t with size := size, code := code }).setWork w)
      ∧ let count := (s.huf.get t).count
        let used := usedCount count (numSyms t)
        let len := fun a => (Mem.read size a).toNat
        let c := fun a => (Mem.read code a).toNat
        (∀ a < numSyms t, len a = 0 ↔ Mem.read count a = 0)
        ∧ (∀ a, len a ≤ codeLimit t)
        ∧ kraftOf size (numSyms t) (codeLimit t)
            = (if used = 0 then 0 else if used = 1 then 2 ^ (codeLimit t - 1) else 2 ^ codeLimit t)
        ∧ (∀ a < numSyms t, ∀ b < numSyms t, Mem.read count b ≠ 0 →
            (Mem.read count b).toNat < (Mem.read count a).toNat → len a ≤ len b)
        ∧ (∀ a, c a < 2 ^ len a)
        ∧ (used = 1 → ∀ a, c a = 0)
        ∧ (∀ a < numSyms t, ∀ b < numSyms t, len a ≠ 0 → len a ≤ len b → a ≠ b → c b % 2 ^ len a ≠ c a)
        ∧ ∀ a b, a < b → b < numSyms t → len a ≠ 0 → len a = len b → bitrev (len a) (c a) < bitrev (len b) (c b)

/-- HUF.LOAD_STATIC loads the fixed lengths and codes of R104, stored bit-reversed, and leaves the counts and table 2
(R104, R187). -/
def Obligations.HufLoadStaticTables : Prop :=
  ∀ s : State, s.halt = none →
    ∃ ls lc ds dc, exec .hufLoadStatic s
        = .next (s.setHuf { s.huf with litLen := { s.huf.litLen with size := ls, code := lc }
                                       dist := { s.huf.dist with size := ds, code := dc } })
      ∧ (∀ a < 144, Mem.read ls a = 8 ∧ (Mem.read lc a).toNat = bitrev 8 (0x30 + a))
      ∧ (∀ a, 144 ≤ a → a < 256 → Mem.read ls a = 9 ∧ (Mem.read lc a).toNat = bitrev 9 (0x190 + (a - 144)))
      ∧ (∀ a, 256 ≤ a → a < 280 → Mem.read ls a = 7 ∧ (Mem.read lc a).toNat = bitrev 7 (a - 256))
      ∧ (∀ a, 280 ≤ a → a < 288 → Mem.read ls a = 8 ∧ (Mem.read lc a).toNat = bitrev 8 (0xC0 + (a - 280)))
      ∧ ∀ a < 32, Mem.read ds a = 5 ∧ (Mem.read dc a).toNat = bitrev 5 a

/-! Unit ENC, the LZ records, the block headers and the symbols. -/

/-- The instructions that append fixed fields (ENC.PUT_BITS, ENC.PAD, ENC.ZLIB_HDR, ENC.TRAILER, ENC.SYNC_MARK, LIT, MATCH,
BLOCK.STORED, BLOCK.STATIC, BLOCK.DYNAMIC) append exactly those bits to the output and change only the encoder (R102, R106,
R210, R211, R212, R221, R222; the last five by the reading of log entry 15, and ENC.ZLIB_HDR in every state by that of log
entry 16). ENC.PUT_BITS on operands outside the range of R210 appends as many bits of a free value (log entry 26). -/
def Obligations.EmittersAppend : Prop :=
  (∀ (i : Instr) (fs : List Field) (s : State), s.halt = none → fixedFields s i = some fs → FieldsFit fs →
    s.enc.TakesBits fs → ∃ e, exec i s = .next (s.setEnc e) ∧ s.enc.Appended fs e)
  ∧ ∀ (v : BitVec 16) (n : BitVec 5) (s : State), s.halt = none → ¬ FieldsFit [(v.toNat, n.toNat)] →
    s.enc.TakesBits [(v.toNat, n.toNat)] →
    ∃ e u, u < 2 ^ n.toNat ∧ exec (.encPutBits v n) s = .next (s.setEnc e).drawn ∧ s.enc.Appended [(u, n.toNat)] e

/-- A symbol of any of the three alphabets appends its code and its extra bits and changes only the encoder (R98, R99,
R101, R105, R106, by the reading of log entry 15). Where the table holds a code that is no field of at most 16 bits, which no
rule puts there, as many bits of a free value stand for it (log entry 26). SYM.LEN284 with the extra value 31 is no symbol of
R98 and is refused (log entry 24). -/
def Obligations.SymbolsAppend : Prop :=
  (∀ (i : Instr) (t : Table) (sym x n : Nat) (s : State), s.halt = none → i.wf = true →
    symbolParts i = some (t, sym, x, n) →
    let code := codeField s t sym
    s.enc.TakesBits [code, (x, n)] →
    (FieldsFit [code] → ∃ e, exec i s = .next (s.setEnc e) ∧ s.enc.Appended [code, (x, n)] e)
    ∧ (¬ FieldsFit [code] → ∃ e v, v < 2 ^ code.2 ∧ exec i s = .next (s.setEnc e).drawn
        ∧ s.enc.Appended [(v, code.2), (x, n)] e))
  ∧ ∀ s : State, s.halt = none → exec (.symLen284 31#5) s = .refused .operandRange

/-- ENC.PUT_BITS that fills a byte when `stage` is full raises StageOverflow and stops the instance (R210, R303). -/
def Obligations.StageOverflowFaults : Prop :=
  ∀ (v : BitVec 16) (n : BitVec 5) (s : State), s.halt = none → n.toNat ≤ 16 → v.toNat < 2 ^ n.toNat →
    s.enc.bitsIn.toNat ≤ 7 → 8 ≤ s.enc.bitsIn.toNat + n.toNat → 85196 ≤ s.enc.stagePos.toNat →
    exec (.encPutBits v n) s = .fault .stageOverflow

/-- ENC.STORED appends the type, the padding, `LEN`, `NLEN` and the block's bytes out of the window (R103, R217). -/
def Obligations.StoredAppends : Prop :=
  ∀ s : State, s.halt = none →
    let bytes := (List.range s.lz.totalLzBytes.toNat).map fun i =>
      (winByte s.win.dict (s.drv.blockStartPos + BitVec.ofNat 32 i)).toNat
    let fs := storedFields s.enc.bitsIn.toNat bytes
    s.enc.TakesBits fs → ∃ e, exec .encStored s = .next (s.setEnc e) ∧ s.enc.Appended fs e

/-- ENC.STATIC_HDR loads the fixed tables, as HUF.LOAD_STATIC does, and appends `BTYPE` 01 (R218). -/
def Obligations.StaticHeaderAppends : Prop :=
  ∀ s : State, s.halt = none → s.enc.TakesBits [(1, 2)] →
    ∃ h e, exec .encStaticHdr s = .next ((s.setHuf h).setEnc e) ∧ exec .hufLoadStatic s = .next (s.setHuf h)
      ∧ s.enc.Appended [(1, 2)] e

/-- ENC.DYN_HDR appends `BTYPE` 10, the three counts, the code-length lengths in `CL_ORDER` and the packed code lengths
(R105, R219). -/
def Obligations.DynamicHeaderAppends : Prop :=
  ∀ s : State, s.halt = none → FieldsFit (dynamicFields s) → s.enc.TakesBits (dynamicFields s) →
    ∃ e, exec .encDynHdr s = .next (s.setEnc e) ∧ s.enc.Appended (dynamicFields s) e

/-- ENC.PAYLOAD appends the records in order, each with the loaded tables, then EOB (R97, R106, R220). In a record that no
REC.MATCH makes the symbol of a distance above 32768 is free (log entry 29). -/
def Obligations.PayloadAppends : Prop :=
  ∀ s : State, s.halt = none → s.lz.lzOpCount.toNat ≤ 65536 → recordsEnd s s.lz.lzOpCount.toNat 0 0 ≤ 65536 →
    let fs := recordFields s s.lz.lzOpCount.toNat 0 0 ++ [codeField s .litLen 256]
    FieldsFit fs → s.enc.TakesBits fs → ∃ e, exec .encPayload s = .next (s.setEnc e) ∧ s.enc.Appended fs e

/-- ENC.CL_PLAN completes on lengths of at most 15. What it packs expands to the code lengths of tables 0 and 1 up to the
last one in use, every packed symbol has a code in table 2, and the counts are in range (R105, R214). -/
def Obligations.ClPlanExpands : Prop :=
  ∀ s : State, s.halt = none → (∀ a < 286, (Mem.read s.huf.litLen.size a).toNat ≤ 15) →
    (∀ a < 30, (Mem.read s.huf.dist.size a).toNat ≤ 15) →
    ∃ h w, exec .encClPlan s = .next ((s.setTable .codeLen h).setWork w)
      ∧ 257 ≤ w.numLitCodes ∧ w.numLitCodes ≤ 286 ∧ 1 ≤ w.numDistCodes ∧ w.numDistCodes ≤ 30
      ∧ (∀ a, w.numLitCodes ≤ a → a < 286 → Mem.read s.huf.litLen.size a = 0)
      ∧ (w.numLitCodes = 257 ∨ Mem.read s.huf.litLen.size (w.numLitCodes - 1) ≠ 0)
      ∧ (∀ a, w.numDistCodes ≤ a → a < 30 → Mem.read s.huf.dist.size a = 0)
      ∧ (w.numDistCodes = 1 ∨ Mem.read s.huf.dist.size (w.numDistCodes - 1) ≠ 0)
      ∧ expandLengths 0 w.packed
          = (List.range w.numLitCodes).map (fun a => (Mem.read s.huf.litLen.size a).toNat)
            ++ (List.range w.numDistCodes).map (fun a => (Mem.read s.huf.dist.size a).toNat)
      ∧ (∀ p ∈ w.packed, p.c < 19 ∧ p.extra < 2 ^ clExtra p.c ∧ Mem.read h.size p.c ≠ 0)
      ∧ 4 ≤ w.numBitLengths ∧ w.numBitLengths ≤ 19
      ∧ ∀ j, w.numBitLengths ≤ j → j < 19 → Mem.read h.size (clOrder.getD j 0) = 0

/-- ENC.COST computes the three costs of R215 and changes nothing else. -/
def Obligations.CostFormulas : Prop :=
  ∀ s : State, s.halt = none → Mem.wf s.huf.litLen.count → Mem.wf s.huf.dist.count → Mem.wf s.huf.codeLen.count →
    let sum := fun n (f : Nat → Nat) => ((List.range n).map f).sum
    let n0 := fun a => (Mem.read s.huf.litLen.count a).toNat
    let n1 := fun a => (Mem.read s.huf.dist.count a).toNat
    let n2 := fun a => (Mem.read s.huf.codeLen.count a).toNat
    exec .encCost s = .next (s.setWork { s.work with
      costStatic := 2 + sum 288 (fun a => n0 a * ((if a < 144 then 8 else if a < 256 then 9 else if a < 280 then 7 else 8)
            + lenExtra a)) + sum 32 (fun a => n1 a * (5 + distExtra a))
      costDynamic := 2 + 5 + 5 + 4 + 3 * s.work.numBitLengths
          + sum 19 (fun c => n2 c * ((Mem.read s.huf.codeLen.size c).toNat + clExtra c))
          + sum 288 (fun a => n0 a * ((Mem.read s.huf.litLen.size a).toNat + lenExtra a))
          + sum 32 (fun a => n1 a * ((Mem.read s.huf.dist.size a).toNat + distExtra a))
      costStored := 2 + padBits (s.enc.bitsIn.toNat + 2) + 32 + 8 * s.lz.totalLzBytes.toNat })

/-- The choice of block type: forced raw first, then forced static, else the cheapest, ties going to static, then to
dynamic; stored only while the block is still in the window (R216). -/
def Obligations.BlockTypeChoice : Prop :=
  ∀ s : State,
    let ok := (s.drv.lookaheadPos - s.drv.blockStartPos).toNat ≤ s.drv.dictSize.toNat
    let w := s.work
    (chooseType s = .stored → ok)
    ∧ (s.ctl.forceRaw = true → ok → chooseType s = .stored)
    ∧ (s.ctl.forceRaw = false ∨ ¬ ok → s.ctl.forceStatic = true → chooseType s = .static)
    ∧ (s.ctl.forceRaw = false ∨ ¬ ok → s.ctl.forceStatic = false →
        (chooseType s = .stored ↔ ok ∧ w.costStored < min w.costStatic w.costDynamic)
        ∧ (chooseType s = .dynamic ↔
            w.costDynamic < w.costStatic ∧ ¬ (ok ∧ w.costStored < w.costDynamic)))

/-! Unit DRV. -/

/-- DRV.FILL moves `k` bytes, as many as are left and as fit, from the input slice to the window behind the lookahead,
checksums them when a checksum flag is set, and caps `dict_size` (R256). -/
def Obligations.FillMovesInput : Prop :=
  ∀ s : State, s.halt = none → Mem.wf s.win.dict →
    let k := min (s.call.inLen.toNat - s.call.srcPos.toNat) (258 - s.drv.lookaheadSize.toNat)
    let size := s.drv.lookaheadSize.toNat + k
    ∃ d adler, exec .drvFill s
        = .next ((((s.setWin { s.win with dict := d }).setDrv { s.drv with
              lookaheadSize := BitVec.ofNat 9 size
              dictSize := BitVec.ofNat 16 (min (32768 - size) s.drv.dictSize.toNat) }).setCall
            { s.call with srcPos := s.call.srcPos + BitVec.ofNat 32 k }).setCtl { s.ctl with adler32 := adler })
      ∧ (∀ j < k, winByte d (s.drv.lookaheadPos + s.drv.lookaheadSize.setWidth 32 + BitVec.ofNat 32 j)
          = Mem.read s.host.inSlice (s.call.srcPos.toNat + j))
      ∧ (∀ q : BitVec 32,
          k ≤ (q - (s.drv.lookaheadPos + s.drv.lookaheadSize.setWidth 32)).toNat % 32768 →
          winByte d q = winByte s.win.dict q)
      ∧ (Mirrored s.win.dict → Mirrored d)
      ∧ adler = if s.ctl.writeZlibHeader || s.ctl.computeAdler32 then
            (Mem.readRun s.host.inSlice s.call.srcPos.toNat k).foldl adlerNext s.ctl.adler32
          else s.ctl.adler32

/-- DRV.ADLER advances both halves of `ADLER32` by the byte, modulo 65521, and changes nothing else (R257). -/
def Obligations.AdlerAdvances : Prop :=
  ∀ (c : BitVec 8) (s : State), s.halt = none →
    let a := (s.ctl.adler32.toNat % 2 ^ 16 + c.toNat) % 65521
    let b := (s.ctl.adler32.toNat / 2 ^ 16 + a) % 65521
    ∃ x : BitVec 32, exec (.drvAdler c) s = .next (s.setCtl { s.ctl with adler32 := x })
      ∧ x.toNat % 2 ^ 16 = a ∧ x.toNat / 2 ^ 16 = b

/-- DRV.CATCHUP completes with a lag of at most 258 and inserts every position whose three bytes are in the window, oldest
first: none is left behind with two bytes or more ahead, at most `2 - lookahead_size` otherwise; only the chains and `ins_pos`
change (R142, R258, R33 item 9). -/
def Obligations.CatchupInserts : Prop :=
  ∀ s : State, s.halt = none → lag s ≤ 258 →
    let n := lag s - (2 - s.drv.lookaheadSize.toNat)
    exec .drvCatchup s
      = .next ((s.setWin (insertRun n s.drv.insPos s.win)).setDrv
          { s.drv with insPos := s.drv.insPos + BitVec.ofNat 32 n })

/-- DRV.PARSE_STEP completes in every state the driver reaches after DRV.CATCHUP, advances by at least one and at most the
lookahead, leaves the invariants of R33 with `lz_code_len` at most 65531 where it was at most 65528 before, and touches neither
the window nor the encoder (R260 to R263, R33). The premise on the lag, which the step
lets grow to at most 258, is DRV.CATCHUP's to restore (R33 item 9, R258). -/
def Obligations.ParseStepAdvances : Prop :=
  ∀ s : State, s.halt = none → Driving 65528 s → s.drv.lookaheadSize ≠ 0 → lag s ≤ 2 - s.drv.lookaheadSize.toNat →
    ∃ t move, exec .drvParseStep s = .next t ∧ Driving 65531 t
      ∧ 1 ≤ move ∧ move ≤ s.drv.lookaheadSize.toNat
      ∧ t.drv.lookaheadPos = s.drv.lookaheadPos + BitVec.ofNat 32 move
      ∧ t.drv.lookaheadSize.toNat = s.drv.lookaheadSize.toNat - move
      ∧ t.drv.dictSize.toNat = min (s.drv.dictSize.toNat + move) 32768
      ∧ t.drv.insPos = s.drv.insPos ∧ t.drv.blockStartPos = s.drv.blockStartPos
      ∧ t.drv.flushOfs = s.drv.flushOfs ∧ t.drv.flushRemaining = s.drv.flushRemaining
      ∧ t.win = s.win ∧ t.enc = s.enc ∧ t.ctl = s.ctl ∧ t.call = s.call ∧ t.host = s.host

/-- Which record DRV.PARSE_STEP makes: with the candidate of R260 after the filter of R261, a held match is replaced by a
longer one, its literal recorded, or else committed; with none held, no candidate gives a literal, greedy and RLE mode
commit the match, and lazy mode holds it and records nothing. The registers advance accordingly (R260 to R263). -/
def Obligations.ParseStepDecides : Prop :=
  ∀ s : State, s.halt = none → Driving 65528 s → s.drv.lookaheadSize ≠ 0 →
    ∃ t dist len, exec .drvParseStep s = .next t ∧ Filtered s dist len
      ∧ let d := s.drv
        let here := winByte s.win.dict d.lookaheadPos
        if d.savedLen ≠ 0 then
          if d.savedLen.toNat < len.toNat then
            Records (.recLit d.savedLit) s t ∧ t.drv = advanced 1 dist len here d
          else
            Records (.recMatch d.savedLen d.savedDist) s t
            ∧ t.drv = advanced (d.savedLen.toNat - 1) d.savedDist 0 d.savedLit d
        else if dist = 0 then
          Records (.recLit here) s t ∧ t.drv = advanced 1 d.savedDist 0 d.savedLit d
        else if s.ctl.greedyParsing = true ∨ s.ctl.rleMatches = true then
          Records (.recMatch len dist) s t ∧ t.drv = advanced len.toNat d.savedDist 0 d.savedLit d
        else t.lz = s.lz ∧ t.huf = s.huf ∧ t.drv = advanced 1 dist len here d

/-- DRV.CLOSE_BLOCK completes and stages the block. Between two blocks, in slice mode with room: the empty block is staged
and delivered, for every flush mode. In any other state, with records or without, in slice or sink mode: when its steps
complete one after another, DRV.CLOSE_BLOCK completes and what is staged, and the tables, are what they leave: the head, the
tables of the counts with one EOB, the block in the type R216 chooses, the trailer or the marker (R213, R216, R265, R266). -/
def Obligations.CloseBlockDelivers : Prop :=
  (∀ (fl : FlushMode) (s : State), Quiet s → s.ctl.sinkMode = false → Mem.wf s.host.outSlice →
    s.call.outOfs.toNat + 16 ≤ s.call.outCap.toNat →
    ∃ t, exec (.drvCloseBlock fl) s = .next t
      ∧ let e : Encoder := { s.enc with stagePos := 0 }
        e.Appended (emptyBlockFields s fl) t.enc
        ∧ Delivered t.enc.stage 0 (wholeBytes e (emptyBlockFields s fl)) s t
        ∧ t.ctl = { s.ctl with blockIndex := s.ctl.blockIndex + 1 }
        ∧ t.drv = { s.drv with flushOfs := 0 } ∧ t.win = s.win)
  ∧ ∀ (fl : FlushMode) (s u : State), s.drv.flushRemaining = 0 → BlockStaged fl s u →
    ∃ t, exec (.drvCloseBlock fl) s = .next t
      ∧ t.enc = u.enc ∧ t.work = u.work
      ∧ ∀ h, (t.huf.get h).size = (u.huf.get h).size ∧ (t.huf.get h).code = (u.huf.get h).code

/-- What every DRV.CLOSE_BLOCK that completes leaves: empty records and counts, the block's start moved past its bytes, one
block more; the lookahead, the held match, the window and the chains stay (R163, R265). -/
def Obligations.CloseBlockBooks : Prop :=
  ∀ (fl : FlushMode) (s t : State), exec (.drvCloseBlock fl) s = .next t →
    t.lz = { s.lz with lzCodeLen := 0, lzOpCount := 0, totalLzBytes := 0 }
    ∧ (∀ a, Mem.read t.huf.litLen.count a = 0 ∧ Mem.read t.huf.dist.count a = 0)
    ∧ t.drv.blockStartPos = s.drv.blockStartPos + s.lz.totalLzBytes
    ∧ t.ctl.blockIndex = s.ctl.blockIndex + 1
    ∧ t.drv.lookaheadPos = s.drv.lookaheadPos ∧ t.drv.lookaheadSize = s.drv.lookaheadSize
    ∧ t.drv.dictSize = s.drv.dictSize ∧ t.drv.insPos = s.drv.insPos
    ∧ t.drv.savedLen = s.drv.savedLen ∧ t.drv.savedDist = s.drv.savedDist ∧ t.drv.savedLit = s.drv.savedLit
    ∧ t.win = s.win

/-- The hand-over at the end of DRV.CLOSE_BLOCK in slice mode: as many staged bytes as fit go to the output slice; when
some do not, the block suspends, the pair `flush_ofs`, `flush_remaining` saving the rest (R266, R306). -/
def Obligations.CloseBlockSuspends : Prop :=
  ∀ (fl : FlushMode) (s t : State), s.ctl.sinkMode = false → Mem.wf s.host.outSlice →
    s.call.outOfs.toNat ≤ s.call.outCap.toNat → exec (.drvCloseBlock fl) s = .next t →
    let n := t.enc.stagePos.toNat
    let k := min n (s.call.outCap.toNat - s.call.outOfs.toNat)
    Delivered t.enc.stage 0 k s t
    ∧ (if k < n then t.drv.flushOfs.toNat = k ∧ t.drv.flushRemaining.toNat = n - k
       else t.drv.flushOfs = 0 ∧ t.drv.flushRemaining = 0)
    ∧ t.ctl.prevStatus = s.ctl.prevStatus ∧ t.host.response = s.host.response

/-- The hand-over in sink mode: the sink is invoked once with all staged bytes; when it refuses, PutBufFailed is raised
with the input consumed so far, the bookkeeping having been done (R266, R302). -/
def Obligations.SinkRefusalRaises : Prop :=
  ∀ (fl : FlushMode) (answer : Bool) (rest : List Bool) (s t : State), s.ctl.sinkMode = true →
    s.host.sinkAnswers = answer :: rest → exec (.drvCloseBlock fl) s = .next t → t.enc.stagePos ≠ 0 →
    t.host.sinkOut = s.host.sinkOut ++ [Mem.readRun t.enc.stage 0 t.enc.stagePos.toNat]
    ∧ t.host.sinkAnswers = rest ∧ t.host.sinkCalls = s.host.sinkCalls + 1
    ∧ t.host.outSlice = s.host.outSlice ∧ t.drv.flushRemaining = 0 ∧ t.lz.lzOpCount = 0
    ∧ t.ctl.blockIndex = s.ctl.blockIndex + 1
    ∧ (if answer then t.ctl.prevStatus = s.ctl.prevStatus ∧ t.host.response = s.host.response
       else t.ctl.prevStatus = .putBufFailed
        ∧ t.host.response = some { status := .putBufFailed, inConsumed := s.call.srcPos, outProduced := 0 })

/-- DRV.DRAIN in slice mode copies what fits of the pending bytes and advances the pair; in sink mode it does nothing
(R268, R307; that the micro-operation is the copy alone is log entry 16). -/
def Obligations.DrainCopies : Prop :=
  ∀ s : State, s.halt = none →
    (s.ctl.sinkMode = true → exec .drvDrain s = .next s)
    ∧ (s.ctl.sinkMode = false → Mem.wf s.host.outSlice → s.call.outOfs.toNat ≤ s.call.outCap.toNat →
        s.drv.flushOfs.toNat + s.drv.flushRemaining.toNat ≤ 85196 →
        let k := min (s.call.outCap.toNat - s.call.outOfs.toNat) s.drv.flushRemaining.toNat
        ∃ out t, t = ((s.setHost { s.host with outSlice := out }).setCall
              { s.call with outOfs := s.call.outOfs + BitVec.ofNat 32 k }).setDrv
              { s.drv with flushOfs := s.drv.flushOfs + BitVec.ofNat 17 k,
                           flushRemaining := s.drv.flushRemaining - BitVec.ofNat 17 k }
          ∧ exec .drvDrain s = .next t ∧ Delivered s.enc.stage s.drv.flushOfs.toNat k s t)

/-! The statuses. -/

/-- The four statuses as rows of the table: Okay and Done record themselves and answer both counts, PutBufFailed records
itself and answers the input consumed, BadParam records nothing and answers zeros (R268, R301, R302; that a status row by
itself is this response is the model's reading, log entry 15). Their 2-bit fields, signed, are R94's. -/
def Obligations.StatusRows : Prop :=
  (∀ s : State, s.halt = none →
    (let answer := fun st (i o : BitVec 32) => s.setHost { s.host with
        response := some { status := st, inConsumed := i, outProduced := o } }
     exec .statusOkay s = .next ((answer .okay s.call.srcPos s.call.outOfs).setCtl { s.ctl with prevStatus := .okay })
     ∧ exec .statusDone s = .next ((answer .done s.call.srcPos s.call.outOfs).setCtl { s.ctl with prevStatus := .done })
     ∧ exec .statusPutBufFailed s
         = .next ((answer .putBufFailed s.call.srcPos 0).setCtl { s.ctl with prevStatus := .putBufFailed })
     ∧ exec .statusBadParam s = .next (answer .badParam 0 0)))
  ∧ statusValue .badParam = -2 ∧ statusValue .putBufFailed = -1 ∧ statusValue .okay = 0 ∧ statusValue .done = 1

/-! The whole machine. -/

/-- Every step keeps every memory and table in canonical form, with no element beyond its size and no code length above
its table's limit. -/
def Obligations.StepKeepsCanonical : Prop :=
  ∀ s t : State, s.Canonical → step s = .next t → t.Canonical

/-- Every step, of whatever code space, keeps at most 7 bits in the accumulator, below `2^bits_in` (R33 item 8, R210), the
mirror (R33 item 3) and `MAX_PROBES = FLAGS[11:0]` (R147), and in sink mode leaves no byte pending (R33 item 11). -/
def Obligations.StepKeepsBitsAndMirror : Prop :=
  ∀ s t : State, Mem.wf s.win.dict ∧ s.enc.Sound ∧ Mirrored s.win.dict ∧ s.ctl.maxProbes = probesOf s.ctl.flags
      ∧ (s.ctl.sinkMode = true → s.drv.flushRemaining = 0) →
    step s = .next t →
    Mem.wf t.win.dict ∧ t.enc.Sound ∧ Mirrored t.win.dict ∧ t.ctl.maxProbes = probesOf t.ctl.flags
      ∧ (t.ctl.sinkMode = true → t.drv.flushRemaining = 0)

/-- Every host command keeps the invariants of R33 between calls, but for item 4 and the bytes of item 6, which speak of
the whole stream and no state holds: from any state that meets them, an INIT or COMPRESS of whatever operands (or a rejected
command) leaves a state that meets them. It keeps what a state holds of item 6 as well: the records fill `lz_code` up to
`lz_code_len` and cover `total_lz_bytes` bytes (R97, R163). -/
def Obligations.CommandKeepsDriving : Prop :=
  ∀ s t : State, Driving 65528 s → (∀ r ∈ s.host.requests.head?, r.space = .command) → step s = .next t →
    Driving 65528 t ∧ (RecordsHeld s → RecordsHeld t)

/-- Only INIT changes `FLAGS`, `MAX_PROBES`, `SINK_MODE` and `INITED`, and only INIT clears `FINISHED` and `WANTS_FINISH`
(R29, R342). -/
def Obligations.FlagsFixedForStream : Prop :=
  ∀ (i : Instr) (s t : State), (∀ flags sink, i ≠ .init flags sink) → exec i s = .next t →
    t.ctl.flags = s.ctl.flags ∧ t.ctl.maxProbes = s.ctl.maxProbes ∧ t.ctl.sinkMode = s.ctl.sinkMode
    ∧ t.ctl.inited = s.ctl.inited
    ∧ (s.ctl.finished = true → t.ctl.finished = true) ∧ (s.ctl.wantsFinish = true → t.ctl.wantsFinish = true)

/-- The frame of every instruction: it changes only the parts of the state `writes` lists for it (the "written by" columns
of R24, R26, R27, R60); it takes no request and presents no other input. The draws of
free values are the model's (log entry 26). -/
def Obligations.OnlyListedPartsChange : Prop :=
  ∀ (i : Instr) (s t : State), exec i s = .next t →
    (.win ∉ writes i → t.win = s.win) ∧ (.lz ∉ writes i → t.lz = s.lz) ∧ (.huf ∉ writes i → t.huf = s.huf)
    ∧ (.enc ∉ writes i → t.enc = s.enc) ∧ (.drv ∉ writes i → t.drv = s.drv) ∧ (.ctl ∉ writes i → t.ctl = s.ctl)
    ∧ (.call ∉ writes i → t.call = s.call) ∧ (.work ∉ writes i → t.work = s.work)
    ∧ (.host ∉ writes i → t.host = s.host) ∧ (.draws ∉ writes i → t.draws = s.draws)
    ∧ t.host.requests = s.host.requests ∧ t.host.inSlice = s.host.inSlice ∧ t.halt = none

/-- Where a micro-operation asked for by itself stops by name: the preconditions the driver keeps, treated as `refuse`
(R142 to R144, R160, R161, R183, R184, R265; U17, U18, U19; log entry 7). That DICT.INSERT stops at a position 2^31 or more
behind, counting it as not written, is the model's choice of an order of positions modulo 2^32 (log entry 28); so is which
searches of DICT.FIND compare nothing and do not stop (log entry 27). -/
def Obligations.PreconditionsRefused : Prop :=
  ∀ s : State, s.halt = none →
    (∀ q, (s.drv.lookaheadPos + s.drv.lookaheadSize.setWidth 32 - q).toNat < 3
          ∨ 2 ^ 31 ≤ (s.drv.lookaheadPos + s.drv.lookaheadSize.setWidth 32 - q).toNat →
      exec (.dictInsert q) s = .refused .windowRange)
    ∧ (∀ p md ml pd pl, s.ctl.maxProbes ≠ 0 → 3 ≤ ml.toNat → pl.toNat < ml.toNat →
        (p - (s.drv.lookaheadPos - s.drv.dictSize.setWidth 32)).toNat < md.toNat →
        exec (.dictFind p md ml pd pl) s = .refused .windowRange)
    ∧ (∀ p md ml pd pl, s.ctl.maxProbes ≠ 0 → 3 ≤ ml.toNat → pl.toNat < ml.toNat →
        s.drv.dictSize.toNat + s.drv.lookaheadSize.toNat
          < (p - (s.drv.lookaheadPos - s.drv.dictSize.setWidth 32)).toNat + ml.toNat →
        exec (.dictFind p md ml pd pl) s = .refused .windowRange)
    ∧ (∀ p ml, s.drv.dictSize = 0 → exec (.dictRle p ml) s = .refused .noHistory)
    ∧ (∀ b, 65528 < s.lz.lzCodeLen.toNat ∨ 65536 ≤ s.lz.lzOpCount.toNat →
        exec (.recLit b) s = .refused .recorderFull)
    ∧ (∀ len dist, (Instr.recMatch len dist).wf = false → exec (.recMatch len dist) s = .refused .operandRange)
    ∧ (∀ len dist, (Instr.recMatch len dist).wf = true → 65528 < s.lz.lzCodeLen.toNat ∨ 65536 ≤ s.lz.lzOpCount.toNat →
        exec (.recMatch len dist) s = .refused .recorderFull)
    ∧ (∀ lim, (∃ l ∈ s.work.lengths, 32 < l) → exec (.hufLimit lim) s = .refused .limiterInput)
    ∧ (∀ t, s.work.sym = [] → arrAt s.work.num 1 ≠ 0 → exec (.hufAssignSizes t) s = .refused .sizesInput)
    ∧ (s.drv.lookaheadSize = 0 → exec .drvParseStep s = .refused .emptyLookahead)
    ∧ ∀ fl, s.drv.flushRemaining ≠ 0 → exec (.drvCloseBlock fl) s = .refused .stagePending

/-- Where a micro-operation asked for by itself would read beyond a memory, it faults: ENC.PAYLOAD past the end of
`lz_code` or `lz_flags`, DRV.DRAIN past the end of `stage` (R60; the model's own stops, log entry 8). -/
def Obligations.ReadsBeyondMemoriesFault : Prop :=
  (∀ s : State, s.halt = none → 65536 < recordsEnd s s.lz.lzOpCount.toNat 0 0 ∨ 65536 < s.lz.lzOpCount.toNat →
    FieldsFit (recordFields s s.lz.lzOpCount.toNat 0 0) → s.enc.TakesBits (recordFields s s.lz.lzOpCount.toNat 0 0) →
    exec .encPayload s = .fault .lzCodeRange)
  ∧ ∀ s : State, s.halt = none → s.ctl.sinkMode = false →
    0 < min (s.call.outCap.toNat - s.call.outOfs.toNat) s.drv.flushRemaining.toNat →
    85196 < s.drv.flushOfs.toNat + min (s.call.outCap.toNat - s.call.outOfs.toNat) s.drv.flushRemaining.toNat →
    exec .drvDrain s = .fault .stageRange
end

