-- ==== Sys2Proof/Laws/Memory.lean ====
section
/-! SUPPORT. The laws of the memories: what a read gives after each operation, and that each keeps the canonical form. -/

namespace Sys2Proof.Laws

open Sys2Proof.Machine

variable {w : Nat}

@[simp] theorem read_nil (a : Nat) : Mem.read ([] : Mem w) a = 0 := rfl

theorem read_cons (c : Nat × BitVec w) (m : Mem w) (a : Nat) :
    Mem.read (c :: m) a = if a = c.1 then c.2 else Mem.read m a := rfl

/-- The tail of a canonical memory lists only indices above its head's. -/
theorem wf_cons_lt {c : Nat × BitVec w} {m : Mem w} (h : Mem.wf (c :: m)) : ∀ d ∈ m, c.1 < d.1 :=
  (List.pairwise_cons.1 h.1).1

theorem wf_tail {c : Nat × BitVec w} {m : Mem w} (h : Mem.wf (c :: m)) : Mem.wf m :=
  ⟨(List.pairwise_cons.1 h.1).2, fun d hd => h.2 d (List.mem_cons_of_mem _ hd)⟩

theorem wf_head {c : Nat × BitVec w} {m : Mem w} (h : Mem.wf (c :: m)) : c.2 ≠ unlisted w :=
  h.2 c List.mem_cons_self

theorem wf_cons {c : Nat × BitVec w} {m : Mem w} (hc : c.2 ≠ unlisted w) (hlt : ∀ d ∈ m, c.1 < d.1) (hm : Mem.wf m) :
    Mem.wf (c :: m) :=
  ⟨List.pairwise_cons.2 ⟨hlt, hm.1⟩, fun d hd => by
    rcases List.mem_cons.1 hd with rfl | hd
    · exact hc
    · exact hm.2 d hd⟩

theorem wf_nil : Mem.wf ([] : Mem w) := ⟨List.Pairwise.nil, fun _ h => by simp at h⟩

/-- An index below all listed ones reads as unlisted. -/
theorem read_of_lt {m : Mem w} {a : Nat} (h : ∀ d ∈ m, a < d.1) : Mem.read m a = unlisted w := by
  induction m with
  | nil => rfl
  | cons c m ih =>
    have := h c List.mem_cons_self
    rw [read_cons, if_neg (by omega), ih fun d hd => h d (List.mem_cons_of_mem _ hd)]

/-- A write lists no index but its own and the ones listed before. -/
theorem mem_write {m : Mem w} {a : Nat} {v : BitVec w} {c : Nat × BitVec w} (h : c ∈ Mem.write m a v) :
    c = (a, v) ∨ c ∈ m := by
  induction m with
  | nil =>
    unfold Mem.write at h
    split at h
    · simp at h
    · simpa using h
  | cons d m ih =>
    simp only [Mem.write] at h
    split at h
    · split at h
      · exact Or.inr h
      · exact (List.mem_cons.1 h).imp_right id
    · split at h
      · split at h
        · exact Or.inr (List.mem_cons_of_mem _ h)
        · exact (List.mem_cons.1 h).imp_right (List.mem_cons_of_mem _)
      · rcases List.mem_cons.1 h with rfl | h
        · simp
        · rcases ih h with rfl | h <;> simp_all

/-- A write keeps the canonical form. -/
theorem write_wf {m : Mem w} (h : Mem.wf m) (a : Nat) (v : BitVec w) : Mem.wf (Mem.write m a v) := by
  induction m with
  | nil =>
    unfold Mem.write
    split
    · exact wf_nil
    · exact wf_cons (by assumption) (fun _ h => by simp at h) wf_nil
  | cons c m ih =>
    have hlt := wf_cons_lt h
    simp only [Mem.write]
    split
    · split
      · exact h
      · refine wf_cons (by assumption) (fun d hd => ?_) h
        rcases List.mem_cons.1 hd with rfl | hd
        · assumption
        · exact Nat.lt_trans (by assumption) (hlt d hd)
    · split
      · subst a
        split
        · exact wf_tail h
        · exact wf_cons (by assumption) hlt (wf_tail h)
      · refine wf_cons (wf_head h) (fun d hd => ?_) (ih (wf_tail h))
        rcases mem_write hd with rfl | hd
        · show c.1 < a
          omega
        · exact hlt d hd

/-- Reading after a write, of a canonical memory: the written element has the value, every other keeps its own. -/
theorem read_write {m : Mem w} (h : Mem.wf m) (a : Nat) (v : BitVec w) (b : Nat) :
    Mem.read (Mem.write m a v) b = if b = a then v else Mem.read m b := by
  induction m with
  | nil =>
    unfold Mem.write
    split
    · subst v
      simp [unlisted]
    · simp [read_cons]
  | cons c m ih =>
    have hlt := wf_cons_lt h
    simp only [Mem.write]
    split
    · have hbelow : Mem.read (c :: m) a = unlisted w := read_of_lt fun d hd => by
        rcases List.mem_cons.1 hd with rfl | hd
        · assumption
        · exact Nat.lt_trans (by assumption) (hlt d hd)
      split
      · by_cases hb : b = a
        · subst b
          simp_all
        · rw [if_neg hb]
      · rw [read_cons]
    · split
      · subst a
        have habove : Mem.read m c.1 = unlisted w := read_of_lt hlt
        split
        · by_cases hb : b = c.1
          · subst b
            simp_all
          · rw [if_neg hb, read_cons, if_neg hb]
        · simp only [read_cons]
          split <;> rfl
      · rw [read_cons, ih (wf_tail h), read_cons]
        by_cases hb : b = c.1
        · rw [if_pos hb, if_pos hb, if_neg (by omega)]
        · rw [if_neg hb, if_neg hb]

/-- A memory without the canonical form: a write is still read back at its own index. -/
theorem read_write_same (m : Mem w) (a : Nat) (v : BitVec w) (h : Mem.wf m) : Mem.read (Mem.write m a v) a = v := by
  rw [read_write h, if_pos rfl]

/-- A run of writes keeps the canonical form. -/
theorem writeRun_wf {m : Mem w} (h : Mem.wf m) (a : Nat) (vs : List (BitVec w)) : Mem.wf (Mem.writeRun m a vs) := by
  induction vs generalizing m a with
  | nil => exact h
  | cons v vs ih => exact ih (write_wf h a v) (a + 1)

/-- Reading after a run of writes: the run's elements at its indices, the old ones elsewhere. -/
theorem read_writeRun {m : Mem w} (h : Mem.wf m) (a : Nat) (vs : List (BitVec w)) (b : Nat) :
    Mem.read (Mem.writeRun m a vs) b = if a ≤ b ∧ b < a + vs.length then vs.getD (b - a) 0 else Mem.read m b := by
  induction vs generalizing m a with
  | nil => simp [Mem.writeRun]
  | cons v vs ih =>
    rw [Mem.writeRun, ih (write_wf h a v), read_write h]
    by_cases hb : b = a
    · subst b
      simp
    · rw [if_neg hb]
      by_cases hr : a ≤ b ∧ b < a + (v :: vs).length
      · rw [if_pos hr, if_pos (by simp at hr; omega)]
        obtain ⟨k, hk⟩ : ∃ k, b - a = k + 1 := ⟨b - a - 1, by omega⟩
        rw [hk, show b - (a + 1) = k by omega]
        simp
      · rw [if_neg hr, if_neg (by simp at hr ⊢; omega)]

/-- A run read has as many elements as asked for. -/
@[simp] theorem readRun_length (m : Mem w) (a n : Nat) : (Mem.readRun m a n).length = n := by
  induction n generalizing a with
  | zero => rfl
  | succ n ih => simp [Mem.readRun, ih]

/-- The elements of a run read. -/
theorem readRun_getD (m : Mem w) (a n i : Nat) (h : i < n) : (Mem.readRun m a n).getD i 0 = Mem.read m (a + i) := by
  induction n generalizing a i with
  | zero => omega
  | succ n ih =>
    cases i with
    | zero => simp [Mem.readRun]
    | succ i =>
      rw [Mem.readRun, List.getD_cons_succ, ih (a + 1) i (by omega)]
      congr 1
      omega

/-- A run is split where its first part ends. -/
theorem readRun_add (m : Mem w) (a k n : Nat) :
    Mem.readRun m a (k + n) = Mem.readRun m a k ++ Mem.readRun m (a + k) n := by
  induction k generalizing a with
  | zero => simp [Mem.readRun]
  | succ k ih =>
    rw [show k + 1 + n = (k + n) + 1 by omega, Mem.readRun, Mem.readRun, ih, List.cons_append,
      show a + 1 + k = a + (k + 1) by omega]

/-- Two memories that read alike over a run give the same run. -/
theorem readRun_congr {m m' : Mem w} {a n : Nat} (h : ∀ i < n, Mem.read m (a + i) = Mem.read m' (a + i)) :
    Mem.readRun m a n = Mem.readRun m' a n := by
  induction n generalizing a with
  | zero => rfl
  | succ n ih =>
    rw [Mem.readRun, Mem.readRun, show Mem.read m a = Mem.read m' a from h 0 (by omega), ih fun i hi => ?_]
    have := h (i + 1) (by omega)
    rwa [show a + (i + 1) = a + 1 + i by omega] at this

/-- Canonical memories are told apart by their elements. -/
theorem wf_ext {m m' : Mem w} (h : Mem.wf m) (h' : Mem.wf m') (heq : ∀ a, Mem.read m a = Mem.read m' a) : m = m' := by
  induction m generalizing m' with
  | nil =>
    cases m' with
    | nil => rfl
    | cons c m' =>
      have := heq c.1
      rw [read_nil, read_cons, if_pos rfl] at this
      exact absurd this.symm (wf_head h')
  | cons c m ih =>
    cases m' with
    | nil =>
      have := heq c.1
      rw [read_nil, read_cons, if_pos rfl] at this
      exact absurd this (wf_head h)
    | cons d m' =>
      have hc : Mem.read (d :: m') c.1 ≠ unlisted w := by
        rw [← heq, read_cons, if_pos rfl]
        exact wf_head h
      have hd : Mem.read (c :: m) d.1 ≠ unlisted w := by
        rw [heq, read_cons, if_pos rfl]
        exact wf_head h'
      have hcd : ¬ c.1 < d.1 := fun hlt => hc (read_of_lt fun e he => by
        rcases List.mem_cons.1 he with rfl | he
        · exact hlt
        · exact Nat.lt_trans hlt (wf_cons_lt h' e he))
      have hdc : ¬ d.1 < c.1 := fun hlt => hd (read_of_lt fun e he => by
        rcases List.mem_cons.1 he with rfl | he
        · exact hlt
        · exact Nat.lt_trans hlt (wf_cons_lt h e he))
      have hidx : c.1 = d.1 := by omega
      have hval : c.2 = d.2 := by
        have := heq c.1
        rwa [read_cons, if_pos rfl, read_cons, if_pos hidx] at this
      have hcd' : c = d := Prod.ext hidx hval
      subst hcd'
      refine congrArg _ (ih (wf_tail h) (wf_tail h') fun a => ?_)
      by_cases ha : a = c.1
      · subst a
        rw [read_of_lt (wf_cons_lt h), read_of_lt (wf_cons_lt h')]
      · have := heq a
        rwa [read_cons, if_neg ha, read_cons, if_neg ha] at this

/-- A memory written whole is canonical. -/
theorem tabulate_wf (n : Nat) (f : Nat → BitVec w) : Mem.wf (Mem.tabulate n f) := by
  refine ⟨?_, fun c hc => ?_⟩
  · refine List.Pairwise.filterMap _ (R := (· < ·)) (fun a b hab c hc d hd => ?_) List.pairwise_lt_range
    split at hc
    · simp at hc
    · split at hd
      · simp at hd
      · simp only [Option.some.injEq] at hc hd
        subst hc hd
        exact hab
  · obtain ⟨i, -, hi⟩ := List.mem_filterMap.1 hc
    split at hi
    · simp at hi
    · simp only [Option.some.injEq] at hi
      subst hi
      assumption

/-- A listed element is what its index reads as. -/
theorem read_of_mem {m : Mem w} (h : Mem.wf m) {c : Nat × BitVec w} (hc : c ∈ m) : Mem.read m c.1 = c.2 := by
  induction m with
  | nil => simp at hc
  | cons d m ih =>
    rcases List.mem_cons.1 hc with rfl | hc
    · rw [read_cons, if_pos rfl]
    · have := wf_cons_lt h c hc
      rw [read_cons, if_neg (by omega), ih (wf_tail h) hc]

/-- An index that is not listed reads as unlisted. -/
theorem read_of_not_listed {m : Mem w} {a : Nat} (h : ∀ c ∈ m, c.1 ≠ a) : Mem.read m a = 0 := by
  induction m with
  | nil => rfl
  | cons d m ih =>
    rw [read_cons, if_neg fun hd => h d List.mem_cons_self hd.symm, ih fun c hc => h c (List.mem_cons_of_mem _ hc)]

/-- The elements of a memory written whole. -/
theorem read_tabulate (n : Nat) (f : Nat → BitVec w) (a : Nat) :
    Mem.read (Mem.tabulate n f) a = if a < n then f a else 0 := by
  by_cases hv : a < n ∧ f a ≠ unlisted w
  · have hm : (a, f a) ∈ Mem.tabulate n f :=
      List.mem_filterMap.2 ⟨a, List.mem_range.2 hv.1, by rw [if_neg hv.2]⟩
    rw [if_pos hv.1]
    exact read_of_mem (tabulate_wf n f) hm
  · rw [read_of_not_listed fun c hc hca => ?_]
    · split
      · have : f a = unlisted w := by
          by_contra hne
          exact hv ⟨by assumption, hne⟩
        rw [this]
        rfl
      · rfl
    · obtain ⟨i, hi, hic⟩ := List.mem_filterMap.1 hc
      split at hic
      · simp at hic
      · simp only [Option.some.injEq] at hic
        subst hic
        subst hca
        exact hv ⟨List.mem_range.1 hi, by assumption⟩

/-- A write within the size keeps the memory within its size (R60). -/
theorem write_below {m : Mem w} {n a : Nat} {v : BitVec w} (h : ∀ c ∈ m, c.1 < n) (ha : a < n) :
    ∀ c ∈ Mem.write m a v, c.1 < n := fun c hc => by
  rcases mem_write hc with rfl | hc
  · exact ha
  · exact h c hc

/-- A run of writes within the size keeps the memory within its size (R60). -/
theorem writeRun_below {m : Mem w} {n a : Nat} {vs : List (BitVec w)} (h : ∀ c ∈ m, c.1 < n) (ha : a + vs.length ≤ n) :
    ∀ c ∈ Mem.writeRun m a vs, c.1 < n := by
  induction vs generalizing m a with
  | nil => exact h
  | cons v vs ih =>
    simp only [List.length_cons] at ha
    exact ih (write_below h (by omega)) (by omega)

end Sys2Proof.Laws
end

