-- ==== Sys2Proof/Laws/State.lean ====
section
/-! SUPPORT. One lemma for every part of the state under every replacement of a part. -/

namespace Sys2Proof.Laws

open Sys2Proof.Machine

@[simp] theorem setWin_win (s : State) (v : Window) : (s.setWin v).win = v := rfl
@[simp] theorem setWin_lz (s : State) (v : Window) : (s.setWin v).lz = s.lz := rfl
@[simp] theorem setWin_huf (s : State) (v : Window) : (s.setWin v).huf = s.huf := rfl
@[simp] theorem setWin_enc (s : State) (v : Window) : (s.setWin v).enc = s.enc := rfl
@[simp] theorem setWin_drv (s : State) (v : Window) : (s.setWin v).drv = s.drv := rfl
@[simp] theorem setWin_ctl (s : State) (v : Window) : (s.setWin v).ctl = s.ctl := rfl
@[simp] theorem setWin_call (s : State) (v : Window) : (s.setWin v).call = s.call := rfl
@[simp] theorem setWin_work (s : State) (v : Window) : (s.setWin v).work = s.work := rfl
@[simp] theorem setWin_host (s : State) (v : Window) : (s.setWin v).host = s.host := rfl
@[simp] theorem setWin_draws (s : State) (v : Window) : (s.setWin v).draws = s.draws := rfl
@[simp] theorem setWin_halt (s : State) (v : Window) : (s.setWin v).halt = s.halt := rfl

@[simp] theorem setLz_win (s : State) (v : Recorder) : (s.setLz v).win = s.win := rfl
@[simp] theorem setLz_lz (s : State) (v : Recorder) : (s.setLz v).lz = v := rfl
@[simp] theorem setLz_huf (s : State) (v : Recorder) : (s.setLz v).huf = s.huf := rfl
@[simp] theorem setLz_enc (s : State) (v : Recorder) : (s.setLz v).enc = s.enc := rfl
@[simp] theorem setLz_drv (s : State) (v : Recorder) : (s.setLz v).drv = s.drv := rfl
@[simp] theorem setLz_ctl (s : State) (v : Recorder) : (s.setLz v).ctl = s.ctl := rfl
@[simp] theorem setLz_call (s : State) (v : Recorder) : (s.setLz v).call = s.call := rfl
@[simp] theorem setLz_work (s : State) (v : Recorder) : (s.setLz v).work = s.work := rfl
@[simp] theorem setLz_host (s : State) (v : Recorder) : (s.setLz v).host = s.host := rfl
@[simp] theorem setLz_draws (s : State) (v : Recorder) : (s.setLz v).draws = s.draws := rfl
@[simp] theorem setLz_halt (s : State) (v : Recorder) : (s.setLz v).halt = s.halt := rfl

@[simp] theorem setHuf_win (s : State) (v : Huffman) : (s.setHuf v).win = s.win := rfl
@[simp] theorem setHuf_lz (s : State) (v : Huffman) : (s.setHuf v).lz = s.lz := rfl
@[simp] theorem setHuf_huf (s : State) (v : Huffman) : (s.setHuf v).huf = v := rfl
@[simp] theorem setHuf_enc (s : State) (v : Huffman) : (s.setHuf v).enc = s.enc := rfl
@[simp] theorem setHuf_drv (s : State) (v : Huffman) : (s.setHuf v).drv = s.drv := rfl
@[simp] theorem setHuf_ctl (s : State) (v : Huffman) : (s.setHuf v).ctl = s.ctl := rfl
@[simp] theorem setHuf_call (s : State) (v : Huffman) : (s.setHuf v).call = s.call := rfl
@[simp] theorem setHuf_work (s : State) (v : Huffman) : (s.setHuf v).work = s.work := rfl
@[simp] theorem setHuf_host (s : State) (v : Huffman) : (s.setHuf v).host = s.host := rfl
@[simp] theorem setHuf_draws (s : State) (v : Huffman) : (s.setHuf v).draws = s.draws := rfl
@[simp] theorem setHuf_halt (s : State) (v : Huffman) : (s.setHuf v).halt = s.halt := rfl

@[simp] theorem setEnc_win (s : State) (v : Encoder) : (s.setEnc v).win = s.win := rfl
@[simp] theorem setEnc_lz (s : State) (v : Encoder) : (s.setEnc v).lz = s.lz := rfl
@[simp] theorem setEnc_huf (s : State) (v : Encoder) : (s.setEnc v).huf = s.huf := rfl
@[simp] theorem setEnc_enc (s : State) (v : Encoder) : (s.setEnc v).enc = v := rfl
@[simp] theorem setEnc_drv (s : State) (v : Encoder) : (s.setEnc v).drv = s.drv := rfl
@[simp] theorem setEnc_ctl (s : State) (v : Encoder) : (s.setEnc v).ctl = s.ctl := rfl
@[simp] theorem setEnc_call (s : State) (v : Encoder) : (s.setEnc v).call = s.call := rfl
@[simp] theorem setEnc_work (s : State) (v : Encoder) : (s.setEnc v).work = s.work := rfl
@[simp] theorem setEnc_host (s : State) (v : Encoder) : (s.setEnc v).host = s.host := rfl
@[simp] theorem setEnc_draws (s : State) (v : Encoder) : (s.setEnc v).draws = s.draws := rfl
@[simp] theorem setEnc_halt (s : State) (v : Encoder) : (s.setEnc v).halt = s.halt := rfl

@[simp] theorem setDrv_win (s : State) (v : Driver) : (s.setDrv v).win = s.win := rfl
@[simp] theorem setDrv_lz (s : State) (v : Driver) : (s.setDrv v).lz = s.lz := rfl
@[simp] theorem setDrv_huf (s : State) (v : Driver) : (s.setDrv v).huf = s.huf := rfl
@[simp] theorem setDrv_enc (s : State) (v : Driver) : (s.setDrv v).enc = s.enc := rfl
@[simp] theorem setDrv_drv (s : State) (v : Driver) : (s.setDrv v).drv = v := rfl
@[simp] theorem setDrv_ctl (s : State) (v : Driver) : (s.setDrv v).ctl = s.ctl := rfl
@[simp] theorem setDrv_call (s : State) (v : Driver) : (s.setDrv v).call = s.call := rfl
@[simp] theorem setDrv_work (s : State) (v : Driver) : (s.setDrv v).work = s.work := rfl
@[simp] theorem setDrv_host (s : State) (v : Driver) : (s.setDrv v).host = s.host := rfl
@[simp] theorem setDrv_draws (s : State) (v : Driver) : (s.setDrv v).draws = s.draws := rfl
@[simp] theorem setDrv_halt (s : State) (v : Driver) : (s.setDrv v).halt = s.halt := rfl

@[simp] theorem setCtl_win (s : State) (v : Control) : (s.setCtl v).win = s.win := rfl
@[simp] theorem setCtl_lz (s : State) (v : Control) : (s.setCtl v).lz = s.lz := rfl
@[simp] theorem setCtl_huf (s : State) (v : Control) : (s.setCtl v).huf = s.huf := rfl
@[simp] theorem setCtl_enc (s : State) (v : Control) : (s.setCtl v).enc = s.enc := rfl
@[simp] theorem setCtl_drv (s : State) (v : Control) : (s.setCtl v).drv = s.drv := rfl
@[simp] theorem setCtl_ctl (s : State) (v : Control) : (s.setCtl v).ctl = v := rfl
@[simp] theorem setCtl_call (s : State) (v : Control) : (s.setCtl v).call = s.call := rfl
@[simp] theorem setCtl_work (s : State) (v : Control) : (s.setCtl v).work = s.work := rfl
@[simp] theorem setCtl_host (s : State) (v : Control) : (s.setCtl v).host = s.host := rfl
@[simp] theorem setCtl_draws (s : State) (v : Control) : (s.setCtl v).draws = s.draws := rfl
@[simp] theorem setCtl_halt (s : State) (v : Control) : (s.setCtl v).halt = s.halt := rfl

@[simp] theorem setCall_win (s : State) (v : CallRegs) : (s.setCall v).win = s.win := rfl
@[simp] theorem setCall_lz (s : State) (v : CallRegs) : (s.setCall v).lz = s.lz := rfl
@[simp] theorem setCall_huf (s : State) (v : CallRegs) : (s.setCall v).huf = s.huf := rfl
@[simp] theorem setCall_enc (s : State) (v : CallRegs) : (s.setCall v).enc = s.enc := rfl
@[simp] theorem setCall_drv (s : State) (v : CallRegs) : (s.setCall v).drv = s.drv := rfl
@[simp] theorem setCall_ctl (s : State) (v : CallRegs) : (s.setCall v).ctl = s.ctl := rfl
@[simp] theorem setCall_call (s : State) (v : CallRegs) : (s.setCall v).call = v := rfl
@[simp] theorem setCall_work (s : State) (v : CallRegs) : (s.setCall v).work = s.work := rfl
@[simp] theorem setCall_host (s : State) (v : CallRegs) : (s.setCall v).host = s.host := rfl
@[simp] theorem setCall_draws (s : State) (v : CallRegs) : (s.setCall v).draws = s.draws := rfl
@[simp] theorem setCall_halt (s : State) (v : CallRegs) : (s.setCall v).halt = s.halt := rfl

@[simp] theorem setWork_win (s : State) (v : Work) : (s.setWork v).win = s.win := rfl
@[simp] theorem setWork_lz (s : State) (v : Work) : (s.setWork v).lz = s.lz := rfl
@[simp] theorem setWork_huf (s : State) (v : Work) : (s.setWork v).huf = s.huf := rfl
@[simp] theorem setWork_enc (s : State) (v : Work) : (s.setWork v).enc = s.enc := rfl
@[simp] theorem setWork_drv (s : State) (v : Work) : (s.setWork v).drv = s.drv := rfl
@[simp] theorem setWork_ctl (s : State) (v : Work) : (s.setWork v).ctl = s.ctl := rfl
@[simp] theorem setWork_call (s : State) (v : Work) : (s.setWork v).call = s.call := rfl
@[simp] theorem setWork_work (s : State) (v : Work) : (s.setWork v).work = v := rfl
@[simp] theorem setWork_host (s : State) (v : Work) : (s.setWork v).host = s.host := rfl
@[simp] theorem setWork_draws (s : State) (v : Work) : (s.setWork v).draws = s.draws := rfl
@[simp] theorem setWork_halt (s : State) (v : Work) : (s.setWork v).halt = s.halt := rfl

@[simp] theorem setHost_win (s : State) (v : HostSide) : (s.setHost v).win = s.win := rfl
@[simp] theorem setHost_lz (s : State) (v : HostSide) : (s.setHost v).lz = s.lz := rfl
@[simp] theorem setHost_huf (s : State) (v : HostSide) : (s.setHost v).huf = s.huf := rfl
@[simp] theorem setHost_enc (s : State) (v : HostSide) : (s.setHost v).enc = s.enc := rfl
@[simp] theorem setHost_drv (s : State) (v : HostSide) : (s.setHost v).drv = s.drv := rfl
@[simp] theorem setHost_ctl (s : State) (v : HostSide) : (s.setHost v).ctl = s.ctl := rfl
@[simp] theorem setHost_call (s : State) (v : HostSide) : (s.setHost v).call = s.call := rfl
@[simp] theorem setHost_work (s : State) (v : HostSide) : (s.setHost v).work = s.work := rfl
@[simp] theorem setHost_host (s : State) (v : HostSide) : (s.setHost v).host = v := rfl
@[simp] theorem setHost_draws (s : State) (v : HostSide) : (s.setHost v).draws = s.draws := rfl
@[simp] theorem setHost_halt (s : State) (v : HostSide) : (s.setHost v).halt = s.halt := rfl

@[simp] theorem setHalt_win (s : State) (v : Option Stop) : (s.setHalt v).win = s.win := rfl
@[simp] theorem setHalt_lz (s : State) (v : Option Stop) : (s.setHalt v).lz = s.lz := rfl
@[simp] theorem setHalt_huf (s : State) (v : Option Stop) : (s.setHalt v).huf = s.huf := rfl
@[simp] theorem setHalt_enc (s : State) (v : Option Stop) : (s.setHalt v).enc = s.enc := rfl
@[simp] theorem setHalt_drv (s : State) (v : Option Stop) : (s.setHalt v).drv = s.drv := rfl
@[simp] theorem setHalt_ctl (s : State) (v : Option Stop) : (s.setHalt v).ctl = s.ctl := rfl
@[simp] theorem setHalt_call (s : State) (v : Option Stop) : (s.setHalt v).call = s.call := rfl
@[simp] theorem setHalt_work (s : State) (v : Option Stop) : (s.setHalt v).work = s.work := rfl
@[simp] theorem setHalt_host (s : State) (v : Option Stop) : (s.setHalt v).host = s.host := rfl
@[simp] theorem setHalt_draws (s : State) (v : Option Stop) : (s.setHalt v).draws = s.draws := rfl
@[simp] theorem setHalt_halt (s : State) (v : Option Stop) : (s.setHalt v).halt = v := rfl

@[simp] theorem setDraws_win (s : State) (v : Nat) : (s.setDraws v).win = s.win := rfl
@[simp] theorem setDraws_lz (s : State) (v : Nat) : (s.setDraws v).lz = s.lz := rfl
@[simp] theorem setDraws_huf (s : State) (v : Nat) : (s.setDraws v).huf = s.huf := rfl
@[simp] theorem setDraws_enc (s : State) (v : Nat) : (s.setDraws v).enc = s.enc := rfl
@[simp] theorem setDraws_drv (s : State) (v : Nat) : (s.setDraws v).drv = s.drv := rfl
@[simp] theorem setDraws_ctl (s : State) (v : Nat) : (s.setDraws v).ctl = s.ctl := rfl
@[simp] theorem setDraws_call (s : State) (v : Nat) : (s.setDraws v).call = s.call := rfl
@[simp] theorem setDraws_work (s : State) (v : Nat) : (s.setDraws v).work = s.work := rfl
@[simp] theorem setDraws_host (s : State) (v : Nat) : (s.setDraws v).host = s.host := rfl
@[simp] theorem setDraws_draws (s : State) (v : Nat) : (s.setDraws v).draws = v := rfl
@[simp] theorem setDraws_halt (s : State) (v : Nat) : (s.setDraws v).halt = s.halt := rfl

@[simp] theorem drawn_win (s : State) : s.drawn.win = s.win := rfl
@[simp] theorem drawn_lz (s : State) : s.drawn.lz = s.lz := rfl
@[simp] theorem drawn_huf (s : State) : s.drawn.huf = s.huf := rfl
@[simp] theorem drawn_enc (s : State) : s.drawn.enc = s.enc := rfl
@[simp] theorem drawn_drv (s : State) : s.drawn.drv = s.drv := rfl
@[simp] theorem drawn_ctl (s : State) : s.drawn.ctl = s.ctl := rfl
@[simp] theorem drawn_call (s : State) : s.drawn.call = s.call := rfl
@[simp] theorem drawn_work (s : State) : s.drawn.work = s.work := rfl
@[simp] theorem drawn_host (s : State) : s.drawn.host = s.host := rfl
@[simp] theorem drawn_halt (s : State) : s.drawn.halt = s.halt := rfl
@[simp] theorem drawn_draws (s : State) : s.drawn.draws = s.draws + 1 := rfl

/-- The later replacement stands. -/
@[simp] theorem setDraws_setDraws (s : State) (u v : Nat) : (s.setDraws u).setDraws v = s.setDraws v := rfl

/-- Replacing a part by itself changes nothing. -/
@[simp] theorem setDraws_self (s : State) : s.setDraws s.draws = s := rfl

/-- The later replacement stands. -/
@[simp] theorem setWin_setWin (s : State) (u v : Window) : (s.setWin u).setWin v = s.setWin v := rfl

/-- Replacing a part by itself changes nothing. -/
@[simp] theorem setWin_self (s : State) : s.setWin s.win = s := rfl

/-- The later replacement stands. -/
@[simp] theorem setLz_setLz (s : State) (u v : Recorder) : (s.setLz u).setLz v = s.setLz v := rfl

/-- Replacing a part by itself changes nothing. -/
@[simp] theorem setLz_self (s : State) : s.setLz s.lz = s := rfl

/-- The later replacement stands. -/
@[simp] theorem setHuf_setHuf (s : State) (u v : Huffman) : (s.setHuf u).setHuf v = s.setHuf v := rfl

/-- Replacing a part by itself changes nothing. -/
@[simp] theorem setHuf_self (s : State) : s.setHuf s.huf = s := rfl

/-- The later replacement stands. -/
@[simp] theorem setEnc_setEnc (s : State) (u v : Encoder) : (s.setEnc u).setEnc v = s.setEnc v := rfl

/-- Replacing a part by itself changes nothing. -/
@[simp] theorem setEnc_self (s : State) : s.setEnc s.enc = s := rfl

/-- The later replacement stands. -/
@[simp] theorem setDrv_setDrv (s : State) (u v : Driver) : (s.setDrv u).setDrv v = s.setDrv v := rfl

/-- Replacing a part by itself changes nothing. -/
@[simp] theorem setDrv_self (s : State) : s.setDrv s.drv = s := rfl

/-- The later replacement stands. -/
@[simp] theorem setCtl_setCtl (s : State) (u v : Control) : (s.setCtl u).setCtl v = s.setCtl v := rfl

/-- Replacing a part by itself changes nothing. -/
@[simp] theorem setCtl_self (s : State) : s.setCtl s.ctl = s := rfl

/-- The later replacement stands. -/
@[simp] theorem setCall_setCall (s : State) (u v : CallRegs) : (s.setCall u).setCall v = s.setCall v := rfl

/-- Replacing a part by itself changes nothing. -/
@[simp] theorem setCall_self (s : State) : s.setCall s.call = s := rfl

/-- The later replacement stands. -/
@[simp] theorem setWork_setWork (s : State) (u v : Work) : (s.setWork u).setWork v = s.setWork v := rfl

/-- Replacing a part by itself changes nothing. -/
@[simp] theorem setWork_self (s : State) : s.setWork s.work = s := rfl

/-- The later replacement stands. -/
@[simp] theorem setHost_setHost (s : State) (u v : HostSide) : (s.setHost u).setHost v = s.setHost v := rfl

/-- Replacing a part by itself changes nothing. -/
@[simp] theorem setHost_self (s : State) : s.setHost s.host = s := rfl

/-- The later replacement stands. -/
@[simp] theorem setHalt_setHalt (s : State) (u v : Option Stop) : (s.setHalt u).setHalt v = s.setHalt v := rfl

/-- Replacing a part by itself changes nothing. -/
@[simp] theorem setHalt_self (s : State) : s.setHalt s.halt = s := rfl

@[simp] theorem get_set_same (h : Huffman) (t : Table) (v : HuffTable) : (h.set t v).get t = v := by cases t <;> rfl

theorem get_set_ne (h : Huffman) (t u : Table) (v : HuffTable) (hne : u ≠ t) : (h.set t v).get u = h.get u := by
  cases t <;> cases u <;> first | rfl | exact absurd rfl hne

@[simp] theorem set_set (h : Huffman) (t : Table) (u v : HuffTable) : (h.set t u).set t v = h.set t v := by
  cases t <;> rfl

@[simp] theorem setTable_win (s : State) (t : Table) (v : HuffTable) : (s.setTable t v).win = s.win := rfl
@[simp] theorem setTable_lz (s : State) (t : Table) (v : HuffTable) : (s.setTable t v).lz = s.lz := rfl
@[simp] theorem setTable_huf (s : State) (t : Table) (v : HuffTable) : (s.setTable t v).huf = s.huf.set t v := rfl
@[simp] theorem setTable_enc (s : State) (t : Table) (v : HuffTable) : (s.setTable t v).enc = s.enc := rfl
@[simp] theorem setTable_drv (s : State) (t : Table) (v : HuffTable) : (s.setTable t v).drv = s.drv := rfl
@[simp] theorem setTable_ctl (s : State) (t : Table) (v : HuffTable) : (s.setTable t v).ctl = s.ctl := rfl
@[simp] theorem setTable_call (s : State) (t : Table) (v : HuffTable) : (s.setTable t v).call = s.call := rfl
@[simp] theorem setTable_draws (s : State) (t : Table) (v : HuffTable) : (s.setTable t v).draws = s.draws := rfl
@[simp] theorem setTable_work (s : State) (t : Table) (v : HuffTable) : (s.setTable t v).work = s.work := rfl
@[simp] theorem setTable_host (s : State) (t : Table) (v : HuffTable) : (s.setTable t v).host = s.host := rfl
@[simp] theorem setTable_halt (s : State) (t : Table) (v : HuffTable) : (s.setTable t v).halt = s.halt := rfl

end Sys2Proof.Laws
end

