-- ==== Sys2Proof/Laws/Ops.lean ====
section
/-! SUPPORT. What each shared operation of Machine/Ops.lean can do, said once. -/

namespace Sys2Proof.Laws

open Sys2Proof.Machine

/-- An instruction completes exactly when no operation of it has stopped the instance. -/
theorem settle_eq_next {s t : State} : settle s = .next t ↔ s.halt = none ∧ t = s := by
  unfold settle
  rcases h : s.halt with _ | r
  · simp [eq_comm]
  · cases r <;> simp

theorem settle_of_running {s : State} (h : s.halt = none) : settle s = .next s := settle_eq_next.2 ⟨h, rfl⟩

theorem settle_of_refused {s : State} {r : Refusal} (h : s.halt = some (.refusal r)) : settle s = .refused r := by
  simp [settle, h]

theorem settle_of_faulted {s : State} {r : Fault} (h : s.halt = some (.fault r)) : settle s = .fault r := by
  simp [settle, h]

/-- A stop sets the latch of a running instance and nothing else; on a stopped one it does nothing. -/
theorem stop_cases (s : State) (r : Stop) :
    s.halt = none ∧ s.stop r = s.setHalt (some r) ∨ s.halt ≠ none ∧ s.stop r = s := by
  unfold State.stop
  rcases h : s.halt with _ | q
  · exact Or.inl ⟨rfl, rfl⟩
  · exact Or.inr ⟨by simp, rfl⟩

theorem stop_of_running {s : State} (h : s.halt = none) (r : Stop) : (s.stop r).halt = some r := by
  rcases stop_cases s r with ⟨-, e⟩ | ⟨hn, -⟩
  · rw [e, setHalt_halt]
  · exact absurd h hn

theorem stop_of_stopped {s : State} {q : Stop} (h : s.halt = some q) (r : Stop) : s.stop r = s := by
  simp [State.stop, h]

/-- After a stop the instance is stopped. -/
theorem stop_halt_ne (s : State) (r : Stop) : (s.stop r).halt ≠ none := by
  rcases stop_cases s r with ⟨-, e⟩ | ⟨hn, e⟩
  · rw [e, setHalt_halt]
    simp
  · rwa [e]

@[simp] theorem stop_win (s : State) (r : Stop) : (s.stop r).win = s.win := by
  rcases stop_cases s r with ⟨-, e⟩ | ⟨-, e⟩ <;> (rw [e]; try rfl)
@[simp] theorem stop_lz (s : State) (r : Stop) : (s.stop r).lz = s.lz := by
  rcases stop_cases s r with ⟨-, e⟩ | ⟨-, e⟩ <;> (rw [e]; try rfl)
@[simp] theorem stop_huf (s : State) (r : Stop) : (s.stop r).huf = s.huf := by
  rcases stop_cases s r with ⟨-, e⟩ | ⟨-, e⟩ <;> (rw [e]; try rfl)
@[simp] theorem stop_enc (s : State) (r : Stop) : (s.stop r).enc = s.enc := by
  rcases stop_cases s r with ⟨-, e⟩ | ⟨-, e⟩ <;> (rw [e]; try rfl)
@[simp] theorem stop_drv (s : State) (r : Stop) : (s.stop r).drv = s.drv := by
  rcases stop_cases s r with ⟨-, e⟩ | ⟨-, e⟩ <;> (rw [e]; try rfl)
@[simp] theorem stop_ctl (s : State) (r : Stop) : (s.stop r).ctl = s.ctl := by
  rcases stop_cases s r with ⟨-, e⟩ | ⟨-, e⟩ <;> (rw [e]; try rfl)
@[simp] theorem stop_call (s : State) (r : Stop) : (s.stop r).call = s.call := by
  rcases stop_cases s r with ⟨-, e⟩ | ⟨-, e⟩ <;> (rw [e]; try rfl)
@[simp] theorem stop_work (s : State) (r : Stop) : (s.stop r).work = s.work := by
  rcases stop_cases s r with ⟨-, e⟩ | ⟨-, e⟩ <;> (rw [e]; try rfl)
@[simp] theorem stop_draws (s : State) (r : Stop) : (s.stop r).draws = s.draws := by
  rcases stop_cases s r with ⟨-, e⟩ | ⟨-, e⟩ <;> (rw [e]; try rfl)
@[simp] theorem stop_host (s : State) (r : Stop) : (s.stop r).host = s.host := by
  rcases stop_cases s r with ⟨-, e⟩ | ⟨-, e⟩ <;> (rw [e]; try rfl)

/-- What taking each status does (R268, R301, R302): the response given, and `PREV_STATUS` unless it is BadParam. -/
theorem raise_cases (st : Status) (s : State) :
    ∃ i o, raise st s = respond st i o (if st = .badParam then s else setPrevStatus st s)
      ∧ (st = .badParam → i = 0 ∧ o = 0)
      ∧ (st = .putBufFailed → i = s.call.srcPos ∧ o = 0)
      ∧ (st = .okay ∨ st = .done → i = s.call.srcPos ∧ o = s.call.outOfs) := by
  cases st <;> simp [raise]

@[simp] theorem raise_halt (st : Status) (s : State) : (raise st s).halt = s.halt := by cases st <;> rfl

@[simp] theorem raise_draws (st : Status) (s : State) : (raise st s).draws = s.draws := by cases st <;> rfl
@[simp] theorem raise_win (st : Status) (s : State) : (raise st s).win = s.win := by cases st <;> rfl
@[simp] theorem raise_lz (st : Status) (s : State) : (raise st s).lz = s.lz := by cases st <;> rfl
@[simp] theorem raise_huf (st : Status) (s : State) : (raise st s).huf = s.huf := by cases st <;> rfl
@[simp] theorem raise_enc (st : Status) (s : State) : (raise st s).enc = s.enc := by cases st <;> rfl
@[simp] theorem raise_drv (st : Status) (s : State) : (raise st s).drv = s.drv := by cases st <;> rfl
@[simp] theorem raise_call (st : Status) (s : State) : (raise st s).call = s.call := by cases st <;> rfl
@[simp] theorem raise_work (st : Status) (s : State) : (raise st s).work = s.work := by cases st <;> rfl

theorem raised_iff (s : State) : raised s = true ↔ s.ctl.prevStatus = .putBufFailed := by simp [raised]

/-- What a delivery of `k` bytes that fit does (R266, R268): `out_ofs` advances, the bytes stand in the slice, every other
byte of the slice and every other part of the state stays. -/
theorem deliver_spec (a k : Nat) (s : State) (hw : Mem.wf s.host.outSlice) (hk : s.call.outOfs.toNat + k < 2 ^ 32) :
    (deliver a k s).call.outOfs.toNat = s.call.outOfs.toNat + k
    ∧ (∀ i < k, Mem.read (deliver a k s).host.outSlice (s.call.outOfs.toNat + i) = Mem.read s.enc.stage (a + i))
    ∧ (∀ j, j < s.call.outOfs.toNat ∨ s.call.outOfs.toNat + k ≤ j →
        Mem.read (deliver a k s).host.outSlice j = Mem.read s.host.outSlice j)
    ∧ Mem.wf (deliver a k s).host.outSlice := by
  refine ⟨?_, fun i hi => ?_, fun j hj => ?_, writeRun_wf hw _ _⟩
  · simp only [deliver, setCall_call, BitVec.toNat_add, BitVec.toNat_ofNat]
    omega
  · simp only [deliver, setCall_host, setHost_host]
    rw [read_writeRun hw, if_pos (by simp; omega), Nat.add_sub_cancel_left, readRun_getD _ _ _ _ hi]
  · simp only [deliver, setCall_host, setHost_host]
    rw [read_writeRun hw, if_neg (by simp; omega)]

/-- What a delivery leaves, whatever it delivers. -/
theorem deliver_frame (a k : Nat) (s : State) :
    deliver a k s = (s.setHost { s.host with outSlice := (deliver a k s).host.outSlice }).setCall
      { s.call with outOfs := (deliver a k s).call.outOfs } := rfl

/-- A delivery of nothing changes nothing. -/
theorem deliver_zero (a : Nat) (s : State) : deliver a 0 s = s := by
  have : s.call.outOfs + 0#32 = s.call.outOfs := BitVec.add_zero _
  simp only [deliver, Mem.readRun, Mem.writeRun]
  rw [this]
  rfl

/-- What resumption does (R307): the pending bytes that fit are delivered and the pair advances, or, should they lie
beyond `stage`, the instance stops. -/
theorem resume_cases (s : State) :
    let a := s.drv.flushOfs.toNat
    let k := min (outRoom s) s.drv.flushRemaining.toNat
    (k = 0 ∨ a + k ≤ 85196) ∧ resume s = (deliver a k s).setDrv { s.drv with
        flushOfs := s.drv.flushOfs + BitVec.ofNat 17 k, flushRemaining := s.drv.flushRemaining - BitVec.ofNat 17 k }
    ∨ (0 < k ∧ 85196 < a + k) ∧ resume s = s.faulted .stageRange := by
  intro a k
  by_cases h : k = 0 ∨ a + k ≤ Config.outStageSize
  · refine Or.inl ⟨h, ?_⟩
    simp only [resume]
    rw [if_pos h]
  · refine Or.inr ⟨by simp only [Config.outStageSize] at h; omega, ?_⟩
    simp only [resume]
    rw [if_neg h]

/-- What suspension saves (R306), for counts the registers can hold. -/
theorem suspend_spec (k n : Nat) (s : State) (hk : k ≤ n) (hn : n < 2 ^ 17) :
    (suspend k n s).drv.flushOfs.toNat = k ∧ (suspend k n s).drv.flushRemaining.toNat = n - k
    ∧ suspend k n s = s.setDrv { s.drv with
        flushOfs := (suspend k n s).drv.flushOfs, flushRemaining := (suspend k n s).drv.flushRemaining } := by
  refine ⟨?_, ?_, rfl⟩ <;> simp only [suspend, setDrv_drv, BitVec.toNat_ofNat] <;> omega

/-- A listed answer of the sink is the answer it gives. -/
theorem sinkAccepts_listed {s : State} {a : Bool} {rest : List Bool} (h : s.host.sinkAnswers = a :: rest) :
    sinkAccepts s = a := by simp [sinkAccepts, h]

/-- The memories after power-on are canonical. -/
theorem reset_memories_wf :
    Mem.wf State.reset.win.dict ∧ Mem.wf State.reset.win.head ∧ Mem.wf State.reset.win.next
    ∧ Mem.wf State.reset.lz.lzCode ∧ Mem.wf State.reset.lz.lzFlags ∧ Mem.wf State.reset.enc.stage :=
  ⟨wf_nil, wf_nil, wf_nil, wf_nil, wf_nil, wf_nil⟩

end Sys2Proof.Laws
end

