-- ==== Sys2Proof/Laws/Bits.lean ====
section
/-! SUPPORT. What ENC.PUT_BITS appends, and how appended fields add up. -/

namespace Sys2Proof.Laws

open Sys2Proof.Machine

@[simp] theorem bitCount_nil : bitCount [] = 0 := rfl
@[simp] theorem bitCount_cons (f : Field) (fs : List Field) : bitCount (f :: fs) = f.2 + bitCount fs := by
  simp [bitCount]
@[simp] theorem bitCount_append (fs gs : List Field) : bitCount (fs ++ gs) = bitCount fs + bitCount gs := by
  simp [bitCount]

@[simp] theorem bitValue_nil : bitValue [] = 0 := rfl
@[simp] theorem bitValue_cons (f : Field) (fs : List Field) : bitValue (f :: fs) = f.1 + 2 ^ f.2 * bitValue fs := rfl

theorem bitValue_append (fs gs : List Field) :
    bitValue (fs ++ gs) = bitValue fs + 2 ^ bitCount fs * bitValue gs := by
  induction fs with
  | nil => simp
  | cons f fs ih => simp [ih, pow_add]; ring

theorem bytesValue_append (xs ys : List (BitVec 8)) :
    bytesValue (xs ++ ys) = bytesValue xs + 256 ^ xs.length * bytesValue ys := by
  induction xs with
  | nil => simp [bytesValue]
  | cons x xs ih => simp [bytesValue, ih, pow_succ]; ring

/-- Nothing appended. -/
theorem appended_nil {e : Encoder} (h : e.Sound) (hw : Mem.wf e.stage) : e.Appended [] e where
  pos := by have := h.1; simp [wholeBytes]; omega
  bits := by have := h.1; simp; omega
  value := by
    have h0 : wholeBytes e [] = 0 := by have := h.1; simp [wholeBytes]; omega
    simp [h0, Mem.readRun, bytesValue]
  small := h.2
  frame := fun _ _ => rfl
  canonical := hw

/-- Fields appended in two parts are appended together. -/
theorem appended_trans {e e' e'' : Encoder} {fs gs : List Field} (h : e.Appended fs e') (h' : e'.Appended gs e'') :
    e.Appended (fs ++ gs) e'' := by
  have hb := h.bits
  have hp := h.pos
  have hp' := h'.pos
  have hw : wholeBytes e (fs ++ gs) = wholeBytes e fs + wholeBytes e' gs := by
    simp only [wholeBytes, bitCount_append] at *
    omega
  refine ⟨by omega, ?_, ?_, h'.small, fun a ha => ?_, h'.canonical⟩
  · rw [h'.bits, bitCount_append]
    omega
  · have hv := h.value
    have hv' := h'.value
    have hpow : 2 ^ (e.bitsIn.toNat + bitCount fs) = 256 ^ wholeBytes e fs * 2 ^ e'.bitsIn.toNat := by
      rw [show (256 : Nat) = 2 ^ 8 from rfl, ← pow_mul, ← pow_add]
      congr 1
      simp only [wholeBytes]
      omega
    rw [hw, readRun_add, bytesValue_append, readRun_length, bitValue_append, pow_add]
    have hfirst : Mem.readRun e''.stage e.stagePos.toNat (wholeBytes e fs)
        = Mem.readRun e'.stage e.stagePos.toNat (wholeBytes e fs) :=
      readRun_congr fun i hi => h'.frame _ (Or.inl (by omega))
    rw [hfirst, ← hp]
    calc bytesValue (Mem.readRun e'.stage e.stagePos.toNat (wholeBytes e fs))
          + 256 ^ wholeBytes e fs * bytesValue (Mem.readRun e''.stage e'.stagePos.toNat (wholeBytes e' gs))
          + 256 ^ wholeBytes e fs * 256 ^ wholeBytes e' gs * e''.bitBuffer.toNat
        = bytesValue (Mem.readRun e'.stage e.stagePos.toNat (wholeBytes e fs))
          + 256 ^ wholeBytes e fs * (bytesValue (Mem.readRun e''.stage e'.stagePos.toNat (wholeBytes e' gs))
            + 256 ^ wholeBytes e' gs * e''.bitBuffer.toNat) := by ring
      _ = (bytesValue (Mem.readRun e'.stage e.stagePos.toNat (wholeBytes e fs))
          + 256 ^ wholeBytes e fs * e'.bitBuffer.toNat)
          + 256 ^ wholeBytes e fs * 2 ^ e'.bitsIn.toNat * bitValue gs := by rw [hv']; ring
      _ = e.bitBuffer.toNat + 2 ^ e.bitsIn.toNat * (bitValue fs + 2 ^ bitCount fs * bitValue gs) := by
        rw [hv, ← hpow, pow_add]; ring
  · rw [h'.frame a (by omega), h.frame a (by omega)]

/-- Room for two parts is room for the first. -/
theorem takes_left {e : Encoder} {fs gs : List Field} (h : e.TakesBits (fs ++ gs)) : e.TakesBits fs := by
  refine ⟨h.1, h.2.1, ?_⟩
  have := h.2.2
  simp only [wholeBytes, bitCount_append] at *
  omega

/-- After the first part there is room for the second. -/
theorem takes_right {e e' : Encoder} {fs gs : List Field} (h : e.TakesBits (fs ++ gs)) (ha : e.Appended fs e') :
    e'.TakesBits gs := by
  have hb := ha.bits
  have hp := ha.pos
  have h2 := h.2.2
  refine ⟨⟨by omega, ha.small⟩, ha.canonical, ?_⟩
  simp only [wholeBytes, bitCount_append] at *
  omega

/-- The byte loop of ENC.PUT_BITS (R210): with `b` bits in the accumulator, none of them beyond, and room for the whole
bytes, `b / 8` bytes go to `stage` and the rest stays. -/
theorem emitBytes_spec (k : Nat) (s : State) (hk : s.enc.bitsIn.toNat ≤ 8 * k + 7)
    (hb : s.enc.bitBuffer.toNat < 2 ^ s.enc.bitsIn.toNat) (hw : Mem.wf s.enc.stage)
    (hr : s.enc.stagePos.toNat + s.enc.bitsIn.toNat / 8 ≤ 85196) :
    ∃ e, emitBytes k s = s.setEnc e
      ∧ e.stagePos.toNat = s.enc.stagePos.toNat + s.enc.bitsIn.toNat / 8
      ∧ e.bitsIn.toNat = s.enc.bitsIn.toNat % 8
      ∧ bytesValue (Mem.readRun e.stage s.enc.stagePos.toNat (s.enc.bitsIn.toNat / 8))
          + 256 ^ (s.enc.bitsIn.toNat / 8) * e.bitBuffer.toNat = s.enc.bitBuffer.toNat
      ∧ e.bitBuffer.toNat < 2 ^ e.bitsIn.toNat
      ∧ (∀ a, a < s.enc.stagePos.toNat ∨ e.stagePos.toNat ≤ a → Mem.read e.stage a = Mem.read s.enc.stage a)
      ∧ Mem.wf e.stage := by
  induction k generalizing s with
  | zero =>
    have h8 : s.enc.bitsIn.toNat / 8 = 0 := by omega
    refine ⟨s.enc, rfl, by omega, by omega, ?_, hb, fun _ _ => rfl, hw⟩
    simp [h8, Mem.readRun, bytesValue]
  | succ k ih =>
    by_cases hlt : s.enc.bitsIn.toNat < 8
    · have h8 : s.enc.bitsIn.toNat / 8 = 0 := by omega
      refine ⟨s.enc, ?_, by omega, by omega, ?_, hb, fun _ _ => rfl, hw⟩
      · rw [emitBytes, if_pos hlt]
        rfl
      · simp [h8, Mem.readRun, bytesValue]
    · have hroom : s.enc.stagePos.toNat < Config.outStageSize := by
        simp only [Config.outStageSize]
        omega
      rw [emitBytes, if_neg hlt, if_pos hroom]
      simp only [Config.outStageSize] at hroom
      set e1 : Encoder := { stage := Mem.write s.enc.stage s.enc.stagePos.toNat (s.enc.bitBuffer.setWidth 8)
                            stagePos := s.enc.stagePos + 1
                            bitBuffer := s.enc.bitBuffer >>> 8
                            bitsIn := s.enc.bitsIn - 8 } with he1
      have hbits : e1.bitsIn.toNat = s.enc.bitsIn.toNat - 8 := by
        have h8 : (8 : BitVec 6).toNat = 8 := rfl
        have := s.enc.bitsIn.isLt
        simp only [he1, BitVec.toNat_sub, h8]
        omega
      have hpos : e1.stagePos.toNat = s.enc.stagePos.toNat + 1 := by
        have h1 : (1 : BitVec 17).toNat = 1 := rfl
        simp only [he1, BitVec.toNat_add, h1]
        omega
      have hbuf : e1.bitBuffer.toNat = s.enc.bitBuffer.toNat / 256 := by
        simp [he1, BitVec.toNat_ushiftRight, Nat.shiftRight_eq_div_pow]
      have hdiv : s.enc.bitsIn.toNat / 8 = e1.bitsIn.toNat / 8 + 1 := by omega
      have hsmall : e1.bitBuffer.toNat < 2 ^ e1.bitsIn.toNat := by
        rw [hbuf, hbits, Nat.div_lt_iff_lt_mul (by norm_num)]
        calc s.enc.bitBuffer.toNat < 2 ^ s.enc.bitsIn.toNat := hb
          _ = 2 ^ (s.enc.bitsIn.toNat - 8) * 256 := by
            rw [show (256 : Nat) = 2 ^ 8 from rfl, ← pow_add]
            congr 1
            omega
      obtain ⟨e, he, h1, h2, h3, h4, h5, h6⟩ := ih (s.setEnc e1) (by simp only [setEnc_enc]; omega)
        (by simpa using hsmall) (by simpa using write_wf hw _ _) (by simp only [setEnc_enc]; omega)
      simp only [setEnc_enc] at h1 h2 h3 h5
      refine ⟨e, by rw [he]; rfl, by omega, by omega, ?_, h4, fun a ha => ?_, h6⟩
      · have hbyte : Mem.read e.stage s.enc.stagePos.toNat = s.enc.bitBuffer.setWidth 8 := by
          rw [h5 _ (Or.inl (by omega))]
          exact read_write_same _ _ _ hw
        rw [hdiv, Mem.readRun, bytesValue, hbyte, ← hpos, pow_succ]
        calc (s.enc.bitBuffer.setWidth 8).toNat
              + 256 * bytesValue (Mem.readRun e.stage e1.stagePos.toNat (e1.bitsIn.toNat / 8))
              + 256 ^ (e1.bitsIn.toNat / 8) * 256 * e.bitBuffer.toNat
            = (s.enc.bitBuffer.setWidth 8).toNat
              + 256 * (bytesValue (Mem.readRun e.stage e1.stagePos.toNat (e1.bitsIn.toNat / 8))
                + 256 ^ (e1.bitsIn.toNat / 8) * e.bitBuffer.toNat) := by ring
          _ = s.enc.bitBuffer.toNat % 256 + 256 * (s.enc.bitBuffer.toNat / 256) := by
            rw [h3, hbuf, BitVec.toNat_setWidth]
          _ = s.enc.bitBuffer.toNat := Nat.mod_add_div _ _
      · rw [h5 a (by omega)]
        simp only [he1]
        rw [read_write hw, if_neg (by omega)]

/-- ENC.PUT_BITS (R210): a field that fits is appended; the rest of the state stays. -/
theorem putBits_spec (v n : Nat) (s : State) (hf : n ≤ 16 ∧ v < 2 ^ n) (ht : s.enc.TakesBits [(v, n)]) :
    ∃ e, putBits v n s = s.setEnc e ∧ s.enc.Appended [(v, n)] e := by
  obtain ⟨⟨hb7, hbuf⟩, hw, hr⟩ := ht
  have hcount : bitCount [(v, n)] = n := by simp
  have hv16 : v < 2 ^ 16 := lt_of_lt_of_le hf.2 (Nat.pow_le_pow_right (by norm_num) hf.1)
  have hshift : v * 2 ^ s.enc.bitsIn.toNat < 2 ^ 32 := by
    calc v * 2 ^ s.enc.bitsIn.toNat < 2 ^ 16 * 2 ^ s.enc.bitsIn.toNat :=
          Nat.mul_lt_mul_of_pos_right hv16 (Nat.two_pow_pos _)
      _ ≤ 2 ^ 16 * 2 ^ 7 := Nat.mul_le_mul_left _ (Nat.pow_le_pow_right (by norm_num) hb7)
      _ ≤ 2 ^ 32 := by norm_num
  set e0 : Encoder := { s.enc with
    bitBuffer := s.enc.bitBuffer ||| (BitVec.ofNat 32 v <<< s.enc.bitsIn.toNat)
    bitsIn := s.enc.bitsIn + BitVec.ofNat 6 n } with he0
  have hbits : e0.bitsIn.toNat = s.enc.bitsIn.toNat + n := by
    simp only [he0, BitVec.toNat_add, BitVec.toNat_ofNat]
    omega
  have hsum : e0.bitBuffer.toNat = s.enc.bitBuffer.toNat + 2 ^ s.enc.bitsIn.toNat * v := by
    simp only [he0, BitVec.toNat_or, BitVec.toNat_shiftLeft, BitVec.toNat_ofNat]
    rw [Nat.mod_eq_of_lt (show v < 2 ^ 32 by omega), Nat.shiftLeft_eq, Nat.mod_eq_of_lt hshift, Nat.or_comm,
      Nat.mul_comm v, ← Nat.two_pow_add_eq_or_of_lt hbuf, Nat.add_comm]
  have hsmall : e0.bitBuffer.toNat < 2 ^ e0.bitsIn.toNat := by
    rw [hsum, hbits, pow_add]
    calc s.enc.bitBuffer.toNat + 2 ^ s.enc.bitsIn.toNat * v
        < 2 ^ s.enc.bitsIn.toNat + 2 ^ s.enc.bitsIn.toNat * v := Nat.add_lt_add_right hbuf _
      _ = 2 ^ s.enc.bitsIn.toNat * (v + 1) := by ring
      _ ≤ 2 ^ s.enc.bitsIn.toNat * 2 ^ n := Nat.mul_le_mul_left _ hf.2
  have hroom : e0.stagePos.toNat + e0.bitsIn.toNat / 8 ≤ 85196 := by
    rw [hbits]
    simpa [wholeBytes] using hr
  obtain ⟨e, he, h1, h2, h3, h4, h5, h6⟩ := emitBytes_spec 8 (s.setEnc e0) (by simp only [setEnc_enc]; omega)
    (by simpa using hsmall) (by simpa [he0] using hw) (by simpa using hroom)
  simp only [setEnc_enc] at h1 h2 h3 h5
  have hpos0 : e0.stagePos = s.enc.stagePos := rfl
  have hstage0 : e0.stage = s.enc.stage := rfl
  rw [hbits, hpos0] at h1 h3
  rw [hbits] at h2
  refine ⟨e, ?_, ?_, ?_, ?_, h4, fun a ha => ?_, h6⟩
  · rw [putBits, if_pos hf, putField, he]
    rfl
  · rw [h1, wholeBytes, hcount]
  · rw [h2, hcount]
  · rw [wholeBytes, hcount, h3, hsum]
    simp
  · rw [h5 a (by rwa [hpos0]), hstage0]

/-- One bit appended (R210). -/
theorem putField_bit (b : Bool) (s : State) (ht : s.enc.TakesBits [(b.toNat, 1)]) :
    ∃ e, putField b.toNat 1 s = s.setEnc e ∧ s.enc.Appended [(b.toNat, 1)] e := by
  have hf : 1 ≤ 16 ∧ b.toNat < 2 ^ 1 := by cases b <;> decide
  obtain ⟨e, he, ha⟩ := putBits_spec b.toNat 1 s hf ht
  exact ⟨e, by rw [← he, putBits, if_pos hf], ha⟩

/-- The room a list of fields needs depends on their widths only. -/
theorem takes_congr {e : Encoder} {fs gs : List Field} (h : bitCount fs = bitCount gs) (ht : e.TakesBits fs) :
    e.TakesBits gs := ⟨ht.1, ht.2.1, by have := ht.2.2; simp only [wholeBytes, h] at *; exact this⟩

/-- What is appended depends on the fields' width and value only. -/
theorem appended_congr {e e' : Encoder} {fs gs : List Field} (hc : bitCount fs = bitCount gs)
    (hv : bitValue fs = bitValue gs) (h : e.Appended fs e') : e.Appended gs e' where
  pos := by have := h.pos; simpa only [wholeBytes, hc] using this
  bits := by have := h.bits; rwa [hc] at this
  value := by have := h.value; simpa only [wholeBytes, hc, hv] using this
  small := h.small
  frame := h.frame
  canonical := h.canonical

/-- Free bits (R210, log entry 26): `n` bits of some value are appended; the rest of the state stays. -/
theorem putFree_spec (i n : Nat) (s : State) (ht : s.enc.TakesBits [(0, n)]) :
    ∃ e v, v < 2 ^ n ∧ putFree i n s = s.setEnc e ∧ s.enc.Appended [(v, n)] e := by
  induction n generalizing i s with
  | zero =>
    exact ⟨s.enc, 0, by simp, rfl, appended_congr (by simp) (by simp) (appended_nil ht.1 ht.2.1)⟩
  | succ n ih =>
    set b := Config.fieldBit s.draws i with hb
    have hsplit : s.enc.TakesBits ([(b.toNat, 1)] ++ [(0, n)]) := takes_congr (by simp; omega) ht
    obtain ⟨e1, h1, a1⟩ := putField_bit b s (takes_left hsplit)
    obtain ⟨e2, v, hv, h2, a2⟩ := ih (i + 1) (s.setEnc e1) (takes_right hsplit a1)
    refine ⟨e2, b.toNat + 2 * v, ?_, ?_, ?_⟩
    · have : b.toNat ≤ 1 := by cases b <;> decide
      rw [pow_succ]
      omega
    · rw [putFree, h1, h2]
      rfl
    · exact appended_congr (by simp; omega) (by simp) (appended_trans a1 a2)

/-- ENC.PUT_BITS outside the range of R210: `n` bits of a free value are appended, and a draw is counted. -/
theorem putBits_free_spec (v n : Nat) (s : State) (hf : ¬ (n ≤ 16 ∧ v < 2 ^ n)) (ht : s.enc.TakesBits [(v, n)]) :
    ∃ e u, u < 2 ^ n ∧ putBits v n s = (s.setEnc e).drawn ∧ s.enc.Appended [(u, n)] e := by
  obtain ⟨e, u, hu, he, ha⟩ := putFree_spec 0 n s (takes_congr (by simp) ht)
  exact ⟨e, u, hu, by rw [putBits, if_neg hf, he], ha⟩

end Sys2Proof.Laws
end

