-- ==== Sys2Proof/Laws/PerInstr.lean ====
section
/-! SUPPORT. Statements made instruction by instruction: the encoder writes the bits the opcode table fixes. -/

namespace Sys2Proof.Laws.TableRow

/-- The row of spec/opcode_table.json: its code space (the row's "format") and its "fixed" bits, each as the lowest bit, the
width and the value. -/
def rowOf : Instr → Space × List (Nat × Nat × Nat)
  | .init _ _ => (.command, [(28, 4, 0)])
  | .compress _ _ _ _ _ => (.command, [(28, 4, 1)])
  | .compressNone _ _ _ _ => (.command, [(0, 3, 0), (28, 4, 1)])
  | .compressSync _ _ _ _ => (.command, [(0, 3, 2), (28, 4, 1)])
  | .compressFull _ _ _ _ => (.command, [(0, 3, 3), (28, 4, 1)])
  | .compressFinish _ _ _ _ => (.command, [(0, 3, 4), (28, 4, 1)])
  | .dictWrite _ _ => (.micro, [(0, 8, 0)])
  | .dictInsert _ => (.micro, [(0, 8, 1)])
  | .dictFind _ _ _ _ _ => (.micro, [(0, 8, 2)])
  | .dictRle _ _ => (.micro, [(0, 8, 3)])
  | .dictResetChains => (.micro, [(0, 8, 4)])
  | .recLit _ => (.micro, [(0, 8, 16)])
  | .recMatch _ _ => (.micro, [(0, 8, 17)])
  | .hufSort _ => (.micro, [(0, 8, 32)])
  | .hufMinred => (.micro, [(0, 8, 33)])
  | .hufLimit _ => (.micro, [(0, 8, 34)])
  | .hufAssignSizes _ => (.micro, [(0, 8, 35)])
  | .hufAssignCodes _ => (.micro, [(0, 8, 36)])
  | .hufBuild _ => (.micro, [(0, 8, 37)])
  | .hufLoadStatic => (.micro, [(0, 8, 38)])
  | .encPutBits _ _ => (.micro, [(0, 8, 48)])
  | .encPad => (.micro, [(0, 8, 49)])
  | .encClPlan => (.micro, [(0, 8, 50)])
  | .encCost => (.micro, [(0, 8, 51)])
  | .encStored => (.micro, [(0, 8, 52)])
  | .encStaticHdr => (.micro, [(0, 8, 53)])
  | .encDynHdr => (.micro, [(0, 8, 54)])
  | .encPayload => (.micro, [(0, 8, 55)])
  | .encZlibHdr => (.micro, [(0, 8, 56)])
  | .encTrailer => (.micro, [(0, 8, 57)])
  | .encSyncMark => (.micro, [(0, 8, 58)])
  | .drvFill => (.micro, [(0, 8, 64)])
  | .drvCatchup => (.micro, [(0, 8, 65)])
  | .drvParseStep => (.micro, [(0, 8, 66)])
  | .drvCloseBlock _ => (.micro, [(0, 8, 67)])
  | .drvDrain => (.micro, [(0, 8, 68)])
  | .drvAdler _ => (.micro, [(0, 8, 69)])
  | .lit _ => (.lzRecord, [(0, 1, 0)])
  | .matchRec _ _ => (.lzRecord, [(0, 1, 1)])
  | .blockStored _ => (.blockHeader, [(1, 2, 0)])
  | .blockStatic _ => (.blockHeader, [(1, 2, 1)])
  | .blockDynamic _ => (.blockHeader, [(1, 2, 2)])
  | .statusOkay => (.status, [(0, 2, 0)])
  | .statusDone => (.status, [(0, 2, 1)])
  | .statusBadParam => (.status, [(0, 2, 2)])
  | .statusPutBufFailed => (.status, [(0, 2, 3)])
  | .symLiteral _ => (.litLenSym, [(8, 1, 0)])
  | .symEob => (.litLenSym, [(0, 9, 256)])
  | .symLen257 => (.litLenSym, [(0, 9, 257)])
  | .symLen258 => (.litLenSym, [(0, 9, 258)])
  | .symLen259 => (.litLenSym, [(0, 9, 259)])
  | .symLen260 => (.litLenSym, [(0, 9, 260)])
  | .symLen261 => (.litLenSym, [(0, 9, 261)])
  | .symLen262 => (.litLenSym, [(0, 9, 262)])
  | .symLen263 => (.litLenSym, [(0, 9, 263)])
  | .symLen264 => (.litLenSym, [(0, 9, 264)])
  | .symLen265 _ => (.litLenSym, [(0, 9, 265)])
  | .symLen266 _ => (.litLenSym, [(0, 9, 266)])
  | .symLen267 _ => (.litLenSym, [(0, 9, 267)])
  | .symLen268 _ => (.litLenSym, [(0, 9, 268)])
  | .symLen269 _ => (.litLenSym, [(0, 9, 269)])
  | .symLen270 _ => (.litLenSym, [(0, 9, 270)])
  | .symLen271 _ => (.litLenSym, [(0, 9, 271)])
  | .symLen272 _ => (.litLenSym, [(0, 9, 272)])
  | .symLen273 _ => (.litLenSym, [(0, 9, 273)])
  | .symLen274 _ => (.litLenSym, [(0, 9, 274)])
  | .symLen275 _ => (.litLenSym, [(0, 9, 275)])
  | .symLen276 _ => (.litLenSym, [(0, 9, 276)])
  | .symLen277 _ => (.litLenSym, [(0, 9, 277)])
  | .symLen278 _ => (.litLenSym, [(0, 9, 278)])
  | .symLen279 _ => (.litLenSym, [(0, 9, 279)])
  | .symLen280 _ => (.litLenSym, [(0, 9, 280)])
  | .symLen281 _ => (.litLenSym, [(0, 9, 281)])
  | .symLen282 _ => (.litLenSym, [(0, 9, 282)])
  | .symLen283 _ => (.litLenSym, [(0, 9, 283)])
  | .symLen284 _ => (.litLenSym, [(0, 9, 284)])
  | .symLen285 => (.litLenSym, [(0, 9, 285)])
  | .symDist0 => (.distSym, [(0, 5, 0)])
  | .symDist1 => (.distSym, [(0, 5, 1)])
  | .symDist2 => (.distSym, [(0, 5, 2)])
  | .symDist3 => (.distSym, [(0, 5, 3)])
  | .symDist4 _ => (.distSym, [(0, 5, 4)])
  | .symDist5 _ => (.distSym, [(0, 5, 5)])
  | .symDist6 _ => (.distSym, [(0, 5, 6)])
  | .symDist7 _ => (.distSym, [(0, 5, 7)])
  | .symDist8 _ => (.distSym, [(0, 5, 8)])
  | .symDist9 _ => (.distSym, [(0, 5, 9)])
  | .symDist10 _ => (.distSym, [(0, 5, 10)])
  | .symDist11 _ => (.distSym, [(0, 5, 11)])
  | .symDist12 _ => (.distSym, [(0, 5, 12)])
  | .symDist13 _ => (.distSym, [(0, 5, 13)])
  | .symDist14 _ => (.distSym, [(0, 5, 14)])
  | .symDist15 _ => (.distSym, [(0, 5, 15)])
  | .symDist16 _ => (.distSym, [(0, 5, 16)])
  | .symDist17 _ => (.distSym, [(0, 5, 17)])
  | .symDist18 _ => (.distSym, [(0, 5, 18)])
  | .symDist19 _ => (.distSym, [(0, 5, 19)])
  | .symDist20 _ => (.distSym, [(0, 5, 20)])
  | .symDist21 _ => (.distSym, [(0, 5, 21)])
  | .symDist22 _ => (.distSym, [(0, 5, 22)])
  | .symDist23 _ => (.distSym, [(0, 5, 23)])
  | .symDist24 _ => (.distSym, [(0, 5, 24)])
  | .symDist25 _ => (.distSym, [(0, 5, 25)])
  | .symDist26 _ => (.distSym, [(0, 5, 26)])
  | .symDist27 _ => (.distSym, [(0, 5, 27)])
  | .symDist28 _ => (.distSym, [(0, 5, 28)])
  | .symDist29 _ => (.distSym, [(0, 5, 29)])
  | .symCl0 => (.codeLenSym, [(0, 5, 0)])
  | .symCl1 => (.codeLenSym, [(0, 5, 1)])
  | .symCl2 => (.codeLenSym, [(0, 5, 2)])
  | .symCl3 => (.codeLenSym, [(0, 5, 3)])
  | .symCl4 => (.codeLenSym, [(0, 5, 4)])
  | .symCl5 => (.codeLenSym, [(0, 5, 5)])
  | .symCl6 => (.codeLenSym, [(0, 5, 6)])
  | .symCl7 => (.codeLenSym, [(0, 5, 7)])
  | .symCl8 => (.codeLenSym, [(0, 5, 8)])
  | .symCl9 => (.codeLenSym, [(0, 5, 9)])
  | .symCl10 => (.codeLenSym, [(0, 5, 10)])
  | .symCl11 => (.codeLenSym, [(0, 5, 11)])
  | .symCl12 => (.codeLenSym, [(0, 5, 12)])
  | .symCl13 => (.codeLenSym, [(0, 5, 13)])
  | .symCl14 => (.codeLenSym, [(0, 5, 14)])
  | .symCl15 => (.codeLenSym, [(0, 5, 15)])
  | .symCl16 _ => (.codeLenSym, [(0, 5, 16)])
  | .symCl17 _ => (.codeLenSym, [(0, 5, 17)])
  | .symCl18 _ => (.codeLenSym, [(0, 5, 18)])

/-- Every fixed field has its value in the word. -/
def fieldsHold (w : Nat) (fs : List (Nat × Nat × Nat)) : Prop := ∀ f ∈ fs, bitField w f.1 f.2.1 = f.2.2

/-- The encoding of an instruction is in the code space of its row, and its first word holds the row's fixed bits. -/
def Statement (i : Instr) : Prop :=
  (encode i).1 = (rowOf i).1 ∧ fieldsHold (wordAt (encode i).2 0) (rowOf i).2

theorem single {w lo n v : Nat} (h : bitField w lo n = v) : fieldsHold w [(lo, n, v)] := fun f hf => by
  rw [List.mem_singleton.1 hf]
  exact h

theorem pair {w lo n v lo' n' v' : Nat} (h : bitField w lo n = v) (h' : bitField w lo' n' = v') :
    fieldsHold w [(lo, n, v), (lo', n', v')] := fun f hf => by
  rcases List.mem_cons.1 hf with rfl | hf
  · exact h
  · rw [List.mem_singleton.1 hf]
    exact h'

/-- The low field of a word that holds a symbol and, above it, an extra value. -/
theorem low_field (x k c : Nat) (hc : c < 2 ^ k) (hk : k ≤ 32) : bitField (word (x * 2 ^ k + c)).toNat 0 k = c := by
  have hd : (2 ^ k : Nat) ∣ 2 ^ 32 := Nat.pow_dvd_pow 2 hk
  rw [bitField, word, BitVec.toNat_ofNat, Nat.pow_zero, Nat.div_one, Nat.mod_mod_of_dvd _ hd, Nat.add_comm,
    Nat.add_mul_mod_self_right, Nat.mod_eq_of_lt hc]

/-- The opcode and the flush field of a COMPRESS word. -/
theorem compress_fields (f : Nat) (ip op : Bool) (hf : f < 8) :
    bitField (word (2 ^ 28 + op.toNat * 2 ^ 4 + ip.toNat * 2 ^ 3 + f)).toNat 28 4 = 1
    ∧ bitField (word (2 ^ 28 + op.toNat * 2 ^ 4 + ip.toNat * 2 ^ 3 + f)).toNat 0 3 = f := by
  interval_cases f <;> cases ip <;> cases op <;> exact ⟨rfl, rfl⟩

theorem init (flags : BitVec 20) (sink : Bool) : Statement (.init flags sink) := by
  refine ⟨rfl, single ?_⟩
  change bitField (word (sink.toNat * 2 ^ 20 + flags.toNat)).toNat 28 4 = 0
  have hf := flags.isLt
  have hs : sink.toNat ≤ 1 := Bool.toNat_le sink
  rw [bitField, word, BitVec.toNat_ofNat]
  omega

theorem compress (flush : BitVec 3) (inPresent : Bool) (outPresent : Bool) (inLen : BitVec 32) (outCap : BitVec 32) : Statement (.compress flush inPresent outPresent inLen outCap) :=
  ⟨rfl, single (compress_fields flush.toNat inPresent outPresent flush.isLt).1⟩

theorem compressNone (inPresent : Bool) (outPresent : Bool) (inLen : BitVec 32) (outCap : BitVec 32) : Statement (.compressNone inPresent outPresent inLen outCap) :=
  ⟨rfl, pair (compress_fields 0 inPresent outPresent (by norm_num)).2
    (compress_fields 0 inPresent outPresent (by norm_num)).1⟩

theorem compressSync (inPresent : Bool) (outPresent : Bool) (inLen : BitVec 32) (outCap : BitVec 32) : Statement (.compressSync inPresent outPresent inLen outCap) :=
  ⟨rfl, pair (compress_fields 2 inPresent outPresent (by norm_num)).2
    (compress_fields 2 inPresent outPresent (by norm_num)).1⟩

theorem compressFull (inPresent : Bool) (outPresent : Bool) (inLen : BitVec 32) (outCap : BitVec 32) : Statement (.compressFull inPresent outPresent inLen outCap) :=
  ⟨rfl, pair (compress_fields 3 inPresent outPresent (by norm_num)).2
    (compress_fields 3 inPresent outPresent (by norm_num)).1⟩

theorem compressFinish (inPresent : Bool) (outPresent : Bool) (inLen : BitVec 32) (outCap : BitVec 32) : Statement (.compressFinish inPresent outPresent inLen outCap) :=
  ⟨rfl, pair (compress_fields 4 inPresent outPresent (by norm_num)).2
    (compress_fields 4 inPresent outPresent (by norm_num)).1⟩

theorem dictWrite (q : BitVec 32) (c : BitVec 8) : Statement (.dictWrite q c) :=
  ⟨rfl, single (show bitField (word 0).toNat 0 8 = 0 from rfl)⟩

theorem dictInsert (q : BitVec 32) : Statement (.dictInsert q) :=
  ⟨rfl, single (show bitField (word 1).toNat 0 8 = 1 from rfl)⟩

theorem dictFind (p : BitVec 32) (maxDist : BitVec 16) (maxLen : BitVec 9) (priorDist : BitVec 16) (priorLen : BitVec 9) : Statement (.dictFind p maxDist maxLen priorDist priorLen) :=
  ⟨rfl, single (show bitField (word 2).toNat 0 8 = 2 from rfl)⟩

theorem dictRle (p : BitVec 32) (maxLen : BitVec 9) : Statement (.dictRle p maxLen) :=
  ⟨rfl, single (show bitField (word 3).toNat 0 8 = 3 from rfl)⟩

theorem dictResetChains : Statement .dictResetChains := ⟨rfl, single rfl⟩

theorem recLit (b : BitVec 8) : Statement (.recLit b) :=
  ⟨rfl, single (show bitField (word 16).toNat 0 8 = 16 from rfl)⟩

theorem recMatch (len : BitVec 9) (dist : BitVec 16) : Statement (.recMatch len dist) :=
  ⟨rfl, single (show bitField (word 17).toNat 0 8 = 17 from rfl)⟩

theorem hufSort (t : Table) : Statement (.hufSort t) :=
  ⟨rfl, single (show bitField (word 32).toNat 0 8 = 32 from rfl)⟩

theorem hufMinred : Statement .hufMinred := ⟨rfl, single rfl⟩

theorem hufLimit (limit : CodeLimit) : Statement (.hufLimit limit) := by
  cases limit <;> exact ⟨rfl, single rfl⟩

theorem hufAssignSizes (t : Table) : Statement (.hufAssignSizes t) :=
  ⟨rfl, single (show bitField (word 35).toNat 0 8 = 35 from rfl)⟩

theorem hufAssignCodes (t : Table) : Statement (.hufAssignCodes t) :=
  ⟨rfl, single (show bitField (word 36).toNat 0 8 = 36 from rfl)⟩

theorem hufBuild (t : Table) : Statement (.hufBuild t) :=
  ⟨rfl, single (show bitField (word 37).toNat 0 8 = 37 from rfl)⟩

theorem hufLoadStatic : Statement .hufLoadStatic := ⟨rfl, single rfl⟩

theorem encPutBits (v : BitVec 16) (n : BitVec 5) : Statement (.encPutBits v n) :=
  ⟨rfl, single (show bitField (word 48).toNat 0 8 = 48 from rfl)⟩

theorem encPad : Statement .encPad := ⟨rfl, single rfl⟩

theorem encClPlan : Statement .encClPlan := ⟨rfl, single rfl⟩

theorem encCost : Statement .encCost := ⟨rfl, single rfl⟩

theorem encStored : Statement .encStored := ⟨rfl, single rfl⟩

theorem encStaticHdr : Statement .encStaticHdr := ⟨rfl, single rfl⟩

theorem encDynHdr : Statement .encDynHdr := ⟨rfl, single rfl⟩

theorem encPayload : Statement .encPayload := ⟨rfl, single rfl⟩

theorem encZlibHdr : Statement .encZlibHdr := ⟨rfl, single rfl⟩

theorem encTrailer : Statement .encTrailer := ⟨rfl, single rfl⟩

theorem encSyncMark : Statement .encSyncMark := ⟨rfl, single rfl⟩

theorem drvFill : Statement .drvFill := ⟨rfl, single rfl⟩

theorem drvCatchup : Statement .drvCatchup := ⟨rfl, single rfl⟩

theorem drvParseStep : Statement .drvParseStep := ⟨rfl, single rfl⟩

theorem drvCloseBlock (fl : FlushMode) : Statement (.drvCloseBlock fl) :=
  ⟨rfl, single (show bitField (word 67).toNat 0 8 = 67 from rfl)⟩

theorem drvDrain : Statement .drvDrain := ⟨rfl, single rfl⟩

theorem drvAdler (c : BitVec 8) : Statement (.drvAdler c) :=
  ⟨rfl, single (show bitField (word 69).toNat 0 8 = 69 from rfl)⟩

theorem lit (b : BitVec 8) : Statement (.lit b) := by
  refine ⟨rfl, single ?_⟩
  change bitField (word (b.toNat * 2 ^ 8)).toNat 0 1 = 0
  rw [bitField, word, BitVec.toNat_ofNat]
  omega

theorem matchRec (l3 : BitVec 8) (d1 : BitVec 15) : Statement (.matchRec l3 d1) := by
  refine ⟨rfl, single ?_⟩
  change bitField (word (d1.toNat * 2 ^ 16 + l3.toNat * 2 ^ 8 + 1)).toNat 0 1 = 1
  rw [bitField, word, BitVec.toNat_ofNat]
  omega

theorem blockStored (bfinal : Bool) : Statement (.blockStored bfinal) := by
  cases bfinal <;> exact ⟨rfl, single rfl⟩

theorem blockStatic (bfinal : Bool) : Statement (.blockStatic bfinal) := by
  cases bfinal <;> exact ⟨rfl, single rfl⟩

theorem blockDynamic (bfinal : Bool) : Statement (.blockDynamic bfinal) := by
  cases bfinal <;> exact ⟨rfl, single rfl⟩

theorem statusOkay : Statement .statusOkay := ⟨rfl, single rfl⟩

theorem statusDone : Statement .statusDone := ⟨rfl, single rfl⟩

theorem statusBadParam : Statement .statusBadParam := ⟨rfl, single rfl⟩

theorem statusPutBufFailed : Statement .statusPutBufFailed := ⟨rfl, single rfl⟩

theorem symLiteral (byte : BitVec 8) : Statement (.symLiteral byte) := by
  refine ⟨rfl, single ?_⟩
  change bitField (word byte.toNat).toNat 8 1 = 0
  have hb := byte.isLt
  rw [bitField, word, BitVec.toNat_ofNat]
  omega

theorem symEob : Statement .symEob := ⟨rfl, single rfl⟩

theorem symLen257 : Statement .symLen257 := ⟨rfl, single rfl⟩

theorem symLen258 : Statement .symLen258 := ⟨rfl, single rfl⟩

theorem symLen259 : Statement .symLen259 := ⟨rfl, single rfl⟩

theorem symLen260 : Statement .symLen260 := ⟨rfl, single rfl⟩

theorem symLen261 : Statement .symLen261 := ⟨rfl, single rfl⟩

theorem symLen262 : Statement .symLen262 := ⟨rfl, single rfl⟩

theorem symLen263 : Statement .symLen263 := ⟨rfl, single rfl⟩

theorem symLen264 : Statement .symLen264 := ⟨rfl, single rfl⟩

theorem symLen265 (extra : BitVec 1) : Statement (.symLen265 extra) :=
  ⟨rfl, single (low_field extra.toNat 9 265 (by norm_num) (by norm_num))⟩

theorem symLen266 (extra : BitVec 1) : Statement (.symLen266 extra) :=
  ⟨rfl, single (low_field extra.toNat 9 266 (by norm_num) (by norm_num))⟩

theorem symLen267 (extra : BitVec 1) : Statement (.symLen267 extra) :=
  ⟨rfl, single (low_field extra.toNat 9 267 (by norm_num) (by norm_num))⟩

theorem symLen268 (extra : BitVec 1) : Statement (.symLen268 extra) :=
  ⟨rfl, single (low_field extra.toNat 9 268 (by norm_num) (by norm_num))⟩

theorem symLen269 (extra : BitVec 2) : Statement (.symLen269 extra) :=
  ⟨rfl, single (low_field extra.toNat 9 269 (by norm_num) (by norm_num))⟩

theorem symLen270 (extra : BitVec 2) : Statement (.symLen270 extra) :=
  ⟨rfl, single (low_field extra.toNat 9 270 (by norm_num) (by norm_num))⟩

theorem symLen271 (extra : BitVec 2) : Statement (.symLen271 extra) :=
  ⟨rfl, single (low_field extra.toNat 9 271 (by norm_num) (by norm_num))⟩

theorem symLen272 (extra : BitVec 2) : Statement (.symLen272 extra) :=
  ⟨rfl, single (low_field extra.toNat 9 272 (by norm_num) (by norm_num))⟩

theorem symLen273 (extra : BitVec 3) : Statement (.symLen273 extra) :=
  ⟨rfl, single (low_field extra.toNat 9 273 (by norm_num) (by norm_num))⟩

theorem symLen274 (extra : BitVec 3) : Statement (.symLen274 extra) :=
  ⟨rfl, single (low_field extra.toNat 9 274 (by norm_num) (by norm_num))⟩

theorem symLen275 (extra : BitVec 3) : Statement (.symLen275 extra) :=
  ⟨rfl, single (low_field extra.toNat 9 275 (by norm_num) (by norm_num))⟩

theorem symLen276 (extra : BitVec 3) : Statement (.symLen276 extra) :=
  ⟨rfl, single (low_field extra.toNat 9 276 (by norm_num) (by norm_num))⟩

theorem symLen277 (extra : BitVec 4) : Statement (.symLen277 extra) :=
  ⟨rfl, single (low_field extra.toNat 9 277 (by norm_num) (by norm_num))⟩

theorem symLen278 (extra : BitVec 4) : Statement (.symLen278 extra) :=
  ⟨rfl, single (low_field extra.toNat 9 278 (by norm_num) (by norm_num))⟩

theorem symLen279 (extra : BitVec 4) : Statement (.symLen279 extra) :=
  ⟨rfl, single (low_field extra.toNat 9 279 (by norm_num) (by norm_num))⟩

theorem symLen280 (extra : BitVec 4) : Statement (.symLen280 extra) :=
  ⟨rfl, single (low_field extra.toNat 9 280 (by norm_num) (by norm_num))⟩

theorem symLen281 (extra : BitVec 5) : Statement (.symLen281 extra) :=
  ⟨rfl, single (low_field extra.toNat 9 281 (by norm_num) (by norm_num))⟩

theorem symLen282 (extra : BitVec 5) : Statement (.symLen282 extra) :=
  ⟨rfl, single (low_field extra.toNat 9 282 (by norm_num) (by norm_num))⟩

theorem symLen283 (extra : BitVec 5) : Statement (.symLen283 extra) :=
  ⟨rfl, single (low_field extra.toNat 9 283 (by norm_num) (by norm_num))⟩

theorem symLen284 (extra : BitVec 5) : Statement (.symLen284 extra) :=
  ⟨rfl, single (low_field extra.toNat 9 284 (by norm_num) (by norm_num))⟩

theorem symLen285 : Statement .symLen285 := ⟨rfl, single rfl⟩

theorem symDist0 : Statement .symDist0 := ⟨rfl, single rfl⟩

theorem symDist1 : Statement .symDist1 := ⟨rfl, single rfl⟩

theorem symDist2 : Statement .symDist2 := ⟨rfl, single rfl⟩

theorem symDist3 : Statement .symDist3 := ⟨rfl, single rfl⟩

theorem symDist4 (extra : BitVec 1) : Statement (.symDist4 extra) :=
  ⟨rfl, single (low_field extra.toNat 5 4 (by norm_num) (by norm_num))⟩

theorem symDist5 (extra : BitVec 1) : Statement (.symDist5 extra) :=
  ⟨rfl, single (low_field extra.toNat 5 5 (by norm_num) (by norm_num))⟩

theorem symDist6 (extra : BitVec 2) : Statement (.symDist6 extra) :=
  ⟨rfl, single (low_field extra.toNat 5 6 (by norm_num) (by norm_num))⟩

theorem symDist7 (extra : BitVec 2) : Statement (.symDist7 extra) :=
  ⟨rfl, single (low_field extra.toNat 5 7 (by norm_num) (by norm_num))⟩

theorem symDist8 (extra : BitVec 3) : Statement (.symDist8 extra) :=
  ⟨rfl, single (low_field extra.toNat 5 8 (by norm_num) (by norm_num))⟩

theorem symDist9 (extra : BitVec 3) : Statement (.symDist9 extra) :=
  ⟨rfl, single (low_field extra.toNat 5 9 (by norm_num) (by norm_num))⟩

theorem symDist10 (extra : BitVec 4) : Statement (.symDist10 extra) :=
  ⟨rfl, single (low_field extra.toNat 5 10 (by norm_num) (by norm_num))⟩

theorem symDist11 (extra : BitVec 4) : Statement (.symDist11 extra) :=
  ⟨rfl, single (low_field extra.toNat 5 11 (by norm_num) (by norm_num))⟩

theorem symDist12 (extra : BitVec 5) : Statement (.symDist12 extra) :=
  ⟨rfl, single (low_field extra.toNat 5 12 (by norm_num) (by norm_num))⟩

theorem symDist13 (extra : BitVec 5) : Statement (.symDist13 extra) :=
  ⟨rfl, single (low_field extra.toNat 5 13 (by norm_num) (by norm_num))⟩

theorem symDist14 (extra : BitVec 6) : Statement (.symDist14 extra) :=
  ⟨rfl, single (low_field extra.toNat 5 14 (by norm_num) (by norm_num))⟩

theorem symDist15 (extra : BitVec 6) : Statement (.symDist15 extra) :=
  ⟨rfl, single (low_field extra.toNat 5 15 (by norm_num) (by norm_num))⟩

theorem symDist16 (extra : BitVec 7) : Statement (.symDist16 extra) :=
  ⟨rfl, single (low_field extra.toNat 5 16 (by norm_num) (by norm_num))⟩

theorem symDist17 (extra : BitVec 7) : Statement (.symDist17 extra) :=
  ⟨rfl, single (low_field extra.toNat 5 17 (by norm_num) (by norm_num))⟩

theorem symDist18 (extra : BitVec 8) : Statement (.symDist18 extra) :=
  ⟨rfl, single (low_field extra.toNat 5 18 (by norm_num) (by norm_num))⟩

theorem symDist19 (extra : BitVec 8) : Statement (.symDist19 extra) :=
  ⟨rfl, single (low_field extra.toNat 5 19 (by norm_num) (by norm_num))⟩

theorem symDist20 (extra : BitVec 9) : Statement (.symDist20 extra) :=
  ⟨rfl, single (low_field extra.toNat 5 20 (by norm_num) (by norm_num))⟩

theorem symDist21 (extra : BitVec 9) : Statement (.symDist21 extra) :=
  ⟨rfl, single (low_field extra.toNat 5 21 (by norm_num) (by norm_num))⟩

theorem symDist22 (extra : BitVec 10) : Statement (.symDist22 extra) :=
  ⟨rfl, single (low_field extra.toNat 5 22 (by norm_num) (by norm_num))⟩

theorem symDist23 (extra : BitVec 10) : Statement (.symDist23 extra) :=
  ⟨rfl, single (low_field extra.toNat 5 23 (by norm_num) (by norm_num))⟩

theorem symDist24 (extra : BitVec 11) : Statement (.symDist24 extra) :=
  ⟨rfl, single (low_field extra.toNat 5 24 (by norm_num) (by norm_num))⟩

theorem symDist25 (extra : BitVec 11) : Statement (.symDist25 extra) :=
  ⟨rfl, single (low_field extra.toNat 5 25 (by norm_num) (by norm_num))⟩

theorem symDist26 (extra : BitVec 12) : Statement (.symDist26 extra) :=
  ⟨rfl, single (low_field extra.toNat 5 26 (by norm_num) (by norm_num))⟩

theorem symDist27 (extra : BitVec 12) : Statement (.symDist27 extra) :=
  ⟨rfl, single (low_field extra.toNat 5 27 (by norm_num) (by norm_num))⟩

theorem symDist28 (extra : BitVec 13) : Statement (.symDist28 extra) :=
  ⟨rfl, single (low_field extra.toNat 5 28 (by norm_num) (by norm_num))⟩

theorem symDist29 (extra : BitVec 13) : Statement (.symDist29 extra) :=
  ⟨rfl, single (low_field extra.toNat 5 29 (by norm_num) (by norm_num))⟩

theorem symCl0 : Statement .symCl0 := ⟨rfl, single rfl⟩

theorem symCl1 : Statement .symCl1 := ⟨rfl, single rfl⟩

theorem symCl2 : Statement .symCl2 := ⟨rfl, single rfl⟩

theorem symCl3 : Statement .symCl3 := ⟨rfl, single rfl⟩

theorem symCl4 : Statement .symCl4 := ⟨rfl, single rfl⟩

theorem symCl5 : Statement .symCl5 := ⟨rfl, single rfl⟩

theorem symCl6 : Statement .symCl6 := ⟨rfl, single rfl⟩

theorem symCl7 : Statement .symCl7 := ⟨rfl, single rfl⟩

theorem symCl8 : Statement .symCl8 := ⟨rfl, single rfl⟩

theorem symCl9 : Statement .symCl9 := ⟨rfl, single rfl⟩

theorem symCl10 : Statement .symCl10 := ⟨rfl, single rfl⟩

theorem symCl11 : Statement .symCl11 := ⟨rfl, single rfl⟩

theorem symCl12 : Statement .symCl12 := ⟨rfl, single rfl⟩

theorem symCl13 : Statement .symCl13 := ⟨rfl, single rfl⟩

theorem symCl14 : Statement .symCl14 := ⟨rfl, single rfl⟩

theorem symCl15 : Statement .symCl15 := ⟨rfl, single rfl⟩

theorem symCl16 (extra : BitVec 2) : Statement (.symCl16 extra) :=
  ⟨rfl, single (low_field extra.toNat 5 16 (by norm_num) (by norm_num))⟩

theorem symCl17 (extra : BitVec 3) : Statement (.symCl17 extra) :=
  ⟨rfl, single (low_field extra.toNat 5 17 (by norm_num) (by norm_num))⟩

theorem symCl18 (extra : BitVec 7) : Statement (.symCl18 extra) :=
  ⟨rfl, single (low_field extra.toNat 5 18 (by norm_num) (by norm_num))⟩

end Sys2Proof.Laws.TableRow
end

