-- ==== Sys2Proof/Laws/Units.lean ====
section
/-! SUPPORT. What the shared operations of the units DICT, REC, HUF and ENC can do, said once. -/

namespace Sys2Proof.Laws

open Sys2Proof.Machine

theorem slotOf_eq (q : BitVec 32) : slotOf q = q.toNat % 32768 := by simp [slotOf]

theorem slotOf_lt (q : BitVec 32) : slotOf q < 32768 := by rw [slotOf_eq]; omega

/-- A window write keeps the canonical form. -/
theorem windowWrite_wf {d : Mem 8} (h : Mem.wf d) (q : BitVec 32) (c : BitVec 8) : Mem.wf (windowWrite d q c) := by
  unfold windowWrite
  dsimp only
  split
  · exact write_wf (write_wf h _ _) _ _
  · exact write_wf h _ _

/-- What a window write stores (R141): the slot, and the mirror of a low slot. -/
theorem read_windowWrite {d : Mem 8} (h : Mem.wf d) (q : BitVec 32) (c : BitVec 8) (a : Nat) :
    Mem.read (windowWrite d q c) a =
      if a = slotOf q ∨ (slotOf q < 257 ∧ a = 32768 + slotOf q) then c else Mem.read d a := by
  unfold windowWrite
  simp only [Config.maxMatch, Config.windowSize]
  split
  · rw [read_write (write_wf h _ _), read_write h]
    split_ifs <;> first | rfl | omega
  · rw [read_write h]
    split_ifs <;> first | rfl | omega

/-- The window byte of a position after a window write (R61). -/
theorem winByte_windowWrite {d : Mem 8} (h : Mem.wf d) (q : BitVec 32) (c : BitVec 8) (p : BitVec 32) :
    winByte (windowWrite d q c) p = if slotOf p = slotOf q then c else winByte d p := by
  have := slotOf_lt p
  rw [winByte, read_windowWrite h, winByte]
  split_ifs <;> first | rfl | omega

/-- Inside `dict` a run reads the element itself. -/
@[simp] theorem dictAt_of_lt {i : Nat} (h : i < Config.dictBufSize) (k : Nat) (d : Mem 8) : dictAt k d i = Mem.read d i :=
  if_pos h

/-- A run of at most `MAX_MATCH` bytes draws no free value. -/
theorem runRead_of_le {n : BitVec 9} (h : n.toNat ≤ Config.maxMatch) (s : State) : runRead n s = s :=
  if_neg (Nat.not_lt.2 h)

/-- A search that compares no candidate answers the prior pair (R143, corner cases (c), (d)). -/
theorem findMatch_searchless {probes maxLen : Nat} {prior : Nat × Nat} (h : searchless probes maxLen prior.2 = true)
    (k : Nat) (w : Window) (p : BitVec 32) (maxDist : Nat) : findMatch k w probes p maxDist maxLen prior = prior := by
  unfold findMatch
  split
  · rfl
  · simp only [searchless, Bool.or_eq_true, decide_eq_true_eq] at h
    obtain rfl : probes = 0 := by tauto
    rfl

/-- DICT.INSERT takes every position that the catch-up passes, and any farther behind up to half the range of positions
(R142, R258, log entry 28). -/
theorem insertable_iff (q : BitVec 32) (s : State) : insertable q s = true ↔
    3 ≤ (s.drv.lookaheadPos + s.drv.lookaheadSize.setWidth 32 - q).toNat
      ∧ (s.drv.lookaheadPos + s.drv.lookaheadSize.setWidth 32 - q).toNat < 2 ^ 31 := by
  simp [insertable]

/-- A distance a record of REC.MATCH holds has the symbol of its row (R99). -/
theorem distSym_of_le {d : Nat} (h : d ≤ Config.windowSize) : distSym d = (rowOf distRows d).sym := if_pos h

/-- Whatever level field it has, `ZLIB_FLG` makes a legal header with `ZLIB_CMF`: a multiple of 31, no preset dictionary
(R107). -/
theorem zlibFlg_legal : (256 * Config.zlibCmf.toNat + Config.zlibFlg.toNat) % 31 = 0
    ∧ Config.zlibFlg.getLsbD 5 = false := by
  have h : ∀ l : BitVec 2, (256 * Config.zlibCmf.toNat + (Config.zlibFlgOf l).toNat) % 31 = 0
      ∧ (Config.zlibFlgOf l).getLsbD 5 = false := by decide
  exact h Config.zlibLevel

/-- A window write keeps the mirror (R33 item 3). -/
theorem windowWrite_mirrored {d : Mem 8} (h : Mem.wf d) (hm : Mirrored d) (q : BitVec 32) (c : BitVec 8) :
    Mirrored (windowWrite d q c) := fun i hi => by
  have := slotOf_lt q
  have := hm i hi
  simp only [Config.windowSize] at *
  rw [read_windowWrite h, read_windowWrite h]
  split_ifs <;> first | rfl | omega

/-- With the mirror, a run from any slot reads window bytes without wrapping (R61). -/
theorem read_run_eq_winByte {d : Mem 8} (hm : Mirrored d) (q : BitVec 32) (k : Nat) (hk : k ≤ 257) :
    Mem.read d (slotOf q + k) = winByte d (q + BitVec.ofNat 32 k) := by
  have hs := slotOf_lt q
  have hq := q.isLt
  have hslot : slotOf (q + BitVec.ofNat 32 k) = (slotOf q + k) % 32768 := by
    rw [slotOf_eq, slotOf_eq, BitVec.toNat_add, BitVec.toNat_ofNat]
    omega
  rw [winByte, hslot]
  by_cases hw : slotOf q + k < 32768
  · rw [Nat.mod_eq_of_lt hw]
  · have := hm (slotOf q + k - 32768) (by omega)
    simp only [Config.windowSize] at this
    rw [show 32768 + (slotOf q + k - 32768) = slotOf q + k by omega] at this
    rw [show (slotOf q + k) % 32768 = slotOf q + k - 32768 by omega, this]

/-- A chain insertion keeps the canonical form of both memories (R142). -/
theorem chainInsert_wf {w : Window} (hh : Mem.wf w.head) (hn : Mem.wf w.next) (q : BitVec 32) :
    Mem.wf (chainInsert w q).head ∧ Mem.wf (chainInsert w q).next ∧ (chainInsert w q).dict = w.dict :=
  ⟨write_wf hh _ _, write_wf hn _ _, rfl⟩

/-- A flag write keeps the canonical form. -/
theorem flagWrite_wf {m : Mem 8} (h : Mem.wf m) (k : Nat) (f : Bool) : Mem.wf (flagWrite m k f) := write_wf h _ _

/-- A flag write sets the flag bit of its record and no other (R96). -/
theorem flagRead_flagWrite {m : Mem 8} (h : Mem.wf m) (k : Nat) (f : Bool) (j : Nat) :
    flagRead (flagWrite m k f) j = if j = k then f else flagRead m j := by
  unfold flagRead flagWrite
  dsimp only
  rw [read_write h]
  by_cases hd : j / 8 = k / 8
  · rw [if_pos hd, hd]
    have hj : j % 8 < 8 := Nat.mod_lt _ (by norm_num)
    by_cases he : j = k
    · subst he
      cases f <;> simp [hj]
    · have hne : ¬ j % 8 = k % 8 := by omega
      cases f
      · simp only [he, hj, if_false, Bool.false_eq_true, BitVec.getLsbD_and, BitVec.getLsbD_not,
          BitVec.getLsbD_shiftLeft, BitVec.getLsbD_one]
        simp
        omega
      · simp only [he, hj, if_false, if_true, BitVec.getLsbD_or, BitVec.getLsbD_shiftLeft, BitVec.getLsbD_one]
        simp
        omega
  · rw [if_neg hd, if_neg (by rintro rfl; exact hd rfl)]

/-- A counter advances by one and no other changes (R160, R161). -/
theorem read_bump {m : Mem 16} (h : Mem.wf m) (sym a : Nat) :
    Mem.read (bump m sym) a = Mem.read m a + if a = sym then 1 else 0 := by
  rw [bump, read_write h]
  split_ifs with ha
  · rw [ha]
  · simp

theorem bump_wf {m : Mem 16} (h : Mem.wf m) (sym : Nat) : Mem.wf (bump m sym) := write_wf h _ _

/-- Sizes dealt to symbols are a canonical memory (R184). -/
theorem assignedSizes_wf (limit : Nat) (sym : List SymKey) (num : List Nat) : Mem.wf (assignedSizes limit sym num) := by
  suffices ∀ (l : List (SymKey × Nat)) (m : Mem 8), Mem.wf m →
      Mem.wf (l.foldl (fun m p => Mem.write m p.1.sym (BitVec.ofNat 8 p.2)) m) from this _ _ wf_nil
  intro l
  induction l with
  | nil => exact fun _ h => h
  | cons p l ih => exact fun m h => ih _ (write_wf h _ _)

/-- A code is listed only for a symbol with a length (R185). -/
theorem mem_codesFrom {used : List (Nat × BitVec 8)} {next : List Nat} {c : Nat × BitVec 16}
    (h : c ∈ codesFrom used next) : ∃ u ∈ used, c.1 = u.1 := by
  induction used generalizing next with
  | nil => simp [codesFrom] at h
  | cons u used ih =>
    obtain ⟨a, l⟩ := u
    simp only [codesFrom] at h
    split at h
    · obtain ⟨u, hu, e⟩ := ih h
      exact ⟨u, List.mem_cons_of_mem _ hu, e⟩
    · rcases List.mem_cons.1 h with rfl | h
      · exact ⟨(a, l), List.mem_cons_self, rfl⟩
      · obtain ⟨u, hu, e⟩ := ih h
        exact ⟨u, List.mem_cons_of_mem _ hu, e⟩

/-- Codes of symbols in rising order are a canonical memory. -/
theorem codesFrom_wf {used : List (Nat × BitVec 8)} (h : used.Pairwise fun c d => c.1 < d.1) (next : List Nat) :
    Mem.wf (codesFrom used next) := by
  induction used generalizing next with
  | nil => exact wf_nil
  | cons u used ih =>
    obtain ⟨a, l⟩ := u
    obtain ⟨hlt, hp⟩ := List.pairwise_cons.1 h
    simp only [codesFrom]
    split
    · exact ih hp _
    · refine wf_cons (by assumption) (fun d hd => ?_) (ih hp _)
      obtain ⟨u, hu, e⟩ := mem_codesFrom hd
      rw [e]
      exact hlt u hu

/-- The codes of a canonical memory of sizes are a canonical memory (R185). -/
theorem assignedCodes_wf (n limit : Nat) {size : Mem 8} (h : Mem.wf size) : Mem.wf (assignedCodes n limit size) :=
  codesFrom_wf (h.1.filter _) _

/-- A symbol's code is appended when it fits (R220). -/
theorem putCode_spec (t : Table) (sym : Nat) (s : State) (hf : FieldsFit [codeField s t sym])
    (ht : s.enc.TakesBits [codeField s t sym]) :
    ∃ e, putCode t sym s = s.setEnc e ∧ s.enc.Appended [codeField s t sym] e :=
  putBits_spec _ _ s (hf _ List.mem_cons_self) ht

/-- A symbol's code and its extra bits are appended when they fit (R105, R106). -/
theorem putSymbol_spec (t : Table) (sym x n : Nat) (s : State) (hf : FieldsFit [codeField s t sym, (x, n)])
    (ht : s.enc.TakesBits [codeField s t sym, (x, n)]) :
    ∃ e, putSymbol t sym x n s = s.setEnc e ∧ s.enc.Appended [codeField s t sym, (x, n)] e := by
  have hsplit : [codeField s t sym, (x, n)] = [codeField s t sym] ++ [(x, n)] := rfl
  rw [hsplit] at ht
  obtain ⟨e1, h1, a1⟩ := putCode_spec t sym s
    (fun f hfm => hf f (by rw [List.mem_singleton.1 hfm]; exact List.mem_cons_self)) (takes_left ht)
  obtain ⟨e2, h2, a2⟩ := putBits_spec x n (s.setEnc e1) (hf (x, n) (by simp)) (takes_right ht a1)
  exact ⟨e2, by rw [putSymbol, h1, h2]; rfl, by rw [hsplit]; exact appended_trans a1 a2⟩

end Sys2Proof.Laws
end

