-- ==== Sys2Proof/Tests/Slice0.lean ====
section
/-! SUPPORT. The model's own tests: ill-formed terms the check refuses, the decoding of every constructor from a word
written out from the spec, single steps against the worked examples of spec/, and for every statement with hypotheses a
state and operands that meet them. -/

namespace Sys2Proof.Tests

set_option Elab.async false

open Sys2Proof Sys2Proof.Machine

/-! Helpers. -/

/-- Does the decoder read the instruction from the words? -/
def reads (sp : Space) (ws : List (BitVec 32)) (i : Instr) : Bool :=
  match decode sp ws with
  | .ok j => j == i
  | .error _ => false

/-- Does the decoder refuse the words with this error? -/
def rejects (sp : Space) (ws : List (BitVec 32)) (e : DecodeError) : Bool :=
  match decode sp ws with
  | .ok _ => false
  | .error f => f == e

/-- Does the decoder read every listed instruction? -/
def allRead (sp : Space) (l : List (List (BitVec 32) × Instr)) : Bool := l.all fun p => reads sp p.1 p.2

/-- Does the outcome have a next state, and does it pass the check? -/
def nextHas (o : Host.Outcome State Fault Refusal) (p : State → Bool) : Bool :=
  match o with
  | .next t => p t
  | _ => false

/-- What a passed check of an outcome says: it is a next state that passes. -/
theorem nextHas_elim {o : Host.Outcome State Fault Refusal} {p : State → Bool} (h : nextHas o p = true) :
    ∃ t, o = .next t ∧ p t = true := by
  cases o with
  | next t => exact ⟨t, rfl, h⟩
  | fault _ => exact absurd h Bool.false_ne_true
  | refused _ => exact absurd h Bool.false_ne_true

/-- The state after INIT. -/
def fresh (flags : BitVec 20) (sink : Bool) : State := opInit flags sink State.reset

/-- The state with an input slice presented. -/
def withInput (l : List (BitVec 8)) (s : State) : State :=
  s.setHost { s.host with inSlice := Mem.writeRun [] 0 l }

/-- The first bytes of the output slice. -/
def out (s : State) (n : Nat) : List (BitVec 8) := Mem.readRun s.host.outSlice 0 n

/-- A stream in slice mode (`FLAGS` = 0x00080) with "abcab" written, "abc" parsed and "ab" ahead. -/
def midStream : State :=
  let s := fresh 0x00080 false
  { s with
    win := { s.win with dict := Mem.writeRun (Mem.writeRun [] 0 [0x61, 0x62, 0x63, 0x61, 0x62]) 32768
                                  [0x61, 0x62, 0x63, 0x61, 0x62] }
    lz := { s.lz with lzCode := Mem.writeRun [] 0 [0x61, 0x62, 0x63], lzCodeLen := 3, lzOpCount := 3, totalLzBytes := 3 }
    drv := { s.drv with lookaheadPos := 3, lookaheadSize := 2, dictSize := 3, insPos := 3 } }

/-! The well-formedness check refuses an ill-formed term for each of its conditions, and takes the term beside it. -/

theorem test_wf_compress : (Instr.compress 2#3 true true 0#32 0#32).wf = false
    ∧ (Instr.compress 1#3 true true 0#32 0#32).wf = true := by decide

theorem test_wf_match_length : (Instr.recMatch 2#9 1#16).wf = false ∧ (Instr.recMatch 259#9 1#16).wf = false
    ∧ (Instr.recMatch 3#9 1#16).wf = true := by decide

theorem test_wf_match_distance : (Instr.recMatch 3#9 0#16).wf = false ∧ (Instr.recMatch 3#9 32769#16).wf = false
    ∧ (Instr.recMatch 258#9 32768#16).wf = true := by decide

theorem test_wf_len284 : (Instr.symLen284 31#5).wf = false ∧ (Instr.symLen284 30#5).wf = true := by decide

/-! Decoding: every constructor from a word written out bit by bit. -/

/-- Command words bit by bit (R90, R93), reserved bits 1 in the second and the last. -/
theorem test_decode_commands : allRead .command
  [([0b00000000000100000001000010000000#32], .init 0x01080#20 true),
   ([0b00001111111000000000000000000000#32], .init 0x00000#20 false),
   ([0b00010000000000000000000000011001#32, 5#32, 6#32], .compress 1#3 true true 5#32 6#32),
   ([0b00010000000000000000000000001111#32, 5#32, 6#32], .compress 7#3 true false 5#32 6#32),
   ([0b00010000000000000000000000011000#32, 5#32, 6#32], .compressNone true true 5#32 6#32),
   ([0b00010000000000000000000000010010#32, 0#32, 6#32], .compressSync false true 0#32 6#32),
   ([0b00010000000000000000000000001011#32, 5#32, 0#32], .compressFull true false 5#32 0#32),
   ([0b00011111111111111111111111111100#32, 5#32, 6#32], .compressFinish true true 5#32 6#32)] = true := by decide

/-- Micro-operation numbers (R114), operand words after them (log entry 6). -/
theorem test_decode_micro_operations : allRead .micro
  [([0b00000000#32, 0x80000002#32, 0x41#32], .dictWrite 0x80000002#32 0x41#8),
   ([0b00000001#32, 1#32], .dictInsert 1#32),
   ([0b00000010#32, 4#32, 0x8000#32, 258#32, 0#32, 2#32], .dictFind 4#32 0x8000#16 258#9 0#16 2#9),
   ([0b00000011#32, 9#32, 5#32], .dictRle 9#32 5#9),
   ([0b00000100#32], .dictResetChains),
   ([0b00010000#32, 0x61#32], .recLit 0x61#8),
   ([0b00010001#32, 2#32, 2#32], .recMatch 5#9 3#16),
   ([0b00100000#32, 0#32], .hufSort .litLen),
   ([0b00100001#32], .hufMinred),
   ([0b00100010#32, 1#32], .hufLimit .seven),
   ([0b00100011#32, 1#32], .hufAssignSizes .dist),
   ([0b00100100#32, 2#32], .hufAssignCodes .codeLen),
   ([0b00100101#32, 0#32], .hufBuild .litLen),
   ([0b00100110#32], .hufLoadStatic),
   ([0b00110000#32, 0xFFFF#32, 16#32], .encPutBits 0xFFFF#16 16#5),
   ([0b00110001#32], .encPad),
   ([0b00110010#32], .encClPlan),
   ([0b00110011#32], .encCost),
   ([0b00110100#32], .encStored),
   ([0b00110101#32], .encStaticHdr),
   ([0b00110110#32], .encDynHdr),
   ([0b00110111#32], .encPayload),
   ([0b00111000#32], .encZlibHdr),
   ([0b00111001#32], .encTrailer),
   ([0b00111010#32], .encSyncMark),
   ([0b01000000#32], .drvFill),
   ([0b01000001#32], .drvCatchup),
   ([0b01000010#32], .drvParseStep),
   ([0b01000011#32, 3#32], .drvCloseBlock .full),
   ([0b01000100#32], .drvDrain),
   ([0b01000101#32, 0x61#32], .drvAdler 0x61#8)] = true := by decide

/-- LZ records: the flag bit and the bytes (R95, R96). -/
theorem test_decode_records : allRead .lzRecord
  [([0b0110000100000000#32], .lit 0x61#8),
   ([0x7FFFFF01#32], .matchRec 255#8 32767#15)] = true := by decide

/-- Block headers (R102). -/
theorem test_decode_headers : allRead .blockHeader
  [([0b001#32], .blockStored true),
   ([0b010#32], .blockStatic false),
   ([0b101#32], .blockDynamic true)] = true := by decide

/-- Statuses (R94). -/
theorem test_decode_statuses : allRead .status
  [([0b00#32], .statusOkay),
   ([0b01#32], .statusDone),
   ([0b10#32], .statusBadParam),
   ([0b11#32], .statusPutBufFailed)] = true := by decide

/-- Literal/length symbols, the extra value above the 9 bits (R98, log entry 6). -/
theorem test_decode_litlen_symbols : allRead .litLenSym
  [([0b001100001#32], .symLiteral 0x61#8),
   ([0b100000000#32], .symEob),
   ([0b100000001#32], .symLen257),
   ([0b100000010#32], .symLen258),
   ([0b100000011#32], .symLen259),
   ([0b100000100#32], .symLen260),
   ([0b100000101#32], .symLen261),
   ([0b100000110#32], .symLen262),
   ([0b100000111#32], .symLen263),
   ([0b100001000#32], .symLen264),
   ([0b1100001001#32], .symLen265 1#1),
   ([0b1100001010#32], .symLen266 1#1),
   ([0b1100001011#32], .symLen267 1#1),
   ([0b1100001100#32], .symLen268 1#1),
   ([0b11100001101#32], .symLen269 3#2),
   ([0b11100001110#32], .symLen270 3#2),
   ([0b11100001111#32], .symLen271 3#2),
   ([0b11100010000#32], .symLen272 3#2),
   ([0b111100010001#32], .symLen273 7#3),
   ([0b111100010010#32], .symLen274 7#3),
   ([0b111100010011#32], .symLen275 7#3),
   ([0b111100010100#32], .symLen276 7#3),
   ([0b1111100010101#32], .symLen277 15#4),
   ([0b1111100010110#32], .symLen278 15#4),
   ([0b1111100010111#32], .symLen279 15#4),
   ([0b1111100011000#32], .symLen280 15#4),
   ([0b11111100011001#32], .symLen281 31#5),
   ([0b11111100011010#32], .symLen282 31#5),
   ([0b11111100011011#32], .symLen283 31#5),
   ([0b11110100011100#32], .symLen284 30#5),
   ([0b100011101#32], .symLen285)] = true := by decide

/-- Distance symbols (R99). -/
theorem test_decode_dist_symbols : allRead .distSym
  [([0b00000#32], .symDist0),
   ([0b00001#32], .symDist1),
   ([0b00010#32], .symDist2),
   ([0b00011#32], .symDist3),
   ([0b100100#32], .symDist4 1#1),
   ([0b100101#32], .symDist5 1#1),
   ([0b1100110#32], .symDist6 3#2),
   ([0b1100111#32], .symDist7 3#2),
   ([0b10101000#32], .symDist8 5#3),
   ([0b10101001#32], .symDist9 5#3),
   ([0b100101010#32], .symDist10 9#4),
   ([0b100101011#32], .symDist11 9#4),
   ([0b1000101100#32], .symDist12 17#5),
   ([0b1000101101#32], .symDist13 17#5),
   ([0b10000101110#32], .symDist14 33#6),
   ([0b10000101111#32], .symDist15 33#6),
   ([0b100000110000#32], .symDist16 65#7),
   ([0b100000110001#32], .symDist17 65#7),
   ([0b1000000110010#32], .symDist18 129#8),
   ([0b1000000110011#32], .symDist19 129#8),
   ([0b10000000110100#32], .symDist20 257#9),
   ([0b10000000110101#32], .symDist21 257#9),
   ([0b100000000110110#32], .symDist22 513#10),
   ([0b100000000110111#32], .symDist23 513#10),
   ([0b1000000000111000#32], .symDist24 1025#11),
   ([0b1000000000111001#32], .symDist25 1025#11),
   ([0b10000000000111010#32], .symDist26 2049#12),
   ([0b10000000000111011#32], .symDist27 2049#12),
   ([0b100000000000111100#32], .symDist28 4097#13),
   ([0b100000000000111101#32], .symDist29 4097#13)] = true := by decide

/-- Code-length symbols (R101). -/
theorem test_decode_cl_symbols : allRead .codeLenSym
  [([0b00000#32], .symCl0),
   ([0b00001#32], .symCl1),
   ([0b00010#32], .symCl2),
   ([0b00011#32], .symCl3),
   ([0b00100#32], .symCl4),
   ([0b00101#32], .symCl5),
   ([0b00110#32], .symCl6),
   ([0b00111#32], .symCl7),
   ([0b01000#32], .symCl8),
   ([0b01001#32], .symCl9),
   ([0b01010#32], .symCl10),
   ([0b01011#32], .symCl11),
   ([0b01100#32], .symCl12),
   ([0b01101#32], .symCl13),
   ([0b01110#32], .symCl14),
   ([0b01111#32], .symCl15),
   ([0b1010000#32], .symCl16 2#2),
   ([0b01010001#32], .symCl17 2#3),
   ([0b000001010010#32], .symCl18 2#7)] = true := by decide

/-- What stands for no instruction (R102, R110, R114). -/
theorem test_decode_rejects :
    rejects .command [0x20000000#32] .reservedOpcode = true ∧ rejects .command [0xF0000000#32] .reservedOpcode = true
    ∧ rejects .micro [0x05#32] .unassigned = true ∧ rejects .micro [0x46#32] .unassigned = true
    ∧ rejects .blockHeader [0b110#32] .unassigned = true ∧ rejects .litLenSym [286#32] .unassigned = true
    ∧ rejects .distSym [30#32] .unassigned = true ∧ rejects .codeLenSym [19#32] .unassigned = true
    ∧ rejects .micro [0x20#32, 3#32] .unassigned = true ∧ rejects .micro [0x43#32, 1#32] .unassigned = true
    ∧ rejects .lzRecord [0x80000001#32] .unassigned = true ∧ rejects .litLenSym [0b11111100011100#32] .unassigned = true := by
  decide

/-- An operand is the low bits of its word (R7, log entry 21), whatever its value (log entries 26, 27). -/
theorem test_decode_operands : allRead .micro
  [([0b00000000#32, 0#32, 0xFFFFFF41#32], .dictWrite 0#32 0x41#8),
   ([0b00000010#32, 4#32, 0x8001#32, 259#32, 0xFFFF#32, 511#32], .dictFind 4#32 0x8001#16 259#9 0xFFFF#16 511#9),
   ([0b00110000#32, 4#32, 2#32], .encPutBits 4#16 2#5)] = true := by decide

/-- Rows of the table as the host numbers them (log entry 4). -/
theorem test_table_rows : decodeTableWord 32 0x10000004 = some (.compressFinish false false 0 0)
    ∧ decodeTableWord 8 0x26 = some .hufLoadStatic ∧ decodeTableWord 16 0x100 = some .symEob
    ∧ decodeTableWord 5 0x1D = some (.symDist29 0) ∧ decodeTableWord 2 3 = some .statusPutBufFailed := by decide

/-! Single steps against the worked examples of the rules. -/

/-- R140: the two examples of the prefix hash. -/
theorem test_hash3 : hash3 0x61 0x62 0x63 = 0x0823 ∧ hash3 0x62 0x63 0x61 = 0x0401 := by decide

/-- R141: `DICT.WRITE(32770, 0x41)` writes `dict[2]` and `dict[32770]`, `DICT.WRITE(300, 0x41)` only `dict[300]`. -/
theorem test_dict_write :
    nextHas (exec (.dictWrite 32770#32 0x41#8) State.reset) (fun t => t.win.dict == [(2, 0x41#8), (32770, 0x41#8)]) = true
    ∧ nextHas (exec (.dictWrite 300#32 0x41#8) State.reset) (fun t => t.win.dict == [(300, 0x41#8)]) = true := by
  decide +kernel

/-- R142: `DICT.INSERT(1)` with the bytes 62 63 61 gives `head[0x0401] <- 1`. -/
theorem test_dict_insert :
    nextHas (exec (.dictInsert 1#32) midStream) (fun t => t.win.head == [(0x0401, 1#16)] && t.win.next == []) = true := by
  decide +kernel

/-- R143: on "abcabcabc", DICT.FIND(4, 4, 5, 0, 2) gives (3, 5), DICT.FIND(3, 3, 6, 0, 2) gives (0, 2). -/
theorem test_dict_find :
    let s := fresh 0x00080 false
    let s := { s with
      win := { dict := Mem.writeRun [] 0 [0x61, 0x62, 0x63, 0x61, 0x62, 0x63, 0x61, 0x62, 0x63]
               head := [(0x0401, 1#16)], next := [] }
      drv := { s.drv with lookaheadPos := 4, lookaheadSize := 5, dictSize := 4 } }
    nextHas (exec (.dictFind 4#32 4#16 5#9 0#16 2#9) s) (fun t => t.work.findDist == 3#16 && t.work.findLen == 5#9) = true
    ∧ nextHas (exec (.dictFind 3#32 3#16 6#9 0#16 2#9) s)
        (fun t => t.work.findDist == 0#16 && t.work.findLen == 2#9) = true := by decide +kernel

/-- R142: a position 300 bytes behind is inserted; R143 (c), (d): a search that compares nothing gives the prior pair. -/
theorem test_dict_beyond :
    nextHas (exec (.dictInsert (3#32 - 300#32)) midStream) (fun t => t.win.head == [(0, 0xFED7#16)]) = true
    ∧ nextHas (exec (.dictFind 1000#32 9#16 2#9 7#16 1#9) midStream)
        (fun t => t.work.findDist == 7#16 && t.work.findLen == 1#9) = true
    ∧ nextHas (exec (.dictFind 1000#32 9#16 200#9 7#16 1#9) (fresh 0 false))
        (fun t => t.work.findDist == 7#16 && t.work.findLen == 1#9) = true := by decide +kernel

/-- R144: the run 78 78 78 78 79 after 78 gives 4. -/
theorem test_dict_rle :
    let s := fresh 0x10000 false
    let s := { s with
      win := { s.win with dict := Mem.writeRun [] 0 [0x78, 0x78, 0x78, 0x78, 0x78, 0x79] }
      drv := { s.drv with lookaheadPos := 1, lookaheadSize := 5, dictSize := 1 } }
    nextHas (exec (.dictRle 1#32 5#9) s) (fun t => t.work.rleLen == 4#9) = true := by decide +kernel

/-- R160, R161: REC.LIT(0x61), then REC.MATCH(5, 3). -/
theorem test_rec :
    nextHas (exec (.recLit 0x61#8) State.reset) (fun s =>
      nextHas (exec (.recMatch 5#9 3#16) s) fun t =>
        Mem.readRun t.lz.lzCode 0 4 == [0x61#8, 2#8, 2#8, 0#8] && Mem.read t.lz.lzFlags 0 == 0b10#8
        && t.lz.lzCodeLen == 4 && t.lz.lzOpCount == 2 && t.lz.totalLzBytes == 6
        && Mem.read t.huf.litLen.count 259 == 1 && Mem.read t.huf.dist.count 2 == 1) = true := by decide +kernel

/-- R181: the source's stability example. -/
theorem test_huf_sort :
    nextHas (exec (.hufSort .litLen) (State.reset.setWork
      { State.reset.work with sym := [⟨3, 5⟩, ⟨3, 2⟩, ⟨1, 9⟩] })) (fun t => t.work.sym == [⟨1, 9⟩, ⟨3, 5⟩, ⟨3, 2⟩])
      = true := by decide +kernel

/-- R182: the worked example and the small ones. -/
theorem test_huf_minred : minred [1, 1, 2, 5] = [3, 3, 2, 1] ∧ minred [1, 1] = [1, 1] ∧ minred [7] = [1]
    ∧ minred [1, 2, 3] = [2, 2, 1] ∧ minred [1, 1, 1, 1, 1] = [3, 3, 2, 2, 2] := by decide

/-- R183: the example for table 2, limit 7. -/
theorem test_huf_limit :
    nextHas (exec (.hufLimit .seven) (State.reset.setWork
      { State.reset.work with lengths := [9, 9, 8, 7, 6, 5, 4, 3, 2, 1] }))
      (fun t => t.work.num.take 8 == [0, 1, 1, 1, 1, 0, 2, 4]) = true := by decide +kernel

/-- R184, R185, R186: the running example, built from its counts. -/
theorem test_huf_build :
    nextHas (exec (.hufBuild .litLen) (State.reset.setTable .litLen
      { count := [(0x61, 5#16), (0x62, 2#16), (0x63, 1#16), (0x64, 1#16)], size := [], code := [] }))
      (fun t => t.huf.litLen.size == [(0x61, 1#8), (0x62, 2#8), (0x63, 3#8), (0x64, 3#8)]
        && t.huf.litLen.code == [(0x62, 1#16), (0x63, 3#16), (0x64, 7#16)]) = true := by decide +kernel

/-- R187: codes of the fixed tables. -/
theorem test_huf_load_static :
    nextHas (exec .hufLoadStatic State.reset) (fun t =>
      Mem.read t.huf.litLen.code 256 == 0 && Mem.read t.huf.litLen.code 0x61 == 0x89#16
      && Mem.read t.huf.litLen.code 257 == 0x40#16 && Mem.read t.huf.dist.code 0 == 0) = true := by decide +kernel

/-- R210: PUT_BITS(0x89, 8) after the three header bits. -/
theorem test_put_bits :
    nextHas (exec (.blockStatic true) State.reset) (fun s =>
      s.enc.bitBuffer == 0b011 && s.enc.bitsIn == 3
      && nextHas (exec (.encPutBits 0x89#16 8#5) s) fun t =>
        t.enc.stage == [(0, 0x4B#8)] && t.enc.bitBuffer == 4 && t.enc.bitsIn == 3) = true := by decide +kernel

/-- R210: a field outside its range appends as many bits, of a free value (log entry 26); the encoder goes on. -/
theorem test_put_bits_free :
    nextHas (exec (.encPutBits 4#16 2#5) State.reset) (fun t => t.enc.bitsIn == 2 && t.draws == 1) = true := by
  decide +kernel

/-- R107, vector E15: each of the four headers. -/
theorem test_zlib_header : ([0, 1, 2, 3] : List (BitVec 2)).map (fun l =>
      Mem.readRun (zlibHeader (Config.zlibFlgOf l) State.reset).enc.stage 0 2)
    = [[0x78#8, 0x01#8], [0x78#8, 0x5E#8], [0x78#8, 0x9C#8], [0x78#8, 0xDA#8]] := by decide +kernel

/-- R221: the trailer after the input "a". -/
theorem test_trailer :
    let s := fresh 0x01080 false
    nextHas (exec .encTrailer (s.setCtl { s.ctl with adler32 := 0x00620062 }))
      (fun t => Mem.readRun t.enc.stage 0 4 == [0x00#8, 0x62#8, 0x00#8, 0x62#8]) = true := by decide +kernel

/-- R222: the marker after two pending bits. -/
theorem test_sync_mark :
    nextHas (exec .encSyncMark (State.reset.setEnc { State.reset.enc with bitBuffer := 3, bitsIn := 2 }))
      (fun t => Mem.readRun t.enc.stage 0 5 == [3#8, 0#8, 0#8, 0xFF#8, 0xFF#8] && t.enc.bitsIn == 0) = true := by
  decide +kernel

/-- R257: "abc" from 1. -/
theorem test_adler : adlerNext (adlerNext (adlerNext 1 0x61) 0x62) 0x63 = 0x024D0127 := by decide

/-- R256: 100 bytes offered to a lookahead of 250 bytes: 8 are taken and `dict_size` is capped. -/
theorem test_fill_cap :
    let s := fresh 0 false
    let s := { s with
      drv := { s.drv with lookaheadSize := 250, dictSize := 32600 }, call := { s.call with inLen := 100 } }
    nextHas (exec .drvFill s) (fun t =>
      t.call.srcPos == 8 && t.drv.lookaheadSize == 258 && t.drv.dictSize == 32510) = true := by decide +kernel

/-- R251: the one-byte stream "a". -/
theorem test_compress_a :
    nextHas (exec (.compressFinish true true 1#32 100#32) (withInput [0x61] (fresh 0x00080 false)))
      (fun t => t.host.response == some { status := .done, inConsumed := 1, outProduced := 3 }
        && out t 4 == [0x4B#8, 0x04#8, 0x00#8, 0x00#8]) = true := by decide +kernel

/-- R306: the same with room for two bytes suspends. -/
theorem test_compress_suspends :
    nextHas (exec (.compressFinish true true 1#32 2#32) (withInput [0x61] (fresh 0x00080 false)))
      (fun t => t.host.response == some { status := .okay, inConsumed := 1, outProduced := 2 }
        && t.drv.flushOfs == 2 && t.drv.flushRemaining == 1 && driverState t == .flushingOutput) = true := by
  decide +kernel

/-- R267: an empty stream, forced raw and not. -/
theorem test_compress_empty :
    nextHas (exec (.compressFinish false true 0#32 100#32) (fresh 0x84000 false))
      (fun t => out t 5 == [1#8, 0#8, 0#8, 0xFF#8, 0xFF#8]) = true
    ∧ nextHas (exec (.compressFinish false true 0#32 100#32) (fresh 0x00080 false)) (fun t => out t 2 == [3#8, 0#8])
      = true := by decide +kernel

/-- R113: `flags_from_params`. -/
theorem test_flags_from_params : flagsFromParams 6 15 0 = 0x01080 ∧ flagsFromParams 0 0 0 = 0x84000
    ∧ flagsFromParams 9 15 1 = 0x21300 ∧ flagsFromParams (-1) 0 0 = 0x04080 ∧ flagsFromParams 6 0 2 = 0 := by decide

/-! For every statement with hypotheses, a state and operands that meet all of them; for a statement of several clauses, one
for each clause at the edge of its range. -/

/-- A request of the host. -/
def commandRequest (ws : List (BitVec 32)) : Request := { requestOf .command ws with input := [(0, 0x61#8)] }

/-- The state with one request. -/
def asked (r : Request) (s : State) : State := s.setHost { s.host with requests := [r] }

theorem midStream_mirrored : Mirrored midStream.win.dict := by
  have h : ∀ i : Fin 257, Mem.read midStream.win.dict (32768 + i.val) = Mem.read midStream.win.dict i.val := by
    decide +kernel
  exact fun i hi => h ⟨i, hi⟩

/-- The state in mid-stream meets the invariants of the driver, with a match held or not. -/
theorem midStream_driving (cap : Nat) (h : 3 ≤ cap) : Driving cap midStream where
  canonical := by decide +kernel
  window := by decide +kernel
  ahead := by decide +kernel
  mirror := midStream_mirrored
  recorded := ⟨h, by decide +kernel⟩
  span := by decide +kernel
  bits := ⟨by decide +kernel, by decide +kernel⟩
  staged := by decide +kernel
  behind := by decide +kernel
  pending := fun h => absurd (show midStream.drv.flushRemaining = 0 by decide +kernel) h
  sink := fun _ => by decide +kernel
  held := fun h => absurd (show midStream.drv.savedLen = 0 by decide +kernel) h

/-- A held match: "abcabc" with "abc" parsed, the match (3, 3) held at position 3 and its last two bytes ahead. -/
def heldStream : State :=
  { midStream with
    win := { midStream.win with dict := Mem.writeRun (Mem.writeRun [] 0 [0x61, 0x62, 0x63, 0x61, 0x62, 0x63]) 32768
                                  [0x61, 0x62, 0x63, 0x61, 0x62, 0x63] }
    drv := { midStream.drv with
      lookaheadPos := 4, lookaheadSize := 2, dictSize := 4, insPos := 4, savedLen := 3, savedDist := 3 } }

/-- The state with the held match meets the invariants of the driver. -/
theorem heldStream_driving (cap : Nat) (h : 3 ≤ cap) : Driving cap heldStream where
  canonical := by decide +kernel
  window := by decide +kernel
  ahead := by decide +kernel
  mirror := by
    have h : ∀ i : Fin 257, Mem.read heldStream.win.dict (32768 + i.val) = Mem.read heldStream.win.dict i.val := by
      decide +kernel
    exact fun i hi => h ⟨i, hi⟩
  recorded := ⟨h, by decide +kernel⟩
  span := by decide +kernel
  bits := ⟨by decide +kernel, by decide +kernel⟩
  staged := by decide +kernel
  behind := by decide +kernel
  pending := fun h => absurd (show heldStream.drv.flushRemaining = 0 by decide +kernel) h
  sink := fun _ => by decide +kernel
  held := fun _ => by decide +kernel

theorem midStream_canonical : midStream.Canonical where
  dict := ⟨by decide +kernel, by decide +kernel⟩
  head := ⟨by decide +kernel, by decide +kernel⟩
  next := ⟨by decide +kernel, by decide +kernel⟩
  lzCode := ⟨by decide +kernel, by decide +kernel⟩
  lzFlags := ⟨by decide +kernel, by decide +kernel⟩
  stage := ⟨by decide +kernel, by decide +kernel⟩
  table := fun t => by
    cases t <;>
      exact ⟨⟨by decide +kernel, by decide +kernel⟩, ⟨by decide +kernel, by decide +kernel⟩,
        ⟨by decide +kernel, by decide +kernel⟩, by decide +kernel⟩
  input := by decide +kernel
  output := by decide +kernel
  requests := by decide +kernel

theorem witness_DecodeEncode : (Instr.recMatch 258#9 32768#16).wf = true ∧ (Instr.symDist29 0x1FFF#13).wf = true := by
  decide

theorem witness_DecodedIsWellFormed : decode .micro [0x11#32, 255#32, 32767#32] = .ok (.recMatch 258#9 32768#16) := rfl

theorem witness_ReservedBitsIgnored : (0x0FFFFFFF#32).toNat / 2 ^ 28 = 0 ∧ (0x1FFFFFE0#32).toNat / 2 ^ 28 = 1 := by
  decide

theorem witness_ReservedOpcodeRejected :
    let s := asked (commandRequest [0x20000000#32]) midStream
    s.halt = none ∧ s.host.requests = commandRequest [0x20000000#32] :: []
    ∧ (commandRequest [0x20000000#32]).space = .command
    ∧ (commandRequest [0x20000000#32]).words = 0x20000000#32 :: [] ∧ 2 ≤ (0x20000000#32).toNat / 2 ^ 28 := by
  decide +kernel

theorem witness_StepRunsDecoded :
    let r := commandRequest [0x10000018#32, 1#32, 9#32]
    (asked r midStream).halt = none ∧ (asked r midStream).host.requests = r :: []
    ∧ decode r.space r.words = .ok (.compressNone true true 1#32 9#32) := ⟨rfl, rfl, rfl⟩

theorem witness_StepIdleOrStopped : midStream.halt = none ∧ midStream.host.requests = []
    ∧ (midStream.faulted .stageOverflow).halt ≠ none := by decide +kernel

theorem witness_PowerOnRejectsCompress :
    compressParts (.compressFinish true true 1#32 2#32) = some (4#3, true, true, 1#32, 2#32) := rfl

theorem witness_InitLeaves : midStream.halt = none := rfl

/-- One call for each condition of R252. -/
theorem witness_BadParamRejected :
    compressParts (.compressNone true true 0#32 0#32) = some (0#3, true, true, 0#32, 0#32)
    ∧ Rejected 0#3 true true 0#32 State.reset
    ∧ Rejected 1#3 true true 0#32 midStream
    ∧ Rejected 4#3 true true 0#32 (midStream.setCtl { midStream.ctl with prevStatus := .done })
    ∧ Rejected 3#3 true true 0#32 (midStream.setCtl { midStream.ctl with wantsFinish := true })
    ∧ Rejected 0#3 true false 0#32 midStream
    ∧ Rejected 0#3 false true 1#32 midStream
    ∧ (Instr.compress 7#3 true true 0#32 0#32).wf = true := by
  refine ⟨rfl, .inl rfl, .inr (.inl (by decide)), .inr (.inr (.inl (by decide))), .inr (.inr (.inr (.inl ⟨rfl, by decide⟩))),
    .inr (.inr (.inr (.inr (.inl (.inr ⟨rfl, rfl⟩))))), .inr (.inr (.inr (.inr (.inr ⟨rfl, by decide⟩)))), by decide⟩

/-- A call in mid-stream is accepted, whatever its flush mode. -/
theorem midStream_accepts (f : BitVec 3) (hf : f = 0 ∨ f = 2 ∨ f = 3 ∨ f = 4) :
    ¬ Rejected f true true 2#32 midStream := by
  have h1 : midStream.ctl.inited = true := rfl
  have h2 : midStream.ctl.prevStatus = .okay := rfl
  have h3 : midStream.ctl.wantsFinish = false := rfl
  have h4 : midStream.ctl.sinkMode = false := rfl
  unfold Rejected
  rw [h1, h2, h3, h4]
  rcases hf with rfl | rfl | rfl | rfl <;> decide

theorem witness_AcceptedStatus :
    compressParts (.compressFinish true true 2#32 9#32) = some (4#3, true, true, 2#32, 9#32)
    ∧ ¬ Rejected 4#3 true true 2#32 midStream
    ∧ nextHas (exec (.compressFinish true true 2#32 9#32) midStream) (fun _ => true) = true :=
  ⟨rfl, midStream_accepts _ (by decide), by decide +kernel⟩

theorem witness_ResponseBounds :
    compressParts (.compressSync true true 2#32 3#32) = some (2#3, true, true, 2#32, 3#32)
    ∧ Mem.wf midStream.host.outSlice
    ∧ nextHas (exec (.compressSync true true 2#32 3#32) midStream) (fun _ => true) = true := by decide +kernel

/-- Bytes pending up to the end of `stage`; and a finished stream with nothing pending. -/
theorem witness_DrainOnlyCall :
    let s := midStream.setDrv { midStream.drv with flushOfs := 85190, flushRemaining := 6 }
    let u := midStream.setCtl { midStream.ctl with finished := true }
    (s.halt = none ∧ ¬ Rejected (flushField .none) true true 2#32 s ∧ s.ctl.sinkMode = false
      ∧ Mem.wf s.host.outSlice ∧ s.drv.flushRemaining ≠ 0
      ∧ s.drv.flushOfs.toNat + s.drv.flushRemaining.toNat ≤ 85196)
    ∧ u.halt = none ∧ ¬ Rejected (flushField .finish) true true 2#32 u ∧ u.ctl.sinkMode = false
      ∧ Mem.wf u.host.outSlice ∧ u.ctl.finished = true ∧ u.drv.flushRemaining = 0
      ∧ u.drv.flushOfs.toNat + u.drv.flushRemaining.toNat ≤ 85196 :=
  ⟨⟨rfl, midStream_accepts _ (by decide), rfl, by decide +kernel, by decide +kernel, by decide +kernel⟩,
    rfl, midStream_accepts _ (by decide), rfl, by decide +kernel, rfl, rfl, by decide +kernel⟩

/-- The parse loop run instruction by instruction, at most `k` rounds. -/
def loopRun (fl : FlushMode) : Nat → State → Option State
  | 0, _ => none
  | k + 1, s =>
    if LoopGoesOn fl s then
      match runAll [.drvFill, .drvCatchup] s with
      | .next u =>
        if fl = .none ∧ u.drv.lookaheadSize.toNat < 258 then some u
        else
          match exec .drvParseStep u with
          | .next v =>
            if BlockFull v then
              match exec (.drvCloseBlock .none) v with
              | .next w =>
                if w.ctl.prevStatus = .putBufFailed ∨ w.drv.flushRemaining ≠ 0 then some w else loopRun fl k w
              | _ => none
            else loopRun fl k v
          | _ => none
      | _ => none
    else some s

/-- What the loop leaves is what R255 says. -/
theorem parsed_of_loopRun {fl : FlushMode} {k : Nat} {s t : State} (h : loopRun fl k s = some t) : Parsed fl s t := by
  induction k generalizing s with
  | zero => exact absurd h (by simp [loopRun])
  | succ k ih =>
    rw [loopRun] at h
    split at h
    · next hg =>
      split at h
      · next u hu =>
        split at h
        · next hs => exact Option.some.inj h ▸ .short ⟨hg, hu⟩ hs.1 hs.2
        · next hs =>
          split at h
          · next v hv =>
            have hst : Stepped fl s v := ⟨u, ⟨hg, hu⟩, fun hf => Nat.le_of_not_lt fun hl => hs ⟨hf, hl⟩, hv⟩
            split at h
            · next hb =>
              split at h
              · next w hw =>
                split at h
                · next hr => exact Option.some.inj h ▸ .full hst hb hw hr
                · next hr =>
                  have hr := not_or.1 hr
                  exact .closed hst hb hw hr.1 (not_not.1 hr.2) (ih h)
              · cases h
            · next hb => exact .round hst hb (ih h)
          · cases h
      · cases h
    · next hg => exact Option.some.inj h ▸ .done hg

/-- Does the end of the call complete, instruction by instruction? -/
def answerRun (w : State) : Bool :=
  nextHas (exec .drvDrain w) fun x =>
    nextHas (exec (if x.ctl.finished = true ∧ x.drv.flushRemaining = 0 then .statusDone else .statusOkay) x) fun _ => true

/-- Does the call complete, instruction by instruction, with no refusal of the sink? -/
def callRun (fl : FlushMode) (k : Nat) (s : State) : Bool :=
  match loopRun fl k s with
  | none => false
  | some u =>
    u.ctl.prevStatus != .putBufFailed
    && (if fl ≠ .none ∧ u.drv.lookaheadSize = 0 ∧ u.call.inLen.toNat ≤ u.call.srcPos.toNat ∧ u.drv.flushRemaining = 0 then
          fl == .finish && nextHas (exec (.drvCloseBlock .finish) u) (fun v => v.ctl.prevStatus != .putBufFailed
            && answerRun (v.setCtl { v.ctl with finished := true }))
        else answerRun u)

/-- Such a call is one R251 describes. -/
theorem callRuns_of_callRun {fl : FlushMode} {k : Nat} {s : State} (h : callRun fl k s = true) :
    ∃ t, CallRuns fl s t := by
  have answer : ∀ {w : State}, answerRun w = true → ∃ t, Answered w t := by
    intro w h
    obtain ⟨x, hx, h⟩ := nextHas_elim h
    obtain ⟨t, ht, -⟩ := nextHas_elim h
    exact ⟨t, x, hx, ht⟩
  unfold callRun at h
  split at h
  · cases h
  · next u hu =>
    obtain ⟨hp, h⟩ := Bool.and_eq_true_iff.1 h
    have hp : u.ctl.prevStatus ≠ .putBufFailed := by simpa using hp
    split at h
    · next hc =>
      obtain ⟨hf, h⟩ := Bool.and_eq_true_iff.1 h
      obtain rfl : fl = .finish := by simpa using hf
      obtain ⟨v, hv, h⟩ := nextHas_elim h
      obtain ⟨hq, h⟩ := Bool.and_eq_true_iff.1 h
      have hq : v.ctl.prevStatus ≠ .putBufFailed := by simpa using hq
      obtain ⟨t, ht⟩ := answer h
      refine ⟨t, u, parsed_of_loopRun hu, ?_⟩
      rw [if_neg hp]
      refine ⟨v.setCtl { v.ctl with finished := true }, ?_, by rw [if_neg]; exacts [ht, hq]⟩
      rw [Flushed, if_pos hc]
      exact ⟨v, hv, by rw [if_neg hq, if_pos rfl]⟩
    · next hc =>
      obtain ⟨t, ht⟩ := answer h
      refine ⟨t, u, parsed_of_loopRun hu, ?_⟩
      rw [if_neg hp]
      exact ⟨u, by rw [Flushed, if_neg hc], by rw [if_neg hp]; exact ht⟩

/-- A code buffer one record short of the threshold. -/
def fullStream : State := midStream.setLz { midStream.lz with lzCodeLen := 65528 }

theorem fullStream_driving : Driving 65528 fullStream := by
  have h := midStream_driving 65528 (by decide)
  exact ⟨h.canonical, h.window, h.ahead, h.mirror, ⟨by decide +kernel, by decide +kernel⟩, h.span, h.bits, h.staged,
    h.behind, h.pending, h.sink, h.held⟩

/-- Finish in mid-stream with one more byte of input; with a match held; and with a block that closes after the first
step, the slice having room. -/
theorem witness_calls :
    (∃ t, CallRuns .finish (callBegun .finish true true 2 100 (withInput [0x63, 0x61] midStream)) t)
    ∧ (∃ t, CallRuns .finish (callBegun .finish true true 2 100 heldStream) t)
    ∧ (∃ t, CallRuns .finish (callBegun .finish true true 2 100 fullStream) t)
    ∧ ∃ t, CallRuns .none (callBegun .none true true 2 100 midStream) t :=
  ⟨callRuns_of_callRun (k := 5) (by decide +kernel), callRuns_of_callRun (k := 5) (by decide +kernel),
    callRuns_of_callRun (k := 5) (by decide +kernel), callRuns_of_callRun (k := 5) (by decide +kernel)⟩

/-- The greatest input that leaves the lookahead short of 258 bytes; and calls that parse, commit and close. -/
theorem witness_NoneTakesInput :
    (midStream.halt = none ∧ Mem.wf midStream.win.dict ∧ ¬ Rejected 0 true true 2#32 midStream
    ∧ midStream.drv.flushRemaining = 0 ∧ midStream.ctl.finished = false ∧ lag midStream ≤ 258
    ∧ (255#32).toNat + midStream.drv.lookaheadSize.toNat < 258)
    ∧ (heldStream.halt = none ∧ Driving 65528 heldStream ∧ ¬ Rejected (flushField .finish) true true 2#32 heldStream
      ∧ heldStream.drv.flushRemaining = 0 ∧ heldStream.ctl.finished = false
      ∧ ∃ t, CallRuns .finish (callBegun .finish true true 2 100 heldStream) t)
    ∧ fullStream.halt = none ∧ Driving 65528 fullStream ∧ ¬ Rejected (flushField .finish) true true 2#32 fullStream
      ∧ fullStream.drv.flushRemaining = 0 ∧ fullStream.ctl.finished = false
      ∧ ∃ t, CallRuns .finish (callBegun .finish true true 2 100 fullStream) t :=
  ⟨⟨rfl, by decide +kernel, midStream_accepts _ (by decide), rfl, rfl, by decide +kernel, by decide +kernel⟩,
    ⟨rfl, heldStream_driving _ (by decide), midStream_accepts _ (by decide), rfl, rfl, witness_calls.2.1⟩,
    rfl, fullStream_driving, midStream_accepts _ (by decide), rfl, rfl, witness_calls.2.2.1⟩

/-- A stream just begun is between two blocks. -/
theorem fresh_quiet (flags : BitVec 20) : Quiet (fresh flags false) where
  running := rfl
  empty := rfl
  span := rfl
  records := ⟨rfl, rfl⟩
  counts := ⟨rfl, rfl⟩
  bits := ⟨show (0#6).toNat ≤ 7 by decide, show (0#32).toNat < 2 ^ (0#6).toNat by decide⟩
  stage := show Mem.wf ([] : Mem 8) by decide
  pending := rfl

/-- A stream just begun accepts a flush call of its mode. -/
theorem fresh_accepts (flags : BitVec 20) (sink : Bool) :
    ¬ Rejected (flushField (if sink then .finish else .full)) (!sink) (!sink) 0 (fresh flags sink) := by
  unfold Rejected
  rw [show (fresh flags sink).ctl.inited = true from rfl, show (fresh flags sink).ctl.prevStatus = .okay from rfl,
    show (fresh flags sink).ctl.wantsFinish = false from rfl, show (fresh flags sink).ctl.sinkMode = sink from rfl]
  cases sink <;> decide

/-- A stream just begun; a block with records, the lookahead empty; and a sink that refuses. -/
theorem witness_FlushClosesEmptyBlock :
    let r := midStream.setDrv { midStream.drv with lookaheadSize := 0 }
    let k := (fresh 0x00080 true).setHost { (fresh 0x00080 true).host with sinkAnswers := [false] }
    (Quiet (fresh 0x81000 false) ∧ FlushMode.full ≠ .none
      ∧ ¬ Rejected (flushField .full) true true 0 (fresh 0x81000 false) ∧ (fresh 0x81000 false).ctl.sinkMode = false
      ∧ Mem.wf (fresh 0x81000 false).host.outSlice ∧ (fresh 0x81000 false).ctl.finished = false ∧ 16 ≤ (16#32).toNat)
    ∧ (r.halt = none ∧ ¬ Rejected (flushField .sync) true true 0 r ∧ r.drv.lookaheadSize = 0
      ∧ r.drv.flushRemaining = 0 ∧ r.ctl.finished = false
      ∧ nextHas (exec (.drvCloseBlock .sync) (callBegun .sync true true 0 9 r)) (fun u => u.ctl.prevStatus == .okay) = true)
    ∧ k.halt = none ∧ ¬ Rejected (flushField .finish) false false 0 k ∧ k.drv.lookaheadSize = 0
      ∧ k.drv.flushRemaining = 0 ∧ k.ctl.finished = false
      ∧ nextHas (exec (.drvCloseBlock .finish) (callBegun .finish false false 0 0 k))
          (fun u => u.ctl.prevStatus == .putBufFailed) = true := by
  refine ⟨⟨fresh_quiet _, by decide, fresh_accepts 0x81000 false, rfl, by decide +kernel, rfl, by decide⟩,
    ⟨rfl, ?_, rfl, rfl, rfl, by decide +kernel⟩, rfl, fresh_accepts 0x00080 true, rfl, rfl, rfl, by decide +kernel⟩
  have h : Rejected (flushField .sync) true true 0 midStream → False := by
    unfold Rejected
    rw [show midStream.ctl.inited = true from rfl, show midStream.ctl.prevStatus = .okay from rfl,
      show midStream.ctl.wantsFinish = false from rfl, show midStream.ctl.sinkMode = false from rfl]
    decide
  exact h

/-- Bytes read from an empty slice are zeros. -/
theorem readRun_nil (a n : Nat) : Mem.readRun ([] : Mem 8) a n = List.replicate n 0 := by
  induction n generalizing a with
  | zero => rfl
  | succ n ih => exact congrArg (List.cons 0) (ih (a + 1))

/-- The longest input, of 31744 bytes, all of them zero. -/
theorem witness_ForcedRawVerbatim :
    midStream.halt = none ∧ Mem.wf midStream.win.dict ∧ Mem.wf midStream.enc.stage ∧ Mem.wf midStream.host.outSlice
    ∧ 31744 ≤ 31744 ∧ 31744 + 5 ≤ (31749#32).toNat
    ∧ (∀ l ∈ naturalOf (literalCounts (Mem.readRun midStream.host.inSlice 0 31744)) 288, l ≤ 32)
    ∧ (0x80000#20).getLsbD 19 = true ∧ (0x80000#20).getLsbD 12 = false
    ∧ exec (.init 0x80000 false) midStream = .next (opInit 0x80000 false midStream) := by
  refine ⟨rfl, by decide +kernel, by decide +kernel, by decide +kernel, by decide, by decide, ?_, by decide, by decide, rfl⟩
  have h : literalCounts (Mem.readRun midStream.host.inSlice 0 31744) = [(0, 31744#16), (256, 1#16)] := by
    rw [show midStream.host.inSlice = [] from rfl, readRun_nil]
    unfold literalCounts
    simp only [List.countP_replicate]
    decide +kernel
  rw [h]
  decide +kernel

theorem witness_DictWriteStores : midStream.halt = none ∧ Mem.wf midStream.win.dict := ⟨rfl, by decide +kernel⟩

/-- The last position that may be inserted, and the one farthest behind. -/
theorem witness_DictInsertLinks :
    let behind := fun q => (midStream.drv.lookaheadPos + midStream.drv.lookaheadSize.setWidth 32 - q).toNat
    midStream.halt = none ∧ Mem.wf midStream.win.head ∧ Mem.wf midStream.win.next
    ∧ 3 ≤ behind 2#32 ∧ behind 2#32 < 2 ^ 31
    ∧ 3 ≤ behind (5#32 - 0x7FFFFFFF#32) ∧ behind (5#32 - 0x7FFFFFFF#32) < 2 ^ 31 := by decide +kernel

/-- The whole window searched; two bytes, and no more than the prior length, and no budget, at a position far outside it;
and the longest search of all. -/
theorem witness_DictFindSound :
    let off := fun (s : State) (p : BitVec 32) => (p - (s.drv.lookaheadPos - s.drv.dictSize.setWidth 32)).toNat
    let u := midStream.setDrv { midStream.drv with dictSize := 511 }
    (midStream.halt = none ∧ (3#16).toNat ≤ off midStream 3#32
      ∧ off midStream 3#32 + (2#9).toNat ≤ midStream.drv.dictSize.toNat + midStream.drv.lookaheadSize.toNat
      ∧ Mirrored midStream.win.dict ∧ (2#9).toNat ≤ 258)
    ∧ (off midStream 0x80000000#32 > midStream.drv.dictSize.toNat + midStream.drv.lookaheadSize.toNat
      ∧ (2#9).toNat < 3 ∧ (258#9).toNat ≤ (258#9).toNat ∧ (fresh 0 false).ctl.maxProbes = 0)
    ∧ u.halt = none ∧ (2#16).toNat ≤ off u (u.drv.lookaheadPos - 509)
      ∧ off u (u.drv.lookaheadPos - 509) + (511#9).toNat ≤ u.drv.dictSize.toNat + u.drv.lookaheadSize.toNat
      ∧ 258 < (511#9).toNat :=
  ⟨⟨rfl, by decide +kernel, by decide +kernel, midStream_mirrored, by decide⟩,
    ⟨by decide +kernel, by decide, by decide, rfl⟩, rfl, by decide +kernel, by decide +kernel, by decide⟩

theorem witness_DictRleCounts :
    midStream.halt = none ∧ Mirrored midStream.win.dict ∧ midStream.drv.dictSize ≠ 0
    ∧ (258#9).toNat ≤ 258 ∧ ¬ (259#9).toNat ≤ 258 := ⟨rfl, midStream_mirrored, by decide +kernel, by decide, by decide⟩

theorem witness_DictResetForgets : midStream.halt = none := rfl

/-- The last byte of `lz_code` and the last flag bit that may be written. -/
theorem witness_RecLitAppends :
    let s := midStream.setLz { midStream.lz with lzCodeLen := 65528, lzOpCount := 65535 }
    s.halt = none ∧ Mem.wf s.lz.lzCode ∧ Mem.wf s.lz.lzFlags ∧ Mem.wf s.huf.litLen.count
    ∧ s.lz.lzCodeLen.toNat ≤ 65528 ∧ s.lz.lzOpCount.toNat < 65536 := by decide +kernel

theorem witness_RecMatchAppends :
    let s := midStream.setLz { midStream.lz with lzCodeLen := 65528, lzOpCount := 65535 }
    s.halt = none ∧ Mem.wf s.lz.lzCode ∧ Mem.wf s.lz.lzFlags ∧ Mem.wf s.huf.litLen.count ∧ Mem.wf s.huf.dist.count
    ∧ 3 ≤ (258#9).toNat ∧ (258#9).toNat ≤ 258 ∧ 1 ≤ (32768#16).toNat ∧ (32768#16).toNat ≤ 32768
    ∧ s.lz.lzCodeLen.toNat ≤ 65528 ∧ s.lz.lzOpCount.toNat < 65536 := by decide +kernel

theorem witness_SymbolRanges : 3 ≤ 258 ∧ 258 ≤ 258 ∧ 1 ≤ 32768 ∧ 32768 ≤ 32768 := by decide

theorem witness_HufSortStable : midStream.halt = none := rfl

/-- Two symbols, one, none. -/
theorem witness_HufMinredKraft :
    let s := fun l => midStream.setWork { midStream.work with lengths := l }
    (s []).halt = none ∧ 2 ≤ (s [1, 1]).work.lengths.length ∧ (s [7]).work.lengths.length = 1 := by decide +kernel

/-- A code whose longest length is 32, to be limited to 15; and a single symbol. -/
theorem witness_HufLimitKraft :
    let l := (List.range 32).map (fun j => j + 1) ++ [32]
    midStream.halt = none ∧ (∀ x ∈ l, x ≤ 32) ∧ 2 ≤ l.length ∧ l.length ≤ 2 ^ limitValue .fifteen
    ∧ (l.map fun x => 2 ^ (32 - x)).sum = 2 ^ 32 ∧ [1].length ≤ 1 := by decide +kernel

theorem witness_HufAssignSizesDeals :
    let s := midStream.setWork { midStream.work with sym := [⟨1, 0x63⟩, ⟨2, 287⟩], num := [0, 2] }
    s.halt = none ∧ (s.work.sym.map fun x => x.sym).Nodup ∧ (∀ x ∈ s.work.sym, x.sym < numSyms .litLen)
    ∧ ((List.range (codeLimit .litLen)).map fun j => arrAt s.work.num (j + 1)).sum = s.work.sym.length := by
  decide +kernel

/-- Two codes of length 1: the Kraft sum is exactly 1. -/
theorem witness_HufAssignCodesPrefixFree :
    let s := midStream.setTable .codeLen { count := [], size := [(0, 1#8), (18, 1#8)], code := [] }
    s.halt = none ∧ Mem.wf (s.huf.get .codeLen).size
    ∧ (∀ a < numSyms .codeLen, (Mem.read (s.huf.get .codeLen).size a).toNat ≤ codeLimit .codeLen)
    ∧ kraftOf (s.huf.get .codeLen).size (numSyms .codeLen) (codeLimit .codeLen) ≤ 2 ^ codeLimit .codeLen := by
  decide +kernel

theorem witness_HufBuildValid :
    let s := midStream.setTable .dist { count := [(0, 5#16), (29, 65531#16)], size := [], code := [] }
    s.halt = none ∧ Mem.wf (s.huf.get .dist).count ∧ ∀ l ∈ naturalLengths .dist s, l ≤ 32 := by decide +kernel

theorem witness_HufLoadStaticTables : midStream.halt = none := rfl

/-- The last field that fits `stage`, for PUT_BITS; a record, a header, the marker and the trailer after the fixed tables,
with 7 bits pending; and PUT_BITS outside its range, in its width and in its value. -/
theorem witness_EmittersAppend :
    let s := midStream.setEnc { midStream.enc with stagePos := 85194 }
    let u := opHufLoadStatic ((fresh 0x01080 false).setEnc { (fresh 0x01080 false).enc with bitsIn := 7 })
    let takes := fun i fs => fixedFields u i = some fs ∧ FieldsFit fs ∧ u.enc.TakesBits fs
    (s.halt = none ∧ fixedFields s (.encPutBits 0xFFFF#16 16#5) = some [(0xFFFF, 16)] ∧ FieldsFit [(0xFFFF, 16)]
      ∧ s.enc.TakesBits [(0xFFFF, 16)])
    ∧ u.halt = none ∧ takes (.matchRec 255#8 32767#15) (matchFields u 255 32767) ∧ takes (.blockDynamic true) [(1, 1), (2, 2)]
    ∧ takes .encSyncMark (markerFields 7) ∧ takes .encTrailer ((0, 1) :: trailerFields u.ctl)
    ∧ takes .encZlibHdr [(0x78, 8), (Config.zlibFlg.toNat, 8)]
    ∧ ¬ FieldsFit [((4#16).toNat, (2#5).toNat)] ∧ ¬ FieldsFit [((0#16).toNat, (31#5).toNat)]
    ∧ u.enc.TakesBits [((0#16).toNat, (31#5).toNat)] := by
  refine ⟨⟨rfl, rfl, by unfold FieldsFit; decide, by unfold Encoder.TakesBits Encoder.Sound; decide +kernel⟩, rfl,
    ⟨rfl, by unfold FieldsFit; decide +kernel, by unfold Encoder.TakesBits Encoder.Sound; decide +kernel⟩,
    ⟨rfl, by unfold FieldsFit; decide, by unfold Encoder.TakesBits Encoder.Sound; decide +kernel⟩,
    ⟨rfl, by unfold FieldsFit; decide, by unfold Encoder.TakesBits Encoder.Sound; decide +kernel⟩,
    ⟨rfl, by unfold FieldsFit; decide +kernel, by unfold Encoder.TakesBits Encoder.Sound; decide +kernel⟩,
    ⟨rfl, ?_, by unfold Encoder.TakesBits Encoder.Sound; decide +kernel⟩,
    by unfold FieldsFit; decide, by unfold FieldsFit; decide, by unfold Encoder.TakesBits Encoder.Sound; decide +kernel⟩
  intro f hf
  rcases List.mem_cons.1 hf with rfl | hf
  · decide
  · rw [List.mem_singleton.1 hf]
    exact ⟨by decide, Config.zlibFlg.isLt⟩

/-- A code of 15 bits with 13 extra bits; and a code that does not fit its length. -/
theorem witness_SymbolsAppend :
    let s := midStream.setTable .dist { count := [], size := [(29, 15#8)], code := [(29, 0x7FFF#16)] }
    let u := midStream.setTable .dist { count := [], size := [(29, 15#8)], code := [(29, 0x8000#16)] }
    s.halt = none ∧ (Instr.symDist29 0x1FFF#13).wf = true ∧ symbolParts (.symDist29 0x1FFF#13) = some (.dist, 29, 0x1FFF, 13)
    ∧ FieldsFit [codeField s .dist 29] ∧ s.enc.TakesBits [codeField s .dist 29, (0x1FFF, 13)]
    ∧ u.enc.TakesBits [codeField u .dist 29, (0x1FFF, 13)] ∧ ¬ FieldsFit [codeField u .dist 29] :=
  ⟨rfl, rfl, rfl, by unfold FieldsFit; decide +kernel, by unfold Encoder.TakesBits Encoder.Sound; decide +kernel,
    by unfold Encoder.TakesBits Encoder.Sound; decide +kernel, by unfold FieldsFit; decide +kernel⟩

theorem witness_StageOverflowFaults :
    let s := midStream.setEnc { midStream.enc with stagePos := 85196, bitsIn := 7 }
    s.halt = none ∧ (1#5).toNat ≤ 16 ∧ (1#16).toNat < 2 ^ (1#5).toNat ∧ s.enc.bitsIn.toNat ≤ 7
    ∧ 8 ≤ s.enc.bitsIn.toNat + (1#5).toNat ∧ 85196 ≤ s.enc.stagePos.toNat := by decide +kernel

theorem witness_StoredAppends :
    midStream.halt = none ∧ midStream.enc.TakesBits (storedFields 0 [0x61, 0x62, 0x63]) :=
  ⟨rfl, by unfold Encoder.TakesBits Encoder.Sound; decide +kernel⟩

theorem witness_StaticHeaderAppends : midStream.halt = none ∧ midStream.enc.TakesBits [(1, 2)] :=
  ⟨rfl, by unfold Encoder.TakesBits Encoder.Sound; decide +kernel⟩

theorem witness_DynamicHeaderAppends :
    let s := (midStream.setTable .codeLen { count := [], size := [(1, 1#8), (18, 1#8)], code := [(18, 1#16)] }).setWork
      { midStream.work with numLitCodes := 286, numDistCodes := 30, numBitLengths := 19, packed := [⟨1, 0⟩, ⟨18, 127⟩] }
    s.halt = none ∧ FieldsFit (dynamicFields s) ∧ s.enc.TakesBits (dynamicFields s) :=
  ⟨rfl, by unfold FieldsFit; decide +kernel, by unfold Encoder.TakesBits Encoder.Sound; decide +kernel⟩

theorem witness_PayloadAppends :
    let s := opHufLoadStatic (opRecMatch 258#9 32768#16 midStream)
    s.halt = none ∧ s.lz.lzOpCount.toNat ≤ 65536 ∧ recordsEnd s s.lz.lzOpCount.toNat 0 0 = 6
    ∧ FieldsFit (recordFields s s.lz.lzOpCount.toNat 0 0 ++ [codeField s .litLen 256])
    ∧ s.enc.TakesBits (recordFields s s.lz.lzOpCount.toNat 0 0 ++ [codeField s .litLen 256]) :=
  ⟨by decide +kernel, by decide +kernel, by decide +kernel, by unfold FieldsFit; decide +kernel,
    by unfold Encoder.TakesBits Encoder.Sound; decide +kernel⟩

theorem witness_ClPlanExpands :
    let s := midStream.setHuf { midStream.huf with
      litLen := { count := [], size := [(0, 15#8), (256, 1#8), (285, 15#8)], code := [] } }
    s.halt = none ∧ (∀ a < 286, (Mem.read s.huf.litLen.size a).toNat ≤ 15)
    ∧ ∀ a < 30, (Mem.read s.huf.dist.size a).toNat ≤ 15 := by decide +kernel

theorem witness_CostFormulas :
    midStream.halt = none ∧ Mem.wf midStream.huf.litLen.count ∧ Mem.wf midStream.huf.dist.count
    ∧ Mem.wf midStream.huf.codeLen.count := ⟨rfl, by decide +kernel, by decide +kernel, by decide +kernel⟩

/-- A block in the window and one out of it, with each force flag. -/
theorem witness_BlockTypeChoice :
    let out := midStream.setDrv { midStream.drv with dictSize := 2 }
    (midStream.drv.lookaheadPos - midStream.drv.blockStartPos).toNat ≤ midStream.drv.dictSize.toNat
    ∧ ¬ (out.drv.lookaheadPos - out.drv.blockStartPos).toNat ≤ out.drv.dictSize.toNat
    ∧ midStream.ctl.forceRaw = false ∧ midStream.ctl.forceStatic = false
    ∧ (fresh 0x80000 false).ctl.forceRaw = true ∧ (fresh 0x40000 false).ctl.forceStatic = true := by decide +kernel

theorem witness_FillMovesInput : midStream.halt = none ∧ Mem.wf midStream.win.dict := ⟨rfl, by decide +kernel⟩

theorem witness_AdlerAdvances : midStream.halt = none := rfl

theorem witness_CatchupInserts :
    let s := midStream.setDrv { midStream.drv with insPos := midStream.drv.lookaheadPos - 258 }
    s.halt = none ∧ lag s ≤ 258 := by decide +kernel

theorem witness_ParseStepAdvances :
    midStream.halt = none ∧ Driving 65528 midStream ∧ midStream.drv.lookaheadSize ≠ 0
    ∧ lag midStream ≤ 2 - midStream.drv.lookaheadSize.toNat :=
  ⟨rfl, midStream_driving _ (by decide), by decide +kernel, by decide +kernel⟩

/-- A state in mid-stream, and one with a match held. -/
theorem witness_ParseStepDecides :
    (midStream.halt = none ∧ Driving 65528 midStream ∧ midStream.drv.lookaheadSize ≠ 0 ∧ midStream.drv.savedLen = 0)
    ∧ heldStream.halt = none ∧ Driving 65528 heldStream ∧ heldStream.drv.lookaheadSize ≠ 0 ∧ heldStream.drv.savedLen ≠ 0 :=
  ⟨⟨rfl, midStream_driving _ (by decide), by decide +kernel, by decide +kernel⟩,
    rfl, heldStream_driving _ (by decide), by decide +kernel, by decide +kernel⟩

/-- The steps of a block with the three records of `midStream` complete, for each flush mode. -/
theorem witness_staged (fl : FlushMode) : ∃ u, BlockStaged fl midStream u := by
  have h : nextHas (runAll (headInstrs fl midStream)
      ((midStream.setEnc { midStream.enc with stagePos := 0 }).setDrv { midStream.drv with flushOfs := 0 })) (fun a =>
        nextHas (runAll [.hufBuild .litLen, .hufBuild .dist, .encClPlan, .encCost]
          (a.setTable .litLen { a.huf.litLen with count := Mem.write a.huf.litLen.count 256 1 })) fun b =>
            nextHas (runAll (bodyInstrs (chooseType b) ++ tailInstrs fl) b) fun _ => true) = true := by
    cases fl <;> decide +kernel
  obtain ⟨a, ha, h⟩ := nextHas_elim h
  obtain ⟨b, hb, h⟩ := nextHas_elim h
  obtain ⟨u, hu, -⟩ := nextHas_elim h
  exact ⟨u, a, b, ha, hb, hu⟩

/-- A stream just begun, with room for the block; and a block with records. -/
theorem witness_CloseBlockDelivers :
    let s := (fresh 0x01080 false).setCall { (fresh 0x01080 false).call with outCap := 16 }
    (Quiet s ∧ s.ctl.sinkMode = false ∧ Mem.wf s.host.outSlice ∧ s.call.outOfs.toNat + 16 ≤ s.call.outCap.toNat)
    ∧ midStream.drv.flushRemaining = 0 ∧ ∃ u, BlockStaged .finish midStream u :=
  ⟨⟨⟨rfl, rfl, rfl, ⟨rfl, rfl⟩, ⟨rfl, rfl⟩, ⟨by decide +kernel, by decide +kernel⟩, by decide +kernel, rfl⟩, rfl,
    by decide +kernel, by decide +kernel⟩, rfl, witness_staged _⟩

theorem witness_CloseBlockBooks :
    nextHas (exec (.drvCloseBlock .none) midStream) (fun t => t.lz.lzOpCount == 0) = true := by decide +kernel

/-- A slice with room for all the bytes, and one with room for none. -/
theorem witness_CloseBlockSuspends :
    let s := midStream.setCall { midStream.call with outCap := 100, outOfs := 0 }
    s.ctl.sinkMode = false ∧ Mem.wf s.host.outSlice ∧ s.call.outOfs.toNat ≤ s.call.outCap.toNat
    ∧ nextHas (exec (.drvCloseBlock .sync) s) (fun t => t.drv.flushRemaining == 0) = true
    ∧ nextHas (exec (.drvCloseBlock .sync) midStream) (fun t => t.drv.flushRemaining != 0) = true := by decide +kernel

/-- A sink that refuses and one that accepts. -/
theorem witness_SinkRefusalRaises :
    let s := fun a => (fresh 0x00080 true).setHost { (fresh 0x00080 true).host with sinkAnswers := [a, true] }
    (s false).ctl.sinkMode = true ∧ (s false).host.sinkAnswers = false :: [true]
    ∧ nextHas (exec (.drvCloseBlock .finish) (s false))
        (fun t => t.enc.stagePos != 0 && t.ctl.prevStatus == .putBufFailed) = true
    ∧ nextHas (exec (.drvCloseBlock .finish) (s true)) (fun t => t.enc.stagePos != 0 && t.ctl.prevStatus == .okay) = true := by
  decide +kernel

theorem witness_DrainCopies :
    let s := (midStream.setDrv { midStream.drv with flushOfs := 85190, flushRemaining := 6 }).setCall
      { midStream.call with outCap := 4, outOfs := 0 }
    s.halt = none ∧ s.ctl.sinkMode = false ∧ Mem.wf s.host.outSlice ∧ s.call.outOfs.toNat ≤ s.call.outCap.toNat
    ∧ s.drv.flushOfs.toNat + s.drv.flushRemaining.toNat ≤ 85196 ∧ (fresh 0 true).ctl.sinkMode = true := by
  decide +kernel

theorem witness_StatusRows : midStream.halt = none := rfl

theorem witness_StepKeepsCanonical :
    midStream.Canonical ∧ step midStream = .next midStream
    ∧ nextHas (step (asked (commandRequest [0x10000018#32, 1#32, 9#32]) midStream))
        (fun t => t.drv.lookaheadSize == 3) = true := ⟨midStream_canonical, rfl, by decide +kernel⟩

theorem witness_StepKeepsBitsAndMirror :
    let s := asked (commandRequest [0x10000018#32, 1#32, 9#32]) midStream
    (Mem.wf s.win.dict ∧ s.enc.Sound ∧ Mirrored s.win.dict ∧ s.ctl.maxProbes = probesOf s.ctl.flags
      ∧ (s.ctl.sinkMode = true → s.drv.flushRemaining = 0))
    ∧ nextHas (step s) (fun t => t.drv.lookaheadSize == 3) = true :=
  ⟨⟨by decide +kernel, ⟨by decide +kernel, by decide +kernel⟩, midStream_mirrored, by decide +kernel,
    fun _ => by decide +kernel⟩, by decide +kernel⟩

theorem witness_CommandKeepsDriving :
    let s := asked (commandRequest [0x1000001C#32, 1#32, 9#32]) midStream
    Driving 65528 s ∧ RecordsHeld s ∧ (∀ r ∈ s.host.requests.head?, r.space = .command)
    ∧ nextHas (step s) (fun t => t.ctl.wantsFinish) = true := by
  have h := midStream_driving 65528 (by decide)
  exact ⟨⟨h.canonical, h.window, h.ahead, h.mirror, h.recorded, h.span, h.bits, h.staged, h.behind, h.pending, h.sink,
    h.held⟩, ⟨by decide +kernel, by decide +kernel, by decide +kernel, by decide +kernel⟩, by decide +kernel,
    by decide +kernel⟩

theorem witness_FlagsFixedForStream :
    (∀ flags sink, Instr.drvAdler 0x61#8 ≠ .init flags sink)
    ∧ nextHas (exec (.drvAdler 0x61#8) midStream) (fun _ => true) = true :=
  ⟨fun _ _ => Instr.noConfusion, by decide +kernel⟩

theorem witness_OnlyListedPartsChange :
    nextHas (exec (.drvParseStep) midStream) (fun t => t.lz.lzOpCount == 4) = true
    ∧ UnitName.win ∉ writes .drvParseStep := by decide +kernel

/-- One operand or state for each clause, at the edge. -/
theorem witness_PreconditionsRefused :
    midStream.halt = none
    ∧ (midStream.drv.lookaheadPos + midStream.drv.lookaheadSize.setWidth 32 - 3#32).toNat < 3
    ∧ 2 ^ 31 ≤ (midStream.drv.lookaheadPos + midStream.drv.lookaheadSize.setWidth 32 - (5#32 - 0x80000000#32)).toNat
    ∧ midStream.ctl.maxProbes ≠ 0 ∧ 3 ≤ (3#9).toNat ∧ (2#9).toNat < (3#9).toNat
    ∧ (3#32 - (midStream.drv.lookaheadPos - midStream.drv.dictSize.setWidth 32)).toNat < (4#16).toNat
    ∧ midStream.drv.dictSize.toNat + midStream.drv.lookaheadSize.toNat
        < (3#32 - (midStream.drv.lookaheadPos - midStream.drv.dictSize.setWidth 32)).toNat + (3#9).toNat
    ∧ State.reset.drv.dictSize = 0
    ∧ 65528 < (65529#17).toNat ∧ 65536 ≤ (65536#17).toNat
    ∧ (Instr.recMatch 3#9 0#16).wf = false ∧ (Instr.recMatch 3#9 1#16).wf = true
    ∧ (∃ l ∈ [33], 32 < l) ∧ State.reset.work.sym = [] ∧ arrAt [0, 1] 1 ≠ 0
    ∧ State.reset.drv.lookaheadSize = 0 ∧ (1#17 : BitVec 17) ≠ 0 := by
  decide +kernel

/-- 65537 records; and pending bytes that reach one byte beyond `stage`. -/
theorem witness_ReadsBeyondMemoriesFault :
    let s := (midStream.setDrv { midStream.drv with flushOfs := 85196, flushRemaining := 1 }).setCall
      { midStream.call with outCap := 1, outOfs := 0 }
    s.halt = none ∧ s.ctl.sinkMode = false
    ∧ 0 < min (s.call.outCap.toNat - s.call.outOfs.toNat) s.drv.flushRemaining.toNat
    ∧ 85196 < s.drv.flushOfs.toNat + min (s.call.outCap.toNat - s.call.outOfs.toNat) s.drv.flushRemaining.toNat := by
  decide +kernel

end Sys2Proof.Tests
end

/-! The rules of `fetch` and `step`, and the statement of the scope family that rests on them. -/

namespace Sys2Proof.Proofs

open Sys2Proof Sys2Proof.Machine

/-- With a request pending, `fetch` takes the oldest one and presents its slices and sink answers (log entries 3, 12). -/
theorem fetch_of_requests {s : State} {r : Request} {rest : List Request} (hreq : s.host.requests = r :: rest) :
    fetch s = some (r, s.setHost { s.host with
      requests := rest, inSlice := r.input, outSlice := r.output, sinkAnswers := r.answers }) := by
  simp only [fetch, hreq]

/-- A running instance runs the instruction a fetched request decodes to, on the state the fetch leaves. -/
theorem step_of_fetch_decode {s t : State} {r : Request} {i : Instr} (hrun : s.halt = none)
    (hfetch : fetch s = some (r, t)) (hdec : decode r.space r.words = .ok i) : step s = exec i t := by
  simp only [step, hrun, hfetch, hdec]

/-- Settles O6: the fetch rule gives the request and the state, the step rule runs what its words decode to. -/
theorem stepRunsDecoded : Obligations.StepRunsDecoded := by
  unfold Obligations.StepRunsDecoded
  intro s r rest i hrun hreq hdec
  exact step_of_fetch_decode hrun (fetch_of_requests hreq) hdec

end Sys2Proof.Proofs

/-! The memory family: what a call writes of the host's slice, what a drain or a flush leaves, where a read faults. -/

namespace Sys2Proof.Proofs.HostCalls

open Sys2Proof Sys2Proof.Machine Sys2Proof.Laws

/-- From `s` to `t` the host's side, the per-call registers and what the call reads of the control registers stayed. -/
structure HostKept (s t : State) : Prop where
  call : t.call = s.call
  host : t.host = s.host
  sink : t.ctl.sinkMode = s.ctl.sinkMode
  prev : t.ctl.prevStatus = s.ctl.prevStatus

theorem HostKept.trans {s t u : State} (h : HostKept s t) (h' : HostKept t u) : HostKept s u :=
  ⟨h'.call.trans h.call, h'.host.trans h.host, h'.sink.trans h.sink, h'.prev.trans h.prev⟩

/-- From `s` to `t` only what DRV.CLOSE_BLOCK writes before the hand-over changed (R265), and a stop on its way stayed. -/
structure Staging (s t : State) : Prop where
  win : t.win = s.win
  call : t.call = s.call
  host : t.host = s.host
  ctl : t.ctl = { s.ctl with blockIndex := t.ctl.blockIndex }
  drv : t.drv = { s.drv with flushOfs := t.drv.flushOfs, blockStartPos := t.drv.blockStartPos }
  stopped : ∀ q, s.halt = some q → t.halt = some q

namespace Staging

variable {s t u : State}

theorem refl (s : State) : Staging s s := ⟨rfl, rfl, rfl, rfl, rfl, fun _ h => h⟩

theorem trans (h : Staging s t) (h' : Staging t u) : Staging s u where
  win := h'.win.trans h.win
  call := h'.call.trans h.call
  host := h'.host.trans h.host
  ctl := by rw [h'.ctl, h.ctl]
  drv := by rw [h'.drv, h.drv]
  stopped := fun q hq => h'.stopped q (h.stopped q hq)

theorem hostKept (h : Staging s t) : HostKept s t := ⟨h.call, h.host, by rw [h.ctl], by rw [h.ctl]⟩

theorem setEnc (s : State) (e : Encoder) : Staging s (s.setEnc e) := ⟨rfl, rfl, rfl, rfl, rfl, fun _ h => h⟩

theorem setHuf (s : State) (v : Huffman) : Staging s (s.setHuf v) := ⟨rfl, rfl, rfl, rfl, rfl, fun _ h => h⟩

theorem setLz (s : State) (v : Recorder) : Staging s (s.setLz v) := ⟨rfl, rfl, rfl, rfl, rfl, fun _ h => h⟩

theorem setWork (s : State) (v : Work) : Staging s (s.setWork v) := ⟨rfl, rfl, rfl, rfl, rfl, fun _ h => h⟩

theorem drawn (s : State) : Staging s s.drawn := ⟨rfl, rfl, rfl, rfl, rfl, fun _ h => h⟩

theorem stop (s : State) (r : Stop) : Staging s (s.stop r) :=
  ⟨by simp, by simp, by simp, by simp, by simp, fun q h => by rwa [stop_of_stopped h r]⟩

/-- A loop over a list stages when each of its rounds does. -/
theorem foldl {α : Type} {f : State → α → State} (hf : ∀ s x, Staging s (f s x)) (l : List α) (s : State) :
    Staging s (l.foldl f s) := by
  induction l generalizing s with
  | nil => exact refl s
  | cons x l ih => exact (hf s x).trans (ih (f s x))

end Staging

/-! The emitters. -/

theorem emitBytes_staging (k : Nat) (s : State) : Staging s (emitBytes k s) := by
  induction k generalizing s with
  | zero => exact .refl s
  | succ k ih =>
    unfold emitBytes
    split
    · exact .refl s
    · split
      · exact (Staging.setEnc s _).trans (ih _)
      · exact .stop s _

theorem putField_staging (v n : Nat) (s : State) : Staging s (putField v n s) :=
  (Staging.setEnc s _).trans (emitBytes_staging 8 _)

theorem putFree_staging (i n : Nat) (s : State) : Staging s (putFree i n s) := by
  induction n generalizing i s with
  | zero => exact .refl s
  | succ n ih => exact (putField_staging _ 1 s).trans (ih (i + 1) _)

theorem putBits_staging (v n : Nat) (s : State) : Staging s (putBits v n s) := by
  unfold putBits
  split
  · exact putField_staging v n s
  · exact (putFree_staging 0 n s).trans (.drawn _)

theorem opEncPad_staging (s : State) : Staging s (opEncPad s) := by
  unfold opEncPad
  split
  · exact .refl s
  · exact putBits_staging _ _ s

theorem putCode_staging (t : Table) (sym : Nat) (s : State) : Staging s (putCode t sym s) := putBits_staging _ _ s

theorem putSymbol_staging (t : Table) (sym x n : Nat) (s : State) : Staging s (putSymbol t sym x n s) :=
  (putCode_staging t sym s).trans (putBits_staging x n _)

theorem putMatch_staging (l3 d1 : Nat) (s : State) : Staging s (putMatch l3 d1 s) :=
  (putSymbol_staging .litLen _ _ _ s).trans (putSymbol_staging .dist _ _ _ _)

theorem putRecords_staging (n k pos : Nat) (s : State) : Staging s (putRecords n k pos s) := by
  induction n generalizing k pos s with
  | zero => exact .refl s
  | succ n ih =>
    unfold putRecords
    split
    · exact .stop s _
    · split
      · split
        · exact (putMatch_staging _ _ s).trans (ih _ _ _)
        · exact .stop s _
      · split
        · exact (putCode_staging .litLen _ s).trans (ih _ _ _)
        · exact .stop s _

theorem opEncPayload_staging (s : State) : Staging s (opEncPayload s) :=
  (putRecords_staging _ 0 0 s).trans (putCode_staging .litLen 256 _)

/-! ENC.PAYLOAD beyond the memories. -/

/-- A MATCH record's four fields are appended when they fit (R106, R220). -/
theorem putMatch_spec (l3 d1 : Nat) (s : State) (hf : FieldsFit (matchFields s l3 d1))
    (ht : s.enc.TakesBits (matchFields s l3 d1)) :
    ∃ e, putMatch l3 d1 s = s.setEnc e ∧ s.enc.Appended (matchFields s l3 d1) e := by
  set s0 := lenSym (l3 + 3) with hs0
  set s1 := distSym (d1 + 1) with hs1
  have hsplit : matchFields s l3 d1 = [codeField s .litLen s0, (l3 % 2 ^ lenExtra s0, lenExtra s0)]
      ++ [codeField s .dist s1, (d1 % 2 ^ distExtra s1, distExtra s1)] := rfl
  rw [hsplit] at hf ht ⊢
  obtain ⟨e1, h1, a1⟩ := putSymbol_spec .litLen s0 (maskBits l3 (lenExtra s0)) (lenExtra s0) s
    (fun f hm => hf f (List.mem_append_left _ hm)) (takes_left ht)
  obtain ⟨e2, h2, a2⟩ := putSymbol_spec .dist s1 (maskBits d1 (distExtra s1)) (distExtra s1) (s.setEnc e1)
    (fun f hm => hf f (List.mem_append_right _ hm)) (takes_right ht a1)
  exact ⟨e2, by simp only [putMatch, ← hs0, ← hs1, h1, h2, setEnc_setEnc], appended_trans a1 a2⟩

/-- What the record loop reads, the flags and the codes, no emitted bit changes. -/
theorem recordFields_setEnc (s : State) (e : Encoder) (n k pos : Nat) :
    recordFields (s.setEnc e) n k pos = recordFields s n k pos := by
  induction n generalizing k pos with
  | zero => rfl
  | succ n ih => simp only [recordFields, ih]; rfl

theorem recordsEnd_setEnc (s : State) (e : Encoder) (n k pos : Nat) :
    recordsEnd (s.setEnc e) n k pos = recordsEnd s n k pos := by
  induction n generalizing k pos with
  | zero => rfl
  | succ n ih => simp only [recordsEnd, ih]; rfl

/-- The record loop faults at the first record beyond the memories: the records before it are appended, and one lies beyond
when the records end beyond `lz_code` or their ordinals beyond `lz_flags` (R60, R97). -/
theorem putRecords_faults (n k pos : Nat) (s : State) (hrun : s.halt = none) (hk : k ≤ 65536) (hpos : pos ≤ 65536)
    (hend : 65536 < recordsEnd s n k pos ∨ 65536 < k + n) (hfit : FieldsFit (recordFields s n k pos))
    (ht : s.enc.TakesBits (recordFields s n k pos)) :
    (putRecords n k pos s).halt = some (.fault .lzCodeRange) := by
  induction n generalizing k pos s with
  | zero => simp only [recordsEnd] at hend; omega
  | succ n ih =>
    have hstop : (s.faulted .lzCodeRange).halt = some (.fault .lzCodeRange) := stop_of_running hrun _
    simp only [putRecords, Config.lzFlagBufSize, Config.lzCodeBufSize]
    by_cases hlast : 8192 ≤ k / 8
    · rwa [if_pos hlast]
    rw [if_neg hlast]
    by_cases hflag : flagRead s.lz.lzFlags k = true
    · have hflag' : recordFlag s k = true := hflag
      rw [if_pos hflag]
      rw [recordFields, if_pos hflag'] at hfit ht
      simp only [recordsEnd, if_pos hflag'] at hend
      split
      · obtain ⟨e, he, ha⟩ := putMatch_spec _ _ s (fun f hm => hfit f (List.mem_append_left _ hm)) (takes_left ht)
        rw [he]
        have hright := takes_right ht ha
        refine ih (k + 1) (pos + 3) (s.setEnc e) hrun (by omega) (by omega) ?_ ?_ ?_
        · rw [recordsEnd_setEnc]; omega
        · rw [recordFields_setEnc]; exact fun f hm => hfit f (List.mem_append_right _ hm)
        · rwa [recordFields_setEnc]
      · exact hstop
    · have hflag' : ¬ recordFlag s k = true := hflag
      rw [if_neg hflag]
      rw [recordFields, if_neg hflag'] at hfit ht
      simp only [recordsEnd, if_neg hflag'] at hend
      split
      · obtain ⟨e, he, ha⟩ := putCode_spec .litLen (Mem.read s.lz.lzCode pos).toNat s
          (fun f hm => hfit f (by rw [List.mem_singleton.1 hm]; exact List.mem_cons_self))
          (takes_left (gs := recordFields s n (k + 1) (pos + 1)) ht)
        rw [putLit, he]
        have hright := takes_right (gs := recordFields s n (k + 1) (pos + 1)) ht ha
        refine ih (k + 1) (pos + 1) (s.setEnc e) hrun (by omega) (by omega) ?_ ?_ ?_
        · rw [recordsEnd_setEnc]; omega
        · rw [recordFields_setEnc]; exact fun f hm => hfit f (List.mem_cons_of_mem _ hm)
        · rwa [recordFields_setEnc]
      · exact hstop

/-- Settles O60: the record loop and the resumption fault, and nothing after the fault lifts it. -/
theorem readsBeyondMemoriesFault : Obligations.ReadsBeyondMemoriesFault := by
  unfold Obligations.ReadsBeyondMemoriesFault
  refine ⟨fun s hrun hend hfit ht => ?_, fun s hrun hslice hsome hbeyond => ?_⟩
  · have hfault := putRecords_faults s.lz.lzOpCount.toNat 0 0 s hrun (by omega) (by omega) (by omega) hfit ht
    exact settle_of_faulted ((putCode_staging .litLen 256 _).stopped _ hfault)
  · have hresume : resume s = s.faulted .stageRange := by
      rcases resume_cases s with ⟨hfits, -⟩ | ⟨-, h⟩
      · simp only [outRoom] at hfits
        omega
      · exact h
    refine settle_of_faulted ?_
    rw [opDrvDrain, hslice, if_neg Bool.false_ne_true, hresume]
    exact stop_of_running hrun _

/-! The block up to its hand-over. -/

theorem opHufLimit_staging (limit : Nat) (s : State) : Staging s (opHufLimit limit s) := by
  unfold opHufLimit
  split
  · exact .setWork s _
  · exact .stop s _

theorem opHufAssignSizes_staging (t : Table) (s : State) : Staging s (opHufAssignSizes t s) := by
  unfold opHufAssignSizes
  split
  · exact .setHuf s _
  · exact .stop s _

theorem opHufBuild_staging (t : Table) (s : State) : Staging s (opHufBuild t s) :=
  (((((Staging.setWork s _).trans (.setWork _ _)).trans (.setWork _ _)).trans (.setWork _ _)).trans
    (opHufLimit_staging _ _)).trans ((opHufAssignSizes_staging t _).trans (.setHuf _ _))

theorem opEncClPlan_staging (s : State) : Staging s (opEncClPlan s) :=
  ((Staging.setHuf s _).trans (opHufBuild_staging .codeLen _)).trans (.setWork _ _)

theorem closePlan_staging (s : State) : Staging s (closePlan s) :=
  (((opHufBuild_staging .litLen s).trans (opHufBuild_staging .dist _)).trans (opEncClPlan_staging _)).trans (.setWork _ _)

theorem closeStart_staging (fl : FlushMode) (s : State) : Staging s (closeStart fl s) := by
  have hcursors : Staging s ((s.setEnc { s.enc with stagePos := 0 }).setDrv { s.drv with flushOfs := 0 }) :=
    ⟨rfl, rfl, rfl, rfl, rfl, fun _ h => h⟩
  unfold closeStart
  dsimp only
  split
  · exact ((hcursors.trans (putField_staging _ _ _)).trans (putField_staging _ _ _)).trans
      ((putBits_staging _ _ _).trans (.setHuf _ _))
  · exact hcursors.trans ((putBits_staging _ _ _).trans (.setHuf _ _))

theorem putWindow_staging (n : Nat) (q : BitVec 32) (s : State) : Staging s (putWindow n q s) := by
  induction n generalizing q s with
  | zero => exact .refl s
  | succ n ih => exact (putBits_staging _ 8 s).trans (ih _ _)

theorem opEncStored_staging (s : State) : Staging s (opEncStored s) :=
  (((putBits_staging 0 2 s).trans (opEncPad_staging _)).trans ((putBits_staging _ 16 _).trans
    (putBits_staging _ 16 _))).trans (putWindow_staging _ _ _)

theorem opEncStaticHdr_staging (s : State) : Staging s (opEncStaticHdr s) :=
  (((Staging.setHuf s _).trans (.setHuf _ _)).trans (.setHuf _ _)).trans (putBits_staging 1 2 _)

theorem opEncDynHdr_staging (s : State) : Staging s (opEncDynHdr s) :=
  (((putBits_staging 2 2 s).trans (putBits_staging _ 5 _)).trans ((putBits_staging _ 5 _).trans
    (putBits_staging _ 4 _))).trans
    ((Staging.foldl (fun _ _ => putBits_staging _ 3 _) _ _).trans
      (Staging.foldl (fun _ _ => putSymbol_staging .codeLen _ _ _ _) _ _))

theorem encodeBlock_staging (bt : BlockType) (s : State) : Staging s (encodeBlock bt s) := by
  cases bt with
  | stored => exact opEncStored_staging s
  | static => exact (opEncStaticHdr_staging s).trans (opEncPayload_staging _)
  | dynamic => exact (opEncDynHdr_staging s).trans (opEncPayload_staging _)

theorem opEncTrailer_staging (s : State) : Staging s (opEncTrailer s) := by
  unfold opEncTrailer
  dsimp only
  split
  · exact (opEncPad_staging s).trans (.foldl (fun _ _ => putBits_staging _ 8 _) _ _)
  · exact opEncPad_staging s

theorem opEncSyncMark_staging (s : State) : Staging s (opEncSyncMark s) :=
  ((putBits_staging 0 3 s).trans (opEncPad_staging _)).trans ((putBits_staging 0 16 _).trans (putBits_staging _ 16 _))

theorem closeTail_staging (fl : FlushMode) (s : State) : Staging s (closeTail fl s) := by
  cases fl with
  | none => exact .refl s
  | sync | full => exact opEncSyncMark_staging s
  | finish => exact opEncTrailer_staging s

theorem closeBooks_staging (s : State) : Staging s (closeBooks s) := ⟨rfl, rfl, rfl, rfl, rfl, fun _ h => h⟩

/-- All of DRV.CLOSE_BLOCK but the hand-over writes none of the window, the call, the host's side (R265). -/
theorem stageBlock_staging (fl : FlushMode) (s : State) : Staging s (stageBlock fl s) :=
  ((closeStart_staging fl s).trans (closePlan_staging _)).trans
    (((encodeBlock_staging _ _).trans (closeTail_staging fl _)).trans (closeBooks_staging _))

/-! The commands as calls. -/

/-- A COMPRESS command is a call with its parts (R90, R251). -/
theorem exec_of_compressParts {i : Instr} {f : BitVec 3} {ip op : Bool} {il oc : BitVec 32}
    (h : compressParts i = some (f, ip, op, il, oc)) (s : State) : exec i s = settle (compressCall f ip op il oc s) := by
  unfold compressParts at h
  split at h <;> cases h <;> rfl

theorem compressParts_compressOf (fl : FlushMode) (ip op : Bool) (il oc : BitVec 32) :
    compressParts (compressOf fl ip op il oc) = some (flushField fl, ip, op, il, oc) := by
  cases fl <;> rfl

@[simp] theorem flushMode_flushField (fl : FlushMode) : flushMode (flushField fl) = some fl := by cases fl <;> rfl

theorem flushMode_eq_none (f : BitVec 3) : flushMode f = none ↔ f ≠ 0 ∧ f ≠ 2 ∧ f ≠ 3 ∧ f ≠ 4 := by
  revert f; decide

theorem flushMode_eq_finish (f : BitVec 3) : flushMode f = some .finish ↔ f = 4 := by
  revert f; decide

/-- The checks of the model are the conditions 1 to 6 of R252. -/
theorem badParam_iff (f : BitVec 3) (ip op : Bool) (il : BitVec 32) (s : State) :
    badParam f ip op il s = true ↔ Rejected f ip op il s := by
  have hport : s.ctl.sinkMode = op ↔
      s.ctl.sinkMode = true ∧ op = true ∨ s.ctl.sinkMode = false ∧ op = false := by
    cases op <;> simp
  simp only [badParam, Rejected, Bool.or_eq_true, Bool.and_eq_true, Bool.not_eq_true', Option.isNone_iff_eq_none,
    bne_iff_ne, beq_iff_eq, ne_eq, or_assoc, flushMode_eq_none, flushMode_eq_finish, hport]

/-- Call setup is what the statements call a call begun (R253). -/
theorem callSetup_flushField (fl : FlushMode) (ip op : Bool) (il oc : BitVec 32) (s : State) :
    callSetup (flushField fl) ip op il oc s = callBegun fl ip op il oc s := by
  cases fl <;> rfl

/-- An accepted COMPRESS is its body, run on the call begun (R251). -/
theorem exec_compressOf_accepted {fl : FlushMode} {ip op : Bool} {il oc : BitVec 32} {s : State}
    (h : ¬ Rejected (flushField fl) ip op il s) :
    exec (compressOf fl ip op il oc) s = settle (callBody fl (callBegun fl ip op il oc s)) := by
  rw [exec_of_compressParts (compressParts_compressOf fl ip op il oc), compressCall,
    if_neg (fun hb => h ((badParam_iff _ _ _ _ _).1 hb)), flushMode_flushField]
  dsimp only
  rw [callSetup_flushField]

/-- An accepted call comes with `PREV_STATUS = Okay` (R252). -/
theorem prevStatus_of_accepted {f : BitVec 3} {ip op : Bool} {il : BitVec 32} {s : State}
    (h : ¬ Rejected f ip op il s) : s.ctl.prevStatus = .okay := by
  by_contra hne
  exact h (Or.inr (Or.inr (Or.inl hne)))

/-! The parse loop's steps, as the host sees them. -/

theorem hostKept_setDrv (s : State) (v : Driver) : HostKept s (s.setDrv v) := ⟨rfl, rfl, rfl, rfl⟩

theorem catchupLoop_hostKept (k : Nat) (s : State) : HostKept s (catchupLoop k s) := by
  induction k generalizing s with
  | zero => exact ⟨rfl, rfl, rfl, rfl⟩
  | succ k ih =>
    have hinsert : HostKept s (opDictInsert s.drv.insPos s) := by
      unfold opDictInsert
      split
      · exact ⟨rfl, rfl, rfl, rfl⟩
      · exact (Staging.stop s _).hostKept
    unfold catchupLoop
    dsimp only
    split
    · exact (hinsert.trans (hostKept_setDrv _ _)).trans (ih _)
    · exact ⟨rfl, rfl, rfl, rfl⟩

theorem runRead_staging (n : BitVec 9) (s : State) : Staging s (runRead n s) := by
  unfold runRead
  split
  · exact .drawn s
  · exact .refl s

theorem opDictFind_staging (p : BitVec 32) (maxDist : BitVec 16) (maxLen : BitVec 9) (priorDist : BitVec 16)
    (priorLen : BitVec 9) (s : State) : Staging s (opDictFind p maxDist maxLen priorDist priorLen s) := by
  unfold opDictFind
  split
  · exact (Staging.setWork s _).trans (runRead_staging _ _)
  · exact .stop s _

theorem opDictRle_staging (p : BitVec 32) (maxLen : BitVec 9) (s : State) : Staging s (opDictRle p maxLen s) := by
  unfold opDictRle
  split
  · exact .stop s _
  · exact (Staging.setWork s _).trans (runRead_staging _ _)

theorem selectCandidate_staging (s : State) : Staging s (selectCandidate s).1 := by
  unfold selectCandidate
  dsimp only
  split
  · split
    · split <;> exact opDictRle_staging _ _ s
    · exact .refl s
  · exact opDictFind_staging _ _ _ _ _ s

theorem opRecLit_staging (b : BitVec 8) (s : State) : Staging s (opRecLit b s) := by
  unfold opRecLit
  split
  · exact (Staging.setLz s _).trans (.setHuf _ _)
  · exact .stop s _

theorem opRecMatch_staging (len : BitVec 9) (dist : BitVec 16) (s : State) : Staging s (opRecMatch len dist s) := by
  unfold opRecMatch
  split
  · split
    · exact ((Staging.setLz s _).trans (.setHuf _ _)).trans (.setHuf _ _)
    · exact .stop s _
  · exact .stop s _

theorem decideStep_hostKept (dist : BitVec 16) (len : BitVec 9) (s : State) :
    HostKept s (decideStep dist len s).1 := by
  unfold decideStep
  split
  · split
    · exact (opRecLit_staging _ s).hostKept.trans (hostKept_setDrv _ _)
    · exact (opRecMatch_staging _ _ s).hostKept.trans (hostKept_setDrv _ _)
  · split
    · exact (opRecLit_staging _ s).hostKept
    · split
      · exact (opRecMatch_staging _ _ s).hostKept
      · exact hostKept_setDrv _ _

/-- DRV.PARSE_STEP touches nothing of the call or the host's side. -/
theorem opDrvParseStep_hostKept (s : State) : HostKept s (opDrvParseStep s) := by
  unfold opDrvParseStep
  split
  · exact (Staging.stop s _).hostKept
  · exact ((selectCandidate_staging s).hostKept.trans (decideStep_hostKept _ _ _)).trans (hostKept_setDrv _ _)

/-! The bounds of a call: what it has read and written so far lies within what the command offered. -/

/-- In state `s` of a call that began from `s0` with `il` bytes of input and room for `oc` bytes: what was read and written
lies within these bounds, the slice from `out_ofs` on is as it was, and a sink that refused has been answered for. -/
structure WithinCall (il oc : BitVec 32) (s0 s : State) : Prop where
  len : s.call.inLen = il
  read : s.call.srcPos.toNat ≤ il.toNat
  cap : s.call.outCap.toNat ≤ oc.toNat
  written : s.call.outOfs.toNat ≤ s.call.outCap.toNat
  sink : s.ctl.sinkMode = s0.ctl.sinkMode
  shut : s.ctl.sinkMode = true → s.call.outCap = 0
  slice : Mem.wf s.host.outSlice
  beyond : ∀ j, s.call.outOfs.toNat ≤ j → Mem.read s.host.outSlice j = Mem.read s0.host.outSlice j
  refused : s.ctl.prevStatus = .putBufFailed → s.ctl.sinkMode = true
    ∧ ∃ r, s.host.response = some r ∧ r.inConsumed.toNat ≤ il.toNat ∧ r.outProduced = 0

/-- The answer in `t` to a call that began from `s0` lies within what the command offered (R66, R91). -/
def AnswerBounded (il oc : BitVec 32) (s0 t : State) : Prop :=
  ∃ r, t.host.response = some r ∧ r.inConsumed.toNat ≤ il.toNat ∧ r.outProduced.toNat ≤ oc.toNat
    ∧ (s0.ctl.sinkMode = true → r.outProduced = 0)
    ∧ ∀ j, r.outProduced.toNat ≤ j → Mem.read t.host.outSlice j = Mem.read s0.host.outSlice j

namespace WithinCall

variable {il oc : BitVec 32} {s0 s t : State}

theorem hostKept (h : WithinCall il oc s0 s) (hk : HostKept s t) : WithinCall il oc s0 t := by
  constructor <;> simp only [hk.call, hk.host, hk.sink, hk.prev]
  exacts [h.len, h.read, h.cap, h.written, h.sink, h.shut, h.slice, h.beyond, h.refused]

/-- A byte of the input read, while some is left (R256). -/
theorem byteFilled (h : WithinCall il oc s0 s) (hleft : 0 < srcLeft s) :
    WithinCall il oc s0 (fillOne s) ∧ srcLeft (fillOne s) + 1 = srcLeft s := by
  have hkept : HostKept (s.setCall { s.call with srcPos := s.call.srcPos + 1 }) (fillOne s) := by
    unfold fillOne
    dsimp only
    split <;> exact ⟨rfl, rfl, rfl, rfl⟩
  have hpos : (s.call.srcPos + 1).toNat = s.call.srcPos.toNat + 1 := by
    have := s.call.inLen.isLt
    simp only [srcLeft] at hleft
    rw [BitVec.toNat_add, show (1 : BitVec 32).toNat = 1 from rfl]
    omega
  have hread : (s.call.srcPos + 1).toNat ≤ il.toNat := by
    simp only [srcLeft] at hleft
    rw [hpos, ← h.len]
    omega
  refine ⟨hostKept (s := s.setCall { s.call with srcPos := s.call.srcPos + 1 })
    ⟨h.len, hread, h.cap, h.written, h.sink, h.shut, h.slice, h.beyond, h.refused⟩ hkept, ?_⟩
  simp only [srcLeft, hkept.call, setCall_call] at hleft ⊢
  omega

theorem bytesFilled (k : Nat) (h : WithinCall il oc s0 s) (hk : k ≤ srcLeft s) :
    WithinCall il oc s0 (fillBytes k s) := by
  induction k generalizing s with
  | zero => exact h
  | succ k ih =>
    obtain ⟨hone, hleft⟩ := h.byteFilled (by omega)
    exact ih hone (by omega)

/-- DRV.FILL reads no more than is left of the input (R256). -/
theorem filled (h : WithinCall il oc s0 s) : WithinCall il oc s0 (opDrvFill s) :=
  (h.bytesFilled _ (Nat.min_le_left _ _)).hostKept (hostKept_setDrv _ _)

/-- A delivery that fits the room left stays within the slice (R266). -/
theorem delivered (a k : Nat) (h : WithinCall il oc s0 s) (hk : k ≤ outRoom s) :
    WithinCall il oc s0 (deliver a k s) := by
  have hroom : s.call.outOfs.toNat + k ≤ s.call.outCap.toNat := by
    have := h.written
    simp only [outRoom] at hk
    omega
  obtain ⟨hofs, -, hkeep, hwf⟩ := deliver_spec a k s h.slice (lt_of_le_of_lt hroom s.call.outCap.isLt)
  refine ⟨h.len, h.read, h.cap, ?_, h.sink, h.shut, hwf, fun j hj => ?_, h.refused⟩
  · rw [hofs]
    exact hroom
  · rw [hofs] at hj
    rw [hkeep j (Or.inr hj), h.beyond j (by omega)]

/-- The sink's refusal is answered with the input consumed and nothing produced (R302). -/
theorem raised (h : WithinCall il oc s0 s) (hsink : s.ctl.sinkMode = true) :
    WithinCall il oc s0 (raise .putBufFailed s) :=
  ⟨h.len, h.read, h.cap, h.written, h.sink, h.shut, h.slice, h.beyond, fun _ => ⟨hsink, _, rfl, h.read, rfl⟩⟩

/-- The hand-over writes to the slice no more than there is room for; a sink that refuses is answered for (R266, R302). -/
theorem handedOver (h : WithinCall il oc s0 s) : WithinCall il oc s0 (handOver s) := by
  unfold handOver
  dsimp only
  split
  · exact h
  split
  case isTrue hsink =>
    have hinvoked : WithinCall il oc s0 (sinkInvoked (Mem.readRun s.enc.stage 0 s.enc.stagePos.toNat) s) :=
      ⟨h.len, h.read, h.cap, h.written, h.sink, h.shut, h.slice, h.beyond, h.refused⟩
    split
    · exact hinvoked
    · exact hinvoked.raised hsink
  case isFalse =>
    have hdelivered := h.delivered 0 _ (Nat.min_le_right s.enc.stagePos.toNat (outRoom s))
    split
    · exact hdelivered.hostKept (hostKept_setDrv _ _)
    · exact hdelivered

/-- DRV.CLOSE_BLOCK (R265). -/
theorem blockClosed (fl : FlushMode) (h : WithinCall il oc s0 s) : WithinCall il oc s0 (opDrvCloseBlock fl s) := by
  unfold opDrvCloseBlock
  split
  · exact (h.hostKept (stageBlock_staging fl s).hostKept).handedOver
  · exact h.hostKept (Staging.stop s _).hostKept

/-- The parse loop (R255). -/
theorem parsed (fl : FlushMode) (k : Nat) (h : WithinCall il oc s0 s) : WithinCall il oc s0 (parseLoop fl k s) := by
  induction k generalizing s with
  | zero => exact h
  | succ k ih =>
    have hcaught : WithinCall il oc s0 (opDrvCatchup (opDrvFill s)) :=
      h.filled.hostKept (catchupLoop_hostKept _ _)
    have hstepped := hcaught.hostKept (opDrvParseStep_hostKept _)
    have hclosed := hstepped.blockClosed .none
    unfold parseLoop
    dsimp only
    split
    · split
      · exact hcaught
      · split
        · split
          · exact hclosed
          · exact ih hclosed
        · exact ih hstepped
    · exact h

/-- The flush at the end of the call (R267). -/
theorem flushed (fl : FlushMode) (h : WithinCall il oc s0 s) : WithinCall il oc s0 (endFlush fl s) := by
  have hclosed := h.blockClosed fl
  unfold endFlush
  dsimp only
  split
  · split
    · exact hclosed
    · cases fl with
      | none | sync => exact hclosed
      | full => exact hclosed.hostKept ⟨rfl, rfl, rfl, rfl⟩
      | finish => exact hclosed.hostKept ⟨rfl, rfl, rfl, rfl⟩
  · exact h

/-- DRV.DRAIN (R268). -/
theorem drained (h : WithinCall il oc s0 s) : WithinCall il oc s0 (opDrvDrain s) := by
  unfold opDrvDrain
  split
  · exact h
  · rcases resume_cases s with ⟨-, hresumed⟩ | ⟨-, hstopped⟩
    · rw [hresumed]
      exact (h.delivered _ _ (Nat.min_le_left _ _)).hostKept (hostKept_setDrv _ _)
    · rw [hstopped]
      exact h.hostKept (Staging.stop s _).hostKept

/-- In sink mode nothing is written to the slice. -/
theorem outOfs_of_sink (h : WithinCall il oc s0 s) (hsink : s.ctl.sinkMode = true) : s.call.outOfs = 0 := by
  have hwritten := h.written
  rw [h.shut hsink] at hwritten
  exact BitVec.eq_of_toNat_eq (Nat.le_zero.1 hwritten)

/-- The answer a refusing sink leaves. -/
theorem bounded_of_raised (h : WithinCall il oc s0 s) (hr : Machine.raised s = true) : AnswerBounded il oc s0 s := by
  obtain ⟨hsink, r, hresp, hin, hout⟩ := h.refused ((raised_iff s).1 hr)
  refine ⟨r, hresp, hin, by rw [hout]; exact Nat.zero_le _, fun _ => hout, fun j _ => h.beyond j ?_⟩
  rw [h.outOfs_of_sink hsink]
  exact Nat.zero_le j

/-- The answer at the end of a call (R268). -/
theorem bounded_finishCall (h : WithinCall il oc s0 s) : AnswerBounded il oc s0 (finishCall s) := by
  have hd := h.drained
  have hproduced : (opDrvDrain s).call.outOfs.toNat ≤ oc.toNat := hd.written.trans hd.cap
  have hanswer : ∀ st, st = .okay ∨ st = .done → AnswerBounded il oc s0 (raise st (opDrvDrain s)) := by
    rintro st (rfl | rfl) <;>
      exact ⟨_, rfl, hd.read, hproduced, fun hs => hd.outOfs_of_sink (hd.sink.trans hs), hd.beyond⟩
  refine hanswer _ ?_
  unfold callStatus
  split
  · exact Or.inr rfl
  · exact Or.inl rfl

/-- Steps 3 to 6 of an accepted call (R251). -/
theorem bounded_callBody (fl : FlushMode) (h : WithinCall il oc s0 s) : AnswerBounded il oc s0 (callBody fl s) := by
  have hparsed := h.parsed fl (parseBound s)
  unfold callBody
  dsimp only
  split
  · exact h.bounded_finishCall
  split
  · exact hparsed.bounded_of_raised (by assumption)
  split
  · exact (hparsed.flushed fl).bounded_of_raised (by assumption)
  · exact (hparsed.flushed fl).bounded_finishCall

end WithinCall

/-- Call setup loads the bounds of the command; the status before an accepted call is Okay (R252, R253). -/
theorem callSetup_within {f : BitVec 3} {ip op : Bool} {il oc : BitVec 32} {s : State}
    (hprev : s.ctl.prevStatus = .okay) (hw : Mem.wf s.host.outSlice) :
    WithinCall il oc s (callSetup f ip op il oc s) where
  len := rfl
  read := Nat.zero_le _
  cap := by
    simp only [callSetup]
    split
    · exact Nat.zero_le _
    · exact le_rfl
  written := Nat.zero_le _
  sink := rfl
  shut := fun hs => if_pos hs
  slice := hw
  beyond := fun _ _ => rfl
  refused := fun hr => by
    simp only [callSetup, hprev] at hr
    cases hr

theorem compressCall_bounded (f : BitVec 3) (ip op : Bool) (il oc : BitVec 32) (s : State)
    (hw : Mem.wf s.host.outSlice) : AnswerBounded il oc s (compressCall f ip op il oc s) := by
  have hbad : AnswerBounded il oc s (raise .badParam s) :=
    ⟨_, rfl, Nat.zero_le _, Nat.zero_le _, fun _ => rfl, fun _ _ => rfl⟩
  unfold compressCall
  split
  · exact hbad
  case isFalse haccepted =>
    split
    · exact hbad
    · exact (callSetup_within (prevStatus_of_accepted (mt (badParam_iff _ _ _ _ _).2 haccepted)) hw).bounded_callBody _

/-- Settles O13: every step of a call keeps the bounds, and every answer is given within them. -/
theorem responseBounds : Obligations.ResponseBounds := by
  unfold Obligations.ResponseBounds
  intro i f ip op il oc s t hparts hw hexec
  rw [exec_of_compressParts hparts] at hexec
  obtain ⟨-, rfl⟩ := settle_eq_next.1 hexec
  exact compressCall_bounded f ip op il oc s hw

/-! The drain-only call. -/

/-- What a delivery at the start of the slice leaves in it (R66, R268). -/
theorem read_deliver_start (a k : Nat) (s : State) (hw : Mem.wf s.host.outSlice) (hofs : s.call.outOfs = 0) (j : Nat) :
    Mem.read (deliver a k s).host.outSlice j =
      if j < k then Mem.read s.enc.stage (a + j) else Mem.read s.host.outSlice j := by
  simp only [deliver, setCall_host, setHost_host, hofs, show (0 : BitVec 32).toNat = 0 from rfl]
  rw [read_writeRun hw]
  simp only [readRun_length, Nat.zero_le, true_and, Nat.zero_add, Nat.sub_zero]
  split
  · exact readRun_getD _ _ _ _ (by assumption)
  · rfl

/-- The answer of an accepted call: `callStatus` is recorded and answered with both counts (R268). -/
theorem raise_callStatus (s : State) : raise (callStatus s) s
    = respond (callStatus s) s.call.srcPos s.call.outOfs (setPrevStatus (callStatus s) s) := by
  unfold callStatus
  split <;> rfl

/-- In slice mode a resumption that stays within `stage` delivers what fits and advances the pair (R268, R307). -/
theorem opDrvDrain_within {s : State} {k : Nat} (hslice : s.ctl.sinkMode = false)
    (hk : min (outRoom s) s.drv.flushRemaining.toNat = k) (hstage : k = 0 ∨ s.drv.flushOfs.toNat + k ≤ 85196) :
    opDrvDrain s = (deliver s.drv.flushOfs.toNat k s).setDrv { s.drv with
      flushOfs := s.drv.flushOfs + BitVec.ofNat 17 k, flushRemaining := s.drv.flushRemaining - BitVec.ofNat 17 k } := by
  rw [opDrvDrain, hslice, if_neg Bool.false_ne_true]
  have hcases := resume_cases s
  rw [hk] at hcases
  rcases hcases with ⟨-, hresumed⟩ | ⟨⟨hsome, hbeyond⟩, -⟩
  · exact hresumed
  · omega

/-- Nothing is pending exactly when all that was pending went. -/
theorem pending_sub_eq_zero {n : BitVec 17} {k : Nat} (hk : k ≤ n.toNat) : n - BitVec.ofNat 17 k = 0 ↔ k = n.toNat := by
  rw [← BitVec.toNat_inj, BitVec.toNat_sub, BitVec.toNat_ofNat, show (0 : BitVec 17).toNat = 0 from rfl]
  omega

theorem callStatus_eq {s : State} {p : Prop} [Decidable p]
    (h : s.ctl.finished = true ∧ s.drv.flushRemaining = 0 ↔ p) : callStatus s = if p then .done else .okay := by
  simp only [callStatus, h]

/-- Settles O14: the call is the resumption of the delivery and its answer, and the resumption stays within `stage`. -/
theorem drainOnlyCall : Obligations.DrainOnlyCall := by
  unfold Obligations.DrainOnlyCall
  intro fl ip il oc s hrun haccepted hslice hw hpending hstage
  dsimp only
  obtain ⟨k, hk⟩ : ∃ k, min oc.toNat s.drv.flushRemaining.toNat = k := ⟨_, rfl⟩
  obtain ⟨b, hb⟩ : ∃ b, callBegun fl ip true il oc s = b := ⟨_, rfl⟩
  have hroom : outRoom b = oc.toNat := by simp [← hb, outRoom, callBegun, hslice]
  have hdrv : b.drv = s.drv := by rw [← hb]; rfl
  have hctl : b.ctl = { s.ctl with wantsFinish := s.ctl.wantsFinish || fl == .finish } := by rw [← hb]; rfl
  have hdrain := opDrvDrain_within (s := b) (k := k) (by rw [hctl]; exact hslice) (by rw [hroom, hdrv, hk])
    (by rw [hdrv]; omega)
  obtain ⟨x, hx⟩ : ∃ x, opDrvDrain b = x := ⟨_, rfl⟩
  rw [hx, hdrv] at hdrain
  have hstatus : callStatus x = if s.ctl.finished = true ∧ k = s.drv.flushRemaining.toNat then .done else .okay :=
    callStatus_eq (by
      rw [hdrain, ← pending_sub_eq_zero (n := s.drv.flushRemaining) (k := k) (by omega)]
      rw [setDrv_ctl, setDrv_drv, show (deliver s.drv.flushOfs.toNat k b).ctl = b.ctl from rfl, hctl])
  have hbody : callBody fl b = raise (callStatus x) x := by
    rw [callBody, hdrv, show b.ctl.finished = s.ctl.finished by rw [hctl], if_pos hpending, finishCall, hx]
  refine ⟨raise (callStatus x) x, ?_, ?_⟩
  · rw [exec_compressOf_accepted haccepted, hb, hbody]
    refine settle_of_running ((raise_halt _ _).trans ?_)
    rw [hdrain, ← hb]
    exact hrun
  rw [raise_callStatus, hstatus, hk, hdrain]
  refine ⟨fun j => ?_, rfl, ?_, ?_, ?_⟩
  · have hread := read_deliver_start s.drv.flushOfs.toNat k b (by rw [← hb]; exact hw) (by rw [← hb]; rfl) j
    rw [← hb] at hread ⊢
    exact hread
  · rw [← hb]; rfl
  · simp [← hb, respond, deliver, callBegun, setPrevStatus]
  · simp [← hb, respond, deliver, callBegun, setPrevStatus]

/-! A flush with an empty lookahead: what DRV.CLOSE_BLOCK leaves for the end of the call. -/

/-- From `s` to `t` only what the hand-over writes changed: the output and the pair of the bytes pending (R266). -/
structure HandedOver (s t : State) : Prop where
  win : t.win = s.win
  call : t.call = { s.call with outOfs := t.call.outOfs }
  ctl : t.ctl = { s.ctl with prevStatus := t.ctl.prevStatus }
  drv : t.drv = { s.drv with flushOfs := t.drv.flushOfs, flushRemaining := t.drv.flushRemaining }

theorem handOver_frame (s : State) : HandedOver s (handOver s) := by
  unfold handOver
  dsimp only
  split
  · exact ⟨rfl, rfl, rfl, rfl⟩
  split
  · split <;> exact ⟨rfl, rfl, rfl, rfl⟩
  · split <;> exact ⟨rfl, rfl, rfl, rfl⟩

/-- In slice mode bytes stay pending after a hand-over only when the slice is full (R266, R306). -/
theorem handOver_pending {s : State} (hslice : s.ctl.sinkMode = false) (hnone : s.drv.flushRemaining = 0) :
    (handOver s).drv.flushRemaining = 0 ∨ outRoom (handOver s) = 0 := by
  unfold handOver
  dsimp only
  split
  · exact Or.inl hnone
  rw [hslice, if_neg Bool.false_ne_true]
  split
  case isTrue hless =>
    refine Or.inr ?_
    have hcap := s.call.outCap.isLt
    simp only [outRoom, suspend, deliver, setDrv_call, setCall_call, BitVec.toNat_add, BitVec.toNat_ofNat] at hless ⊢
    omega
  case isFalse => exact Or.inl hnone

/-- The hand-over of bytes that all fit is one delivery (R266). -/
theorem handOver_fits {s : State} (hslice : s.ctl.sinkMode = false) (hfits : s.enc.stagePos.toNat ≤ outRoom s) :
    handOver s = deliver 0 s.enc.stagePos.toNat s := by
  unfold handOver
  dsimp only
  rw [hslice, if_neg Bool.false_ne_true, Nat.min_eq_left hfits, if_neg (lt_irrefl _)]
  split
  case isTrue hzero => rw [hzero, deliver_zero]
  case isFalse => rfl

/-- What follows DRV.CLOSE_BLOCK in the flush at the end of a call (R267). -/
def afterFlush (fl : FlushMode) (u : State) : State :=
  match fl with
  | .finish => u.setCtl { u.ctl with finished := true }
  | .full => opDictResetChains u
  | _ => u

theorem endFlush_eq {fl : FlushMode} {s : State} (hfl : fl ≠ .none) (hempty : s.drv.lookaheadSize = 0)
    (hread : srcLeft s = 0) (hnone : s.drv.flushRemaining = 0) :
    endFlush fl s = if raised (opDrvCloseBlock fl s) then opDrvCloseBlock fl s
      else afterFlush fl (opDrvCloseBlock fl s) := by
  rw [endFlush, if_pos ⟨hfl, hempty, hread, hnone⟩]
  rfl

@[simp] theorem afterFlush_call (fl : FlushMode) (u : State) : (afterFlush fl u).call = u.call := by cases fl <;> rfl
@[simp] theorem afterFlush_host (fl : FlushMode) (u : State) : (afterFlush fl u).host = u.host := by cases fl <;> rfl
@[simp] theorem afterFlush_enc (fl : FlushMode) (u : State) : (afterFlush fl u).enc = u.enc := by cases fl <;> rfl
@[simp] theorem afterFlush_lz (fl : FlushMode) (u : State) : (afterFlush fl u).lz = u.lz := by cases fl <;> rfl
@[simp] theorem afterFlush_huf (fl : FlushMode) (u : State) : (afterFlush fl u).huf = u.huf := by cases fl <;> rfl
@[simp] theorem afterFlush_flushOfs (fl : FlushMode) (u : State) : (afterFlush fl u).drv.flushOfs = u.drv.flushOfs := by
  cases fl <;> rfl
@[simp] theorem afterFlush_flushRemaining (fl : FlushMode) (u : State) :
    (afterFlush fl u).drv.flushRemaining = u.drv.flushRemaining := by cases fl <;> rfl

/-- Only Finish ends the stream (R267). -/
theorem afterFlush_ctl (fl : FlushMode) {u : State} (h : u.ctl.finished = false) :
    (afterFlush fl u).ctl = { u.ctl with finished := fl == .finish } := by
  have hkeep : u.ctl = { u.ctl with finished := false } := by rw [← h]
  cases fl
  case finish => rfl
  all_goals exact hkeep

theorem afterFlush_raised (fl : FlushMode) (u : State) : raised (afterFlush fl u) = raised u := by
  cases fl <;> rfl

/-- A call without input on an empty lookahead parses nothing: it closes a block and, unless the sink refused, answers
(R251, R255, R267). -/
theorem callBody_of_empty {fl : FlushMode} {s : State} (hfl : fl ≠ .none) (hempty : s.drv.lookaheadSize = 0)
    (hread : srcLeft s = 0) (hnone : s.drv.flushRemaining = 0) (hfin : s.ctl.finished = false)
    (hok : s.ctl.prevStatus = .okay) :
    callBody fl s = if raised (opDrvCloseBlock fl s) then opDrvCloseBlock fl s
      else finishCall (afterFlush fl (opDrvCloseBlock fl s)) := by
  have hparse : parseLoop fl (parseBound s) s = s := by
    rw [parseBound, hread, hempty]
    rfl
  have hquiet : raised s = false := by rw [raised, hok]; rfl
  rw [callBody, if_neg (by simp [hnone, hfin]), hparse]
  dsimp only
  rw [hquiet, if_neg Bool.false_ne_true, endFlush_eq hfl hempty hread hnone]
  split
  case isTrue h => rfl
  case isFalse h => rw [afterFlush_raised, if_neg h]

/-- The end of a call that has no byte to deliver, in sink mode or into a full slice: the answer alone (R268). -/
theorem opDrvDrain_of_nothing {s : State} (h : s.ctl.sinkMode = true ∨ s.drv.flushRemaining = 0 ∨ outRoom s = 0) :
    opDrvDrain s = s := by
  by_cases hsink : s.ctl.sinkMode = true
  · rw [opDrvDrain, if_pos hsink]
  · have hzero : min (outRoom s) s.drv.flushRemaining.toNat = 0 := by
      rcases h with h | h | h
      · exact absurd h hsink
      · rw [h]; exact Nat.min_zero _
      · rw [h]; exact Nat.zero_min _
    rw [opDrvDrain_within (by simpa using hsink) hzero (Or.inl rfl), deliver_zero]
    simp only [BitVec.add_zero, BitVec.sub_zero]
    exact setDrv_self s

/-- What a flush call on an empty lookahead answers, `u` being what DRV.CLOSE_BLOCK leaves (the second clause of O16). -/
structure FlushAnswered (fl : FlushMode) (s u t : State) : Prop where
  response : t.host.response = some
    { status := if fl = .finish ∧ u.drv.flushRemaining = 0 then .done else .okay
      inConsumed := 0, outProduced := u.call.outOfs }
  ctl : t.ctl = { u.ctl with
    finished := fl == .finish, prevStatus := if fl = .finish ∧ u.drv.flushRemaining = 0 then .done else .okay }
  enc : t.enc = u.enc
  lz : t.lz = u.lz
  huf : t.huf = u.huf
  outSlice : t.host.outSlice = u.host.outSlice
  sinkOut : t.host.sinkOut = u.host.sinkOut
  flushOfs : t.drv.flushOfs = u.drv.flushOfs
  flushRemaining : t.drv.flushRemaining = u.drv.flushRemaining
  history : if fl = .full then (∀ a, Mem.read t.win.head a = 0 ∧ Mem.read t.win.next a = 0) ∧ t.drv.dictSize = 0
      ∧ t.drv.insPos = s.drv.lookaheadPos ∧ t.win.dict = s.win.dict
    else t.win = s.win ∧ t.drv.dictSize = s.drv.dictSize ∧ t.drv.insPos = s.drv.insPos

/-- What DRV.CLOSE_BLOCK keeps of a call just begun, as the rest of the flush needs it. -/
structure BlockKept (s u : State) : Prop where
  win : u.win = s.win
  srcPos : u.call.srcPos = 0
  finished : u.ctl.finished = false
  lookaheadPos : u.drv.lookaheadPos = s.drv.lookaheadPos
  dictSize : u.drv.dictSize = s.drv.dictSize
  insPos : u.drv.insPos = s.drv.insPos
  nothing : u.ctl.sinkMode = true ∨ u.drv.flushRemaining = 0 ∨ outRoom u = 0

theorem opDrvCloseBlock_kept {fl : FlushMode} {ip op : Bool} {il oc : BitVec 32} {s : State}
    (hnone : s.drv.flushRemaining = 0) (hfin : s.ctl.finished = false) :
    BlockKept s (opDrvCloseBlock fl (callBegun fl ip op il oc s)) := by
  set b := callBegun fl ip op il oc s with hb
  have hbfin : b.ctl.finished = false := hfin
  have hstage := stageBlock_staging fl b
  have hover := handOver_frame (stageBlock fl b)
  have hclose : opDrvCloseBlock fl b = handOver (stageBlock fl b) := by
    rw [opDrvCloseBlock, if_pos (show b.drv.flushRemaining = 0 from hnone)]
  rw [hclose]
  refine ⟨hover.win.trans hstage.win, ?_, ?_, ?_, ?_, ?_, ?_⟩
  · rw [hover.call, hstage.call]; rfl
  · rw [hover.ctl, hstage.ctl]; exact hbfin
  · rw [hover.drv, hstage.drv]; rfl
  · rw [hover.drv, hstage.drv]; rfl
  · rw [hover.drv, hstage.drv]; rfl
  · by_cases hsink : (stageBlock fl b).ctl.sinkMode = true
    · exact Or.inl (by rw [hover.ctl]; exact hsink)
    · refine Or.inr (handOver_pending (by simpa using hsink) ?_)
      rw [hstage.drv]
      exact hnone

/-- The history after the flush: Full forgets it, the other modes keep it (R145, R267). -/
theorem afterFlush_history (fl : FlushMode) {s u : State} (h : BlockKept s u) :
    if fl = .full then (∀ a, Mem.read (afterFlush fl u).win.head a = 0 ∧ Mem.read (afterFlush fl u).win.next a = 0)
        ∧ (afterFlush fl u).drv.dictSize = 0 ∧ (afterFlush fl u).drv.insPos = s.drv.lookaheadPos
        ∧ (afterFlush fl u).win.dict = s.win.dict
      else (afterFlush fl u).win = s.win ∧ (afterFlush fl u).drv.dictSize = s.drv.dictSize
        ∧ (afterFlush fl u).drv.insPos = s.drv.insPos := by
  cases fl
  case full => exact ⟨fun _ => ⟨rfl, rfl⟩, rfl, h.lookaheadPos, by rw [← h.win]; rfl⟩
  all_goals exact ⟨h.win, h.dictSize, h.insPos⟩

/-- The end of a flush call whose block is closed: the history of a Full is forgotten, the answer is given, and nothing
more is delivered (R267, R268). -/
theorem finishCall_afterFlush {fl : FlushMode} {s u : State} (hrun : u.halt = none) (hkept : BlockKept s u) :
    (finishCall (afterFlush fl u)).halt = none ∧ FlushAnswered fl s u (finishCall (afterFlush fl u)) := by
  have hdrain : opDrvDrain (afterFlush fl u) = afterFlush fl u :=
    opDrvDrain_of_nothing (by cases fl <;> exact hkept.nothing)
  have hctl := afterFlush_ctl fl hkept.finished
  have hstatus : callStatus (afterFlush fl u) = if fl = .finish ∧ u.drv.flushRemaining = 0 then .done else .okay :=
    callStatus_eq (by rw [hctl, afterFlush_flushRemaining]; simp)
  rw [finishCall, hdrain]
  refine ⟨?_, ?_⟩
  · rw [raise_halt]
    cases fl <;> exact hrun
  · rw [raise_callStatus, hstatus, afterFlush_call, hkept.srcPos]
    constructor
    case response => rfl
    case ctl => simp [respond, setPrevStatus, hctl]
    case history => exact afterFlush_history fl hkept
    all_goals simp [respond, setPrevStatus]

/-- A flush call on an empty lookahead does what DRV.CLOSE_BLOCK does and answers (R267, R302). -/
theorem flushCall_of_closed {fl : FlushMode} {ip op : Bool} {oc : BitVec 32} {s u : State} (hfl : fl ≠ .none)
    (haccepted : ¬ Rejected (flushField fl) ip op 0 s) (hempty : s.drv.lookaheadSize = 0)
    (hnone : s.drv.flushRemaining = 0) (hfin : s.ctl.finished = false)
    (hclosed : exec (.drvCloseBlock fl) (callBegun fl ip op 0 oc s) = .next u) :
    (u.ctl.prevStatus = .putBufFailed → exec (compressOf fl ip op 0 oc) s = .next u)
    ∧ (u.ctl.prevStatus ≠ .putBufFailed → ∃ t, exec (compressOf fl ip op 0 oc) s = .next t ∧ FlushAnswered fl s u t) := by
  obtain ⟨hrun, rfl⟩ : (opDrvCloseBlock fl (callBegun fl ip op 0 oc s)).halt = none
      ∧ u = opDrvCloseBlock fl (callBegun fl ip op 0 oc s) := settle_eq_next.1 hclosed
  have hbody := callBody_of_empty (s := callBegun fl ip op 0 oc s) hfl hempty rfl hnone hfin
    (show s.ctl.prevStatus = .okay from prevStatus_of_accepted haccepted)
  refine ⟨fun hraised => ?_, fun hraised => ?_⟩
  · rw [exec_compressOf_accepted haccepted, hbody, if_pos ((raised_iff _).2 hraised)]
    exact settle_of_running hrun
  · obtain ⟨hdone, hanswered⟩ := finishCall_afterFlush (fl := fl) hrun (opDrvCloseBlock_kept hnone hfin)
    refine ⟨_, ?_, hanswered⟩
    rw [exec_compressOf_accepted haccepted, hbody, if_neg (mt (raised_iff _).1 hraised)]
    exact settle_of_running hdone

/-! What the emitters of a block without a record append. -/

/-- From `s` to `t` the fields were appended and nothing else changed (R210). -/
def Emits (fs : List Field) (s t : State) : Prop := ∃ e, t = s.setEnc e ∧ s.enc.Appended fs e

/-- Two emitters one after the other append their fields one after the other. -/
theorem Emits.andThen {fs gs : List Field} {s : State} {f g : State → State} (ht : s.enc.TakesBits (fs ++ gs))
    (hf : s.enc.TakesBits fs → Emits fs s (f s))
    (hg : ∀ e, s.enc.Appended fs e → e.TakesBits gs → Emits gs (s.setEnc e) (g (s.setEnc e))) :
    Emits (fs ++ gs) s (g (f s)) := by
  obtain ⟨e1, h1, a1⟩ := hf (takes_left ht)
  obtain ⟨e2, h2, a2⟩ := hg e1 a1 (takes_right ht a1)
  exact ⟨e2, by rw [h1, h2, setEnc_setEnc], appended_trans a1 a2⟩

theorem putBits_emits {v n : Nat} {s : State} (hf : n ≤ 16 ∧ v < 2 ^ n) (ht : s.enc.TakesBits [(v, n)]) :
    Emits [(v, n)] s (putBits v n s) := putBits_spec v n s hf ht

/-- A loop that appends one field a round appends them all. -/
theorem foldl_emits {α : Type} {f : State → α → State} {field : α → Field} {l : List α} {s : State}
    (hstep : ∀ e, ∀ x ∈ l, e.TakesBits [field x] → Emits [field x] (s.setEnc e) (f (s.setEnc e) x))
    (ht : s.enc.TakesBits (l.map field)) : Emits (l.map field) s (l.foldl f s) := by
  induction l generalizing s with
  | nil => exact ⟨s.enc, rfl, appended_nil ht.1 ht.2.1⟩
  | cons x l ih =>
    exact Emits.andThen (fs := [field x]) (f := fun s => f s x) (g := fun s => l.foldl f s) ht
      (hstep s.enc x List.mem_cons_self)
      fun e _ h => ih (fun e' y hy => hstep e' y (List.mem_cons_of_mem _ hy)) h

/-- The fields sent one after another with ENC.PUT_BITS. -/
def putAll (fs : List Field) (s : State) : State := fs.foldl (fun s f => putBits f.1 f.2 s) s

theorem putAll_emits {fs : List Field} {s : State} (hf : FieldsFit fs) (ht : s.enc.TakesBits fs) :
    Emits fs s (putAll fs s) := by
  have hloop := foldl_emits (field := id) (f := fun (s : State) (f : Field) => putBits f.1 f.2 s) (l := fs) (s := s)
    (fun e f hm h => putBits_emits (s := s.setEnc e) (hf f hm) h) (by rwa [List.map_id])
  rwa [List.map_id] at hloop

/-- ENC.PAD appends zeros to the byte boundary, none when the accumulator is empty (R211). -/
theorem opEncPad_emits {s : State} (ht : s.enc.TakesBits [(0, padBits s.enc.bitsIn.toNat)]) :
    Emits [(0, padBits s.enc.bitsIn.toNat)] s (opEncPad s) := by
  have hb : s.enc.bitsIn.toNat ≤ 7 := ht.1.1
  unfold opEncPad
  split
  case isTrue hzero =>
    have hpad : padBits s.enc.bitsIn.toNat = 0 := by rw [hzero]; rfl
    exact ⟨s.enc, rfl, appended_congr (by simp [hpad]) (by simp) (appended_nil ht.1 ht.2.1)⟩
  case isFalse hne =>
    have hpos : s.enc.bitsIn.toNat ≠ 0 := fun h => hne (BitVec.eq_of_toNat_eq h)
    have hpad : padBits s.enc.bitsIn.toNat = 8 - s.enc.bitsIn.toNat := by
      simp only [padBits]
      omega
    rw [hpad] at ht ⊢
    exact putBits_emits ⟨by omega, Nat.two_pow_pos _⟩ ht

/-- The padding depends on the bits beyond the last whole byte only. -/
theorem padBits_congr {a b : Nat} (h : a % 8 = b % 8) : padBits a = padBits b := by
  simp only [padBits, h]

/-- The same emitter after fields that leave other bits pending: ENC.PAD behind `fs` (R211). -/
theorem padAfter_emits {fs : List Field} {s : State} {f : State → State} {b : Nat}
    (ht : s.enc.TakesBits (fs ++ [(0, padBits b)])) (hb : (s.enc.bitsIn.toNat + bitCount fs) % 8 = b % 8)
    (hf : s.enc.TakesBits fs → Emits fs s (f s)) : Emits (fs ++ [(0, padBits b)]) s (opEncPad (f s)) := by
  refine Emits.andThen ht hf fun e ha h => ?_
  have hbits : padBits b = padBits e.bitsIn.toNat := padBits_congr (by rw [ha.bits, hb, Nat.mod_mod])
  rw [hbits] at h ⊢
  exact opEncPad_emits h

theorem opEncZlibHdr_emits {s : State} (ht : s.enc.TakesBits [(0x78, 8), (Config.zlibFlg.toNat, 8)]) :
    Emits [(0x78, 8), (Config.zlibFlg.toNat, 8)] s (opEncZlibHdr s) := by
  have hfit : FieldsFit [(0x78, 8), (Config.zlibFlg.toNat, 8)] := by
    have := Config.zlibFlg.isLt
    simpa [FieldsFit] using this
  have hput : opEncZlibHdr s = putAll [(0x78, 8), (Config.zlibFlg.toNat, 8)] s := by
    simp only [putAll, List.foldl, putBits, if_pos (hfit _ List.mem_cons_self),
      if_pos (hfit (Config.zlibFlg.toNat, 8) (by simp))]
    rfl
  rw [hput]
  exact putAll_emits hfit ht

/-- The flush marker (R109, R222). -/
theorem opEncSyncMark_emits {s : State} {b : Nat} (hb : s.enc.bitsIn.toNat = b % 8)
    (ht : s.enc.TakesBits (markerFields b)) : Emits (markerFields b) s (opEncSyncMark s) := by
  have hput : opEncSyncMark s = putAll [(0, 16), (0xFFFF, 16)] (opEncPad (putBits 0 3 s)) := by
    simp only [opEncSyncMark, putAll, List.foldl]
  have hsplit : markerFields b = ([(0, 3)] ++ [(0, padBits (b + 3))]) ++ [(0, 16), (0xFFFF, 16)] := rfl
  rw [hsplit] at ht ⊢
  rw [hput]
  exact Emits.andThen (f := fun s => opEncPad (putBits 0 3 s)) (g := putAll [(0, 16), (0xFFFF, 16)]) ht
    (fun h => padAfter_emits (f := putBits 0 3) h (by simp; omega) (putBits_emits (by decide)))
    fun e _ h => putAll_emits (by simp [FieldsFit]) h

/-- The four bytes of the checksum, most significant first (R108, R221). -/
theorem putChecksum_emits {s : State} (hw : s.ctl.writeZlibHeader = true) (ht : s.enc.TakesBits (trailerFields s.ctl)) :
    Emits (trailerFields s.ctl) s
      ([24, 16, 8, 0].foldl (fun s sh => putBits (bitField s.ctl.adler32.toNat sh 8) 8 s) s) := by
  have hfields : trailerFields s.ctl = [24, 16, 8, 0].map fun sh => (bitField s.ctl.adler32.toNat sh 8, 8) := by
    have := s.ctl.adler32.isLt
    simp only [trailerFields, if_pos hw, bitField, List.map, List.cons.injEq, Prod.mk.injEq, and_true]
    omega
  rw [hfields] at ht ⊢
  exact foldl_emits (fun e sh _ h => putBits_emits ⟨by norm_num, Nat.mod_lt _ (by norm_num)⟩ h) ht

/-- The trailer (R108, R221). -/
theorem opEncTrailer_emits {s : State} {b : Nat} (hb : s.enc.bitsIn.toNat = b % 8)
    (ht : s.enc.TakesBits ((0, padBits b) :: trailerFields s.ctl)) :
    Emits ((0, padBits b) :: trailerFields s.ctl) s (opEncTrailer s) := by
  have hbits : padBits b = padBits s.enc.bitsIn.toNat := padBits_congr (by rw [hb, Nat.mod_mod])
  rw [hbits] at ht ⊢
  refine Emits.andThen (fs := [(0, padBits s.enc.bitsIn.toNat)]) (gs := trailerFields s.ctl) (f := opEncPad)
    (g := fun s => if s.ctl.writeZlibHeader then
      [24, 16, 8, 0].foldl (fun s sh => putBits (bitField s.ctl.adler32.toNat sh 8) 8 s) s else s)
    ht opEncPad_emits fun e _ h => ?_
  by_cases hw : s.ctl.writeZlibHeader = true
  · rw [setEnc_ctl, if_pos hw]
    exact putChecksum_emits (s := s.setEnc e) hw h
  · have hnone : trailerFields s.ctl = [] := if_neg hw
    rw [setEnc_ctl, if_neg hw]
    rw [hnone] at h ⊢
    exact ⟨e, rfl, appended_nil h.1 h.2.1⟩

/-- A stored block without a byte (R103, R217). -/
theorem opEncStored_emits {s : State} {b : Nat} (hempty : s.lz.totalLzBytes = 0) (hb : s.enc.bitsIn.toNat = b % 8)
    (ht : s.enc.TakesBits (storedFields b [])) : Emits (storedFields b []) s (opEncStored s) := by
  have hput : opEncStored s = putAll [(0, 16), (65535, 16)] (opEncPad (putBits 0 2 s)) := by
    simp only [opEncStored, hempty, putAll, List.foldl]
    rfl
  have hsplit : storedFields b [] = ([(0, 2)] ++ [(0, padBits (b + 2))]) ++ [(0, 16), (65535, 16)] := rfl
  rw [hsplit] at ht ⊢
  rw [hput]
  exact Emits.andThen (f := fun s => opEncPad (putBits 0 2 s)) (g := putAll [(0, 16), (65535, 16)]) ht
    (fun h => padAfter_emits (f := putBits 0 2) h (by simp; omega) (putBits_emits (by decide)))
    fun e _ h => putAll_emits (by simp [FieldsFit]) h

/-- In the fixed tables EOB has the code 0 of seven bits (R104). -/
theorem codeField_eob_static (s : State) : codeField (opHufLoadStatic s) .litLen 256 = (0, 7) := by
  have hsize : Mem.read staticLitLenSizes 256 = 7 := by decide +kernel
  have hcode : Mem.read (assignedCodes (numSyms .litLen) (codeLimit .litLen) staticLitLenSizes) 256 = 0 := by
    decide +kernel
  have htable : (opHufLoadStatic s).huf.get .litLen = { s.huf.litLen with
      size := staticLitLenSizes, code := assignedCodes (numSyms .litLen) (codeLimit .litLen) staticLitLenSizes } := rfl
  rw [codeField, htable, hsize, hcode]
  rfl

/-- A static block without a record: `BTYPE` and EOB with the fixed tables loaded (R218, R220). -/
theorem staticBlock_emits {s : State} (hempty : s.lz.lzOpCount = 0) (ht : s.enc.TakesBits [(1, 2), (0, 7)]) :
    Emits [(1, 2), (0, 7)] (opHufLoadStatic s) (opEncPayload (opEncStaticHdr s)) := by
  refine Emits.andThen (fs := [(1, 2)]) (f := putBits 1 2) (g := opEncPayload) ht (putBits_emits (by decide))
    fun e _ h => ?_
  have hnone : opEncPayload ((opHufLoadStatic s).setEnc e) = putCode .litLen 256 ((opHufLoadStatic s).setEnc e) := by
    rw [opEncPayload, show ((opHufLoadStatic s).setEnc e).lz.lzOpCount = 0 from hempty]
    rfl
  have heob : codeField ((opHufLoadStatic s).setEnc e) .litLen 256 = (0, 7) := codeField_eob_static s
  rw [hnone, ← heob]
  exact putCode_spec .litLen 256 _ (by rw [heob]; simp [FieldsFit]) (by rw [heob]; exact h)

/-! The tables, the plan and the choice of a block without a record: its only symbol is EOB, counted once. -/

/-- The code lengths HUF.BUILD gives a table with these counts, none where HUF.LIMIT or HUF.ASSIGN_SIZES has no result
(R186); tied to the model by `opHufBuild_of_sizes`. -/
def builtSizes (t : Table) (count : Mem 16) : Option (Mem 8) :=
  let sym := radixSort (collect count (numSyms t))
  (limitLengths (codeLimit t) (naturalOf count (numSyms t))).bind fun num =>
    if sizeable t { State.reset.work with sym := sym, num := num } then some (assignedSizes (codeLimit t) sym num)
    else none

theorem opHufLimit_of_some {limit : Nat} {s : State} {num : List Nat}
    (h : limitLengths limit s.work.lengths = some num) : opHufLimit limit s = s.setWork { s.work with num := num } := by
  rw [opHufLimit, h]

theorem opHufAssignSizes_of_sizeable {t : Table} {s : State} (h : sizeable t s.work = true) :
    opHufAssignSizes t s = s.setTable t { s.huf.get t with
      size := assignedSizes (codeLimit t) s.work.sym s.work.num, code := [] } := if_pos h

/-- The steps of HUF.BUILD up to the natural lengths write working values only (R186). -/
theorem opHufMinred_of_collect (t : Table) (s : State) :
    opHufMinred (opHufKeys (opHufSort t (opHufCollect t s))) = s.setWork { s.work with
      sym := radixSort (collect (s.huf.get t).count (numSyms t))
      lengths := naturalOf (s.huf.get t).count (numSyms t) } := rfl

/-- HUF.BUILD on counts it has a result for leaves the lengths, their codes, and working values (R186). -/
theorem opHufBuild_of_sizes {t : Table} {s : State} {size : Mem 8}
    (h : builtSizes t (s.huf.get t).count = some size) :
    ∃ w, opHufBuild t s = (s.setTable t { s.huf.get t with
      size := size, code := assignedCodes (numSyms t) (codeLimit t) size }).setWork w := by
  obtain ⟨num, hnum, hsizes⟩ := Option.bind_eq_some_iff.1 h
  split at hsizes
  case isFalse => cases hsizes
  case isTrue hsizeable =>
    cases hsizes
    set w : Work := { s.work with
      sym := radixSort (collect (s.huf.get t).count (numSyms t))
      lengths := naturalOf (s.huf.get t).count (numSyms t), num := num } with hw
    have hlimit : opHufLimit (codeLimit t) (opHufMinred (opHufKeys (opHufSort t (opHufCollect t s)))) = s.setWork w := by
      rw [opHufMinred_of_collect]
      exact opHufLimit_of_some hnum
    have hassign := opHufAssignSizes_of_sizeable (t := t) (s := s.setWork w) hsizeable
    refine ⟨w, ?_⟩
    rw [opHufBuild, hlimit, hassign, opHufAssignCodes]
    simp only [setTable_huf, get_set_same, setWork_huf]
    simp only [State.setTable, setHuf_huf, set_set, setWork_huf]
    rfl

/-- ENC.CL_PLAN on lengths whose packing has a code: the code-length table and working values change (R214). -/
theorem opEncClPlan_of_sizes {s : State} {size : Mem 8}
    (h : builtSizes .codeLen (packLengths (lengthSequence s.huf (trimCodes s.huf.litLen.size 257 286)
      (trimCodes s.huf.dist.size 1 30))).count = some size) :
    ∃ c w, opEncClPlan s = (s.setTable .codeLen c).setWork w := by
  obtain ⟨w, hw⟩ := opHufBuild_of_sizes (t := .codeLen) (s := s.setTable .codeLen { s.huf.codeLen with
    count := (packLengths (lengthSequence s.huf (trimCodes s.huf.litLen.size 257 286)
      (trimCodes s.huf.dist.size 1 30))).count }) (by rw [setTable_huf, get_set_same]; exact h)
  unfold opEncClPlan
  dsimp only
  rw [hw]
  simp only [State.setTable, setHuf_setHuf, setHuf_huf, set_set, setWork_setWork]
  exact ⟨_, _, rfl⟩

theorem builtSizes_eob : builtSizes .litLen [(256, 1)] = some [(256, 1)] := by decide

theorem builtSizes_unused : builtSizes .dist [] = some [] := by decide

/-- The lengths of a block without a record pack into 138 and 118 zeros, a one and a zero, and these have a code. -/
theorem builtSizes_eobPlan : builtSizes .codeLen (packLengths
    ((Mem.readRun [(256, (1 : BitVec 8))] 0 (trimCodes [(256, 1)] 257 286)).map BitVec.toNat
      ++ (Mem.readRun ([] : Mem 8) 0 (trimCodes [] 1 30)).map BitVec.toNat)).count
    = some [(0, 2), (1, 2), (18, 1)] := by decide +kernel

/-- The tables and the plan of a block without a record: HUF.BUILD and ENC.CL_PLAN complete and keep the counts (R214). -/
theorem plan_eob {s : State} (hlit : s.huf.litLen.count = [(256, 1)]) (hdist : s.huf.dist.count = []) :
    ∃ h w, opEncClPlan (opHufBuild .dist (opHufBuild .litLen s)) = (s.setHuf h).setWork w
      ∧ h.litLen.count = [(256, 1)] ∧ h.dist.count = [] := by
  obtain ⟨w1, h1⟩ := opHufBuild_of_sizes (t := .litLen) (s := s) (size := [(256, 1)])
    (by rw [Huffman.get, hlit]; exact builtSizes_eob)
  rw [h1]
  set l : HuffTable := { s.huf.get .litLen with
    size := [(256, 1)], code := assignedCodes (numSyms .litLen) (codeLimit .litLen) [(256, 1)] } with hl
  obtain ⟨w2, h2⟩ := opHufBuild_of_sizes (t := .dist) (s := (s.setTable .litLen l).setWork w1) (size := [])
    (by rw [show ((s.setTable .litLen l).setWork w1).huf.get .dist = s.huf.dist from rfl, hdist]; exact builtSizes_unused)
  rw [h2]
  set d : HuffTable := { ((s.setTable .litLen l).setWork w1).huf.get .dist with
    size := [], code := assignedCodes (numSyms .dist) (codeLimit .dist) [] } with hd
  obtain ⟨c, w3, h3⟩ := opEncClPlan_of_sizes (s := (((s.setTable .litLen l).setWork w1).setTable .dist d).setWork w2)
    builtSizes_eobPlan
  exact ⟨_, w3, h3, hlit, hdist⟩

/-- The plan of a block without a record completes, and no other block type costs less than the static one (R215). -/
theorem closePlan_eob {s : State} (hlit : s.huf.litLen.count = [(256, 1)]) (hdist : s.huf.dist.count = []) :
    ∃ h w, closePlan s = (s.setHuf h).setWork w ∧ w.costStatic ≤ w.costDynamic ∧ w.costStatic ≤ w.costStored := by
  obtain ⟨h, w, hplan, hl, hd⟩ := plan_eob hlit hdist
  have hstatic : costStatic h = 9 := by
    rw [costStatic, hl, hd]
    decide
  refine ⟨h, _, by rw [closePlan, hplan, opEncCost, setWork_setWork], ?_, ?_⟩
  · show costStatic h ≤ costDynamic h _
    rw [hstatic, costDynamic]
    omega
  · show costStatic h ≤ costStored _ _
    rw [hstatic, costStored]
    omega

/-- When the block's bytes are all in the window and the static type costs least, the block is stored in forced-raw mode and
static otherwise (R216). -/
theorem chooseType_of_costs {s : State} (hok : storedOk s = true) (hd : s.work.costStatic ≤ s.work.costDynamic)
    (hs : s.work.costStatic ≤ s.work.costStored) : chooseType s = if s.ctl.forceRaw then .stored else .static := by
  simp only [chooseType, hok, Bool.and_true, Bool.true_and, decide_eq_true_eq, Nat.not_lt.2 hd, Nat.not_lt.2 hs, if_false]
  split
  · rfl
  · simp

/-! The block staged. -/

/-- What precedes the body of a block: the stream header of the first one, `BFINAL` (R212, R213). -/
def headFields (s : State) (fl : FlushMode) : List Field :=
  (if s.ctl.writeZlibHeader = true ∧ s.ctl.blockIndex = 0 then [(0x78, 8), (Config.zlibFlg.toNat, 8)] else [])
    ++ [(if fl = .finish then 1 else 0, 1)]

/-- The body of a block without a record, `b` bits being pending (R216 to R220). -/
def emptyBody (c : Control) (b : Nat) : List Field := if c.forceRaw then storedFields b [] else [(1, 2), (0, 7)]

/-- What follows the body, `b` bits being pending (R265). -/
def tailFields (c : Control) (fl : FlushMode) (b : Nat) : List Field :=
  match fl with
  | .none => []
  | .sync => markerFields b
  | .full => markerFields b
  | .finish => (0, padBits b) :: trailerFields c

/-- The fields of a block without a record are its head, its body and what follows, as the statements list them. -/
theorem emptyBlockFields_eq (s : State) (fl : FlushMode) :
    emptyBlockFields s fl = (headFields s fl ++ emptyBody s.ctl (s.enc.bitsIn.toNat + 1))
      ++ tailFields s.ctl fl (s.enc.bitsIn.toNat + 1 + bitCount (emptyBody s.ctl (s.enc.bitsIn.toNat + 1))) := by
  cases fl <;> rfl

theorem bitCount_headFields (s : State) (fl : FlushMode) :
    bitCount (headFields s fl) % 8 = 1 ∧ bitCount (headFields s fl) ≤ 17 := by
  unfold headFields
  split <;> simp

theorem bitCount_emptyBody_le (c : Control) (b : Nat) : bitCount (emptyBody c b) ≤ 41 := by
  unfold emptyBody
  split
  · simp [storedFields, padBits]
    omega
  · simp

theorem bitCount_tailFields_le (c : Control) (fl : FlushMode) (b : Nat) : bitCount (tailFields c fl b) ≤ 42 := by
  have htrailer : bitCount (trailerFields c) ≤ 32 := by
    unfold trailerFields
    split <;> simp
  cases fl <;> simp [tailFields, markerFields, padBits] <;> omega

/-- A block without a record has at most thirteen whole bytes. -/
theorem wholeBytes_emptyBlock_le {s : State} {fl : FlushMode} (h : s.enc.bitsIn.toNat ≤ 7) :
    wholeBytes { s.enc with stagePos := 0 } (emptyBlockFields s fl) ≤ 13 := by
  have hhead := (bitCount_headFields s fl).2
  have hbody := bitCount_emptyBody_le s.ctl (s.enc.bitsIn.toNat + 1)
  have htail := bitCount_tailFields_le s.ctl fl
    (s.enc.bitsIn.toNat + 1 + bitCount (emptyBody s.ctl (s.enc.bitsIn.toNat + 1)))
  simp only [emptyBlockFields_eq, wholeBytes, bitCount_append]
  omega

/-- The head of a block (R212, R213). -/
theorem head_emits {s : State} (fl : FlushMode) (ht : s.enc.TakesBits (headFields s fl)) :
    Emits (headFields s fl) s (putFinal (fl == .finish)
      (if s.ctl.writeZlibHeader = true ∧ s.ctl.blockIndex = 0 then opEncZlibHdr s else s)) := by
  have hfinal : putFinal (fl == .finish) = putBits (if fl = .finish then 1 else 0) 1 := by
    funext u
    cases fl <;> rfl
  rw [hfinal]
  refine Emits.andThen (g := putBits (if fl = .finish then 1 else 0) 1)
    (f := fun u => if s.ctl.writeZlibHeader = true ∧ s.ctl.blockIndex = 0 then opEncZlibHdr u else u)
    ht (fun h => ?_) fun e _ h => putBits_emits (s := s.setEnc e) (by split <;> decide) h
  split
  case isTrue hfirst =>
    rw [if_pos hfirst] at h
    exact opEncZlibHdr_emits h
  case isFalse hlater =>
    rw [if_neg hlater] at h
    exact ⟨s.enc, rfl, appended_nil h.1 h.2.1⟩

/-- The start of DRV.CLOSE_BLOCK between two blocks: the head is appended to an empty `stage`, EOB is counted (R265). -/
theorem closeStart_emits {s : State} (fl : FlushMode) (hcount : s.huf.litLen.count = [])
    (ht : ({ s.enc with stagePos := 0 } : Encoder).TakesBits (headFields s fl)) :
    ∃ e, closeStart fl s = ((s.setEnc e).setDrv { s.drv with flushOfs := 0 }).setTable .litLen
        { s.huf.litLen with count := [(256, 1)] }
      ∧ ({ s.enc with stagePos := 0 } : Encoder).Appended (headFields s fl) e := by
  obtain ⟨e, he, ha⟩ := head_emits
    (s := (s.setEnc { s.enc with stagePos := 0 }).setDrv { s.drv with flushOfs := 0 }) fl ht
  refine ⟨e, ?_, ha⟩
  unfold closeStart
  dsimp only
  rw [he]
  simp only [setEnc_huf, setDrv_huf, hcount]
  rfl

/-- The body of a block without a record, of the type chosen for it (R217, R218, R220). -/
theorem encodeBlock_emits {s : State} {b : Nat} (hops : s.lz.lzOpCount = 0) (hspan : s.lz.totalLzBytes = 0)
    (hb : s.enc.bitsIn.toNat = b % 8) (ht : s.enc.TakesBits (emptyBody s.ctl b)) :
    ∃ h, Emits (emptyBody s.ctl b) (s.setHuf h)
      (encodeBlock (if s.ctl.forceRaw then .stored else .static) s) := by
  by_cases hraw : s.ctl.forceRaw = true
  · have hbody : emptyBody s.ctl b = storedFields b [] := if_pos hraw
    rw [if_pos hraw]
    rw [hbody] at ht ⊢
    exact ⟨s.huf, opEncStored_emits hspan hb ht⟩
  · have hbody : emptyBody s.ctl b = [(1, 2), (0, 7)] := if_neg hraw
    rw [if_neg hraw]
    rw [hbody] at ht ⊢
    exact ⟨(opHufLoadStatic s).huf, staticBlock_emits hops ht⟩

theorem closeTail_emits {s : State} {b : Nat} (fl : FlushMode) (hb : s.enc.bitsIn.toNat = b % 8)
    (ht : s.enc.TakesBits (tailFields s.ctl fl b)) : Emits (tailFields s.ctl fl b) s (closeTail fl s) := by
  cases fl with
  | none => exact ⟨s.enc, rfl, appended_nil ht.1 ht.2.1⟩
  | sync | full => exact opEncSyncMark_emits hb ht
  | finish => exact opEncTrailer_emits hb ht

/-- An empty `stage` has room for a block without a record. -/
theorem takes_emptyBlock {s : State} (fl : FlushMode) (hbits : s.enc.Sound) (hstage : Mem.wf s.enc.stage) :
    ({ s.enc with stagePos := 0 } : Encoder).TakesBits (emptyBlockFields s fl) := by
  have hfew := wholeBytes_emptyBlock_le (s := s) (fl := fl) hbits.1
  refine ⟨hbits, hstage, ?_⟩
  exact (Nat.zero_add _).trans_le (hfew.trans (by norm_num))

/-- The first steps of DRV.CLOSE_BLOCK between two blocks: the head is appended, and the block is to be stored in forced-raw
mode and static otherwise (R216, R265). -/
theorem closePlan_quiet {s : State} (fl : FlushMode) (hq : Quiet s)
    (ht : ({ s.enc with stagePos := 0 } : Encoder).TakesBits (headFields s fl)) :
    ∃ x, closePlan (closeStart fl s) = x ∧ chooseType x = (if s.ctl.forceRaw then .stored else .static)
      ∧ x.halt = none ∧ x.ctl = s.ctl ∧ x.lz = s.lz
      ∧ ({ s.enc with stagePos := 0 } : Encoder).Appended (headFields s fl) x.enc := by
  obtain ⟨e, hstart, happ⟩ := closeStart_emits fl hq.counts.1 ht
  obtain ⟨h, w, hplan, hdyn, hsto⟩ := closePlan_eob (s := closeStart fl s) (by rw [hstart]; rfl)
    (by rw [hstart]; exact hq.counts.2)
  refine ⟨_, hplan, ?_, ?_, ?_, ?_, ?_⟩
  · rw [chooseType_of_costs ?_ hdyn hsto, hstart]
    · rfl
    · have hnone : s.drv.lookaheadPos - s.drv.blockStartPos = 0#32 := by rw [hq.span, BitVec.sub_self]
      rw [hstart]
      simp [storedOk, hnone]
  · rw [hstart]; exact hq.running
  · rw [hstart]; rfl
  · rw [hstart]; rfl
  · rw [hstart]; exact happ

/-- The body of a block without a record and what follows it (R265). -/
theorem bodyTail_appends {x : State} {b : Nat} (fl : FlushMode) (hops : x.lz.lzOpCount = 0)
    (hspan : x.lz.totalLzBytes = 0) (hb : x.enc.bitsIn.toNat = b % 8)
    (ht : x.enc.TakesBits (emptyBody x.ctl b ++ tailFields x.ctl fl (b + bitCount (emptyBody x.ctl b)))) :
    ∃ h e, closeTail fl (encodeBlock (if x.ctl.forceRaw then .stored else .static) x) = (x.setHuf h).setEnc e
      ∧ x.enc.Appended (emptyBody x.ctl b ++ tailFields x.ctl fl (b + bitCount (emptyBody x.ctl b))) e := by
  obtain ⟨h, e1, hbody, app1⟩ := encodeBlock_emits hops hspan hb (takes_left ht)
  have hb1 : e1.bitsIn.toNat = (b + bitCount (emptyBody x.ctl b)) % 8 := by
    rw [app1.bits, setHuf_enc, hb]
    omega
  obtain ⟨e2, htail, app2⟩ := closeTail_emits (s := (x.setHuf h).setEnc e1) fl hb1 (takes_right ht app1)
  exact ⟨h, e2, by rw [hbody, htail, setEnc_setEnc], appended_trans app1 app2⟩

/-- DRV.CLOSE_BLOCK between two blocks, up to the hand-over: the fields of a block without a record are appended to an empty
`stage`, and one more block is counted (R265). -/
theorem stageBlock_quiet {s : State} (fl : FlushMode) (hq : Quiet s) :
    (stageBlock fl s).halt = none
    ∧ ({ s.enc with stagePos := 0 } : Encoder).Appended (emptyBlockFields s fl) (stageBlock fl s).enc
    ∧ (stageBlock fl s).ctl.blockIndex = s.ctl.blockIndex + 1 := by
  have htakes := takes_emptyBlock fl hq.bits hq.stage
  rw [emptyBlockFields_eq, List.append_assoc] at htakes ⊢
  obtain ⟨x, hplan, hchoose, hrun, hctl, hlz, happ⟩ := closePlan_quiet fl hq (takes_left htakes)
  have hright := takes_right htakes happ
  have hbits : x.enc.bitsIn.toNat = (s.enc.bitsIn.toNat + 1) % 8 := by
    have hhead := (bitCount_headFields s fl).1
    rw [happ.bits]
    dsimp only
    omega
  rw [← hctl] at hright hchoose ⊢
  obtain ⟨h, e, htail, happ'⟩ := bodyTail_appends fl (by rw [hlz]; exact hq.records.1) (by rw [hlz]; exact hq.records.2)
    hbits hright
  have hall : stageBlock fl s = closeBooks ((x.setHuf h).setEnc e) := by
    rw [stageBlock, hplan, hchoose, htail]
  rw [hall]
  exact ⟨hrun, appended_trans happ happ', rfl⟩

/-- DRV.CLOSE_BLOCK between two blocks with room for all its bytes: the block is staged and delivered whole (R265, R266). -/
theorem opDrvCloseBlock_quiet {fl : FlushMode} {s : State} (hq : Quiet s) (hslice : s.ctl.sinkMode = false)
    (hroom : 13 ≤ outRoom s) :
    opDrvCloseBlock fl s = deliver 0 (wholeBytes { s.enc with stagePos := 0 } (emptyBlockFields s fl)) (stageBlock fl s) := by
  have hstage := stageBlock_staging fl s
  have hpos := (stageBlock_quiet fl hq).2.1.pos
  have hfew := wholeBytes_emptyBlock_le (s := s) (fl := fl) hq.bits.1
  rw [show ({ s.enc with stagePos := 0 } : Encoder).stagePos.toNat = 0 from rfl, Nat.zero_add] at hpos
  have hkeep : outRoom (stageBlock fl s) = outRoom s := by rw [outRoom, hstage.call, outRoom]
  rw [opDrvCloseBlock, if_pos hq.pending,
    handOver_fits (by rw [hstage.ctl]; exact hslice) (by rw [hpos, hkeep]; omega), hpos]

/-- A flush call between two blocks, with room in the slice (the first clause of O16). -/
theorem flushCall_quiet {fl : FlushMode} {ip : Bool} {oc : BitVec 32} {s : State} (hq : Quiet s) (hfl : fl ≠ .none)
    (haccepted : ¬ Rejected (flushField fl) ip true 0 s) (hslice : s.ctl.sinkMode = false)
    (hw : Mem.wf s.host.outSlice) (hfin : s.ctl.finished = false) (hroom : 16 ≤ oc.toNat) :
    ∃ u t, exec (compressOf fl ip true 0 oc) s = .next t ∧ FlushAnswered fl s u t ∧ u.drv.flushRemaining = 0
      ∧ ({ s.enc with stagePos := 0 } : Encoder).Appended (emptyBlockFields s fl) u.enc
      ∧ u.ctl.blockIndex = s.ctl.blockIndex + 1
      ∧ u.call.outOfs = BitVec.ofNat 32 (wholeBytes { s.enc with stagePos := 0 } (emptyBlockFields s fl))
      ∧ ∀ j, Mem.read u.host.outSlice j = if j < wholeBytes { s.enc with stagePos := 0 } (emptyBlockFields s fl)
          then Mem.read u.enc.stage j else Mem.read s.host.outSlice j := by
  set n := wholeBytes { s.enc with stagePos := 0 } (emptyBlockFields s fl) with hn
  have hqb : Quiet (callBegun fl ip true 0 oc s) :=
    ⟨hq.running, hq.empty, hq.span, hq.records, hq.counts, hq.bits, hq.stage, hq.pending⟩
  have hroomb : 13 ≤ outRoom (callBegun fl ip true 0 oc s) := by
    have : outRoom (callBegun fl ip true 0 oc s) = oc.toNat := by simp [outRoom, callBegun, hslice]
    omega
  have hclose : opDrvCloseBlock fl (callBegun fl ip true 0 oc s)
      = deliver 0 n (stageBlock fl (callBegun fl ip true 0 oc s)) := opDrvCloseBlock_quiet hqb hslice hroomb
  obtain ⟨hrun, happ, hindex⟩ := stageBlock_quiet fl hqb
  have hstage := stageBlock_staging fl (callBegun fl ip true 0 oc s)
  obtain ⟨x, hx⟩ : ∃ x, stageBlock fl (callBegun fl ip true 0 oc s) = x := ⟨_, rfl⟩
  rw [hx] at hclose hrun happ hindex hstage
  have hexec : exec (.drvCloseBlock fl) (callBegun fl ip true 0 oc s) = .next (deliver 0 n x) :=
    settle_eq_next.2 ⟨by rw [hclose]; exact hrun, hclose.symm⟩
  have hprev : (deliver 0 n x).ctl.prevStatus ≠ .putBufFailed := by
    show x.ctl.prevStatus ≠ .putBufFailed
    rw [hstage.ctl]
    show s.ctl.prevStatus ≠ .putBufFailed
    rw [prevStatus_of_accepted haccepted]
    decide
  obtain ⟨t, ht, hanswered⟩ := (flushCall_of_closed hfl haccepted hq.empty hq.pending hfin hexec).2 hprev
  refine ⟨_, t, ht, hanswered, ?_, happ, hindex, ?_, fun j => ?_⟩
  · show x.drv.flushRemaining = 0
    rw [hstage.drv]
    exact hq.pending
  · show x.call.outOfs + BitVec.ofNat 32 n = BitVec.ofNat 32 n
    rw [hstage.call]
    exact BitVec.zero_add _
  · have hread := read_deliver_start 0 n x (by rw [hstage.host]; exact hw) (by rw [hstage.call]; rfl) j
    rw [hstage.host, Nat.zero_add] at hread
    exact hread

/-- Settles O16: between two blocks the block's steps are computed, each as the fields it appends; in any state the end of
the call adds to DRV.CLOSE_BLOCK the answer, and for Full the forgetting. -/
theorem flushClosesEmptyBlock : Obligations.FlushClosesEmptyBlock := by
  unfold Obligations.FlushClosesEmptyBlock
  refine ⟨fun fl ip oc s hq hfl haccepted hslice hw hfin hroom => ?_,
    fun fl ip op oc s u _ hfl haccepted hempty hnone hfin hclosed => ?_⟩
  · obtain ⟨u, t, ht, h, hrem, happ, hindex, hofs, hread⟩ := flushCall_quiet hq hfl haccepted hslice hw hfin hroom
    refine ⟨t, ht, ?_, fun j => ?_, ?_, ?_, ?_, ?_, h.history⟩
    · rw [h.enc]; exact happ
    · rw [h.outSlice, h.enc]; exact hread j
    · rw [h.response, hofs]
      simp only [hrem, and_true]
    · rw [h.ctl]
    · rw [h.ctl]; exact hindex
    · rw [h.flushRemaining]; exact hrem
  · obtain ⟨hrefused, hanswered⟩ := flushCall_of_closed hfl haccepted hempty hnone hfin hclosed
    refine ⟨hrefused, fun hok => ?_⟩
    obtain ⟨t, ht, h⟩ := hanswered hok
    exact ⟨t, ht, h.response, h.ctl, h.enc, h.lz, h.huf, h.outSlice, h.sinkOut, h.flushOfs, h.flushRemaining, h.history⟩

end Sys2Proof.Proofs.HostCalls

/-! The encoding family: what the decoder reads back from the encoder's words. -/

namespace Sys2Proof.Proofs.Encoding

set_option Elab.async false

open Sys2Proof Sys2Proof.Machine Sys2Proof.Laws

/-- An operand is the low bits of its word. -/
theorem setWidth_word {n : Nat} (x : BitVec n) (hn : n ≤ 32) : (word x.toNat).setWidth n = x := by
  have hx : x.toNat < 2 ^ 32 := lt_of_lt_of_le x.isLt (Nat.pow_le_pow_right (by norm_num) hn)
  refine BitVec.eq_of_toNat_eq ?_
  rw [BitVec.toNat_setWidth, word, BitVec.toNat_ofNat, Nat.mod_eq_of_lt hx, Nat.mod_eq_of_lt x.isLt]

/-- A number that fits is read back from its word. -/
theorem wordAt_word {v : Nat} (h : v < 2 ^ 32) (ws : List (BitVec 32)) : wordAt (word v :: ws) 0 = v := by
  rw [wordAt, List.getD_cons_zero, word, BitVec.toNat_ofNat, Nat.mod_eq_of_lt h]

/-- A symbol and the extra value above it fit in a word. -/
theorem wordAt_symbol {n k c : Nat} (x : BitVec n) (hc : c < 2 ^ k) (hn : n + k ≤ 32) :
    wordAt [word (x.toNat * 2 ^ k + c)] 0 = c + x.toNat * 2 ^ k := by
  have hfit : x.toNat * 2 ^ k + c < 2 ^ 32 :=
    calc x.toNat * 2 ^ k + c < (x.toNat + 1) * 2 ^ k := by rw [Nat.add_mul]; omega
      _ ≤ 2 ^ n * 2 ^ k := Nat.mul_le_mul_right _ x.isLt
      _ = 2 ^ (n + k) := (pow_add 2 n k).symm
      _ ≤ 2 ^ 32 := Nat.pow_le_pow_right (by norm_num) hn
  rw [wordAt_word hfit, Nat.add_comm]

/-- The low bits of a symbol's word are the symbol. -/
theorem symbolWord_low {n k c : Nat} (x : BitVec n) (hc : c < 2 ^ k) (hn : n + k ≤ 32) :
    wordAt [word (x.toNat * 2 ^ k + c)] 0 % 2 ^ k = c := by
  rw [wordAt_symbol x hc hn, Nat.add_mul_mod_self_right, Nat.mod_eq_of_lt hc]

/-- The bits above the symbol are its extra value. -/
theorem symbolWord_high {n k c : Nat} (x : BitVec n) (hc : c < 2 ^ k) (hn : n + k ≤ 32) :
    wordAt [word (x.toNat * 2 ^ k + c)] 0 / 2 ^ k = x.toNat := by
  rw [wordAt_symbol x hc hn, Nat.add_mul_div_right _ _ (Nat.two_pow_pos k), Nat.div_eq_of_lt hc, Nat.zero_add]

/-- A COMPRESS word gives back its opcode, its flush field and its two present bits. -/
theorem compressWord_parts (f : BitVec 3) (ip op : Bool) (il oc : BitVec 32) :
    bitField (wordAt (encodeCompress f.toNat ip op il oc) 0) 28 4 = 1
    ∧ bitField (wordAt (encodeCompress f.toNat ip op il oc) 0) 0 3 = f.toNat
    ∧ decide (bitField (wordAt (encodeCompress f.toNat ip op il oc) 0) 3 1 = 1) = ip
    ∧ decide (bitField (wordAt (encodeCompress f.toNat ip op il oc) 0) 4 1 = 1) = op
    ∧ BitVec.ofNat 3 (wordAt (encodeCompress f.toNat ip op il oc) 0) = f := by
  have hf := f.isLt
  have hip := Bool.toNat_le ip
  have hop := Bool.toNat_le op
  have hword : wordAt (encodeCompress f.toNat ip op il oc) 0 = 2 ^ 28 + op.toNat * 2 ^ 4 + ip.toNat * 2 ^ 3 + f.toNat :=
    wordAt_word (by omega) _
  rw [hword]
  simp only [bitField]
  refine ⟨by omega, by omega, ?_, ?_, BitVec.eq_of_toNat_eq (by rw [BitVec.toNat_ofNat]; omega)⟩
  · cases ip <;> simp <;> omega
  · cases op <;> simp <;> omega

/-- The flush field picks the row of a COMPRESS word (R93). -/
theorem decode_encodeCompress (f : BitVec 3) (ip op : Bool) (il oc : BitVec 32) :
    decode .command (encodeCompress f.toNat ip op il oc) = .ok
      (match flushMode f with
        | some fl => compressOf fl ip op il oc
        | none => .compress f ip op il oc) := by
  obtain ⟨hopcode, hflush, hin, hout, hfield⟩ := compressWord_parts f ip op il oc
  have hlen : BitVec.ofNat 32 (wordAt (encodeCompress f.toNat ip op il oc) 1) = il := by
    rw [show wordAt (encodeCompress f.toNat ip op il oc) 1 = il.toNat from rfl, BitVec.ofNat_toNat, BitVec.setWidth_eq]
  have hcap : BitVec.ofNat 32 (wordAt (encodeCompress f.toNat ip op il oc) 2) = oc := by
    rw [show wordAt (encodeCompress f.toNat ip op il oc) 2 = oc.toNat from rfl, BitVec.ofNat_toNat, BitVec.setWidth_eq]
  simp only [decode, decodeCommand, hopcode, hflush, hin, hout, hfield, hlen, hcap]
  have hrange : ∀ g : BitVec 3, g = 0 ∨ g = 1 ∨ g = 2 ∨ g = 3 ∨ g = 4 ∨ g = 5 ∨ g = 6 ∨ g = 7 := by decide
  rcases hrange f with rfl | rfl | rfl | rfl | rfl | rfl | rfl | rfl <;> rfl

/-- Only a reserved flush value makes a well-formed generic COMPRESS (R93). -/
theorem wf_compress_iff (f : BitVec 3) (ip op : Bool) (il oc : BitVec 32) :
    (Instr.compress f ip op il oc).wf = true ↔ flushMode f = none := by
  change (!flushRecognised f) = true ↔ _
  revert f
  decide

/-- The operands of a well-formed REC.MATCH (R161). -/
theorem wf_recMatch_iff (len : BitVec 9) (dist : BitVec 16) : (Instr.recMatch len dist).wf = true ↔
    (3 ≤ len.toNat ∧ len.toNat ≤ 258) ∧ 1 ≤ dist.toNat ∧ dist.toNat ≤ 32768 := by
  simp [Instr.wf, and_assoc]

theorem decode_encode_init (flags : BitVec 20) (sink : Bool) :
    decode .command (encode (.init flags sink)).2 = .ok (.init flags sink) := by
  have hflags := flags.isLt
  have hword : wordAt [word (sink.toNat * 2 ^ 20 + flags.toNat)] 0 = sink.toNat * 2 ^ 20 + flags.toNat :=
    wordAt_word (by have := Bool.toNat_le sink; omega) _
  have hopcode : bitField (sink.toNat * 2 ^ 20 + flags.toNat) 28 4 = 0 := by
    have := Bool.toNat_le sink
    simp only [bitField]
    omega
  have hsink : decide (bitField (sink.toNat * 2 ^ 20 + flags.toNat) 20 1 = 1) = sink := by
    cases sink <;> simp [bitField] <;> omega
  have hlow : BitVec.ofNat 20 (sink.toNat * 2 ^ 20 + flags.toNat) = flags :=
    BitVec.eq_of_toNat_eq (by rw [BitVec.toNat_ofNat]; omega)
  simp only [encode, decode, decodeCommand, hword, hopcode, hsink, hlow]

theorem decode_encode_recMatch (len : BitVec 9) (dist : BitVec 16) (h : (Instr.recMatch len dist).wf = true) :
    decode .micro (encode (.recMatch len dist)).2 = .ok (.recMatch len dist) := by
  obtain ⟨⟨hlen, hlen'⟩, hdist, hdist'⟩ := (wf_recMatch_iff len dist).1 h
  have hl : BitVec.ofNat 9 (bitField (word (len.toNat - 3)).toNat 0 8 + 3) = len := BitVec.eq_of_toNat_eq (by
    simp only [bitField, word, BitVec.toNat_ofNat]
    omega)
  have hd : BitVec.ofNat 16 (bitField (word (dist.toNat - 1)).toNat 0 15 + 1) = dist := BitVec.eq_of_toNat_eq (by
    simp only [bitField, word, BitVec.toNat_ofNat]
    omega)
  change Except.ok (Instr.recMatch (BitVec.ofNat 9 (bitField (word (len.toNat - 3)).toNat 0 8 + 3))
    (BitVec.ofNat 16 (bitField (word (dist.toNat - 1)).toNat 0 15 + 1))) = _
  rw [hl, hd]

theorem decode_encode_lit (b : BitVec 8) : decode .lzRecord (encode (.lit b)).2 = .ok (.lit b) := by
  have hb := b.isLt
  have hword : wordAt [word (b.toNat * 2 ^ 8)] 0 = b.toNat * 2 ^ 8 := wordAt_word (by omega) _
  have hbyte : BitVec.ofNat 8 (bitField (b.toNat * 2 ^ 8) 8 8) = b := BitVec.eq_of_toNat_eq (by
    simp only [bitField, BitVec.toNat_ofNat]
    omega)
  simp only [encode, decode, decodeRecord, hword, hbyte]
  rw [if_pos (by omega)]

theorem decode_encode_matchRec (l3 : BitVec 8) (d1 : BitVec 15) :
    decode .lzRecord (encode (.matchRec l3 d1)).2 = .ok (.matchRec l3 d1) := by
  have hl3 := l3.isLt
  have hd1 := d1.isLt
  have hword : wordAt [word (d1.toNat * 2 ^ 16 + l3.toNat * 2 ^ 8 + 1)] 0 = d1.toNat * 2 ^ 16 + l3.toNat * 2 ^ 8 + 1 :=
    wordAt_word (by omega) _
  have hlen : BitVec.ofNat 8 (bitField (d1.toNat * 2 ^ 16 + l3.toNat * 2 ^ 8 + 1) 8 8) = l3 :=
    BitVec.eq_of_toNat_eq (by
      simp only [bitField, BitVec.toNat_ofNat]
      omega)
  have hdist : BitVec.ofNat 15 (bitField (d1.toNat * 2 ^ 16 + l3.toNat * 2 ^ 8 + 1) 16 15) = d1 :=
    BitVec.eq_of_toNat_eq (by
      simp only [bitField, BitVec.toNat_ofNat]
      omega)
  simp only [encode, decode, decodeRecord, hword, hlen, hdist]
  rw [if_neg (by omega), if_pos (by simp only [bitField]; omega)]

theorem decode_encode_symLiteral (byte : BitVec 8) :
    decode .litLenSym (encode (.symLiteral byte)).2 = .ok (.symLiteral byte) := by
  have hb := byte.isLt
  have hword : wordAt [word byte.toNat] 0 = byte.toNat := wordAt_word (by omega) _
  simp only [encode, decode, decodeLitLenSym, hword, BitVec.ofNat_toNat, BitVec.setWidth_eq]
  rw [if_pos (by omega)]

/-- Symbol 284 is read back unless its extra value is the one that would make it length 258 (R98). -/
theorem decode_encode_symLen284 (x : BitVec 5) (h : (Instr.symLen284 x).wf = true) :
    decode .litLenSym (encode (.symLen284 x)).2 = .ok (.symLen284 x) := by
  have hne : ¬ x.toNat % 2 ^ 5 = 31 := by
    have hx31 : x ≠ 31#5 := by simpa [Instr.wf] using h
    rw [Nat.mod_eq_of_lt x.isLt]
    exact fun h31 => hx31 (BitVec.eq_of_toNat_eq h31)
  simp (disch := decide) only [encode, decode, decodeLitLenSym, symbolWord_low, symbolWord_high, BitVec.ofNat_toNat,
    BitVec.setWidth_eq, if_neg hne]
  rfl

/-- Settles O1: the words of every constructor read back, operand by operand; the operands that no word carries are the ones
well-formedness excludes. -/
theorem decodeEncode : Obligations.DecodeEncode := by
  unfold Obligations.DecodeEncode
  intro i hwf
  cases i with
  | init flags sink => exact decode_encode_init flags sink
  | compress f ip op il oc =>
    change decode .command (encodeCompress f.toNat ip op il oc) = _
    rw [decode_encodeCompress, (wf_compress_iff f ip op il oc).1 hwf]
  | compressNone ip op il oc => exact decode_encodeCompress 0 ip op il oc
  | compressSync ip op il oc => exact decode_encodeCompress 2 ip op il oc
  | compressFull ip op il oc => exact decode_encodeCompress 3 ip op il oc
  | compressFinish ip op il oc => exact decode_encodeCompress 4 ip op il oc
  | recMatch len dist => exact decode_encode_recMatch len dist hwf
  | dictWrite | dictInsert | dictFind | dictRle | recLit | encPutBits | drvAdler =>
    change Except.ok _ = _
    simp (disch := decide) only [encode, wordAt, List.getD_cons_succ, List.getD_cons_zero, BitVec.ofNat_toNat,
      BitVec.setWidth_eq, setWidth_word]
  | hufSort t | hufAssignSizes t | hufAssignCodes t | hufBuild t => cases t <;> rfl
  | hufLimit limit => cases limit <;> rfl
  | drvCloseBlock fl => cases fl <;> rfl
  | lit b => exact decode_encode_lit b
  | matchRec l3 d1 => exact decode_encode_matchRec l3 d1
  | blockStored bfinal | blockStatic bfinal | blockDynamic bfinal => cases bfinal <;> rfl
  | symLiteral byte => exact decode_encode_symLiteral byte
  | symLen284 x => exact decode_encode_symLen284 x hwf
  | symLen265 x | symLen266 x | symLen267 x | symLen268 x | symLen269 x | symLen270 x | symLen271 x | symLen272 x
  | symLen273 x | symLen274 x | symLen275 x | symLen276 x | symLen277 x | symLen278 x | symLen279 x | symLen280 x
  | symLen281 x | symLen282 x | symLen283 x =>
    simp (disch := decide) only [encode, decode, decodeLitLenSym, symbolWord_low, symbolWord_high, BitVec.ofNat_toNat,
      BitVec.setWidth_eq]
    rfl
  | symDist4 x | symDist5 x | symDist6 x | symDist7 x | symDist8 x | symDist9 x | symDist10 x | symDist11 x
  | symDist12 x | symDist13 x | symDist14 x | symDist15 x | symDist16 x | symDist17 x | symDist18 x | symDist19 x
  | symDist20 x | symDist21 x | symDist22 x | symDist23 x | symDist24 x | symDist25 x | symDist26 x | symDist27 x
  | symDist28 x | symDist29 x =>
    simp (disch := decide) only [encode, decode, decodeDistSym, symbolWord_low, symbolWord_high, BitVec.ofNat_toNat,
      BitVec.setWidth_eq]
  | symCl16 x | symCl17 x | symCl18 x =>
    simp (disch := decide) only [encode, decode, decodeCodeLenSym, symbolWord_low, symbolWord_high, BitVec.ofNat_toNat,
      BitVec.setWidth_eq]
  | _ => rfl

end Sys2Proof.Proofs.Encoding

/-! The encoding family: what the decoder reads from any words, rejected commands, statuses and the symbol tables. -/

namespace Sys2Proof.Proofs.Encoding

set_option Elab.async false

open Sys2Proof Sys2Proof.Machine Sys2Proof.Laws Sys2Proof.Proofs.HostCalls

/-- A flush field outside 0, 2, 3, 4 is a reserved one (R93). -/
theorem decodeCommand_wf {ws : List (BitVec 32)} {i : Instr} (h : decodeCommand ws = .ok i) : i.wf = true := by
  simp only [decodeCommand] at h
  split at h
  · cases h; rfl
  · split at h
    case h_5 hnone hsync hfull hfinish =>
      cases h
      have hfield : ∀ f : BitVec 3, f.toNat ≠ 0 → f.toNat ≠ 2 → f.toNat ≠ 3 → f.toNat ≠ 4 → flushMode f = none := by
        decide
      rw [wf_compress_iff]
      have hlow : (BitVec.ofNat 3 (wordAt ws 0)).toNat = bitField (wordAt ws 0) 0 3 := by
        rw [BitVec.toNat_ofNat, bitField, Nat.pow_zero, Nat.div_one]
      refine hfield _ ?_ ?_ ?_ ?_ <;> rw [hlow] <;> assumption
    all_goals cases h; rfl
  · cases h

/-- A table operand that is read makes its micro-operation. -/
theorem bind_decodeTable_wf {v : Nat} {mk : Table → Instr} {i : Instr} (hmk : ∀ t, (mk t).wf = true)
    (h : (do return mk (← decodeTable v)) = Except.ok (ε := DecodeError) i) : i.wf = true := by
  cases ht : decodeTable v with
  | error e => rw [ht] at h; cases h
  | ok t => rw [ht] at h; cases h; exact hmk t

theorem decodeMicro_wf {ws : List (BitVec 32)} {i : Instr} (h : decodeMicro ws = .ok i) : i.wf = true := by
  simp only [decodeMicro] at h
  split at h
  case h_7 => 
    cases h
    rw [wf_recMatch_iff]
    simp only [bitField, BitVec.toNat_ofNat]
    omega
  case h_8 | h_11 | h_12 | h_13 => exact bind_decodeTable_wf (fun _ => rfl) h
  case h_29 => 
    cases hf : decodeFlush (wordAt ws 1) with
    | error e => rw [hf] at h; cases h
    | ok fl => rw [hf] at h; cases h; rfl
  case h_32 => cases h
  all_goals cases h; rfl

theorem decodeRecord_wf {ws : List (BitVec 32)} {i : Instr} (h : decodeRecord ws = .ok i) : i.wf = true := by
  simp only [decodeRecord] at h
  split at h
  · cases h; rfl
  · split at h <;> cases h
    rfl

theorem decodeHeader_wf {ws : List (BitVec 32)} {i : Instr} (h : decodeHeader ws = .ok i) : i.wf = true := by
  simp only [decodeHeader] at h
  split at h <;> cases h <;> rfl

theorem decodeStatus_wf {ws : List (BitVec 32)} {i : Instr} (h : decodeStatus ws = .ok i) : i.wf = true := by
  simp only [decodeStatus] at h
  split at h <;> cases h <;> rfl

/-- Symbol 284 is read only with an extra value below 31 (R98). -/
theorem decodeLitLenSym_wf {ws : List (BitVec 32)} {i : Instr} (h : decodeLitLenSym ws = .ok i) : i.wf = true := by
  simp only [decodeLitLenSym] at h
  split at h
  · cases h; rfl
  · split at h
    case h_29 =>
      split at h
      · cases h
      case isFalse hne =>
        cases h
        have hx : BitVec.ofNat 5 (wordAt ws 0 / 2 ^ 9) ≠ 31#5 := fun heq =>
          hne (by rw [← BitVec.toNat_ofNat, heq]; rfl)
        simpa [Instr.wf] using hx
    case h_31 => cases h
    all_goals cases h; rfl

theorem decodeDistSym_wf {ws : List (BitVec 32)} {i : Instr} (h : decodeDistSym ws = .ok i) : i.wf = true := by
  simp only [decodeDistSym] at h
  split at h <;> cases h <;> rfl

theorem decodeCodeLenSym_wf {ws : List (BitVec 32)} {i : Instr} (h : decodeCodeLenSym ws = .ok i) : i.wf = true := by
  simp only [decodeCodeLenSym] at h
  split at h <;> cases h <;> rfl

/-- Settles O2: each code space's decoder reads only well-formed instructions. -/
theorem decodedIsWellFormed : Obligations.DecodedIsWellFormed := by
  unfold Obligations.DecodedIsWellFormed
  intro sp ws i h
  cases sp with
  | command => exact decodeCommand_wf h
  | micro => exact decodeMicro_wf h
  | lzRecord => exact decodeRecord_wf h
  | blockHeader => exact decodeHeader_wf h
  | status => exact decodeStatus_wf h
  | litLenSym => exact decodeLitLenSym_wf h
  | distSym => exact decodeDistSym_wf h
  | codeLenSym => exact decodeCodeLenSym_wf h

/-! Words of the spec, reserved bits and reserved opcodes. -/

/-- Settles O3: each word is a literal, so the decoder is run on it. -/
theorem decodedWords : Obligations.DecodedWords := by
  unfold Obligations.DecodedWords
  exact ⟨rfl, rfl, rfl, rfl, rfl, rfl, rfl, rfl, rfl, rfl, rfl, rfl⟩

/-- A mask that keeps a field's bits keeps the field. -/
theorem bitField_and (w m : BitVec 32) (lo n : Nat) (hm : m.extractLsb' lo n = BitVec.allOnes n) :
    bitField (w &&& m).toNat lo n = bitField w.toNat lo n := by
  have hfield : ∀ x : BitVec 32, bitField x.toNat lo n = (x.extractLsb' lo n).toNat := fun x => by
    rw [BitVec.extractLsb'_toNat, Nat.shiftRight_eq_div_pow, bitField]
  rw [hfield, hfield, BitVec.extractLsb'_and, hm, BitVec.and_allOnes]

/-- The low bits taken as an operand are a field from bit 0 on. -/
theorem ofNat_eq_ofNat_bitField (n v : Nat) : BitVec.ofNat n v = BitVec.ofNat n (bitField v 0 n) := by
  refine BitVec.eq_of_toNat_eq ?_
  rw [BitVec.toNat_ofNat, BitVec.toNat_ofNat, bitField, Nat.pow_zero, Nat.div_one, Nat.mod_mod]

/-- The opcode of a command word is its bits 31:28 (R90). -/
theorem bitField_opcode (w : BitVec 32) : bitField w.toNat 28 4 = w.toNat / 2 ^ 28 := by
  have := w.isLt
  simp only [bitField]
  omega

@[simp] theorem wordAt_cons_zero (w : BitVec 32) (ws : List (BitVec 32)) : wordAt (w :: ws) 0 = w.toNat := rfl

/-- Settles O4: the masks keep every field the decoder reads, operand words being read as they are. -/
theorem reservedBitsIgnored : Obligations.ReservedBitsIgnored := by
  unfold Obligations.ReservedBitsIgnored
  refine ⟨fun w ws hop => ?_, fun w ws hop => ?_⟩
  · have hopcode : bitField w.toNat 28 4 = 0 := (bitField_opcode w).trans hop
    have hflags : BitVec.ofNat 20 (w &&& 0xF01FFFFF#32).toNat = BitVec.ofNat 20 w.toNat := by
      rw [ofNat_eq_ofNat_bitField 20, bitField_and w _ 0 20 (by decide), ← ofNat_eq_ofNat_bitField]
    simp only [decode, decodeCommand, wordAt_cons_zero, hflags, bitField_and w 0xF01FFFFF#32 28 4 (by decide),
      bitField_and w 0xF01FFFFF#32 20 1 (by decide), hopcode]
    rfl
  · have hopcode : bitField w.toNat 28 4 = 1 := (bitField_opcode w).trans hop
    have hflush : BitVec.ofNat 3 (w &&& 0xF000001F#32).toNat = BitVec.ofNat 3 w.toNat := by
      rw [ofNat_eq_ofNat_bitField 3, bitField_and w _ 0 3 (by decide), ← ofNat_eq_ofNat_bitField]
    simp only [decode, decodeCommand, wordAt_cons_zero, hflush,
      bitField_and w 0xF000001F#32 28 4 (by decide), bitField_and w 0xF000001F#32 0 3 (by decide),
      bitField_and w 0xF000001F#32 3 1 (by decide), bitField_and w 0xF000001F#32 4 1 (by decide), hopcode]
    rfl

/-- Opcodes 2 to 15 are reserved (R110). -/
theorem decode_reservedOpcode {w : BitVec 32} (ws : List (BitVec 32)) (hop : 2 ≤ w.toNat / 2 ^ 28) :
    decode .command (w :: ws) = .error .reservedOpcode := by
  simp only [decode, decodeCommand, wordAt_cons_zero, bitField_opcode]
  split
  · omega
  · omega
  · rfl

/-- A running unit answers a fetched request that stands for no instruction as `rejected` says. -/
theorem step_of_fetch_rejected {s t : State} {r : Request} {e : DecodeError} (hrun : s.halt = none)
    (hfetch : fetch s = some (r, t)) (hdec : decode r.space r.words = .error e) : step s = rejected e t := by
  simp only [step, hrun, hfetch, hdec]

/-- Settles O5: the request is fetched, its opcode is reserved, and BadParam changes the response alone. -/
theorem reservedOpcodeRejected : Obligations.ReservedOpcodeRejected := by
  unfold Obligations.ReservedOpcodeRejected
  intro s r rest w ws hrun hreq hspace hwords hop
  have hdec : decode r.space r.words = .error .reservedOpcode := by
    rw [hspace, hwords]
    exact decode_reservedOpcode ws hop
  rw [step_of_fetch_rejected hrun (fetch_of_requests hreq) hdec]
  exact settle_of_running hrun

/-! The commands rejected by their parameters, and the statuses. -/

/-- A rejected COMPRESS gives the BadParam response and nothing else (R252, R301). -/
theorem exec_of_rejected {i : Instr} {f : BitVec 3} {ip op : Bool} {il oc : BitVec 32} {s : State}
    (hrun : s.halt = none) (hparts : compressParts i = some (f, ip, op, il, oc)) (hrej : Rejected f ip op il s) :
    exec i s = .next (s.setHost { s.host with
      response := some { status := .badParam, inConsumed := 0, outProduced := 0 } }) := by
  rw [exec_of_compressParts hparts, compressCall, if_pos ((badParam_iff f ip op il s).2 hrej)]
  exact settle_of_running hrun

/-- Settles O11: the conditions of R252 reject, and a reserved flush value is the second of them. -/
theorem badParamRejected : Obligations.BadParamRejected := by
  unfold Obligations.BadParamRejected
  refine ⟨fun i f ip op il oc s hrun hparts hrej => exec_of_rejected hrun hparts hrej,
    fun f ip op il oc s hrun hwf => ?_⟩
  have hreserved := (flushMode_eq_none f).1 ((wf_compress_iff f ip op il oc).1 hwf)
  exact exec_of_rejected (oc := oc) hrun rfl (Or.inr (Or.inl hreserved))

/-- Settles O53: a status row takes the status, which stops nothing; the signed fields are computed. -/
theorem statusRows : Obligations.StatusRows := by
  unfold Obligations.StatusRows
  refine ⟨fun s hrun => ?_, by decide, by decide, by decide, by decide⟩
  have hraise : ∀ st, settle (raise st s) = .next (raise st s) := fun st =>
    settle_of_running ((raise_halt st s).trans hrun)
  exact ⟨hraise .okay, hraise .done, hraise .putBufFailed, hraise .badParam⟩

/-! The symbol tables. -/

/-- The rows of a table in order of value, and the number each extra value is counted from: a row holds no more values than
its extra bits tell apart, its first value has extra value 0, and symbols are told apart by their rows. -/
def RowsSound (rows : List SymRow) (off : Nat) : Prop :=
  rows.Pairwise (fun a b => a.last < b.base)
  ∧ ∀ r ∈ rows, off ≤ r.base ∧ r.last < r.base + 2 ^ r.extra ∧ (r.base - off) % 2 ^ r.extra = 0
    ∧ extraOf rows r.sym = r.extra

theorem lenRows_sound : RowsSound lenRows 3 := by unfold RowsSound; decide

theorem distRows_sound : RowsSound distRows 1 := by unfold RowsSound; decide

/-- The row of a value is the one whose range holds it. -/
theorem rowOf_of_mem {rows : List SymRow} (hrows : rows.Pairwise fun a b => a.last < b.base) {r : SymRow} (hr : r ∈ rows)
    {v : Nat} (hbase : r.base ≤ v) (hlast : v ≤ r.last) : rowOf rows v = r := by
  induction rows with
  | nil => simp at hr
  | cons q rows ih =>
    obtain ⟨hq, hrows⟩ := List.pairwise_cons.1 hrows
    rcases List.mem_cons.1 hr with rfl | hr
    · simp [rowOf, hbase, hlast]
    · have hnot : (decide (q.base ≤ v) && decide (v ≤ q.last)) = false := by
        have := hq r hr
        simp
        omega
      have hskip : rowOf (q :: rows) v = rowOf rows v := by
        simp only [rowOf, List.find?_cons, hnot]
      rw [hskip, ih hrows hr]

/-- The extra value of a value in a sound row. -/
theorem extra_of_row {rows : List SymRow} {off : Nat} (hs : RowsSound rows off) {r : SymRow} (hr : r ∈ rows) {v : Nat}
    (hbase : r.base ≤ v) (hlast : v ≤ r.last) : v - r.base = (v - off) % 2 ^ r.extra := by
  obtain ⟨hoff, hspan, haligned, -⟩ := hs.2 r hr
  obtain ⟨q, hq⟩ := Nat.dvd_of_mod_eq_zero haligned
  have hsum : v - off = (v - r.base) + 2 ^ r.extra * q := by omega
  rw [hsum, Nat.add_mul_mod_self_left, Nat.mod_eq_of_lt (by omega)]

/-- Every length of a match has a row (R98). -/
theorem exists_lenRow {l : Nat} (hl : 3 ≤ l) (hl' : l ≤ 258) : ∃ r ∈ lenRows, r.base ≤ l ∧ l ≤ r.last := by
  simp only [lenRows, List.exists_mem_cons_iff, List.not_mem_nil, false_and, exists_false, or_false]
  omega

/-- Every distance of a match has a row (R99). -/
theorem exists_distRow {d : Nat} (hd : 1 ≤ d) (hd' : d ≤ 32768) : ∃ r ∈ distRows, r.base ≤ d ∧ d ≤ r.last := by
  simp only [distRows, List.exists_mem_cons_iff, List.not_mem_nil, false_and, exists_false, or_false]
  omega

theorem distSym_of_row {r : SymRow} (hr : r ∈ distRows) {d : Nat} (hbase : r.base ≤ d) (hlast : d ≤ r.last) :
    distSym d = r.sym := by
  have hmax : ∀ r ∈ distRows, r.last ≤ 32768 := by decide
  rw [distSym_of_le (hlast.trans (hmax r hr)), rowOf_of_mem distRows_sound.1 hr hbase hlast]

/-- Beyond 512 the distances of one row are whole groups of 256, so the first of a group has the symbol of all (R100). -/
theorem largeDistSym_of_row {r : SymRow} (hr : r ∈ distRows) {d : Nat} (hbase : r.base ≤ d) (hlast : d ≤ r.last)
    (hlarge : 512 ≤ d - 1) : largeDistSym ((d - 1) / 256) = r.sym := by
  have hgroup : ∀ r ∈ distRows, 512 < r.last → r.base % 256 = 1 ∧ 1 ≤ r.base := by decide
  obtain ⟨hfirst, hone⟩ := hgroup r hr (by omega)
  exact distSym_of_row hr (by omega) (by omega)

/-- Settles O25: a value lies in exactly one row of its table, and the row says the rest. -/
theorem symbolRanges : Obligations.SymbolRanges := by
  unfold Obligations.SymbolRanges
  refine ⟨fun l hl hl' => ?_, fun d hd hd' => ?_⟩
  · obtain ⟨r, hr, hbase, hlast⟩ := exists_lenRow hl hl'
    have hsym : lenSym l = r.sym := by rw [lenSym, rowOf_of_mem lenRows_sound.1 hr hbase hlast]
    have hextra : lenExtra (lenSym l) = r.extra := by rw [hsym]; exact (lenRows_sound.2 r hr).2.2.2
    refine ⟨r, hr, hsym.symm, hbase, hlast, hextra.symm, ?_, ?_⟩
    · rw [hextra]
      exact extra_of_row lenRows_sound hr hbase hlast
    · rw [lenSymTab, Nat.sub_add_cancel hl]
  · obtain ⟨r, hr, hbase, hlast⟩ := exists_distRow hd hd'
    have hsym := distSym_of_row hr hbase hlast
    have hextra : distExtra (distSym d) = r.extra := by rw [hsym]; exact (distRows_sound.2 r hr).2.2.2
    refine ⟨r, hr, hsym.symm, hbase, hlast, hextra.symm, ?_, ?_⟩
    · rw [hextra]
      exact extra_of_row distRows_sound hr hbase hlast
    · split
      case isTrue => rw [smallDistSym, Nat.sub_add_cancel hd]
      case isFalse hlarge => rw [hsym, largeDistSym_of_row hr hbase hlast (Nat.not_lt.1 hlarge)]

end Sys2Proof.Proofs.Encoding

/-! The encoding family: what the emitters append to the output. -/

namespace Sys2Proof.Proofs.Encoding

open Sys2Proof Sys2Proof.Machine Sys2Proof.Laws Sys2Proof.Proofs.HostCalls

/-- An instruction that runs an emitter on a running unit completes and changes the encoder alone. -/
theorem completes_of_emits {i : Instr} {f : State → State} {fs : List Field} {s : State} (hrun : s.halt = none)
    (hexec : exec i s = settle (f s)) (h : Emits fs s (f s)) :
    ∃ e, exec i s = .next (s.setEnc e) ∧ s.enc.Appended fs e := by
  obtain ⟨e, he, ha⟩ := h
  exact ⟨e, by rw [hexec, he]; exact settle_of_running hrun, ha⟩

/-- A block header, `BFINAL` then `BTYPE` (R102). -/
theorem putHeader_emits {bfinal : Bool} {bt : BlockType} {s : State} (ht : s.enc.TakesBits [(bfinal.toNat, 1), (bt.code, 2)]) :
    Emits [(bfinal.toNat, 1), (bt.code, 2)] s (putHeader bfinal bt s) :=
  putAll_emits (by cases bfinal <;> cases bt <;> simp [FieldsFit, BlockType.code]) ht

/-- The emitters of fixed fields, each by what it sends. -/
theorem fixedFields_emits {i : Instr} {fs : List Field} {s : State} (hfields : fixedFields s i = some fs)
    (hfit : FieldsFit fs) (ht : s.enc.TakesBits fs) :
    ∃ f : State → State, exec i s = settle (f s) ∧ Emits fs s (f s) := by
  have hbits : s.enc.bitsIn.toNat = s.enc.bitsIn.toNat % 8 := by
    have := ht.1.1
    omega
  cases i with
  | encPutBits v n => cases hfields; exact ⟨putBits v.toNat n.toNat, rfl, putBits_emits (hfit _ List.mem_cons_self) ht⟩
  | encPad => cases hfields; exact ⟨opEncPad, rfl, opEncPad_emits ht⟩
  | encZlibHdr => cases hfields; exact ⟨opEncZlibHdr, rfl, opEncZlibHdr_emits ht⟩
  | encTrailer => cases hfields; exact ⟨opEncTrailer, rfl, opEncTrailer_emits hbits ht⟩
  | encSyncMark => cases hfields; exact ⟨opEncSyncMark, rfl, opEncSyncMark_emits hbits ht⟩
  | lit b => cases hfields; exact ⟨putLit b, rfl, putCode_spec .litLen b.toNat s hfit ht⟩
  | matchRec l3 d1 => cases hfields; exact ⟨putMatch l3.toNat d1.toNat, rfl, putMatch_spec l3.toNat d1.toNat s hfit ht⟩
  | blockStored bfinal => cases hfields; exact ⟨putHeader bfinal .stored, rfl, putHeader_emits ht⟩
  | blockStatic bfinal => cases hfields; exact ⟨putHeader bfinal .static, rfl, putHeader_emits ht⟩
  | blockDynamic bfinal => cases hfields; exact ⟨putHeader bfinal .dynamic, rfl, putHeader_emits ht⟩
  | _ => cases hfields

/-- Settles O33: each emitter sends its fields; ENC.PUT_BITS outside its range sends free bits and counts a draw. -/
theorem emittersAppend : Obligations.EmittersAppend := by
  unfold Obligations.EmittersAppend
  refine ⟨fun i fs s hrun hfields hfit ht => ?_, fun v n s hrun hfit ht => ?_⟩
  · obtain ⟨f, hexec, h⟩ := fixedFields_emits hfields hfit ht
    exact completes_of_emits hrun hexec h
  · have hout : ¬ (n.toNat ≤ 16 ∧ v.toNat < 2 ^ n.toNat) := fun h =>
      hfit fun f hf => by rw [List.mem_singleton.1 hf]; exact h
    obtain ⟨e, u, hu, he, ha⟩ := putBits_free_spec v.toNat n.toNat s hout ht
    refine ⟨e, u, hu, ?_, ha⟩
    rw [← he]
    exact settle_of_running (by rw [he]; exact hrun)

/-! The symbols. -/

/-- A symbol row sends its symbol's code and extra bits, but for the extra value of symbol 284 that R98 excludes. -/
theorem exec_of_symbolParts {i : Instr} {t : Table} {sym x n : Nat} (hwf : i.wf = true)
    (h : symbolParts i = some (t, sym, x, n)) (s : State) : exec i s = settle (putSymbol t sym x n s) := by
  cases i with
  | symLen284 extra =>
    cases h
    change settle (if (Instr.symLen284 extra).wf then _ else _) = _
    rw [if_pos hwf]
  | _ => cases h <;> rfl

/-- The extra value of a symbol fits its width (R98, R99, R101). -/
theorem symbolParts_extra {i : Instr} {t : Table} {sym x n : Nat} (h : symbolParts i = some (t, sym, x, n)) :
    n ≤ 16 ∧ x < 2 ^ n := by
  cases i with
  | symLen265 x | symLen266 x | symLen267 x | symLen268 x | symLen269 x | symLen270 x | symLen271 x | symLen272 x
  | symLen273 x | symLen274 x | symLen275 x | symLen276 x | symLen277 x | symLen278 x | symLen279 x | symLen280 x
  | symLen281 x | symLen282 x | symLen283 x | symLen284 x
  | symDist4 x | symDist5 x | symDist6 x | symDist7 x | symDist8 x | symDist9 x | symDist10 x | symDist11 x
  | symDist12 x | symDist13 x | symDist14 x | symDist15 x | symDist16 x | symDist17 x | symDist18 x | symDist19 x
  | symDist20 x | symDist21 x | symDist22 x | symDist23 x | symDist24 x | symDist25 x | symDist26 x | symDist27 x
  | symDist28 x | symDist29 x | symCl16 x | symCl17 x | symCl18 x => cases h; exact ⟨by decide, x.isLt⟩
  | _ => cases h <;> decide

/-- A symbol whose table holds no field for it: free bits stand for the code, then the extra bits follow (log entry 26). -/
theorem putSymbol_free_spec {t : Table} {sym x n : Nat} {s : State} (hcode : ¬ FieldsFit [codeField s t sym])
    (hx : n ≤ 16 ∧ x < 2 ^ n) (ht : s.enc.TakesBits [codeField s t sym, (x, n)]) :
    ∃ e v, v < 2 ^ (codeField s t sym).2 ∧ putSymbol t sym x n s = (s.setEnc e).drawn
      ∧ s.enc.Appended [(v, (codeField s t sym).2), (x, n)] e := by
  have hout : ¬ ((codeField s t sym).2 ≤ 16 ∧ (codeField s t sym).1 < 2 ^ (codeField s t sym).2) := fun h =>
    hcode fun f hf => by rw [List.mem_singleton.1 hf]; exact h
  have htake : ∀ v, s.enc.TakesBits ([(v, (codeField s t sym).2)] ++ [(x, n)]) := fun v => takes_congr (by simp) ht
  obtain ⟨e1, v, hv, h1, a1⟩ := putBits_free_spec _ _ s hout (takes_left (htake (codeField s t sym).1))
  obtain ⟨e2, h2, a2⟩ := putBits_spec x n (s.setEnc e1).drawn hx (takes_right (htake v) a1)
  refine ⟨e2, v, hv, ?_, appended_trans a1 a2⟩
  have hput : putCode t sym s = (s.setEnc e1).drawn := h1
  rw [putSymbol, hput, h2]
  rfl

/-- Settles O34: a symbol row is its code, fitting or free, and its extra bits. -/
theorem symbolsAppend : Obligations.SymbolsAppend := by
  unfold Obligations.SymbolsAppend
  refine ⟨fun i t sym x n s hrun hwf hparts => ?_, fun s hrun => ?_⟩
  · have hexec := exec_of_symbolParts hwf hparts s
    have hx := symbolParts_extra hparts
    refine fun ht => ⟨fun hcode => ?_, fun hcode => ?_⟩
    · refine completes_of_emits (f := putSymbol t sym x n) hrun hexec (putSymbol_spec t sym x n s (fun f hf => ?_) ht)
      rcases List.mem_cons.1 hf with rfl | hf
      · exact hcode _ List.mem_cons_self
      · rw [List.mem_singleton.1 hf]
        exact hx
    · obtain ⟨e, v, hv, he, ha⟩ := putSymbol_free_spec hcode hx ht
      exact ⟨e, v, hv, by rw [hexec, he]; exact settle_of_running hrun, ha⟩
  · exact settle_of_refused (stop_of_running hrun _)

/-! ENC.STORED. -/

/-- The fields of `n` window bytes from position `q` on. -/
def windowFields (d : Mem 8) (q : BitVec 32) (n : Nat) : List Field :=
  (List.range n).map fun i => ((winByte d (q + BitVec.ofNat 32 i)).toNat, 8)

theorem windowFields_succ (d : Mem 8) (q : BitVec 32) (n : Nat) :
    windowFields d q (n + 1) = ((winByte d q).toNat, 8) :: windowFields d (q + 1) n := by
  have hnext : ∀ i, q + BitVec.ofNat 32 (i + 1) = q + 1 + BitVec.ofNat 32 i := fun i => by
    rw [Nat.add_comm, BitVec.ofNat_add, BitVec.add_assoc]
    rfl
  simp only [windowFields, List.range_succ_eq_map, List.map_cons, List.map_map, List.cons.injEq, Prod.mk.injEq, and_true]
  exact ⟨by rw [BitVec.add_zero], List.map_congr_left fun i _ => by
    simp only [Function.comp_apply, Nat.succ_eq_add_one, hnext]⟩

/-- The data bytes of a stored block (R217). -/
theorem putWindow_emits {n : Nat} {q : BitVec 32} {s : State} (ht : s.enc.TakesBits (windowFields s.win.dict q n)) :
    Emits (windowFields s.win.dict q n) s (putWindow n q s) := by
  induction n generalizing q s with
  | zero => exact ⟨s.enc, rfl, appended_nil ht.1 ht.2.1⟩
  | succ n ih =>
    rw [windowFields_succ] at ht ⊢
    exact Emits.andThen (fs := [((winByte s.win.dict q).toNat, 8)]) (f := putBits (winByte s.win.dict q).toNat 8)
      (g := putWindow n (q + 1)) ht (putBits_emits ⟨by norm_num, (winByte s.win.dict q).isLt⟩) fun e _ h => ih h

/-- `LEN` and `NLEN` of a block of `n` bytes (R103). -/
theorem storedLength_toNat (n : BitVec 32) :
    (n.setWidth 16).toNat = n.toNat % 65536 ∧ (~~~ n.setWidth 16).toNat = 65535 - n.toNat % 65536 := by
  have hlow : (n.setWidth 16).toNat = n.toNat % 65536 := BitVec.toNat_setWidth 16 n
  exact ⟨hlow, by rw [BitVec.toNat_not, hlow]⟩

/-- Settles O36: the type, the padding, the two lengths and the window's bytes, one after another. -/
theorem storedAppends : Obligations.StoredAppends := by
  unfold Obligations.StoredAppends
  intro s hrun bytes fs ht
  refine completes_of_emits (f := opEncStored) hrun rfl ?_
  obtain ⟨hlen, hnlen⟩ := storedLength_toNat s.lz.totalLzBytes
  have hsplit : fs = (([(0, 2)] ++ [(0, padBits (s.enc.bitsIn.toNat + 2))])
      ++ [((s.lz.totalLzBytes.setWidth 16).toNat, 16), ((~~~ s.lz.totalLzBytes.setWidth 16).toNat, 16)])
      ++ windowFields s.win.dict s.drv.blockStartPos s.lz.totalLzBytes.toNat := by
    simp only [fs, bytes, storedFields, windowFields, List.length_map, List.length_range, List.map_map, hlen, hnlen]
    rfl
  rw [hsplit] at ht ⊢
  refine Emits.andThen (g := putWindow s.lz.totalLzBytes.toNat s.drv.blockStartPos)
    (f := fun s' => putAll [((s.lz.totalLzBytes.setWidth 16).toNat, 16), ((~~~ s.lz.totalLzBytes.setWidth 16).toNat, 16)]
      (opEncPad (putBits 0 2 s'))) ht (fun h => ?_) fun e _ h => putWindow_emits (s := s.setEnc e) h
  refine Emits.andThen (f := fun s' => opEncPad (putBits 0 2 s')) h
    (fun h => padAfter_emits (f := putBits 0 2) h (by simp) (putBits_emits (by decide))) fun e _ h => putAll_emits ?_ h
  simp only [FieldsFit, List.mem_cons, List.not_mem_nil, or_false, forall_eq_or_imp, forall_eq]
  exact ⟨⟨le_refl _, BitVec.isLt _⟩, le_refl _, BitVec.isLt _⟩

/-! ENC.DYN_HDR. -/

theorem fieldsFit_append {fs gs : List Field} : FieldsFit (fs ++ gs) ↔ FieldsFit fs ∧ FieldsFit gs := List.forall_mem_append

/-- A loop that appends some fields a round appends them all. -/
theorem foldl_emits_flatMap {α : Type} {f : State → α → State} {fields : α → List Field} {l : List α} {s : State}
    (hstep : ∀ e, ∀ x ∈ l, e.TakesBits (fields x) → Emits (fields x) (s.setEnc e) (f (s.setEnc e) x))
    (ht : s.enc.TakesBits (l.flatMap fields)) : Emits (l.flatMap fields) s (l.foldl f s) := by
  induction l generalizing s with
  | nil => exact ⟨s.enc, rfl, appended_nil ht.1 ht.2.1⟩
  | cons x l ih =>
    rw [List.flatMap_cons] at ht ⊢
    exact Emits.andThen (f := fun s => f s x) (g := fun s => l.foldl f s) ht
      (hstep s.enc x List.mem_cons_self)
      fun e _ h => ih (fun e' y hy => hstep e' y (List.mem_cons_of_mem _ hy)) h

/-- The lengths of the code-length code (R219). -/
theorem putClLengths_emits {order : List Nat} {s : State}
    (hfit : FieldsFit (order.map fun c => ((Mem.read s.huf.codeLen.size c).toNat, 3)))
    (ht : s.enc.TakesBits (order.map fun c => ((Mem.read s.huf.codeLen.size c).toNat, 3))) :
    Emits (order.map fun c => ((Mem.read s.huf.codeLen.size c).toNat, 3)) s (putClLengths order s) :=
  foldl_emits (fun e _ hc h => putBits_emits (s := s.setEnc e) (hfit _ (List.mem_map_of_mem hc)) h) ht

/-- The packed code lengths (R219). -/
theorem putPacked_emits {packed : List PackEntry} {s : State}
    (hfit : FieldsFit (packed.flatMap fun p => [codeField s .codeLen p.c, (p.extra, clExtra p.c)]))
    (ht : s.enc.TakesBits (packed.flatMap fun p => [codeField s .codeLen p.c, (p.extra, clExtra p.c)])) :
    Emits (packed.flatMap fun p => [codeField s .codeLen p.c, (p.extra, clExtra p.c)]) s (putPacked packed s) :=
  foldl_emits_flatMap (fun e p hp h => putSymbol_spec .codeLen p.c p.extra (clExtra p.c) (s.setEnc e)
    (fun f hf => hfit f (List.mem_flatMap.2 ⟨p, hp, hf⟩)) h) ht

/-- Settles O38: the counts, the lengths in `CL_ORDER`, the packed lengths, one loop each. -/
theorem dynamicHeaderAppends : Obligations.DynamicHeaderAppends := by
  unfold Obligations.DynamicHeaderAppends
  intro s hrun hfit ht
  refine completes_of_emits (f := opEncDynHdr) hrun rfl ?_
  unfold dynamicFields at hfit ht ⊢
  obtain ⟨hfit, hpacked⟩ := fieldsFit_append.1 hfit
  obtain ⟨hcounts, hlengths⟩ := fieldsFit_append.1 hfit
  refine Emits.andThen (g := putPacked s.work.packed)
    (f := fun s' => putClLengths (clOrder.take s.work.numBitLengths) (putAll [(2, 2), (s.work.numLitCodes - 257, 5),
      (s.work.numDistCodes - 1, 5), (s.work.numBitLengths - 4, 4)] s')) ht (fun h => ?_)
    fun e _ h => putPacked_emits (s := s.setEnc e) hpacked h
  exact Emits.andThen (g := putClLengths (clOrder.take s.work.numBitLengths)) h (putAll_emits hcounts)
    fun e _ h => putClLengths_emits (s := s.setEnc e) hlengths h

/-! ENC.PAYLOAD. -/

/-- Records are read forwards. -/
theorem le_recordsEnd (s : State) (n k pos : Nat) : pos ≤ recordsEnd s n k pos := by
  induction n generalizing k pos with
  | zero => exact le_refl _
  | succ n ih =>
    have hmatch := ih (k + 1) (pos + 3)
    have hlit := ih (k + 1) (pos + 1)
    rw [recordsEnd]
    split <;> omega

/-- One round of the record loop on a MATCH record inside the memories (R220). -/
theorem putRecords_match {s : State} {n k pos : Nat} (hk : k < 65536) (hpos : pos + 3 ≤ 65536)
    (hflag : recordFlag s k = true) : putRecords (n + 1) k pos s = putRecords n (k + 1) (pos + 3)
      (putMatch (Mem.read s.lz.lzCode pos).toNat
        ((Mem.read s.lz.lzCode (pos + 1)).toNat + 256 * (Mem.read s.lz.lzCode (pos + 2)).toNat) s) := by
  have hflag' : flagRead s.lz.lzFlags k = true := hflag
  rw [putRecords, if_neg (by simp only [Config.lzFlagBufSize]; omega), if_pos hflag', if_pos hpos]

/-- One round of the record loop on a LIT record inside the memories (R220). -/
theorem putRecords_lit {s : State} {n k pos : Nat} (hk : k < 65536) (hpos : pos + 1 ≤ 65536)
    (hflag : ¬ recordFlag s k = true) : putRecords (n + 1) k pos s = putRecords n (k + 1) (pos + 1)
      (putLit (Mem.read s.lz.lzCode pos) s) := by
  have hflag' : ¬ flagRead s.lz.lzFlags k = true := hflag
  rw [putRecords, if_neg (by simp only [Config.lzFlagBufSize]; omega), if_neg hflag', if_pos hpos]

/-- The record loop inside the memories appends every record in order (R97, R220). -/
theorem putRecords_emits {n k pos : Nat} {s : State} (hk : k + n ≤ 65536) (hend : recordsEnd s n k pos ≤ 65536)
    (hfit : FieldsFit (recordFields s n k pos)) (ht : s.enc.TakesBits (recordFields s n k pos)) :
    Emits (recordFields s n k pos) s (putRecords n k pos s) := by
  induction n generalizing k pos s with
  | zero => exact ⟨s.enc, rfl, appended_nil ht.1 ht.2.1⟩
  | succ n ih =>
    have hrest : ∀ pos' e, recordsEnd s n (k + 1) pos' ≤ 65536 → FieldsFit (recordFields s n (k + 1) pos') →
        e.TakesBits (recordFields s n (k + 1) pos') →
        Emits (recordFields s n (k + 1) pos') (s.setEnc e) (putRecords n (k + 1) pos' (s.setEnc e)) :=
      fun pos' e hend' hfit' ht' => by
        have h := ih (s := s.setEnc e) (k := k + 1) (pos := pos') (by omega)
        rw [recordsEnd_setEnc, recordFields_setEnc] at h
        exact h hend' hfit' ht'
    by_cases hflag : recordFlag s k = true
    · rw [recordsEnd, if_pos hflag] at hend
      have hpos := (le_recordsEnd s n (k + 1) (pos + 3)).trans hend
      rw [putRecords_match (by omega) hpos hflag]
      rw [recordFields, if_pos hflag] at hfit ht ⊢
      obtain ⟨hmatch, hfit⟩ := fieldsFit_append.1 hfit
      exact Emits.andThen (g := putRecords n (k + 1) (pos + 3)) ht (putMatch_spec _ _ s hmatch)
        fun e _ h => hrest (pos + 3) e hend hfit h
    · rw [recordsEnd, if_neg hflag] at hend
      have hpos := (le_recordsEnd s n (k + 1) (pos + 1)).trans hend
      rw [putRecords_lit (by omega) hpos hflag]
      rw [recordFields, if_neg hflag, ← List.singleton_append] at hfit ht ⊢
      obtain ⟨hlit, hfit⟩ := fieldsFit_append.1 hfit
      exact Emits.andThen (f := putLit (Mem.read s.lz.lzCode pos)) (g := putRecords n (k + 1) (pos + 1)) ht
        (putCode_spec .litLen _ s hlit) fun e _ h => hrest (pos + 1) e hend hfit h

/-- Settles O39: the record loop, then EOB. -/
theorem payloadAppends : Obligations.PayloadAppends := by
  unfold Obligations.PayloadAppends
  intro s hrun hops hend fs hfit ht
  obtain ⟨hrecords, heob⟩ := fieldsFit_append.1 hfit
  refine completes_of_emits (f := opEncPayload) hrun rfl ?_
  exact Emits.andThen (f := putRecords s.lz.lzOpCount.toNat 0 0) (g := putCode .litLen 256) ht
    (putRecords_emits (by omega) hend hrecords) fun e _ h => putCode_spec .litLen 256 (s.setEnc e) heob h

end Sys2Proof.Proofs.Encoding

/-! HUF.MINRED, whatever the frequencies: it makes the code lengths of a full binary tree (R182). -/

namespace Sys2Proof.Proofs.MinimumRedundancy

open Sys2Proof Sys2Proof.Machine

/-! The working array. -/

theorem arrAt_set (a : List Nat) (i v j : Nat) :
    arrAt (a.set i v) j = if j = i ∧ i < a.length then v else arrAt a j := by
  simp only [arrAt, List.getD_eq_getElem?_getD, List.getElem?_set]
  by_cases hj : i = j
  · subst hj
    by_cases hi : i < a.length <;> simp [hi]
  · rw [if_neg hj, if_neg fun h => hj h.1.symm]

theorem arrAt_set_ne {a : List Nat} {i v j : Nat} (h : j ≠ i) : arrAt (a.set i v) j = arrAt a j := by
  rw [arrAt_set, if_neg fun hji => h hji.1]

theorem arrAt_set_self {a : List Nat} {i v : Nat} (h : i < a.length) : arrAt (a.set i v) i = v := by
  rw [arrAt_set, if_pos ⟨rfl, h⟩]

theorem arrAt_append_left {a b : List Nat} {i : Nat} (h : i < a.length) : arrAt (a ++ b) i = arrAt a i :=
  List.getD_append _ _ _ _ h

theorem arrAt_take {a : List Nat} {m i : Nat} (h : i < m) : arrAt (a.take m) i = arrAt a i := by
  simp [arrAt, List.getD_eq_getElem?_getD, h]

/-! Phase 1: the internal nodes get their parents. -/

/-- The internal nodes below `root` hold parents below `nxt`, each after its children, in rising order, and none has more
than two of them. -/
structure Parented (root nxt : Nat) (a : List Nat) : Prop where
  above : ∀ k < root, k < arrAt a k ∧ arrAt a k < nxt
  rising : ∀ j k, j ≤ k → k < root → arrAt a j ≤ arrAt a k
  pairs : ∀ k, k + 2 < root → arrAt a k < arrAt a (k + 2)

/-- At most two more nodes get the parent `nxt`. -/
theorem Parented.extend {root root' nxt : Nat} {a a' : List Nat} (h : Parented root nxt a) (hroot : root' ≤ root + 2)
    (hbelow : root' ≤ nxt) (hkeep : ∀ k < root, arrAt a' k = arrAt a k)
    (hnew : ∀ k, root ≤ k → k < root' → arrAt a' k = nxt) : Parented root' (nxt + 1) a' := by
  have hbound : ∀ k < root, arrAt a' k < nxt := fun k hk => by rw [hkeep k hk]; exact (h.above k hk).2
  refine ⟨fun k hk => ?_, fun j k hjk hk => ?_, fun k hk => ?_⟩
  · by_cases hold : k < root
    · rw [hkeep k hold]
      have := h.above k hold
      omega
    · rw [hnew k (by omega) hk]
      omega
  · by_cases hold : k < root
    · rw [hkeep k hold, hkeep j (by omega)]
      exact h.rising j k hjk hold
    · rw [hnew k (by omega) hk]
      by_cases hj : j < root
      · exact (hbound j hj).le
      · rw [hnew j (by omega) (by omega)]
  · by_cases hold : k + 2 < root
    · rw [hkeep k (by omega), hkeep (k + 2) hold]
      exact h.pairs k hold
    · rw [hnew (k + 2) (by omega) hk]
      exact hbound k (by omega)

/-- One of the two children of node `nxt` is picked: the internal node `root`, which gets its parent, or a leaf. -/
def Picked (nxt root leaf : Nat) (a : List Nat) (root' leaf' : Nat) (a' : List Nat) : Prop :=
  (root' = root + 1 ∧ leaf' = leaf ∧ ∃ v, a' = (a.set nxt v).set root nxt)
  ∨ (root' = root ∧ leaf' = leaf + 1 ∧ ∃ v, a' = a.set nxt v)

/-- A round of phase 1 picks two children; it picks a leaf only when one is left, and as the second child an internal node
only when one is left or no leaf is. -/
theorem minredMerge_succ (n k nxt root leaf : Nat) (a : List Nat) :
    ∃ root1 leaf1 a1 root2 leaf2 a2, Picked nxt root leaf a root1 leaf1 a1 ∧ Picked nxt root1 leaf1 a1 root2 leaf2 a2
      ∧ (leaf1 ≠ leaf → leaf < n) ∧ (leaf2 ≠ leaf1 → leaf1 < n) ∧ (root2 ≠ root1 → n ≤ leaf1 ∨ root1 < nxt)
      ∧ minredMerge n (k + 1) nxt root leaf a = minredMerge n k (nxt + 1) root2 leaf2 a2 := by
  have hpick : ∀ (b : Bool) (r l u v : Nat) (x : List Nat),
      Picked nxt r l x (if b then r + 1 else r) (if b then l else l + 1)
        (if b then (x.set nxt u).set r nxt else x.set nxt v) := fun b r l u v x => by
    cases b
    · exact Or.inr ⟨rfl, rfl, v, rfl⟩
    · exact Or.inl ⟨rfl, rfl, u, rfl⟩
  refine ⟨_, _, _, _, _, _, hpick _ root leaf _ _ a, hpick _ _ _ _ _ _, fun h => ?_, fun h => ?_, fun h => ?_, rfl⟩
  · by_contra hn
    simp [Nat.not_lt.1 hn] at h
  · by_contra hn
    rw [decide_eq_true (Nat.not_lt.1 hn)] at h
    simp at h
  · by_contra hn
    rw [not_or] at hn
    rw [decide_eq_false hn.1, decide_eq_false hn.2] at h
    simp at h

/-- A pick writes index `nxt` and, for an internal node, its parent. -/
theorem Picked.kept {nxt root leaf root' leaf' : Nat} {a a' : List Nat} (h : Picked nxt root leaf a root' leaf' a')
    (hroot : root < nxt ∨ root' = root) (hnxt : nxt < a.length) :
    a'.length = a.length ∧ root' + leaf' = root + leaf + 1 ∧ root ≤ root' ∧ root' ≤ root + 1 ∧ leaf ≤ leaf'
    ∧ (∀ k < root, k < nxt → arrAt a' k = arrAt a k) ∧ (∀ k, root ≤ k → k < root' → arrAt a' k = nxt) := by
  rcases h with ⟨rfl, rfl, v, rfl⟩ | ⟨rfl, rfl, v, rfl⟩
  · refine ⟨by simp, by omega, by omega, by omega, le_refl _, fun k hk hk' => ?_, fun k hk hk' => ?_⟩
    · rw [arrAt_set_ne (by omega), arrAt_set_ne (by omega)]
    · rw [show k = root by omega, arrAt_set_self (by rw [List.length_set]; omega)]
  · refine ⟨by simp, by omega, by omega, by omega, by omega, fun k hk hk' => ?_, fun k hk hk' => by omega⟩
    rw [arrAt_set_ne (by omega)]

/-- Phase 1 gives every internal node but the last its parent. -/
theorem minredMerge_parented {n k nxt root leaf : Nat} {a : List Nat} (hlen : a.length = n) (hk : nxt + k + 1 = n)
    (hsum : root + leaf = 2 * nxt) (hleaf : leaf ≤ n) (hroot : root < nxt) (h : Parented root nxt a) :
    (minredMerge n k nxt root leaf a).length = n ∧ Parented (n - 2) (n - 1) (minredMerge n k nxt root leaf a) := by
  induction k generalizing nxt root leaf a with
  | zero =>
    obtain ⟨rfl, rfl⟩ : root = n - 2 ∧ nxt = n - 1 := by omega
    exact ⟨hlen, h⟩
  | succ k ih =>
    obtain ⟨root1, leaf1, a1, root2, leaf2, a2, hp1, hp2, hl1, hl2, hr2, hround⟩ := minredMerge_succ n k nxt root leaf a
    rw [hround]
    obtain ⟨hlen1, hsum1, hge1, hle1, hleaf1, hkeep1, hnew1⟩ := hp1.kept (Or.inl hroot) (by omega)
    have hsecond : root1 < nxt ∨ root2 = root1 := by
      by_contra hn
      rw [not_or] at hn
      rcases hr2 hn.2 with hfull | hlt
      · by_cases heq : leaf1 = leaf
        · omega
        · have := hl1 heq
          omega
      · exact hn.1 hlt
    obtain ⟨hlen2, hsum2, hge2, hle2, hleaf2, hkeep2, hnew2⟩ := hp2.kept hsecond (by omega)
    have hleafbound : leaf2 ≤ n := by
      by_cases h1 : leaf1 = leaf <;> by_cases h2 : leaf2 = leaf1
      · omega
      · have := hl2 h2; omega
      · have := hl1 h1; omega
      · have := hl2 h2; omega
    refine ih (by omega) (by omega) (by omega) hleafbound (by omega)
      (h.extend (by omega) (by omega) (fun j hj => ?_) fun j hj hj' => ?_)
    · rw [hkeep2 j (by omega) (by omega), hkeep1 j hj (by omega)]
    · by_cases hfirst : j < root1
      · rw [hkeep2 j hfirst (by omega), hnew1 j hj hfirst]
      · exact hnew2 j (by omega) hj'

/-! Phase 2: parents become depths. -/

/-- The nodes 0 to `N` of a tree with root `N` hold their depths, `p` being the parents. -/
structure Tree (N : Nat) (p : Nat → Nat) (a : List Nat) : Prop where
  above : ∀ k < N, k < p k ∧ p k ≤ N
  rising : ∀ j k, j ≤ k → k < N → p j ≤ p k
  pairs : ∀ k, k + 2 < N → p k < p (k + 2)
  root : arrAt a N = 0
  depth : ∀ k < N, arrAt a k = arrAt a (p k) + 1

/-- Phase 2 from node `k` down, the nodes from `k` on holding their depths already. -/
theorem minredDepths_spec {N k : Nat} {p : Nat → Nat} {a : List Nat} (hk : k ≤ N) (hlen : N < a.length)
    (habove : ∀ i < N, i < p i ∧ p i ≤ N) (hparents : ∀ i < k, arrAt a i = p i) (hroot : arrAt a N = 0)
    (hdepth : ∀ i, k ≤ i → i < N → arrAt a i = arrAt a (p i) + 1) :
    (minredDepths k a).length = a.length ∧ arrAt (minredDepths k a) N = 0
    ∧ ∀ i < N, arrAt (minredDepths k a) i = arrAt (minredDepths k a) (p i) + 1 := by
  induction k generalizing a with
  | zero => exact ⟨rfl, hroot, fun i hi => hdepth i (Nat.zero_le i) hi⟩
  | succ k ih =>
    rw [minredDepths, hparents k (Nat.lt_succ_self k)]
    have hpk := habove k (by omega)
    obtain ⟨hl, hr, hd⟩ := ih (a := a.set k (arrAt a (p k) + 1)) (by omega) (by simpa using hlen)
      (fun i hi => by rw [arrAt_set_ne (by omega), hparents i (by omega)])
      (by rw [arrAt_set_ne (by omega), hroot]) fun i hi hi' => by
        have hpi := habove i hi'
        rw [arrAt_set_ne (j := p i) (by omega)]
        by_cases heq : i = k
        · rw [heq, arrAt_set_self (by omega)]
        · rw [arrAt_set_ne heq, hdepth i (by omega) hi']
    exact ⟨by rw [hl, List.length_set], hr, hd⟩

namespace Tree

variable {N : Nat} {p : Nat → Nat} {a : List Nat}

/-- Later nodes are not deeper. -/
theorem falls (h : Tree N p a) {i j : Nat} (hij : i ≤ j) (hj : j ≤ N) : arrAt a j ≤ arrAt a i := by
  induction hgap : N - i using Nat.strong_induction_on generalizing i j with
  | _ gap ih =>
    by_cases hroot : j = N
    · rw [hroot, h.root]
      exact Nat.zero_le _
    · have hpi := h.above i (by omega)
      have hpj := h.above j (by omega)
      rw [h.depth i (by omega), h.depth j (by omega)]
      exact Nat.succ_le_succ (ih (N - p i) (by omega) (h.rising i j hij (by omega)) hpj.2 rfl)

/-- No depth is left out between a node and the one after it. -/
theorem gapless (h : Tree N p a) {i : Nat} (hi : i < N) : arrAt a i ≤ arrAt a (i + 1) + 1 := by
  have hp := h.above i hi
  rw [h.depth i hi]
  exact Nat.succ_le_succ (h.falls hp.1 hp.2)

/-- Two more children of one depth are one more parent. -/
theorem parents_spread (h : Tree N p a) (i c : Nat) (hi : i + 2 * c < N) : p i + c ≤ p (i + 2 * c) := by
  induction c with
  | zero => exact le_refl _
  | succ c ih =>
    have hprev := ih (by omega)
    have hnext := h.pairs (i + 2 * c) (by omega)
    rw [show i + 2 * c + 2 = i + 2 * (c + 1) by omega] at hnext
    omega

/-- A depth has at most twice the nodes of the one above it. -/
theorem width (h : Tree N p a) {d lo lo' hi : Nat} (hN : lo ≤ N)
    (hlevel : ∀ k ≤ N, arrAt a k = d → lo ≤ k ∧ k < hi) (hnext : ∀ k, lo' ≤ k → k < lo → arrAt a k = d + 1) :
    lo - lo' ≤ 2 * (hi - lo) := by
  by_contra hwide
  have hparent : ∀ k, lo' ≤ k → k < lo → lo ≤ p k ∧ p k < hi := fun k hk hk' => by
    refine hlevel (p k) (h.above k (by omega)).2 ?_
    have hd := h.depth k (by omega)
    rw [hnext k hk hk'] at hd
    omega
  have hfirst := hparent lo' (le_refl _) (by omega)
  have hlast := hparent (lo' + 2 * (hi - lo)) (by omega) (by omega)
  have hspread := h.parents_spread lo' (hi - lo) (by omega)
  omega

end Tree

/-! Phase 3: depths of internal nodes become depths of leaves. -/

/-- The nodes counted at a depth are those of that depth below `r`, the last ones before it. -/
theorem countAtDepth_spec (a : List Nat) (d r : Nat) :
    countAtDepth a d r ≤ r ∧ (∀ i, r - countAtDepth a d r ≤ i → i < r → arrAt a i = d)
    ∧ (countAtDepth a d r < r → arrAt a (r - countAtDepth a d r - 1) ≠ d) := by
  induction r with
  | zero => exact ⟨le_refl _, fun i _ hi => absurd hi (Nat.not_lt_zero i), fun h => absurd h (Nat.not_lt_zero _)⟩
  | succ r ih =>
    obtain ⟨hle, hin, hout⟩ := ih
    rw [countAtDepth]
    split
    case isTrue hd =>
      refine ⟨by omega, fun i hi hi' => ?_, fun hlt => ?_⟩
      · by_cases heq : i = r
        · rw [heq, hd]
        · exact hin i (by omega) (by omega)
      · rw [show r + 1 - (countAtDepth a d r + 1) - 1 = r - countAtDepth a d r - 1 by omega]
        exact hout (by omega)
    case isFalse hd =>
      exact ⟨by omega, fun i hi hi' => by omega, fun _ => hd⟩

theorem countAtDepth_congr {a b : List Nat} (d : Nat) {r : Nat} (h : ∀ i < r, arrAt a i = arrAt b i) :
    countAtDepth a d r = countAtDepth b d r := by
  induction r with
  | zero => rfl
  | succ r ih => rw [countAtDepth, countAtDepth, h r (Nat.lt_succ_self r), ih fun i hi => h i (by omega)]

/-- A depth is written to the leaves before index `m`. -/
theorem fillDepth_eq {d c m : Nat} {a : List Nat} (hc : c ≤ m) (hm : m ≤ a.length) :
    fillDepth d c m a = a.take (m - c) ++ (List.replicate c d ++ a.drop m) := by
  induction c generalizing m a with
  | zero => simp [fillDepth]
  | succ c ih =>
    obtain ⟨m, rfl⟩ : ∃ m', m = m' + 1 := ⟨m - 1, by omega⟩
    have hdrop : (a.set m d).drop m = d :: a.drop (m + 1) := by
      rw [List.drop_eq_getElem_cons (by rw [List.length_set]; omega), List.getElem_set_self,
        List.drop_set_of_lt (by omega)]
    rw [fillDepth, ih (by omega) (by rw [List.length_set]; omega), List.take_set_of_le (by omega), hdrop,
      List.replicate_succ', List.append_assoc, List.singleton_append, show m + 1 - (c + 1) = m - c by omega]


/-- Code lengths of a full binary tree of `n` leaves, the longest first. -/
structure FullCode (n : Nat) (l : List Nat) : Prop where
  length : l.length = n
  falls : l.Pairwise fun x y => y ≤ x
  range : ∀ x ∈ l, 1 ≤ x ∧ x < n
  kraft : (l.map fun x => 2 ^ (n - x)).sum = 2 ^ n

/-- Phase 3 before the leaves of depth `d`: `avbl` nodes of the depth, `r` internal nodes of it and below, `m` leaves left to
write, `D` being the depths phase 2 left. -/
structure Dealing (N : Nat) (D : List Nat) (avbl d r m : Nat) (a : List Nat) : Prop where
  length : a.length = N + 2
  left : m = r + avbl
  room : m ≤ N + 2
  below : r ≤ N + 1
  kept : ∀ i < r, arrAt a i = arrAt D i
  deeper : ∀ i < r, d ≤ arrAt D i
  shallower : ∀ i, r ≤ i → i ≤ N → arrAt D i < d
  used : countAtDepth D d r ≤ avbl
  depth : d + r ≤ N + 1 ∨ avbl = 0
  fresh : d = 0 → avbl ≤ 1 ∧ 0 < r
  falls : (a.drop m).Pairwise fun x y => y ≤ x
  range : ∀ l ∈ a.drop m, 1 ≤ l ∧ l < N + 2 ∧ l < d
  kraft : ((a.drop m).map fun l => 2 ^ (N + 2 - l)).sum + avbl * 2 ^ (N + 2 - d) = 2 ^ (N + 2)

namespace Dealing

variable {N avbl d r m : Nat} {p : Nat → Nat} {D a : List Nat}

/-- While internal nodes are left, one of them has the depth at hand. -/
theorem count_pos (h : Dealing N D avbl d r m a) (tree : Tree N p D) (hr : 0 < r) : 0 < countAtDepth D d r := by
  obtain ⟨hle, -, hout⟩ := countAtDepth_spec D d r
  by_contra hzero
  have hc : countAtDepth D d r = 0 := by omega
  rw [hc, Nat.sub_zero] at hout
  refine hout hr (le_antisymm ?_ (h.deeper (r - 1) (by omega)))
  by_cases hroot : r = N + 1
  · rw [show r - 1 = N by omega, tree.root]
    exact Nat.zero_le d
  · have hgap := tree.gapless (i := r - 1) (by have := h.below; omega)
    rw [show r - 1 + 1 = r by omega] at hgap
    have := h.shallower r (le_refl r) (by have := h.below; omega)
    omega

/-- The leaves of one depth are written, and the next depth has two nodes for each internal one. -/
theorem next (h : Dealing N D avbl d r m a) (tree : Tree N p D) (havbl : avbl ≠ 0) :
    let c := countAtDepth D d r
    Dealing N D (2 * c) (d + 1) (r - c) (m - (avbl - c)) (fillDepth d (avbl - c) m a) := by
  intro c
  obtain ⟨hle, hin, hout⟩ := countAtDepth_spec D d r
  change c ≤ r at hle
  change ∀ i, r - c ≤ i → i < r → arrAt D i = d at hin
  change c < r → arrAt D (r - c - 1) ≠ d at hout
  have hused : c ≤ avbl := h.used
  have hleft := h.left
  have hroom := h.room
  have hlen := h.length
  have hbelow := h.below
  have hdepth : d + r ≤ N + 1 := h.depth.resolve_right havbl
  have hfill : fillDepth d (avbl - c) m a = a.take (m - (avbl - c)) ++ (List.replicate (avbl - c) d ++ a.drop m) :=
    fillDepth_eq (by omega) (by omega)
  have hprefix : (a.take (m - (avbl - c))).length = m - (avbl - c) := by rw [List.length_take]; omega
  have hdrop : (fillDepth d (avbl - c) m a).drop (m - (avbl - c)) = List.replicate (avbl - c) d ++ a.drop m := by
    rw [hfill, List.drop_left' hprefix]
  have hlevel : ∀ k ≤ N, arrAt D k = d → r - c ≤ k ∧ k < r := fun k hk hd => by
    refine ⟨?_, ?_⟩
    · by_contra hlt
      have hne := hout (by omega)
      have hge := h.deeper (r - c - 1) (by omega)
      have hfall := tree.falls (i := k) (j := r - c - 1) (by omega) (by omega)
      omega
    · by_contra hge
      have := h.shallower k (by omega) hk
      omega
  have hdeeper : ∀ i < r - c, d + 1 ≤ arrAt D i := fun i hi => by
    have hge := h.deeper i (by omega)
    have hne : arrAt D i ≠ d := fun heq => by
      have := hlevel i (by omega) heq
      omega
    omega
  have hpos : 0 < r → 0 < c := h.count_pos tree
  refine ⟨?_, by omega, by omega, by omega, fun i hi => ?_, hdeeper, fun i hi hi' => ?_, ?_, ?_, fun h0 => by omega,
    ?_, ?_, ?_⟩
  · rw [hfill]
    simp only [List.length_append, List.length_replicate, List.length_drop, hprefix]
    omega
  · rw [hfill, arrAt_append_left (by rw [hprefix]; omega), arrAt_take (by omega)]
    exact h.kept i (by omega)
  · by_cases hr : i < r
    · rw [hin i hi hr]
      omega
    · have := h.shallower i (by omega) hi'
      omega
  · by_cases hlast : r - c ≤ N
    · obtain ⟨hle', hin', -⟩ := countAtDepth_spec D (d + 1) (r - c)
      have := tree.width hlast hlevel hin'
      omega
    · have := h.count_pos tree (by omega)
      change 0 < c at this
      omega
  · by_cases hr : 0 < r
    · have := hpos hr
      omega
    · omega
  · rw [hdrop, List.pairwise_append]
    refine ⟨List.pairwise_replicate.2 (Or.inr (le_refl d)), h.falls, fun x hx y hy => ?_⟩
    rw [(List.mem_replicate.1 hx).2]
    exact (h.range y hy).2.2.le
  · rw [hdrop]
    intro l hl
    rcases List.mem_append.1 hl with hl | hl
    · obtain ⟨hsome, rfl⟩ := List.mem_replicate.1 hl
      refine ⟨?_, by omega, by omega⟩
      by_contra hzero
      obtain ⟨hone, hr⟩ := h.fresh (by omega)
      have := hpos hr
      omega
    · have := h.range l hl
      omega
  · rw [hdrop, List.map_append, List.sum_append, List.map_replicate, List.sum_replicate, smul_eq_mul, ← h.kraft]
    have hsplit : 2 ^ (N + 2 - d) = 2 * 2 ^ (N + 2 - (d + 1)) := by
      rw [← pow_succ', show N + 2 - (d + 1) + 1 = N + 2 - d by omega]
    have hall : avbl * 2 ^ (N + 2 - d) = (avbl - c) * 2 ^ (N + 2 - d) + 2 * c * 2 ^ (N + 2 - (d + 1)) := by
      rw [Nat.mul_right_comm, ← hsplit, Nat.mul_comm (2 ^ _) c, ← Nat.add_mul, Nat.sub_add_cancel hused]
    omega

/-- When no node is available, every leaf is written. -/
theorem done (h : Dealing N D avbl d r m a) (tree : Tree N p D) (hnone : avbl = 0) : FullCode (N + 2) a := by
  have hr : r = 0 := by
    by_contra hr
    have := h.count_pos tree (by omega)
    have := h.used
    omega
  obtain rfl : m = 0 := by rw [h.left, hnone, hr]
  have hkraft := h.kraft
  rw [hnone, Nat.zero_mul, Nat.add_zero] at hkraft
  exact ⟨h.length, h.falls, fun x hx => ⟨(h.range x hx).1, (h.range x hx).2.1⟩, hkraft⟩

end Dealing

theorem minredLeaves_of_none (f d r m : Nat) (a : List Nat) : minredLeaves f 0 d r m a = a := by
  cases f <;> rfl

/-- Phase 3 leaves the lengths of a full code: every round but the last has an internal node of its depth. -/
theorem minredLeaves_full {N f avbl d r m : Nat} {p : Nat → Nat} {D a : List Nat} (tree : Tree N p D) (hf : r + 2 ≤ f)
    (h : Dealing N D avbl d r m a) : FullCode (N + 2) (minredLeaves f avbl d r m a) := by
  induction f generalizing avbl d r m a with
  | zero => omega
  | succ f ih =>
    by_cases hnone : avbl = 0
    · rw [hnone, minredLeaves_of_none]
      exact h.done tree hnone
    · have hcount : countAtDepth a d r = countAtDepth D d r := countAtDepth_congr d h.kept
      have hnext := h.next tree hnone
      rw [minredLeaves, if_neg hnone]
      dsimp only
      rw [hcount]
      by_cases hr : 0 < r
      · have := h.count_pos tree hr
        exact ih (by omega) hnext
      · have hc : countAtDepth D d r = 0 := by
          have := (countAtDepth_spec D d r).1
          omega
        rw [hc] at hnext ⊢
        rw [Nat.mul_zero, minredLeaves_of_none]
        exact hnext.done tree rfl

/-- The phases 1 and 2 leave a tree's depths. -/
theorem depths_tree {N : Nat} {b : List Nat} (hlen : b.length = N + 2) (h : Parented N (N + 1) b) :
    (minredDepths N (b.set N 0)).length = N + 2 ∧ Tree N (arrAt b) (minredDepths N (b.set N 0)) := by
  have habove : ∀ i < N, i < arrAt b i ∧ arrAt b i ≤ N := fun i hi => by
    have := h.above i hi
    omega
  obtain ⟨hl, hroot, hdepth⟩ := minredDepths_spec (a := b.set N 0) (le_refl N) (by rw [List.length_set]; omega) habove
    (fun i hi => arrAt_set_ne (by omega)) (arrAt_set_self (by omega)) fun i hi hi' => by omega
  exact ⟨by rw [hl, List.length_set, hlen], habove, h.rising, h.pairs, hroot, hdepth⟩

/-- Phase 3 begins with the root. -/
theorem dealing_start {N : Nat} {p : Nat → Nat} {D : List Nat} (hlen : D.length = N + 2) (tree : Tree N p D) :
    Dealing N D 1 0 (N + 1) (N + 2) D where
  length := hlen
  left := rfl
  room := le_refl _
  below := le_refl _
  kept := fun _ _ => rfl
  deeper := fun _ _ => Nat.zero_le _
  shallower := fun i hi hi' => by omega
  used := by
    obtain ⟨hle, hin, -⟩ := countAtDepth_spec D 0 (N + 1)
    by_contra htwo
    have hzero := hin (N - 1) (by omega) (by omega)
    rw [tree.depth (N - 1) (by omega)] at hzero
    exact Nat.succ_ne_zero _ hzero
  depth := Or.inl (by omega)
  fresh := fun _ => ⟨le_refl _, Nat.succ_pos N⟩
  falls := by rw [← hlen, List.drop_length]; exact List.Pairwise.nil
  range := by rw [← hlen, List.drop_length]; exact fun _ h => absurd h List.not_mem_nil
  kraft := by rw [← hlen, List.drop_length]; simp

/-- HUF.MINRED on two frequencies or more gives the lengths of a full code (R182). -/
theorem minred_full {a : List Nat} (h : 2 ≤ a.length) : FullCode a.length (minred a) := by
  obtain ⟨N, hN⟩ : ∃ N, a.length = N + 2 := ⟨a.length - 2, by omega⟩
  have hdef : minred a = minredLeaves (N + 3) 1 0 (N + 1) (N + 2) (minredDepths N
      ((minredMerge (N + 2) N 1 0 2 (a.set 0 (arrAt a 0 + arrAt a 1))).set N 0)) := by
    rw [minred, hN]
  obtain ⟨hlen, hparented⟩ := minredMerge_parented (k := N) (nxt := 1) (root := 0) (leaf := 2)
    (a := a.set 0 (arrAt a 0 + arrAt a 1)) (by rw [List.length_set, hN]) (by omega) rfl (by omega) Nat.one_pos
    ⟨fun k hk => absurd hk (Nat.not_lt_zero k), fun _ k _ hk => absurd hk (Nat.not_lt_zero k),
      fun _ hk => absurd hk (Nat.not_lt_zero _)⟩
  obtain ⟨hlenD, tree⟩ := depths_tree hlen hparented
  rw [hdef, hN]
  exact minredLeaves_full tree (le_refl _) (dealing_start hlenD tree)

end Sys2Proof.Proofs.MinimumRedundancy

/-! HUF.LIMIT, HUF.ASSIGN_SIZES and HUF.BUILD complete on the counts of a canonical table, and every counted symbol gets a
length (R183, R184, R186). -/

namespace Sys2Proof.Proofs.LengthLimit

open Sys2Proof Sys2Proof.Machine Sys2Proof.Laws Sys2Proof.Proofs.HostCalls Sys2Proof.Proofs.MinimumRedundancy

/-! Sums over a histogram. -/

/-- The sum over the lengths 1 to `n` of how many codes have the length, times a weight of the length. -/
def weighed (n : Nat) (num : List Nat) (w : Nat → Nat) : Nat :=
  ((List.range n).map fun j => arrAt num (j + 1) * w (j + 1)).sum

theorem weighed_succ (n : Nat) (num : List Nat) (w : Nat → Nat) :
    weighed (n + 1) num w = weighed n num w + arrAt num (n + 1) * w (n + 1) := by
  simp [weighed, List.range_succ]

theorem kraftTotal_eq (limit : Nat) (num : List Nat) : kraftTotal limit num = weighed limit num fun i => 2 ^ (limit - i) :=
  rfl

theorem weighed_congr {n : Nat} {num num' : List Nat} {w w' : Nat → Nat}
    (h : ∀ i, 1 ≤ i → i ≤ n → arrAt num i * w i = arrAt num' i * w' i) : weighed n num w = weighed n num' w' := by
  induction n with
  | zero => rfl
  | succ n ih =>
    rw [weighed_succ, weighed_succ, ih fun i hi hi' => h i hi (by omega), h (n + 1) (by omega) (le_refl _)]

/-- Replacing one number of the histogram replaces its share of the sum. -/
theorem weighed_set {n i : Nat} {num : List Nat} (hi : 1 ≤ i) (hin : i ≤ n) (hlen : i < num.length) (v : Nat)
    (w : Nat → Nat) : weighed n (num.set i v) w + arrAt num i * w i = weighed n num w + v * w i := by
  induction n with
  | zero => omega
  | succ n ih =>
    rw [weighed_succ, weighed_succ]
    by_cases hlast : i = n + 1
    · have hrest : weighed n (num.set i v) w = weighed n num w :=
        weighed_congr fun j _ hj => by rw [arrAt_set_ne (by omega)]
      rw [hrest, ← hlast, arrAt_set_self hlen]
      omega
    · rw [arrAt_set_ne (fun h => hlast h.symm)]
      have := ih (by omega)
      omega

theorem weighed_addAt {n i : Nat} {num : List Nat} (hi : 1 ≤ i) (hin : i ≤ n) (hlen : i < num.length) (k : Nat)
    (w : Nat → Nat) : weighed n (addAt num i k) w = weighed n num w + k * w i := by
  have h := weighed_set hi hin hlen (arrAt num i + k) w
  rw [Nat.add_mul] at h
  rw [addAt]
  omega

@[simp] theorem addAt_length (num : List Nat) (i k : Nat) : (addAt num i k).length = num.length := by simp [addAt]

/-- Codes of one length taken away and as many added to another one. -/
theorem weighed_move {n i j : Nat} {num : List Nat} (hi : 1 ≤ i) (hin : i ≤ n) (hj : 1 ≤ j) (hjn : j ≤ n)
    (hlen : n < num.length) (v k : Nat) (w : Nat → Nat) :
    weighed n (addAt (num.set i v) j k) w + arrAt num i * w i = weighed n num w + v * w i + k * w j := by
  rw [weighed_addAt hj hjn (by rw [List.length_set]; omega)]
  have := weighed_set (num := num) hi hin (by omega) v w
  omega

/-! The histogram of the natural lengths, and the too-long codes folded into the deepest bucket. -/

/-- The histogram weighs what the lengths weigh (R183). -/
theorem foldl_histogram {n : Nat} {a num : List Nat} (hlen : n < num.length) (ha : ∀ l ∈ a, 1 ≤ l ∧ l ≤ n) (w : Nat → Nat) :
    (a.foldl (fun num l => addAt num l 1) num).length = num.length
    ∧ weighed n (a.foldl (fun num l => addAt num l 1) num) w = weighed n num w + (a.map w).sum := by
  induction a generalizing num with
  | nil => exact ⟨rfl, rfl⟩
  | cons l a ih =>
    obtain ⟨hl, hl'⟩ := ha l List.mem_cons_self
    obtain ⟨hlen', hsum⟩ := ih (num := addAt num l 1) (by simpa using hlen) fun x hx => ha x (List.mem_cons_of_mem _ hx)
    rw [List.foldl_cons, hlen', hsum, addAt_length, weighed_addAt hl hl' (by omega), List.map_cons, List.sum_cons]
    exact ⟨rfl, by omega⟩

theorem weighed_zeros (n k : Nat) (w : Nat → Nat) : weighed n (List.replicate k 0) w = 0 := by
  have hzero : ∀ i, arrAt (List.replicate k 0) i = 0 := fun i => by
    rw [arrAt, List.getD_eq_getElem?_getD, List.getElem?_getD_replicate_default_eq]
  simp [weighed, hzero]

theorem histogram_weighed {n : Nat} {a : List Nat} (hn : n ≤ 32) (ha : ∀ l ∈ a, 1 ≤ l ∧ l ≤ n) (w : Nat → Nat) :
    (lengthHistogram a).length = 33 ∧ weighed n (lengthHistogram a) w = (a.map w).sum := by
  obtain ⟨hlen, hsum⟩ := foldl_histogram (num := List.replicate 33 0) (by rw [List.length_replicate]; omega) ha w
  rw [weighed_zeros, Nat.zero_add] at hsum
  rw [List.length_replicate] at hlen
  exact ⟨hlen, hsum⟩

/-- Folding `k` buckets into the deepest one empties them and keeps every sum in which they weigh as much as it does. -/
theorem foldBuckets {limit k : Nat} {num : List Nat} (hlimit : 1 ≤ limit) (hk : limit + k ≤ 32) (hlen : num.length = 33)
    (w : Nat → Nat) :
    let folded := (List.range k).foldl
      (fun num j => (addAt num limit (arrAt num (limit + 1 + j))).set (limit + 1 + j) 0) num
    folded.length = 33 ∧ (∀ i, limit < i → i ≤ limit + k → arrAt folded i = 0)
    ∧ weighed 32 folded (fun i => w (min i limit)) = weighed 32 num fun i => w (min i limit) := by
  induction k with
  | zero => exact ⟨hlen, fun i hi hi' => by omega, rfl⟩
  | succ k ih =>
    obtain ⟨hlen', hzero, hsum⟩ := ih (by omega)
    rw [List.range_succ, List.foldl_append, List.foldl_cons, List.foldl_nil]
    set b := (List.range k).foldl
      (fun num j => (addAt num limit (arrAt num (limit + 1 + j))).set (limit + 1 + j) 0) num with hb
    refine ⟨by simpa using hlen', fun i hi hi' => ?_, ?_⟩
    · by_cases hlast : i = limit + 1 + k
      · rw [hlast, arrAt_set_self (by rw [addAt_length]; omega)]
      · rw [arrAt_set_ne hlast, addAt, arrAt_set_ne (by omega)]
        exact hzero i hi (by omega)
    · have hmove := weighed_set (n := 32) (i := limit + 1 + k) (num := addAt b limit (arrAt b (limit + 1 + k))) (by omega)
        (by omega) (by rw [addAt_length]; omega) 0 fun i => w (min i limit)
      have hadd := weighed_addAt (n := 32) (num := b) hlimit (by omega) (by omega) (arrAt b (limit + 1 + k))
        fun i => w (min i limit)
      have hsame : arrAt (addAt b limit (arrAt b (limit + 1 + k))) (limit + 1 + k) = arrAt b (limit + 1 + k) := by
        rw [addAt, arrAt_set_ne (by omega)]
      rw [hsame, Nat.min_eq_right (show limit ≤ limit + 1 + k by omega)] at hmove
      rw [Nat.min_self] at hadd
      omega

/-- After the fold the lengths up to the limit weigh what all weighed, the longer ones counting as the limit (R183). -/
theorem foldLong_weighed {limit : Nat} {num : List Nat} (hlimit : 1 ≤ limit) (h32 : limit ≤ 32) (hlen : num.length = 33)
    (w : Nat → Nat) : (foldLong limit num).length = 33
    ∧ weighed limit (foldLong limit num) w = weighed 32 num fun i => w (min i limit) := by
  obtain ⟨hlen', hzero, hsum⟩ := foldBuckets (k := 32 - limit) hlimit (by omega) hlen w
  refine ⟨hlen', ?_⟩
  rw [← hsum]
  have hall : ∀ k, limit + k ≤ 32 → weighed (limit + k) (foldLong limit num) (fun i => w (min i limit))
      = weighed limit (foldLong limit num) w := fun k hk => by
    induction k with
    | zero => exact weighed_congr fun i _ hi => by rw [Nat.min_eq_left (by omega)]
    | succ k ih =>
      rw [← Nat.add_assoc, weighed_succ, ih (by omega)]
      have : arrAt (foldLong limit num) (limit + k + 1) = 0 := hzero _ (by omega) (by omega)
      rw [this, Nat.zero_mul, Nat.add_zero]
  have h := hall (32 - limit) (by omega)
  rw [show limit + (32 - limit) = 32 by omega] at h
  exact h.symm

/-! The rebalancing rounds. -/

/-- A round splits the deepest code above the limit, if there is one. -/
theorem splitDeepest_cases (i : Nat) (num : List Nat) :
    (∃ j, 1 ≤ j ∧ j ≤ i ∧ arrAt num j ≠ 0 ∧ splitDeepest i num = addAt (num.set j (arrAt num j - 1)) (j + 1) 2)
    ∨ ∀ j, 1 ≤ j → j ≤ i → arrAt num j = 0 := by
  induction i with
  | zero => exact Or.inr fun j hj hj' => by omega
  | succ i ih =>
    rw [splitDeepest]
    by_cases h : arrAt num (i + 1) ≠ 0
    · exact Or.inl ⟨i + 1, by omega, le_refl _, h, if_pos h⟩
    · rw [if_neg h]
      rcases ih with ⟨j, hj, hj', hne, heq⟩ | hnone
      · exact Or.inl ⟨j, hj, by omega, hne, heq⟩
      · refine Or.inr fun j hj hj' => ?_
        by_cases hlast : j = i + 1
        · rw [hlast]; exact not_not.1 h
        · exact hnone j hj (by omega)

/-- The weight of the codes shorter than the limit in the scaled Kraft sum. -/
def shortWeight (limit i : Nat) : Nat := if i < limit then 2 ^ (limit - i) else 0

/-- The rounds before the scaled Kraft sum is `2^limit`: `n` codes, the shorter ones of them within the Kraft inequality. -/
structure Rebalancing (limit n : Nat) (num : List Nat) : Prop where
  length : num.length = 33
  codes : weighed limit num (fun _ => 1) = n
  short : weighed limit num (shortWeight limit) ≤ 2 ^ limit

/-- The scaled Kraft sum is that of the shorter codes and one for each code of the limit. -/
theorem kraftTotal_split (l : Nat) (num : List Nat) :
    kraftTotal (l + 1) num = weighed (l + 1) num (shortWeight (l + 1)) + arrAt num (l + 1) := by
  rw [kraftTotal_eq, weighed_succ, weighed_succ, Nat.sub_self, pow_zero, Nat.mul_one, shortWeight,
    if_neg (lt_irrefl _), Nat.mul_zero, Nat.add_zero]
  congr 1
  exact weighed_congr fun i _ hi => by rw [shortWeight, if_pos (by omega)]

/-- While the scaled Kraft sum is too large a round lowers it by one and keeps the rest (R183). -/
theorem Rebalancing.round {l n : Nat} {num : List Nat} (h : Rebalancing (l + 1) n num) (hn : n ≤ 2 ^ (l + 1)) (hl : l < 32)
    (hbig : 2 ^ (l + 1) < kraftTotal (l + 1) num) :
    arrAt num (l + 1) ≠ 0
    ∧ Rebalancing (l + 1) n (splitDeepest l (num.set (l + 1) (arrAt num (l + 1) - 1)))
    ∧ kraftTotal (l + 1) (splitDeepest l (num.set (l + 1) (arrAt num (l + 1) - 1))) + 1 = kraftTotal (l + 1) num := by
  obtain ⟨hlen, hcodes, hshort⟩ := h
  have hdeep : arrAt num (l + 1) ≠ 0 := fun hzero => by
    rw [kraftTotal_split, hzero] at hbig
    omega
  refine ⟨hdeep, ?_⟩
  set num1 := num.set (l + 1) (arrAt num (l + 1) - 1) with hnum1
  have hlen1 : num1.length = 33 := by rw [hnum1, List.length_set, hlen]
  have hless : ∀ w : Nat → Nat, weighed (l + 1) num1 w + w (l + 1) = weighed (l + 1) num w := fun w => by
    have hset := weighed_set (n := l + 1) (num := num) (by omega) (le_refl _) (by omega) (arrAt num (l + 1) - 1) w
    rw [← hnum1] at hset
    have hone : arrAt num (l + 1) * w (l + 1) = (arrAt num (l + 1) - 1) * w (l + 1) + w (l + 1) := by
      rw [← Nat.succ_mul, Nat.succ_eq_add_one, Nat.sub_add_cancel (Nat.pos_of_ne_zero hdeep)]
    omega
  rcases splitDeepest_cases l num1 with ⟨j, hj, hjl, hne, heq⟩ | hnone
  · rw [heq]
    have hmove : ∀ w : Nat → Nat, weighed (l + 1) (addAt (num1.set j (arrAt num1 j - 1)) (j + 1) 2) w + w j + w (l + 1)
        = weighed (l + 1) num w + 2 * w (j + 1) := fun w => by
      have hset := weighed_move (n := l + 1) (num := num1) hj (by omega) (j := j + 1) (by omega) (by omega) (by omega)
        (arrAt num1 j - 1) 2 w
      have hone : arrAt num1 j * w j = (arrAt num1 j - 1) * w j + w j := by
        rw [← Nat.succ_mul, Nat.succ_eq_add_one, Nat.sub_add_cancel (Nat.pos_of_ne_zero hne)]
      have := hless w
      omega
    have hpow : 2 ^ (l + 1 - j) = 2 * 2 ^ (l + 1 - (j + 1)) := by
      rw [← pow_succ', show l + 1 - (j + 1) + 1 = l + 1 - j by omega]
    refine ⟨⟨by simp [hlen1], ?_, ?_⟩, ?_⟩
    · have := hmove fun _ => 1
      omega
    · have hsum := hmove (shortWeight (l + 1))
      have hsplit : 2 * shortWeight (l + 1) (j + 1) ≤ shortWeight (l + 1) j := by
        rw [shortWeight, shortWeight, if_pos (show j < l + 1 by omega), hpow]
        split <;> omega
      omega
    · have hsum := hmove fun i => 2 ^ (l + 1 - i)
      rw [Nat.sub_self, pow_zero] at hsum
      rw [kraftTotal_eq, kraftTotal_eq]
      omega
  · exfalso
    have hall : kraftTotal (l + 1) num = n := by
      rw [← hcodes, kraftTotal_eq]
      refine weighed_congr fun i hi hi' => ?_
      by_cases hlast : i = l + 1
      · rw [hlast, Nat.sub_self, pow_zero]
      · have := hnone i hi (by omega)
        rw [hnum1, arrAt_set_ne hlast] at this
        rw [this, Nat.zero_mul, Nat.zero_mul]
    omega

/-- The rounds complete and keep the number of codes (R183). -/
theorem limitRounds_complete {l n k : Nat} {num : List Nat} (h : Rebalancing (l + 1) n num) (hn : n ≤ 2 ^ (l + 1))
    (hl : l < 32) (hk : 2 ^ (l + 1) + k ≤ kraftTotal (l + 1) num) :
    ∃ num', limitRounds (l + 1) k num = some num' ∧ weighed (l + 1) num' (fun _ => 1) = n := by
  induction k generalizing num with
  | zero => exact ⟨num, rfl, h.codes⟩
  | succ k ih =>
    obtain ⟨hdeep, hround, htotal⟩ := h.round hn hl (by omega)
    rw [limitRounds, if_neg hdeep, Nat.add_sub_cancel]
    exact ih hround (by omega)

/-! HUF.LIMIT on a full code. -/

/-- The scaled Kraft sum of a full code, cut off at the limit, is at least one, and that of its codes shorter than the limit
at most one (R183). -/
theorem fullCode_limited {n limit : Nat} {a : List Nat} (h : FullCode n a) :
    2 ^ limit ≤ (a.map fun x => 2 ^ (limit - min x limit)).sum
    ∧ (a.map fun x => shortWeight limit (min x limit)).sum ≤ 2 ^ limit := by
  have hscale : ∀ w : Nat → Nat, (a.map w).sum * 2 ^ n = (a.map fun x => w x * 2 ^ n).sum := fun w =>
    (List.sum_map_mul_right a w (2 ^ n)).symm
  have hkraft : (a.map fun x => 2 ^ limit * 2 ^ (n - x)).sum = 2 ^ limit * 2 ^ n := by
    rw [List.sum_map_mul_left, h.kraft]
  refine ⟨Nat.le_of_mul_le_mul_right ?_ (Nat.two_pow_pos n), Nat.le_of_mul_le_mul_right ?_ (Nat.two_pow_pos n)⟩
  · rw [hscale, ← hkraft]
    refine List.sum_le_sum fun x hx => ?_
    have := h.range x hx
    rw [← pow_add, ← pow_add]
    exact Nat.pow_le_pow_right (by norm_num) (by omega)
  · rw [hscale, ← hkraft]
    refine List.sum_le_sum fun x hx => ?_
    have := h.range x hx
    rw [shortWeight]
    split
    · rw [← pow_add, ← pow_add]
      exact Nat.pow_le_pow_right (by norm_num) (by omega)
    · rw [Nat.zero_mul]
      exact Nat.zero_le _

/-- HUF.LIMIT on the lengths of a full code, none above 32, completes and gives as many lengths as there are codes. -/
theorem limitLengths_of_full {l n : Nat} {a : List Nat} (h : FullCode n a) (h2 : 2 ≤ n) (h32 : ∀ x ∈ a, x ≤ 32)
    (hn : n ≤ 2 ^ (l + 1)) (hl : l < 32) :
    ∃ num, limitLengths (l + 1) a = some num ∧ weighed (l + 1) num (fun _ => 1) = n := by
  have hrange : ∀ x ∈ a, 1 ≤ x ∧ x ≤ 32 := fun x hx => ⟨(h.range x hx).1, h32 x hx⟩
  have hfold : ∀ w : Nat → Nat, weighed (l + 1) (foldLong (l + 1) (lengthHistogram a)) w
      = (a.map fun x => w (min x (l + 1))).sum := fun w => by
    rw [(foldLong_weighed (by omega) (by omega) (histogram_weighed (le_refl 32) hrange w).1 w).2,
      (histogram_weighed (le_refl 32) hrange fun i => w (min i (l + 1))).2]
  obtain ⟨hbig, hshort⟩ := fullCode_limited (limit := l + 1) h
  rw [← hfold fun i => 2 ^ (l + 1 - i), ← kraftTotal_eq] at hbig
  rw [← hfold] at hshort
  have hstart : Rebalancing (l + 1) n (foldLong (l + 1) (lengthHistogram a)) :=
    ⟨(foldLong_weighed (by omega) (by omega) (histogram_weighed (le_refl 32) hrange id).1 id).1,
      by rw [hfold]; simp [h.length], hshort⟩
  have hall : (a.all fun x => decide (x ≤ Config.maxSupportedCodesize)) = true := by simpa using h32
  rw [limitLengths, if_pos hall]
  dsimp only
  rw [if_neg (by rw [h.length]; omega), if_pos hbig]
  exact limitRounds_complete hstart hn hl (by omega)

/-! HUF.ASSIGN_SIZES. -/

/-- As many lengths are dealt as the histogram counts codes (R184). -/
theorem dealtLengths_length (limit : Nat) (num : List Nat) :
    (dealtLengths limit num).length = weighed limit num fun _ => 1 := by
  simp [dealtLengths, weighed, List.length_flatMap]

theorem mem_dealtLengths {limit l : Nat} {num : List Nat} (h : l ∈ dealtLengths limit num) : 1 ≤ l ∧ l ≤ limit := by
  obtain ⟨j, hj, hl⟩ := List.mem_flatMap.1 h
  have hj := List.mem_range.1 hj
  rw [(List.mem_replicate.1 hl).2]
  omega

/-- Dealing lengths leaves every symbol it deals to a length, and takes none from the others. -/
theorem foldl_sizes_ne_zero {l : List (SymKey × Nat)} {m : Mem 8} (hw : Mem.wf m) (hl : ∀ p ∈ l, 1 ≤ p.2 ∧ p.2 < 256)
    {a : Nat} (ha : Mem.read m a ≠ 0 ∨ ∃ p ∈ l, p.1.sym = a) :
    Mem.read (l.foldl (fun m p => Mem.write m p.1.sym (BitVec.ofNat 8 p.2)) m) a ≠ 0 := by
  induction l generalizing m with
  | nil => simpa using ha
  | cons p l ih =>
    refine ih (write_wf hw _ _) (fun q hq => hl q (List.mem_cons_of_mem _ hq)) ?_
    rw [read_write hw]
    by_cases heq : a = p.1.sym
    · rw [if_pos heq]
      have hp := hl p List.mem_cons_self
      refine Or.inl fun hzero => ?_
      have := congrArg BitVec.toNat hzero
      rw [BitVec.toNat_ofNat] at this
      change p.2 % 2 ^ 8 = 0 at this
      omega
    · rw [if_neg heq]
      rcases ha with hne | ⟨q, hq, hqa⟩
      · exact Or.inl hne
      · rcases List.mem_cons.1 hq with rfl | hq
        · exact absurd hqa.symm heq
        · exact Or.inr ⟨q, hq, hqa⟩

/-- With as many lengths as symbols every symbol gets one (R184). -/
theorem assignedSizes_ne_zero {limit : Nat} {sym : List SymKey} {num : List Nat} (hlimit : limit < 256)
    (hall : (dealtLengths limit num).length = sym.length) {x : SymKey} (hx : x ∈ sym) :
    Mem.read (assignedSizes limit sym num) x.sym ≠ 0 := by
  refine foldl_sizes_ne_zero wf_nil (fun p hp => ?_) (Or.inr ?_)
  · have := mem_dealtLengths (List.of_mem_zip hp).2
    omega
  · have hfst : (sym.reverse.zip (dealtLengths limit num)).map Prod.fst = sym.reverse :=
      List.map_fst_zip (by rw [List.length_reverse, hall])
    have hmem : x ∈ (sym.reverse.zip (dealtLengths limit num)).map Prod.fst := by
      rw [hfst]
      exact List.mem_reverse.2 hx
    obtain ⟨p, hp, rfl⟩ := List.mem_map.1 hmem
    exact ⟨p, hp, rfl⟩

/-! HUF.COLLECT and HUF.SORT. -/

theorem insertByDigit_perm (shift : Nat) (x : SymKey) (l : List SymKey) : (insertByDigit shift x l).Perm (x :: l) := by
  induction l with
  | nil => exact List.Perm.refl _
  | cons y l ih =>
    rw [insertByDigit]
    split
    · exact List.Perm.refl _
    · exact (ih.cons y).trans (List.Perm.swap x y l)

theorem sortPass_perm (shift : Nat) (l : List SymKey) : (sortPass shift l).Perm l := by
  suffices h : ∀ acc : List SymKey,
      (l.foldl (fun acc x => insertByDigit shift x acc) acc).Perm (l ++ acc) by
    simpa [sortPass] using h []
  induction l with
  | nil => exact fun acc => List.Perm.refl _
  | cons x l ih =>
    intro acc
    exact ((ih _).trans ((insertByDigit_perm shift x acc).append_left l)).trans List.perm_middle

/-- HUF.SORT rearranges the pairs (R181). -/
theorem radixSort_perm (l : List SymKey) : (radixSort l).Perm l := (sortPass_perm 8 _).trans (sortPass_perm 0 l)

/-- The pairs collected are those of the symbols counted, each below the table's end (R180). -/
theorem mem_collect {count : Mem 16} {n : Nat} {x : SymKey} :
    x ∈ collect count n ↔ (x.sym, x.key) ∈ count ∧ x.sym < n ∧ x.key ≠ 0 := by
  simp only [collect, List.mem_filterMap]
  constructor
  · rintro ⟨c, hc, hx⟩
    split at hx
    case isTrue h => cases hx; exact ⟨hc, h⟩
    case isFalse => cases hx
  · rintro ⟨hc, h⟩
    exact ⟨_, hc, if_pos h⟩

/-- No more pairs are collected than the table has symbols. -/
theorem collect_length_le {count : Mem 16} (hw : Mem.wf count) (n : Nat) : (collect count n).length ≤ n := by
  have hrising : ((collect count n).map SymKey.sym).Pairwise (· < ·) := by
    refine List.Pairwise.map _ (fun _ _ h => h) (List.Pairwise.filterMap _ (fun c d hcd x hx y hy => ?_) hw.1)
    split at hx <;> split at hy <;> cases hx <;> cases hy
    exact hcd
  have hsub : (collect count n).map SymKey.sym ⊆ List.range n := fun a ha => by
    obtain ⟨x, hx, rfl⟩ := List.mem_map.1 ha
    exact List.mem_range.2 (mem_collect.1 hx).2.1
  have hle := List.subperm_of_subset (hrising.imp Nat.ne_of_lt) hsub
  simpa using hle.length_le

/-! HUF.BUILD. -/

theorem naturalOf_eq (count : Mem 16) (n : Nat) : ∃ keys : List Nat, keys.length = (radixSort (collect count n)).length
    ∧ naturalOf count n = minred keys := ⟨_, List.length_map _, rfl⟩

/-- HUF.MINRED on at most one frequency (R182, R188). -/
theorem minred_of_length_le_one {a : List Nat} (h : a.length ≤ 1) : minred a = List.replicate a.length 1 := by
  match a, h with
  | [], _ => rfl
  | [_], _ => rfl

theorem codeLimit_eq (t : Table) : ∃ l, codeLimit t = l + 1 ∧ l < 15 ∧ numSyms t ≤ 2 ^ (l + 1) := by
  cases t
  · exact ⟨14, rfl, by decide, by decide⟩
  · exact ⟨14, rfl, by decide, by decide⟩
  · exact ⟨6, rfl, by decide, by decide⟩

/-- HUF.LIMIT on natural lengths of at most 32 gives as many lengths as there are symbols counted (R183, R188). -/
theorem limitLengths_natural {t : Table} {count : Mem 16} (hw : Mem.wf count)
    (h32 : ∀ l ∈ naturalOf count (numSyms t), l ≤ 32) :
    ∃ num, limitLengths (codeLimit t) (naturalOf count (numSyms t)) = some num
      ∧ weighed (codeLimit t) num (fun _ => 1) = (radixSort (collect count (numSyms t))).length := by
  obtain ⟨keys, hkeys, hnat⟩ := naturalOf_eq count (numSyms t)
  obtain ⟨l, hl, hl15, hsyms⟩ := codeLimit_eq t
  have hfew : keys.length ≤ numSyms t := by
    rw [hkeys, (radixSort_perm _).length_eq]
    exact collect_length_le hw _
  rw [hnat] at h32 ⊢
  rw [← hkeys, hl]
  by_cases h2 : 2 ≤ keys.length
  · exact limitLengths_of_full (minred_full h2) h2 h32 (hfew.trans hsyms) (by omega)
  · have hones := minred_of_length_le_one (a := keys) (by omega)
    rw [hones]
    refine ⟨lengthHistogram (List.replicate keys.length 1), ?_, ?_⟩
    · have hall : ((List.replicate keys.length 1).all fun x => decide (x ≤ Config.maxSupportedCodesize)) = true := by
        simp [Config.maxSupportedCodesize]
      rw [limitLengths, if_pos hall]
      dsimp only
      rw [if_pos (by rw [List.length_replicate]; omega)]
    · have hrange : ∀ x ∈ List.replicate keys.length 1, 1 ≤ x ∧ x ≤ l + 1 := fun x hx => by
        rw [(List.mem_replicate.1 hx).2]
        omega
      rw [(histogram_weighed (by omega) hrange fun _ => 1).2]
      simp

/-- HUF.BUILD has a result whenever no natural length exceeds 32, and gives every symbol counted a length (R186, R189). -/
theorem builtSizes_complete {t : Table} {count : Mem 16} (hw : Mem.wf count)
    (h32 : ∀ l ∈ naturalOf count (numSyms t), l ≤ 32) :
    ∃ size, builtSizes t count = some size ∧ ∀ a < numSyms t, Mem.read count a ≠ 0 → Mem.read size a ≠ 0 := by
  obtain ⟨num, hnum, hcodes⟩ := limitLengths_natural hw h32
  rw [← dealtLengths_length] at hcodes
  have hsizeable : sizeable t { State.reset.work with sym := radixSort (collect count (numSyms t)), num := num } = true := by
    simp only [sizeable, Bool.and_eq_true, decide_eq_true_eq, List.all_eq_true]
    refine ⟨hcodes.le, fun x hx => ?_⟩
    have hx := List.mem_reverse.1 (List.mem_of_mem_take hx)
    exact (mem_collect.1 ((radixSort_perm _).mem_iff.1 hx)).2.1
  refine ⟨assignedSizes (codeLimit t) (radixSort (collect count (numSyms t))) num, ?_, fun a ha hcount => ?_⟩
  · rw [builtSizes, hnum]
    exact if_pos hsizeable
  · have hlisted : (a, Mem.read count a) ∈ count := by
      by_contra hnot
      refine hcount (read_of_not_listed fun c hc hca => hnot ?_)
      rw [← hca, read_of_mem hw hc]
      exact hc
    have hmem : (⟨Mem.read count a, a⟩ : SymKey) ∈ radixSort (collect count (numSyms t)) :=
      (radixSort_perm _).mem_iff.2 (mem_collect.2 ⟨hlisted, ha, hcount⟩)
    exact assignedSizes_ne_zero (by cases t <;> decide) hcodes hmem

/-- No natural length of a table of at most 33 symbols exceeds 32, a code having fewer levels than symbols (R183). -/
theorem naturalOf_le {count : Mem 16} (hw : Mem.wf count) {n : Nat} (hn : n ≤ 33) : ∀ l ∈ naturalOf count n, l ≤ 32 := by
  obtain ⟨keys, hkeys, hnat⟩ := naturalOf_eq count n
  have hfew : keys.length ≤ n := by
    rw [hkeys, (radixSort_perm _).length_eq]
    exact collect_length_le hw _
  rw [hnat]
  intro l hl
  by_cases h2 : 2 ≤ keys.length
  · have := (minred_full h2).range l hl
    omega
  · rw [minred_of_length_le_one (by omega)] at hl
    rw [(List.mem_replicate.1 hl).2]
    omega

end Sys2Proof.Proofs.LengthLimit

/-! ENC.CL_PLAN: what it packs, and that the packed symbols get a code (R214). -/

namespace Sys2Proof.Proofs.CodeLengthPlan

open Sys2Proof Sys2Proof.Machine Sys2Proof.Laws Sys2Proof.Proofs.HostCalls Sys2Proof.Proofs.LengthLimit

/-! The expansion of packed lengths. -/

/-- The last length of an expansion, `prev` being the one before it (R101). -/
def lastLength : Nat → List PackEntry → Nat
  | prev, [] => prev
  | prev, p :: ps => lastLength (if p.c < 16 then p.c else if p.c = 16 then prev else 0) ps

theorem expandLengths_append (prev : Nat) (ps qs : List PackEntry) :
    expandLengths prev (ps ++ qs) = expandLengths prev ps ++ expandLengths (lastLength prev ps) qs := by
  induction ps generalizing prev with
  | nil => rfl
  | cons p ps ih =>
    simp only [List.cons_append, expandLengths, lastLength, ih]
    split_ifs <;> simp

theorem lastLength_append (prev : Nat) (ps qs : List PackEntry) :
    lastLength prev (ps ++ qs) = lastLength (lastLength prev ps) qs := by
  induction ps generalizing prev with
  | nil => rfl
  | cons p ps ih => simp only [List.cons_append, lastLength, ih]

/-- Symbols below 16 stand for themselves. -/
theorem expandLengths_replicate {c : Nat} (hc : c < 16) (prev k : Nat) :
    expandLengths prev (List.replicate k ⟨c, 0⟩) = List.replicate k c := by
  induction k generalizing prev with
  | zero => rfl
  | succ k ih => simp only [List.replicate_succ, expandLengths, if_pos hc, ih]

theorem lastLength_replicate {c : Nat} (hc : c < 16) (k : Nat) : lastLength c (List.replicate k ⟨c, 0⟩) = c := by
  induction k with
  | zero => rfl
  | succ k ih => simp only [List.replicate_succ, lastLength, if_pos hc, ih]

/-! The state of the packing. -/

/-- Every entry is a code-length symbol with an extra value of its width (R101). -/
def EntriesFit (ps : List PackEntry) : Prop := ∀ e ∈ ps, e.c < 19 ∧ e.extra < 2 ^ clExtra e.c

/-- `huff_count[2]` counts the entries packed. -/
def Counted (p : Packing) : Prop :=
  Mem.wf p.count ∧ ∀ a, Mem.read p.count a = BitVec.ofNat 16 (p.packed.countP fun e => e.c == a)

theorem append_counted {p : Packing} (h : Counted p) {c : Nat} {entries : List PackEntry} (hc : ∀ e ∈ entries, e.c = c) :
    Counted (p.append c entries.length entries) := by
  refine ⟨write_wf h.1 _ _, fun a => ?_⟩
  simp only [Packing.append, read_write h.1, List.countP_append]
  split
  case isTrue ha =>
    have hall : entries.countP (fun e => e.c == a) = entries.length :=
      List.countP_eq_length.2 fun e he => by rw [hc e he, ha, beq_self_eq_true]
    rw [hall, h.2, ha, BitVec.ofNat_add]
  case isFalse ha =>
    have hnone : entries.countP (fun e => e.c == a) = 0 :=
      List.countP_eq_zero.2 fun e he => by rw [hc e he, beq_iff_eq]; exact fun h => ha h.symm
    rw [hnone, h.2, Nat.add_zero]

/-- The packing has taken in the lengths `seq`: what is packed expands to them up to the zeros or the repetitions pending
(R214). -/
structure Packed (seq : List Nat) (p : Packing) : Prop where
  expands : expandLengths 0 p.packed ++ List.replicate p.zeros 0 ++ List.replicate p.reps p.prev = seq
  last : p.prev ≠ 0 → p.prev < 16 → lastLength 0 p.packed = p.prev
  afterZeros : p.zeros ≠ 0 → p.prev = 0
  afterReps : p.reps ≠ 0 → p.prev ≠ 0 ∧ p.prev < 16
  few : p.zeros ≤ 138 ∧ p.reps ≤ 6
  fit : EntriesFit p.packed
  counted : Counted p
  short : p.packed.length + p.zeros + p.reps ≤ seq.length

namespace Packed

variable {seq : List Nat} {p : Packing}

/-- Nothing is taken in yet. -/
theorem start : Packed [] { count := [], packed := [], zeros := 0, reps := 0, prev := 0xFF } where
  expands := rfl
  last := fun _ h => absurd h (by decide)
  afterZeros := fun h => absurd rfl h
  afterReps := fun h => absurd rfl h
  few := by decide
  fit := fun _ h => absurd h List.not_mem_nil
  counted := ⟨wf_nil, fun _ => rfl⟩
  short := le_refl _

/-- Repetitions are pending only when no zeros are. -/
theorem zeros_of_reps (h : Packed seq p) (hreps : p.reps ≠ 0) : p.zeros = 0 :=
  not_not.1 fun hz => (h.afterReps hreps).1 (h.afterZeros hz)

/-- Entries that stand for the pending repetitions take their place. -/
theorem appendReps (h : Packed seq p) (hreps : p.reps ≠ 0) {c : Nat} {entries : List PackEntry}
    (hc : ∀ e ∈ entries, e.c = c) (hfit : EntriesFit entries)
    (hexpand : expandLengths p.prev entries = List.replicate p.reps p.prev) (hlast : lastLength p.prev entries = p.prev)
    (hshort : entries.length ≤ p.reps) : Packed seq { p.append c entries.length entries with reps := 0 } := by
  obtain ⟨hne, hlt⟩ := h.afterReps hreps
  have hz := h.zeros_of_reps hreps
  have hprev := h.last hne hlt
  refine ⟨?_, fun _ _ => ?_, h.afterZeros, fun h0 => absurd rfl h0, ⟨h.few.1, Nat.zero_le _⟩, fun e he => ?_,
    append_counted h.counted hc, ?_⟩
  · simp only [Packing.append, expandLengths_append, hprev, hexpand, hz, List.replicate_zero, List.append_nil]
    simpa [hz] using h.expands
  · simp only [Packing.append, lastLength_append, hprev, hlast]
  · rcases List.mem_append.1 he with he | he
    · exact h.fit e he
    · exact hfit e he
  · have := h.short
    simp only [Packing.append, List.length_append]
    omega

/-- FLUSH_REPS (R214). -/
theorem flushReps (h : Packed seq p) : Packed seq p.flushReps ∧ p.flushReps.reps = 0 ∧ p.flushReps.zeros = p.zeros
    ∧ p.flushReps.prev = p.prev := by
  unfold Packing.flushReps
  split
  case isTrue hnone => exact ⟨h, hnone, rfl, rfl⟩
  case isFalse hreps =>
    obtain ⟨hne, hlt⟩ := h.afterReps hreps
    split
    case isTrue hfew =>
      have happ := h.appendReps hreps (c := p.prev) (entries := List.replicate p.reps ⟨p.prev, 0⟩)
        (fun e he => by rw [(List.mem_replicate.1 he).2])
        (fun e he => by rw [(List.mem_replicate.1 he).2]; exact ⟨by dsimp only; omega, Nat.two_pow_pos _⟩)
        (expandLengths_replicate hlt _ _) (lastLength_replicate hlt _) (by rw [List.length_replicate])
      rw [List.length_replicate] at happ
      exact ⟨happ, rfl, rfl, rfl⟩
    case isFalse hmany =>
      have hsix := h.few.2
      refine ⟨h.appendReps hreps (c := 16) (entries := [⟨16, p.reps - 3⟩])
        (fun e he => by rw [List.mem_singleton.1 he]) (fun e he => ?_) ?_ rfl (by rw [List.length_singleton]; omega),
        rfl, rfl, rfl⟩
      · rw [List.mem_singleton.1 he]
        exact ⟨show 16 < 19 by decide, show p.reps - 3 < 2 ^ 2 by omega⟩
      · simp only [expandLengths, lt_irrefl, if_false, if_true, List.append_nil]
        rw [Nat.sub_add_cancel (by omega)]

/-- Entries that stand for the pending zeros take their place. -/
theorem appendZeros (h : Packed seq p) (hzeros : p.zeros ≠ 0) {c : Nat} {entries : List PackEntry}
    (hc : ∀ e ∈ entries, e.c = c) (hfit : EntriesFit entries)
    (hexpand : ∀ prev, expandLengths prev entries = List.replicate p.zeros 0) (hshort : entries.length ≤ p.zeros) :
    Packed seq { p.append c entries.length entries with zeros := 0 } := by
  have hprev := h.afterZeros hzeros
  have hreps : p.reps = 0 := not_not.1 fun hr => (h.afterReps hr).1 hprev
  refine ⟨?_, fun hne => absurd hprev hne, fun h0 => absurd rfl h0, h.afterReps, ⟨Nat.zero_le _, h.few.2⟩, fun e he => ?_,
    append_counted h.counted hc, ?_⟩
  · simp only [Packing.append, expandLengths_append, hexpand, List.replicate_zero, List.append_nil]
    exact h.expands
  · rcases List.mem_append.1 he with he | he
    · exact h.fit e he
    · exact hfit e he
  · have := h.short
    simp only [Packing.append, List.length_append]
    omega

/-- FLUSH_ZEROS (R214). -/
theorem flushZeros (h : Packed seq p) : Packed seq p.flushZeros ∧ p.flushZeros.zeros = 0 ∧ p.flushZeros.reps = p.reps
    ∧ p.flushZeros.prev = p.prev := by
  have hmax := h.few.1
  unfold Packing.flushZeros
  split
  case isTrue hnone => exact ⟨h, hnone, rfl, rfl⟩
  case isFalse hzeros =>
    split
    case isTrue hfew =>
      have happ := h.appendZeros hzeros (c := 0) (entries := List.replicate p.zeros ⟨0, 0⟩)
        (fun e he => by rw [(List.mem_replicate.1 he).2])
        (fun e he => by rw [(List.mem_replicate.1 he).2]; decide)
        (fun prev => expandLengths_replicate (by decide) prev _) (by rw [List.length_replicate])
      rw [List.length_replicate] at happ
      exact ⟨happ, rfl, rfl, rfl⟩
    case isFalse hsome =>
      split
      case isTrue hten =>
        refine ⟨h.appendZeros hzeros (c := 17) (entries := [⟨17, p.zeros - 3⟩])
          (fun e he => by rw [List.mem_singleton.1 he]) (fun e he => ?_) (fun prev => ?_)
          (by rw [List.length_singleton]; omega), rfl, rfl, rfl⟩
        · rw [List.mem_singleton.1 he]
          exact ⟨show 17 < 19 by decide, show p.zeros - 3 < 2 ^ 3 by omega⟩
        · have : expandLengths prev [⟨17, p.zeros - 3⟩] = List.replicate (p.zeros - 3 + 3) 0 := by simp [expandLengths]
          rw [this, Nat.sub_add_cancel (by omega)]
      case isFalse hmany =>
        refine ⟨h.appendZeros hzeros (c := 18) (entries := [⟨18, p.zeros - 11⟩])
          (fun e he => by rw [List.mem_singleton.1 he]) (fun e he => ?_) (fun prev => ?_)
          (by rw [List.length_singleton]; omega), rfl, rfl, rfl⟩
        · rw [List.mem_singleton.1 he]
          exact ⟨show 18 < 19 by decide, show p.zeros - 11 < 2 ^ 7 by omega⟩
        · have : expandLengths prev [⟨18, p.zeros - 11⟩] = List.replicate (p.zeros - 11 + 11) 0 := by
            simp [expandLengths]
          rw [this, Nat.sub_add_cancel (by omega)]

/-- One more zero is pending. -/
theorem pushZero (h : Packed seq p) (hreps : p.reps = 0) (hzeros : p.zeros < 138) :
    Packed (seq ++ [0]) { p with zeros := p.zeros + 1, prev := 0 } where
  expands := by
    have := h.expands
    rw [hreps, List.replicate_zero, List.append_nil] at this
    simp only [hreps, List.replicate_zero, List.append_nil, List.replicate_succ', ← this, List.append_assoc]
  last := fun h0 => absurd rfl h0
  afterZeros := fun _ => rfl
  afterReps := fun hr => absurd hreps hr
  few := ⟨hzeros, h.few.2⟩
  fit := h.fit
  counted := h.counted
  short := by
    have := h.short
    rw [List.length_append, List.length_singleton]
    dsimp only
    omega

/-- One more repetition is pending. -/
theorem pushRep (h : Packed seq p) (hprev : p.prev ≠ 0) (hlt : p.prev < 16) (hreps : p.reps < 6) :
    Packed (seq ++ [p.prev]) { p with reps := p.reps + 1 } where
  expands := by
    simp only [List.replicate_succ', ← List.append_assoc, h.expands]
  last := h.last
  afterZeros := h.afterZeros
  afterReps := fun _ => ⟨hprev, hlt⟩
  few := ⟨h.few.1, hreps⟩
  fit := h.fit
  counted := h.counted
  short := by
    have := h.short
    rw [List.length_append, List.length_singleton]
    dsimp only
    omega

/-- A length that is no repetition is packed as itself. -/
theorem pushLength (h : Packed seq p) (hzeros : p.zeros = 0) (hreps : p.reps = 0) {cs : Nat} (hcs : cs < 16) :
    Packed (seq ++ [cs]) { p.append cs 1 [⟨cs, 0⟩] with prev := cs } where
  expands := by
    have := h.expands
    rw [hzeros, hreps, List.replicate_zero, List.replicate_zero, List.append_nil, List.append_nil] at this
    simp only [Packing.append, hzeros, hreps, List.replicate_zero, List.append_nil, expandLengths_append, this,
      expandLengths, if_pos hcs]
  last := fun _ _ => by simp only [Packing.append, lastLength_append, lastLength, if_pos hcs]
  afterZeros := fun hz => absurd hzeros hz
  afterReps := fun hr => absurd hreps hr
  few := h.few
  fit := fun e he => by
    rcases List.mem_append.1 he with he | he
    · exact h.fit e he
    · rw [List.mem_singleton.1 he]
      exact ⟨by dsimp only; omega, Nat.two_pow_pos _⟩
  counted := append_counted h.counted (entries := [⟨cs, 0⟩]) fun e he => by rw [List.mem_singleton.1 he]
  short := by
    have := h.short
    simp only [Packing.append, List.length_append, List.length_singleton]
    omega

end Packed

theorem flushZeros_prev (p : Packing) (c : Nat) : { p.flushZeros with prev := c } = ({ p with prev := c } : Packing).flushZeros := by
  unfold Packing.flushZeros
  dsimp only
  split_ifs <;> rfl

theorem setPrev_self {p : Packing} {c : Nat} (h : p.prev = c) : { p with prev := c } = p := by
  subst h
  rfl

/-- Between two lengths fewer zeros and repetitions are pending than one symbol stands for. -/
structure PackedBetween (seq : List Nat) (p : Packing) : Prop extends Packed seq p where
  fewer : p.zeros < 138 ∧ p.reps < 6

/-- One code length taken in (R214). -/
theorem step_packed {seq : List Nat} {p : Packing} (h : PackedBetween seq p) {cs : Nat} (hcs : cs < 16) :
    PackedBetween (seq ++ [cs]) (p.step cs) := by
  obtain ⟨h, hzfew, hrfew⟩ := h
  rw [Packing.step]
  split
  case isTrue hzero =>
    subst hzero
    obtain ⟨hp, hreps, hzeros, -⟩ := h.flushReps
    have hpush := hp.pushZero hreps (by omega)
    dsimp only
    split
    case isTrue hfull =>
      rw [flushZeros_prev]
      obtain ⟨hq, hqz, hqr, -⟩ := hpush.flushZeros
      exact ⟨hq, by rw [hqz]; decide, by rw [hqr]; dsimp only; omega⟩
    case isFalse hmore => exact ⟨hpush, by dsimp only; omega, by dsimp only; omega⟩
  case isFalse hne =>
    obtain ⟨hp, hzeros, hreps, hprev⟩ := h.flushZeros
    dsimp only
    split
    case isTrue hnew =>
      obtain ⟨hq, hqr, hqz, -⟩ := hp.flushReps
      rw [hzeros] at hqz
      exact ⟨hq.pushLength hqz hqr hcs, by simp [Packing.append, hqz], by simp [Packing.append, hqr]⟩
    case isFalse hsame =>
      obtain ⟨q, hq⟩ : ∃ q, p.flushZeros = q := ⟨_, rfl⟩
      rw [hq] at hp hzeros hreps hprev hsame ⊢
      obtain rfl : cs = q.prev := not_not.1 hsame
      have hpush := hp.pushRep hne hcs (by omega)
      split
      case isTrue hfull =>
        obtain ⟨hf, hfr, hfz, hfp⟩ := hpush.flushReps
        rw [setPrev_self hfp]
        exact ⟨hf, by rw [hfz]; dsimp only; omega, by rw [hfr]; decide⟩
      case isFalse hmore => exact ⟨hpush, by dsimp only; omega, by dsimp only; omega⟩

theorem foldl_packed {seq l : List Nat} {p : Packing} (h : PackedBetween seq p) (hl : ∀ cs ∈ l, cs < 16) :
    PackedBetween (seq ++ l) (l.foldl Packing.step p) := by
  induction l generalizing seq p with
  | nil => rwa [List.append_nil]
  | cons cs l ih =>
    rw [List.append_cons]
    exact ih (step_packed h (hl cs List.mem_cons_self)) fun x hx => hl x (List.mem_cons_of_mem _ hx)

/-- The packing of code lengths of at most 15 expands to them, and `huff_count[2]` counts its symbols (R214). -/
theorem packLengths_spec {seq : List Nat} (hseq : ∀ cs ∈ seq, cs < 16) :
    expandLengths 0 (packLengths seq).packed = seq ∧ EntriesFit (packLengths seq).packed ∧ Counted (packLengths seq)
    ∧ (packLengths seq).packed.length ≤ seq.length := by
  have hdone : ∀ q : Packing, Packed seq q → q.zeros = 0 → q.reps = 0 →
      expandLengths 0 q.packed = seq ∧ EntriesFit q.packed ∧ Counted q ∧ q.packed.length ≤ seq.length := fun q h hz hr => by
    have hexp := h.expands
    rw [hz, hr, List.replicate_zero, List.replicate_zero, List.append_nil, List.append_nil] at hexp
    have := h.short
    exact ⟨hexp, h.fit, h.counted, by omega⟩
  have hfold := (foldl_packed (seq := []) ⟨Packed.start, by decide⟩ hseq).toPacked
  rw [List.nil_append] at hfold
  rw [packLengths]
  split
  case isTrue hreps =>
    obtain ⟨hq, hr, hz, -⟩ := hfold.flushReps
    exact hdone _ hq (hz.trans (hfold.zeros_of_reps hreps)) hr
  case isFalse hnone =>
    obtain ⟨hq, hz, hr, -⟩ := hfold.flushZeros
    exact hdone _ hq hz (hr.trans (not_not.1 hnone))

/-- Every symbol packed has been counted. -/
theorem count_ne_zero {p : Packing} (h : Counted p) (hshort : p.packed.length < 2 ^ 16) {e : PackEntry} (he : e ∈ p.packed) :
    Mem.read p.count e.c ≠ 0 := fun hzero => by
  have hpos : 0 < p.packed.countP fun x => x.c == e.c := List.countP_pos_iff.2 ⟨e, he, beq_self_eq_true _⟩
  have hle : (p.packed.countP fun x => x.c == e.c) ≤ p.packed.length := List.countP_le_length
  have hnat := congrArg BitVec.toNat (h.2 e.c)
  rw [hzero, BitVec.toNat_ofNat, Nat.mod_eq_of_lt (by omega)] at hnat
  change 0 = _ at hnat
  omega

/-! The counts of the header. -/

/-- `num_lit_codes`, `num_dist_codes`: the lengths from the count on are zero, and the count ends at the floor or at a length
(R214). -/
theorem trimCodes_spec (size : Mem 8) {floor n : Nat} (h : floor ≤ n) :
    floor ≤ trimCodes size floor n ∧ trimCodes size floor n ≤ n
    ∧ (∀ a, trimCodes size floor n ≤ a → a < n → Mem.read size a = 0)
    ∧ (trimCodes size floor n = floor ∨ Mem.read size (trimCodes size floor n - 1) ≠ 0) := by
  induction n with
  | zero => exact ⟨h, le_refl _, fun a _ ha => absurd ha (Nat.not_lt_zero a), Or.inl (Nat.le_zero.1 h).symm⟩
  | succ n ih =>
    rw [trimCodes]
    split
    case isTrue hzero =>
      obtain ⟨hge, hle, hrest, hend⟩ := ih (by omega)
      refine ⟨hge, by omega, fun a ha ha' => ?_, hend⟩
      by_cases hlast : a = n
      · rw [hlast]; exact hzero.2
      · exact hrest a ha (by omega)
    case isFalse hstop =>
      refine ⟨h, le_refl _, fun a ha ha' => by omega, ?_⟩
      by_cases hfloor : floor < n + 1
      · exact Or.inr fun hzero => hstop ⟨hfloor, hzero⟩
      · exact Or.inl (by omega)

/-- `num_bit_lengths`: the places of `CL_ORDER` from it on have no length (R214). -/
theorem bitLengths_spec (size : Mem 8) (n : Nat) :
    4 ≤ bitLengths size n ∧ bitLengths size n ≤ max 4 n
    ∧ ∀ j, bitLengths size n ≤ j → j < n → Mem.read size (clOrder.getD j 0) = 0 := by
  induction n with
  | zero => exact ⟨le_refl _, le_refl _, fun j _ hj => absurd hj (Nat.not_lt_zero j)⟩
  | succ n ih =>
    obtain ⟨hge, hle, hrest⟩ := ih
    rw [bitLengths]
    split
    case isTrue hzero =>
      refine ⟨hge, by omega, fun j hj hj' => ?_⟩
      by_cases hlast : j = n
      · rw [hlast]; exact hzero
      · exact hrest j hj (by omega)
    case isFalse => exact ⟨by omega, le_refl _, fun j hj hj' => by omega⟩

theorem readRun_eq_map {w : Nat} (m : Mem w) (a n : Nat) :
    Mem.readRun m a n = (List.range n).map fun i => Mem.read m (a + i) := by
  refine List.ext_getElem (by simp) fun i hi _ => ?_
  rw [readRun_length] at hi
  have h := readRun_getD m a n i hi
  rw [List.getD_eq_getElem _ _ (by simpa using hi)] at h
  simpa using h

/-- `SEQ`: the lengths of the two tables up to the counts (R214). -/
theorem lengthSequence_eq (huf : Huffman) (numLit numDist : Nat) : lengthSequence huf numLit numDist
    = (List.range numLit).map (fun a => (Mem.read huf.litLen.size a).toNat)
      ++ (List.range numDist).map fun a => (Mem.read huf.dist.size a).toNat := by
  simp only [lengthSequence, readRun_eq_map, List.map_map, Nat.zero_add]
  rfl

/-- ENC.CL_PLAN when HUF.BUILD has a result for the symbols packed: table 2 and the working values it leaves (R214). -/
theorem opEncClPlan_eq {s : State} {size : Mem 8} {p : Packing}
    (hp : packLengths (lengthSequence s.huf (trimCodes s.huf.litLen.size 257 286) (trimCodes s.huf.dist.size 1 30)) = p)
    (hsize : builtSizes .codeLen p.count = some size) :
    ∃ h w, opEncClPlan s = (s.setTable .codeLen h).setWork w ∧ h.size = size ∧ w.packed = p.packed
      ∧ w.numLitCodes = trimCodes s.huf.litLen.size 257 286 ∧ w.numDistCodes = trimCodes s.huf.dist.size 1 30
      ∧ w.numBitLengths = bitLengths size 19 := by
  obtain ⟨w, hw⟩ := opHufBuild_of_sizes (t := .codeLen) (s := s.setTable .codeLen { s.huf.codeLen with count := p.count })
    (by rw [setTable_huf, get_set_same]; exact hsize)
  unfold opEncClPlan
  dsimp only
  rw [hp, hw]
  simp only [State.setTable, setHuf_setHuf, setHuf_huf, set_set, setWork_setWork]
  exact ⟨_, _, rfl, rfl, rfl, rfl, rfl, rfl⟩

/-- Settles O40: the packing expands to the lengths taken in; its symbols are counted, and HUF.BUILD completes on at most 19 of
them and gives each a length. -/
theorem clPlanExpands : Obligations.ClPlanExpands := by
  unfold Obligations.ClPlanExpands
  intro s hrun hlit hdist
  obtain ⟨hlge, hlle, hlrest, hlend⟩ := trimCodes_spec s.huf.litLen.size (floor := 257) (n := 286) (by norm_num)
  obtain ⟨hdge, hdle, hdrest, hdend⟩ := trimCodes_spec s.huf.dist.size (floor := 1) (n := 30) (by norm_num)
  have hseq := lengthSequence_eq s.huf (trimCodes s.huf.litLen.size 257 286) (trimCodes s.huf.dist.size 1 30)
  have hsmall : ∀ cs ∈ lengthSequence s.huf (trimCodes s.huf.litLen.size 257 286) (trimCodes s.huf.dist.size 1 30),
      cs < 16 := fun cs hcs => by
    rw [hseq] at hcs
    rcases List.mem_append.1 hcs with hcs | hcs
    · obtain ⟨a, ha, rfl⟩ := List.mem_map.1 hcs
      exact Nat.lt_succ_of_le (hlit a (by have := List.mem_range.1 ha; omega))
    · obtain ⟨a, ha, rfl⟩ := List.mem_map.1 hcs
      exact Nat.lt_succ_of_le (hdist a (by have := List.mem_range.1 ha; omega))
  obtain ⟨hexpand, hfit, hcounted, hshort⟩ := packLengths_spec hsmall
  have hfew : (lengthSequence s.huf (trimCodes s.huf.litLen.size 257 286) (trimCodes s.huf.dist.size 1 30)).length ≤ 316 := by
    rw [hseq, List.length_append, List.length_map, List.length_map, List.length_range, List.length_range]
    omega
  obtain ⟨p, hp⟩ : ∃ p, packLengths (lengthSequence s.huf (trimCodes s.huf.litLen.size 257 286)
    (trimCodes s.huf.dist.size 1 30)) = p := ⟨_, rfl⟩
  rw [hp] at hexpand hfit hcounted hshort
  obtain ⟨size, hsize, hcodes⟩ := builtSizes_complete (t := .codeLen) hcounted.1 (naturalOf_le hcounted.1 (by decide))
  obtain ⟨hbge, hble, hbrest⟩ := bitLengths_spec size 19
  obtain ⟨h, w, hplan, hhsize, hpacked, hnumLit, hnumDist, hnumBits⟩ := opEncClPlan_eq hp hsize
  have hexec : exec .encClPlan s = settle (opEncClPlan s) := rfl
  refine ⟨h, w, ?_, ?_⟩
  · rw [hexec, hplan]
    exact settle_of_running hrun
  · rw [hnumLit, hnumDist, hnumBits, hpacked, hhsize]
    refine ⟨hlge, hlle, hdge, hdle, hlrest, hlend, hdrest, hdend, hexpand.trans hseq, fun e he => ?_, hbge, hble, hbrest⟩
    obtain ⟨hc, hx⟩ := hfit e he
    exact ⟨hc, hx, hcodes e.c hc (count_ne_zero hcounted (by omega) he)⟩

end Sys2Proof.Proofs.CodeLengthPlan

/-! The dictionary family: what the micro-operations of unit DICT store and find. -/

namespace Sys2Proof.Proofs.Dictionary

open Sys2Proof Sys2Proof.Machine Sys2Proof.Laws

/-- An instruction completes with what its operation gives, when that is not stopped. -/
theorem exec_of_running {i : Instr} {s u t : State} (hexec : exec i s = settle u) (hop : u = t) (hrun : t.halt = none) :
    exec i s = .next t := by
  rw [hexec, hop]
  exact settle_of_running hrun

/-- An instruction whose operation refuses before any other stop is refused by that name. -/
theorem exec_of_refuse {i : Instr} {s u : State} {r : Refusal} (hexec : exec i s = settle u) (hrun : s.halt = none)
    (hop : u = s.refuse r) : exec i s = .refused r := by
  rw [hexec, hop]
  exact settle_of_refused (stop_of_running hrun _)

/-! Writing a byte, inserting a position, forgetting the history. -/

/-- Settles O18: the window rule gives every element of `dict`. -/
theorem dictWriteStores : Obligations.DictWriteStores := by
  unfold Obligations.DictWriteStores
  intro q c s hrun hdict
  refine ⟨windowWrite s.win.dict q c, settle_of_running hrun, fun a => ?_⟩
  rw [read_windowWrite hdict, slotOf_eq]

/-- The hash of R140 as arithmetic on the three bytes: the shifts are products, the mask a remainder. -/
theorem hash3_toNat (b0 b1 b2 : BitVec 8) :
    (hash3 b0 b1 b2).toNat = ((b0.toNat * 1024) ^^^ (b1.toNat * 32) ^^^ b2.toNat) % 32768 := by
  have h0 := b0.isLt
  have h1 := b1.isLt
  have h2 := b2.isLt
  simp only [hash3, BitVec.toNat_setWidth, BitVec.toNat_xor, BitVec.toNat_shiftLeft, Nat.shiftLeft_eq]
  rw [Nat.mod_eq_of_lt (by omega : b0.toNat < 2 ^ 32), Nat.mod_eq_of_lt (by omega : b1.toNat < 2 ^ 32),
    Nat.mod_eq_of_lt (by omega : b2.toNat < 2 ^ 32), Nat.mod_eq_of_lt (by omega : b0.toNat * 2 ^ 10 < 2 ^ 32),
    Nat.mod_eq_of_lt (by omega : b1.toNat * 2 ^ 5 < 2 ^ 32)]
  rfl

/-- The links after an insertion: the position's own entry holds the old front of its chain (R142). -/
theorem read_chainInsert_next {w : Window} (h : Mem.wf w.next) (q : BitVec 32) (a : Nat) :
    Mem.read (chainInsert w q).next a =
      if a = slotOf q then Mem.read w.head (hashAt w.dict (slotOf q)) else Mem.read w.next a := read_write h _ _ a

/-- The fronts after an insertion: the entry of its hash holds the position (R142). -/
theorem read_chainInsert_head {w : Window} (h : Mem.wf w.head) (q : BitVec 32) (a : Nat) :
    Mem.read (chainInsert w q).head a =
      if a = hashAt w.dict (slotOf q) then q.setWidth 16 else Mem.read w.head a := read_write h _ _ a

/-- DICT.INSERT completes on every position whose three bytes are written (R142). -/
theorem exec_dictInsert {q : BitVec 32} {s : State} (hrun : s.halt = none) (h : insertable q s = true) :
    exec (.dictInsert q) s = .next (s.setWin (chainInsert s.win q)) :=
  exec_of_running rfl (if_pos h) hrun

/-- Settles O19: an insertable position is inserted, one write to each of `next` and `head`. -/
theorem dictInsertLinks : Obligations.DictInsertLinks := by
  unfold Obligations.DictInsertLinks
  intro q s hrun hhead hnext hwritten hnear slot b h
  have hslot : slotOf q = slot := slotOf_eq q
  have hhash : hashAt s.win.dict slot = h := hash3_toNat _ _ _
  refine ⟨(chainInsert s.win q).head, (chainInsert s.win q).next,
    exec_dictInsert hrun ((insertable_iff q s).2 ⟨hwritten, hnear⟩), fun a => ?_, fun a => ?_⟩
  · rw [read_chainInsert_next hnext, hslot, hhash]
  · rw [read_chainInsert_head hhead, hslot, hhash]

/-- Settles O22: both chain memories are emptied, and an empty memory reads as zero everywhere. -/
theorem dictResetForgets : Obligations.DictResetForgets := by
  unfold Obligations.DictResetForgets
  intro s hrun
  exact ⟨[], [], settle_of_running hrun, fun a => ⟨read_nil a, read_nil a⟩⟩

/-! Runs: how many of the first `limit` indices satisfy a condition without a gap (the inner loops of R143 and R144). -/

/-- `n` is how many indices from 0 on, at most `limit`, satisfy `holds` before the first that does not. -/
structure LeadingRun (holds : Nat → Prop) (limit n : Nat) : Prop where
  bound : n ≤ limit
  same : ∀ k < n, holds k
  ends : n < limit → ¬ holds n

namespace LeadingRun

variable {holds : Nat → Prop} {limit n : Nat}

theorem zero : LeadingRun holds 0 0 := ⟨Nat.le_refl 0, fun _ h => by omega, fun h => by omega⟩

/-- A run is one longer than the run from the next index on, or ends at once. -/
theorem step [Decidable (holds 0)] (h : LeadingRun (fun k => holds (k + 1)) limit n) :
    LeadingRun holds (limit + 1) (if holds 0 then n + 1 else 0) := by
  split
  case isTrue h0 =>
    refine ⟨Nat.succ_le_succ h.bound, fun k hk => ?_, fun hlt => h.ends (by omega)⟩
    cases k with
    | zero => exact h0
    | succ k => exact h.same k (by omega)
  case isFalse h0 => exact ⟨Nat.zero_le _, fun k hk => by omega, fun _ => h0⟩

end LeadingRun

theorem matchRun_leading (j : Nat) (d : Mem 8) (a b m : Nat) :
    LeadingRun (fun k => dictAt j d (a + k) = dictAt j d (b + k)) m (matchRun j d a b m) := by
  induction m generalizing a b with
  | zero => exact .zero
  | succ m ih =>
    have hrest := ih (a + 1) (b + 1)
    simp only [Nat.add_assoc, Nat.add_comm 1] at hrest
    exact .step (holds := fun k => dictAt j d (a + k) = dictAt j d (b + k)) hrest

theorem rleRun_leading (j : Nat) (d : Mem 8) (c : BitVec 8) (a m : Nat) :
    LeadingRun (fun k => dictAt j d (a + k) = c) m (rleRun j d c a m) := by
  induction m generalizing a with
  | zero => exact .zero
  | succ m ih =>
    have hrest := ih (a + 1)
    simp only [Nat.add_assoc, Nat.add_comm 1] at hrest
    exact .step (holds := fun k => dictAt j d (a + k) = c) hrest

/-- Within `MAX_MATCH` bytes of any slot a run reads window bytes: `dict` does not end there and the mirror serves the wrap
(R61, R143 corner case (e)). -/
theorem dictAt_slot {d : Mem 8} (hm : Mirrored d) (j : Nat) (q : BitVec 32) {k : Nat} (hk : k < 258) :
    dictAt j d (slotOf q + k) = winByte d (q + BitVec.ofNat 32 k) := by
  have := slotOf_lt q
  rw [dictAt_of_lt (by simp only [Config.dictBufSize]; omega), read_run_eq_winByte hm q k (by omega)]

/-- Only a search of more than `MAX_MATCH` bytes draws a free value (log entry 26). -/
theorem runRead_eq (n : BitVec 9) (s : State) : runRead n s = if n.toNat ≤ 258 then s else s.drawn := by
  simp only [runRead, Config.maxMatch, ← Nat.not_le, ite_not]

@[simp] theorem runRead_halt (n : BitVec 9) (s : State) : (runRead n s).halt = s.halt := by
  unfold runRead
  split <;> rfl

/-! The RLE search. -/

/-- DICT.RLE completes on any history and leaves the length of the run (R144). -/
theorem exec_dictRle {p : BitVec 32} {maxLen : BitVec 9} {s : State} (hrun : s.halt = none) (h : s.drv.dictSize ≠ 0) :
    exec (.dictRle p maxLen) s = .next (runRead maxLen (s.setWork { s.work with
      rleLen := BitVec.ofNat 9 (rleRun s.draws s.win.dict (winByte s.win.dict (p - 1)) (slotOf p) maxLen.toNat) })) :=
  exec_of_running rfl (if_neg h) ((runRead_halt _ _).trans hrun)

/-- Settles O21: the run counted, of which the first 258 bytes are window bytes. -/
theorem dictRleCounts : Obligations.DictRleCounts := by
  unfold Obligations.DictRleCounts
  intro p maxLen s hrun hmirror hhistory
  have hleading := rleRun_leading s.draws s.win.dict (winByte s.win.dict (p - 1)) (slotOf p) maxLen.toNat
  have hexec := exec_dictRle (p := p) (maxLen := maxLen) hrun hhistory
  generalize rleRun _ _ _ _ _ = n at hleading hexec
  have hn : (BitVec.ofNat 9 n).toNat = n := by
    have := hleading.bound
    rw [BitVec.toNat_ofNat]
    omega
  refine ⟨BitVec.ofNat 9 n, by rw [hexec, runRead_eq], ?_⟩
  rw [hn]
  exact ⟨hleading.bound, fun k hk hk' => (dictAt_slot hmirror _ p hk').symm.trans (hleading.same k hk),
    fun hlt hlt' heq => hleading.ends hlt ((dictAt_slot hmirror _ p hlt').trans heq)⟩

/-! The match search: the longest of the runs examined, the nearest of several so long. -/

/-- `r` is the pair (distance, length) left when the candidates `cs` are offered to `best` in order: a candidate is
accepted when its run is longer than the best one so far (R143, acceptance and ties). -/
def Longest (run : BitVec 16 → Nat) (cs : List (BitVec 16)) (best r : Nat × Nat) : Prop :=
  (r = best ∧ ∀ c ∈ cs, run c ≤ best.2)
  ∨ ∃ before d after, cs = before ++ d :: after ∧ r = (d.toNat, run d) ∧ best.2 < run d
    ∧ (∀ c ∈ before, run c < run d) ∧ ∀ c ∈ after, run c ≤ run d

namespace Longest

variable {run : BitVec 16 → Nat} {cs : List (BitVec 16)} {best r : Nat × Nat} {d : BitVec 16}

theorem nil : Longest run [] best best := Or.inl ⟨rfl, fun _ h => by simp at h⟩

/-- A candidate not longer than the best one changes nothing. -/
theorem pass (h : Longest run cs best r) (hd : run d ≤ best.2) : Longest run (d :: cs) best r := by
  rcases h with ⟨hr, hall⟩ | ⟨before, e, after, rfl, hr, hbeat, hbefore, hafter⟩
  · exact Or.inl ⟨hr, List.forall_mem_cons.2 ⟨hd, hall⟩⟩
  · exact Or.inr ⟨d :: before, e, after, rfl, hr, hbeat, List.forall_mem_cons.2 ⟨by omega, hbefore⟩, hafter⟩

/-- A longer candidate is the best one from there on. -/
theorem accept (h : Longest run cs (d.toNat, run d) r) (hd : best.2 < run d) : Longest run (d :: cs) best r := by
  rcases h with ⟨hr, hall⟩ | ⟨before, e, after, rfl, hr, hbeat, hbefore, hafter⟩
  · exact Or.inr ⟨[], d, cs, rfl, hr, hd, fun _ h => by simp at h, hall⟩
  · exact Or.inr ⟨d :: before, e, after, rfl, hr, by dsimp only at hbeat; omega,
      List.forall_mem_cons.2 ⟨hbeat, hbefore⟩, hafter⟩

end Longest

/-- The run of the candidate `dist` before `p` as DICT.FIND compares it (R143). -/
def candidateRun (j : Nat) (d : Mem 8) (p : BitVec 32) (maxLen : Nat) (dist : BitVec 16) : Nat :=
  matchRun j d (slotOf (p - dist.setWidth 32)) (slotOf p) maxLen

theorem candidateRun_le (j : Nat) (d : Mem 8) (p : BitVec 32) (maxLen : Nat) (dist : BitVec 16) :
    candidateRun j d p maxLen dist ≤ maxLen := (matchRun_leading j d _ _ maxLen).bound

/-- The slot of a stored position is the slot of the position its distance leads back to (R63, R146). -/
theorem slotOf_candidate (p : BitVec 32) (cand : BitVec 16) :
    slotOf (p - (p.setWidth 16 - cand).setWidth 32) = (cand.setWidth 15).toNat := by
  have := p.isLt
  have := cand.isLt
  simp only [slotOf_eq, BitVec.toNat_sub, BitVec.toNat_setWidth]
  omega

/-- One round of the candidate loop (R143), by the distance of the candidate. -/
theorem findLoop_succ (j : Nat) (w : Window) (p : BitVec 32) (maxDist maxLen budget : Nat) (cand : BitVec 16)
    (best : Nat × Nat) : findLoop j w p maxDist maxLen (budget + 1) cand best =
      let d := p.setWidth 16 - cand
      let n := candidateRun j w.dict p maxLen d
      let next := Mem.read w.next (cand.toNat % 32768)
      if cand = 0 ∨ d = 0 ∨ maxDist < d.toNat then best
      else if best.2 < n then
        if n = maxLen then (d.toNat, n) else findLoop j w p maxDist maxLen budget next (d.toNat, n)
      else findLoop j w p maxDist maxLen budget next best := by
  have hzero : ∀ d : BitVec 16, d = 0 ↔ d.toNat = 0 := fun d => by rw [← BitVec.toNat_inj]; rfl
  have hslot : (cand.setWidth 15).toNat = cand.toNat % 32768 := BitVec.toNat_setWidth 15 cand
  simp only [findLoop, candidateRun, slotOf_candidate, hslot, hzero (p.setWidth 16 - cand)]
  by_cases hc : cand = 0
  · simp only [hc, if_true, true_or]
  · simp only [hc, if_false, false_or]

/-- The loop gives the longest run of the candidates it examines, the nearest of several so long (R143). -/
theorem findLoop_longest (j : Nat) (w : Window) (p : BitVec 32) (maxDist maxLen budget : Nat) (cand : BitVec 16)
    (best : Nat × Nat) : Longest (candidateRun j w.dict p maxLen) (chainDistances w p maxDist budget cand) best
      (findLoop j w p maxDist maxLen budget cand best) := by
  induction budget generalizing cand best with
  | zero => exact .nil
  | succ budget ih =>
    rw [findLoop_succ]
    dsimp only [chainDistances]
    split
    case isTrue => exact .nil
    case isFalse =>
      split
      case isTrue hlonger =>
        refine .accept ?_ hlonger
        split
        case isTrue hfull => exact Or.inl ⟨rfl, fun c _ => (candidateRun_le j w.dict p maxLen c).trans hfull.ge⟩
        case isFalse => exact ih _ _
      case isFalse hshorter => exact .pass (ih _ best) (Nat.not_lt.1 hshorter)

/-- What DICT.FIND leaves: the prior pair when its first test ends the search, else what the candidates examined make of
it (R143). -/
structure Found (s : State) (p : BitVec 32) (maxDist maxLen : Nat) (priorDist : BitVec 16) (priorLen : BitVec 9)
    (d : BitVec 16) (l : BitVec 9) : Prop where
  unsearched : maxLen ≤ priorLen.toNat ∨ maxLen < 3 → d = priorDist ∧ l = priorLen
  longest : ¬ (maxLen ≤ priorLen.toNat ∨ maxLen < 3) →
    Longest (candidateRun s.draws s.win.dict p maxLen) (searched s p maxDist) (priorDist.toNat, priorLen.toNat)
      (d.toNat, l.toNat)

/-- The pair of DICT.FIND fits its registers: a distance has 16 bits, a length is at most `max_len`. -/
theorem findMatch_found (s : State) (p : BitVec 32) (maxDist : Nat) (maxLen : BitVec 9) (priorDist : BitVec 16)
    (priorLen : BitVec 9) : ∃ d l, findMatch s.draws s.win s.ctl.maxProbes.toNat p maxDist maxLen.toNat
        (priorDist.toNat, priorLen.toNat) = (d.toNat, l.toNat)
      ∧ Found s p maxDist maxLen.toNat priorDist priorLen d l := by
  unfold findMatch
  split
  case isTrue hnone => exact ⟨priorDist, priorLen, rfl, fun _ => ⟨rfl, rfl⟩, fun h => absurd hnone h⟩
  case isFalse hsearch =>
    have hlongest := findLoop_longest s.draws s.win p maxDist maxLen.toNat s.ctl.maxProbes.toNat
      (Mem.read s.win.head (hashAt s.win.dict (slotOf p))) (priorDist.toNat, priorLen.toNat)
    generalize findLoop _ _ _ _ _ _ _ _ = r at hlongest ⊢
    obtain ⟨d, l, rfl⟩ : ∃ (d : BitVec 16) (l : BitVec 9), r = (d.toNat, l.toNat) := by
      rcases hlongest with ⟨rfl, -⟩ | ⟨-, d, -, -, rfl, -⟩
      · exact ⟨priorDist, priorLen, rfl⟩
      · have := candidateRun_le s.draws s.win.dict p maxLen.toNat d
        exact ⟨d, BitVec.ofNat 9 (candidateRun s.draws s.win.dict p maxLen.toNat d),
          by rw [BitVec.toNat_ofNat, Nat.mod_eq_of_lt (by omega)]⟩
    exact ⟨d, l, rfl, fun h => absurd h hsearch, fun _ => hlongest⟩

/-- DICT.FIND completes when it compares no candidate or stays in the valid window, and changes the result pair only, but
for the free value of a search for more than `MAX_MATCH` bytes (R143, log entries 26, 27). -/
theorem exec_dictFind {p : BitVec 32} {maxDist : BitVec 16} {maxLen : BitVec 9} {priorDist : BitVec 16}
    {priorLen : BitVec 9} {s : State} (hrun : s.halt = none)
    (h : searchless s.ctl.maxProbes.toNat maxLen.toNat priorLen.toNat = true
      ∨ findable p maxDist.toNat maxLen.toNat s = true) :
    ∃ d l, exec (.dictFind p maxDist maxLen priorDist priorLen) s
        = .next (runRead maxLen (s.setWork { s.work with findDist := d, findLen := l }))
      ∧ Found s p maxDist.toNat maxLen.toNat priorDist priorLen d l := by
  obtain ⟨d, l, hpair, hfound⟩ := findMatch_found s p maxDist.toNat maxLen priorDist priorLen
  have hop : opDictFind p maxDist maxLen priorDist priorLen s
      = runRead maxLen (s.setWork { s.work with findDist := d, findLen := l }) := by
    unfold opDictFind
    rw [if_pos (Bool.or_eq_true_iff.2 h), hpair]
    simp only [BitVec.ofNat_toNat, BitVec.setWidth_eq]
  exact ⟨d, l, exec_of_running rfl hop ((runRead_halt _ _).trans hrun), hfound⟩

theorem searchless_iff (probes : BitVec 12) (maxLen priorLen : Nat) :
    searchless probes.toNat maxLen priorLen = true ↔ maxLen ≤ priorLen ∨ maxLen < 3 ∨ probes = 0 := by
  simp [searchless, or_assoc, ← BitVec.toNat_inj]

theorem findable_iff (p : BitVec 32) (maxDist maxLen : Nat) (s : State) : findable p maxDist maxLen s = true ↔
    maxDist ≤ (p - (s.drv.lookaheadPos - s.drv.dictSize.setWidth 32)).toNat
      ∧ (p - (s.drv.lookaheadPos - s.drv.dictSize.setWidth 32)).toNat + maxLen
        ≤ s.drv.dictSize.toNat + s.drv.lookaheadSize.toNat := by
  simp [findable]

/-- A candidate examined lies in range (R143, R146). -/
theorem mem_chainDistances {w : Window} {p : BitVec 32} {maxDist budget : Nat} {cand d : BitVec 16}
    (h : d ∈ chainDistances w p maxDist budget cand) : 1 ≤ d.toNat ∧ d.toNat ≤ maxDist := by
  induction budget generalizing cand with
  | zero => simp [chainDistances] at h
  | succ budget ih =>
    dsimp only [chainDistances] at h
    split at h
    case isTrue => simp at h
    case isFalse hin =>
      obtain ⟨-, hd0, hfar⟩ : cand ≠ 0 ∧ p.setWidth 16 - cand ≠ 0 ∧ ¬ maxDist < (p.setWidth 16 - cand).toNat := by
        simpa only [not_or] using hin
      rcases List.mem_cons.1 h with rfl | h
      · exact ⟨Nat.pos_of_ne_zero fun h0 => hd0 (BitVec.eq_of_toNat_eq h0), Nat.not_lt.1 hfar⟩
      · exact ih h

/-- With a budget of 0 no candidate is examined (R147). -/
theorem searched_of_no_probes {s : State} (h : s.ctl.maxProbes = 0) (p : BitVec 32) (maxDist : Nat) :
    searched s p maxDist = [] := by
  rw [searched, h]
  rfl

/-- A run is determined by what it is compared with. -/
theorem runAt_unique {d : Mem 8} {p : BitVec 32} {dist : BitVec 16} {maxLen n m : Nat} (hn : RunAt d p dist maxLen n)
    (hm : RunAt d p dist maxLen m) : n = m := by
  rcases Nat.lt_trichotomy n m with h | h | h
  · exact absurd (hm.same n h) (hn.ends (h.trans_le hm.bound))
  · exact h
  · exact absurd (hn.same m h) (hm.ends (h.trans_le hn.bound))

/-- With the mirror, the run of at most `MAX_MATCH` bytes compared is the run of the window bytes (R61, R146). -/
theorem candidateRun_runAt {d : Mem 8} (hm : Mirrored d) (j : Nat) (p : BitVec 32) {maxLen : Nat} (hlen : maxLen ≤ 258)
    (dist : BitVec 16) : RunAt d p dist maxLen (candidateRun j d p maxLen dist) := by
  obtain ⟨hbound, hsame, hends⟩ := matchRun_leading j d (slotOf (p - dist.setWidth 32)) (slotOf p) maxLen
  refine ⟨hbound, fun k hk => ?_, fun hlt => ?_⟩
  · have hk' : k < 258 := hk.trans_le (hbound.trans hlen)
    rw [← dictAt_slot hm j _ hk', ← dictAt_slot hm j _ hk']
    exact hsame k hk
  · rw [← dictAt_slot hm j _ (hlt.trans_le hlen), ← dictAt_slot hm j _ (hlt.trans_le hlen)]
    exact hends hlt

/-- The pair found is the prior one, or a candidate examined and its run, longer than the prior one. -/
theorem Found.prior_or_mem {s : State} {p : BitVec 32} {maxDist maxLen : Nat} {priorDist d : BitVec 16}
    {priorLen l : BitVec 9} (h : Found s p maxDist maxLen priorDist priorLen d l) :
    d = priorDist ∧ l = priorLen
    ∨ d ∈ searched s p maxDist ∧ priorLen.toNat < l.toNat ∧ l.toNat = candidateRun s.draws s.win.dict p maxLen d := by
  by_cases hnone : maxLen ≤ priorLen.toNat ∨ maxLen < 3
  · exact Or.inl (h.unsearched hnone)
  · rcases h.longest hnone with ⟨hr, -⟩ | ⟨before, e, after, hsplit, hr, hbeat, -, -⟩
    · obtain ⟨hd, hl⟩ := Prod.mk.inj hr
      exact Or.inl ⟨BitVec.eq_of_toNat_eq hd, BitVec.eq_of_toNat_eq hl⟩
    · obtain ⟨hd, hl⟩ := Prod.mk.inj hr
      obtain rfl := BitVec.eq_of_toNat_eq hd
      exact Or.inr ⟨by rw [hsplit]; simp, hl ▸ hbeat, hl⟩

/-- What is found with the mirror and at most `MAX_MATCH` bytes is the result R143 says. -/
theorem Found.searchResult {s : State} {p : BitVec 32} {maxDist maxLen : Nat} {priorDist d : BitVec 16}
    {priorLen l : BitVec 9} (h : Found s p maxDist maxLen priorDist priorLen d l) (hm : Mirrored s.win.dict)
    (hlen : maxLen ≤ 258) : SearchResult s p maxDist maxLen priorDist priorLen d l := by
  have hrunAt := candidateRun_runAt hm s.draws p hlen
  unfold SearchResult
  split
  case isTrue hnone => exact h.unsearched hnone
  case isFalse hsearch =>
    rcases h.longest hsearch with ⟨hr, hall⟩ | ⟨before, e, after, hsplit, hr, hbeat, hbefore, hafter⟩
    · obtain ⟨hd, hl⟩ := Prod.mk.inj hr
      exact Or.inl ⟨BitVec.eq_of_toNat_eq hd, BitVec.eq_of_toNat_eq hl, fun c hc n hn =>
        (runAt_unique hn (hrunAt c)).trans_le (hall c hc)⟩
    · obtain ⟨hd, hl⟩ := Prod.mk.inj hr
      obtain rfl := BitVec.eq_of_toNat_eq hd
      rw [hl]
      exact Or.inr ⟨before, after, hsplit, hrunAt d, hbeat,
        fun c hc n hn => (runAt_unique hn (hrunAt c)).trans_lt (hbefore c hc),
        fun c hc n hn => (runAt_unique hn (hrunAt c)).trans_le (hafter c hc)⟩

/-- Settles O20: the loop's result is the longest run examined, and with the mirror its runs are runs of window bytes. -/
theorem dictFindSound : Obligations.DictFindSound := by
  unfold Obligations.DictFindSound
  intro p maxDist maxLen priorDist priorLen s hrun hvalid
  have hguard : searchless s.ctl.maxProbes.toNat maxLen.toNat priorLen.toNat = true
      ∨ findable p maxDist.toNat maxLen.toNat s = true := by
    rw [searchless_iff, findable_iff]
    tauto
  obtain ⟨d, l, hexec, hfound⟩ := exec_dictFind (priorDist := priorDist) hrun hguard
  rw [runRead_eq] at hexec
  refine ⟨fun hmirror hlen => ⟨d, l, ?_, hfound.searchResult hmirror hlen, ?_, ?_⟩, fun hlong => ⟨d, l, ?_, ?_⟩⟩
  · rw [hexec, if_pos hlen]
  · refine hfound.prior_or_mem.imp_right fun ⟨hmem, hbeat, hl⟩ => ?_
    obtain ⟨hbound, hsame, -⟩ := candidateRun_runAt hmirror s.draws p hlen d
    obtain ⟨hpos, hnear⟩ := mem_chainDistances hmem
    rw [← hl] at hbound hsame
    exact ⟨hpos, hnear, hbound, hbeat, fun h2 => by omega, hsame⟩
  · rintro (hprobes | hshort)
    · refine hfound.prior_or_mem.resolve_right fun ⟨hmem, _, _⟩ => ?_
      rw [searched_of_no_probes hprobes] at hmem
      exact absurd hmem List.not_mem_nil
    · exact hfound.unsearched (Or.inr hshort)
  · rw [hexec, if_neg (Nat.not_le.2 hlong)]
  · refine hfound.prior_or_mem.imp_right fun ⟨hmem, hbeat, hl⟩ => ⟨hmem, hbeat, ?_⟩
    rw [hl]
    exact candidateRun_le _ _ _ _ _

/-! The preconditions the driver keeps, treated as `refuse` (log entry 7). -/

theorem recordable_iff (s : State) :
    recordable s = true ↔ s.lz.lzCodeLen.toNat ≤ 65528 ∧ s.lz.lzOpCount.toNat < 65536 := by
  simp [recordable]

/-- A search that compares a candidate beyond the valid window is refused (R143, U18). -/
theorem exec_dictFind_refused {p : BitVec 32} {maxDist : BitVec 16} {maxLen : BitVec 9} {priorDist : BitVec 16}
    {priorLen : BitVec 9} {s : State} (hrun : s.halt = none) (hprobes : s.ctl.maxProbes ≠ 0) (h3 : 3 ≤ maxLen.toNat)
    (hbeat : priorLen.toNat < maxLen.toNat) (hbeyond : ¬ findable p maxDist.toNat maxLen.toNat s = true) :
    exec (.dictFind p maxDist maxLen priorDist priorLen) s = .refused .windowRange := by
  have hsearch : ¬ searchless s.ctl.maxProbes.toNat maxLen.toNat priorLen.toNat = true := by
    rw [searchless_iff]
    rintro (h | h | h)
    · omega
    · omega
    · exact hprobes h
  exact exec_of_refuse rfl hrun (if_neg fun h => (Bool.or_eq_true_iff.1 h).elim hsearch hbeyond)

/-- HUF.LIMIT has no result for a natural length above 32 (R183, U19). -/
theorem limitLengths_of_long {limit : Nat} {a : List Nat} (h : ∃ l ∈ a, 32 < l) : limitLengths limit a = none := by
  obtain ⟨l, hmem, hlong⟩ := h
  refine if_neg fun hall => ?_
  have : l ≤ 32 := by simpa using List.all_eq_true.1 hall l hmem
  omega

/-- HUF.ASSIGN_SIZES has no result for a length to deal and no symbol to take it (R184, U19). -/
theorem sizeable_of_no_symbols {t : Table} {w : Work} (hsym : w.sym = []) (hnum : arrAt w.num 1 ≠ 0) :
    ¬ sizeable t w = true := by
  have hdealt : 1 ∈ dealtLengths (codeLimit t) w.num :=
    List.mem_flatMap.2 ⟨0, List.mem_range.2 (by cases t <;> decide), List.mem_replicate.2 ⟨hnum, rfl⟩⟩
  have hpos := List.length_pos_of_mem hdealt
  simp only [sizeable, hsym, List.length_nil, Bool.and_eq_true, decide_eq_true_eq]
  omega

/-- Settles O59: each clause is the failing guard of its operation. -/
theorem preconditionsRefused : Obligations.PreconditionsRefused := by
  unfold Obligations.PreconditionsRefused
  intro s hrun
  have hfull : 65528 < s.lz.lzCodeLen.toNat ∨ 65536 ≤ s.lz.lzOpCount.toNat → ¬ recordable s = true := fun h => by
    rw [recordable_iff]
    omega
  refine ⟨fun q h => ?_, fun p md ml pd pl hprobes h3 hbeat h => ?_, fun p md ml pd pl hprobes h3 hbeat h => ?_,
    fun p ml h => ?_, fun b h => ?_, fun len dist h => ?_, fun len dist hwf h => ?_, fun lim h => ?_,
    fun t hsym hnum => ?_, fun h => ?_, fun fl h => ?_⟩
  · exact exec_of_refuse rfl hrun (if_neg (by rw [insertable_iff]; omega))
  · exact exec_dictFind_refused hrun hprobes h3 hbeat (by rw [findable_iff]; omega)
  · exact exec_dictFind_refused hrun hprobes h3 hbeat (by rw [findable_iff]; omega)
  · exact exec_of_refuse rfl hrun (if_pos h)
  · exact exec_of_refuse rfl hrun (if_neg (hfull h))
  · exact exec_of_refuse rfl hrun (if_neg (ne_true_of_eq_false h))
  · exact exec_of_refuse rfl hrun ((if_pos hwf).trans (if_neg (hfull h)))
  · refine exec_of_refuse rfl hrun ?_
    simp only [opHufLimit, limitLengths_of_long h]
  · exact exec_of_refuse rfl hrun (if_neg (sizeable_of_no_symbols hsym hnum))
  · exact exec_of_refuse rfl hrun (if_pos h)
  · exact exec_of_refuse rfl hrun (if_neg h)

end Sys2Proof.Proofs.Dictionary

/-! The recorder family: what REC.LIT and REC.MATCH append, and what DRV.CLOSE_BLOCK leaves of the records. -/

namespace Sys2Proof.Proofs.RecorderUnit

open Sys2Proof Sys2Proof.Machine Sys2Proof.Laws Sys2Proof.Proofs.HostCalls Sys2Proof.Proofs.Encoding
  Sys2Proof.Proofs.Dictionary

/-! Appending a record. -/

/-- The flag bits after an append: the new record's bit is its flag, the others stay (R96). -/
theorem testBit_appendRecord_flags {r : Recorder} (h : Mem.wf r.lzFlags) (bytes : List (BitVec 8)) (f : Bool) (n k : Nat) :
    (Mem.read (appendRecord r bytes f n).lzFlags (k / 8)).toNat.testBit (k % 8) =
      if k = r.lzOpCount.toNat then f else (Mem.read r.lzFlags (k / 8)).toNat.testBit (k % 8) :=
  flagRead_flagWrite h r.lzOpCount.toNat f k

/-- The record bytes after a LIT: its one byte (R95, R160). -/
theorem read_appendRecord_lit {r : Recorder} (h : Mem.wf r.lzCode) (b : BitVec 8) (f : Bool) (n a : Nat) :
    Mem.read (appendRecord r [b] f n).lzCode a = if a = r.lzCodeLen.toNat then b else Mem.read r.lzCode a :=
  read_write h _ b a

/-- The three bytes of a MATCH record hold the length and the distance exactly (R95). -/
theorem matchBytes_toNat {len dist : Nat} (hlen : len ≤ 258) (hdist : dist ≤ 32768) :
    (matchBytes len dist).map BitVec.toNat = [len - 3, (dist - 1) % 256, (dist - 1) / 256] := by
  simp only [matchBytes, List.map, BitVec.toNat_ofNat, List.cons.injEq, and_true]
  omega

/-- The record bytes after a MATCH: its three bytes (R95, R161). -/
theorem read_appendRecord_match {r : Recorder} (h : Mem.wf r.lzCode) {len dist : Nat} (hlen : len ≤ 258)
    (hdist : dist ≤ 32768) (f : Bool) (n a : Nat) :
    (Mem.read (appendRecord r (matchBytes len dist) f n).lzCode a).toNat =
      if a = r.lzCodeLen.toNat then len - 3
      else if a = r.lzCodeLen.toNat + 1 then (dist - 1) % 256
      else if a = r.lzCodeLen.toNat + 2 then (dist - 1) / 256
      else (Mem.read r.lzCode a).toNat := by
  have hbytes := matchBytes_toNat hlen hdist
  obtain ⟨x, y, z, hxyz⟩ : ∃ x y z, matchBytes len dist = [x, y, z] := ⟨_, _, _, rfl⟩
  rw [hxyz] at hbytes ⊢
  obtain ⟨hx, hy, hz⟩ : x.toNat = len - 3 ∧ y.toNat = (dist - 1) % 256 ∧ z.toNat = (dist - 1) / 256 := by
    simpa using hbytes
  have hcode : (appendRecord r [x, y, z] f n).lzCode = Mem.write (Mem.write (Mem.write r.lzCode r.lzCodeLen.toNat x)
      (r.lzCodeLen.toNat + 1) y) (r.lzCodeLen.toNat + 2) z := rfl
  rw [hcode, read_write (write_wf (write_wf h _ _) _ _), read_write (write_wf h _ _), read_write h, ← hx, ← hy, ← hz]
  split_ifs <;> omega

/-- REC.LIT completes while a record and its flag fit (R160, R162). -/
theorem exec_recLit {b : BitVec 8} {s : State} (hrun : s.halt = none) (h : recordable s = true) :
    exec (.recLit b) s = .next (countSym .litLen b.toNat (s.setLz (appendRecord s.lz [b] false 1))) :=
  exec_of_running rfl (if_pos h) hrun

/-- REC.MATCH completes on a length and a distance in range while a record and its flag fit (R161, R162). -/
theorem exec_recMatch {len : BitVec 9} {dist : BitVec 16} {s : State} (hrun : s.halt = none)
    (hwf : (Instr.recMatch len dist).wf = true) (h : recordable s = true) :
    exec (.recMatch len dist) s = .next (countSym .dist (distSym dist.toNat) (countSym .litLen (lenSym len.toNat)
      (s.setLz (appendRecord s.lz (matchBytes len.toNat dist.toNat) true len.toNat)))) :=
  exec_of_running rfl ((if_pos hwf).trans (if_pos h)) hrun

/-- Settles O23: the record is one byte and a clear flag, the count one advance. -/
theorem recLitAppends : Obligations.RecLitAppends := by
  unfold Obligations.RecLitAppends
  intro b s hrun hcode hflags hcounts hlen hops
  exact ⟨(appendRecord s.lz [b] false 1).lzCode, (appendRecord s.lz [b] false 1).lzFlags,
    bump s.huf.litLen.count b.toNat, exec_recLit hrun ((recordable_iff s).2 ⟨hlen, hops⟩),
    read_appendRecord_lit hcode b false 1, testBit_appendRecord_flags hflags [b] false 1, read_bump hcounts b.toNat⟩

/-- Settles O24: the record is three bytes and a set flag, and each of the two tables gets one advance. -/
theorem recMatchAppends : Obligations.RecMatchAppends := by
  unfold Obligations.RecMatchAppends
  intro len dist s hrun hcode hflags hlits hdists hlen3 hlen258 hdist1 hdist hroom hops
  have hwf : (Instr.recMatch len dist).wf = true := (wf_recMatch_iff len dist).2 ⟨⟨hlen3, hlen258⟩, hdist1, hdist⟩
  have hexec := exec_recMatch hrun hwf ((recordable_iff s).2 ⟨hroom, hops⟩)
  set r := appendRecord s.lz (matchBytes len.toNat dist.toNat) true len.toNat with hr
  have hcounters : r = { r with
      lzCodeLen := s.lz.lzCodeLen + 3
      lzOpCount := s.lz.lzOpCount + 1
      totalLzBytes := s.lz.totalLzBytes + len.setWidth 32 } := by
    rw [hr, ← BitVec.ofNat_toNat]
    rfl
  refine ⟨r.lzCode, r.lzFlags, bump s.huf.litLen.count (lenSym len.toNat), bump s.huf.dist.count (distSym dist.toNat), ?_,
    read_appendRecord_match hcode hlen258 hdist true _, testBit_appendRecord_flags hflags _ true _,
    read_bump hlits _, read_bump hdists _⟩
  rw [hexec, ← hcounters]
  rfl

/-! Closing a block: the encoder leaves what the bookkeeping reads. -/

/-- What the bookkeeping of DRV.CLOSE_BLOCK reads: the recorder, the block's start and its number (R265). -/
def blockBooks (s : State) : Recorder × BitVec 32 × BitVec 32 := (s.lz, s.drv.blockStartPos, s.ctl.blockIndex)

@[simp] theorem blockBooks_setEnc (s : State) (e : Encoder) : blockBooks (s.setEnc e) = blockBooks s := rfl
@[simp] theorem blockBooks_setHuf (s : State) (h : Huffman) : blockBooks (s.setHuf h) = blockBooks s := rfl
@[simp] theorem blockBooks_setTable (s : State) (t : Table) (h : HuffTable) :
    blockBooks (s.setTable t h) = blockBooks s := rfl
@[simp] theorem blockBooks_setWork (s : State) (w : Work) : blockBooks (s.setWork w) = blockBooks s := rfl
@[simp] theorem blockBooks_drawn (s : State) : blockBooks s.drawn = blockBooks s := rfl
@[simp] theorem blockBooks_stop (s : State) (r : Stop) : blockBooks (s.stop r) = blockBooks s := by simp [blockBooks]
@[simp] theorem blockBooks_faulted (s : State) (r : Fault) : blockBooks (s.faulted r) = blockBooks s := blockBooks_stop s _
@[simp] theorem blockBooks_refuse (s : State) (r : Refusal) : blockBooks (s.refuse r) = blockBooks s := blockBooks_stop s _

/-- A loop over a list leaves the books when each of its rounds does. -/
theorem blockBooks_foldl {α : Type} {f : State → α → State} (hf : ∀ s x, blockBooks (f s x) = blockBooks s) (l : List α)
    (s : State) : blockBooks (l.foldl f s) = blockBooks s := by
  induction l generalizing s with
  | nil => rfl
  | cons x l ih => rw [List.foldl_cons, ih, hf]

@[simp] theorem blockBooks_emitBytes (k : Nat) (s : State) : blockBooks (emitBytes k s) = blockBooks s := by
  induction k generalizing s with
  | zero => rfl
  | succ k ih =>
    unfold emitBytes
    split_ifs <;> simp [ih]

@[simp] theorem blockBooks_putField (v n : Nat) (s : State) : blockBooks (putField v n s) = blockBooks s := by
  simp [putField]

@[simp] theorem blockBooks_putFree (i n : Nat) (s : State) : blockBooks (putFree i n s) = blockBooks s := by
  induction n generalizing i s with
  | zero => rfl
  | succ n ih => simp [putFree, ih]

@[simp] theorem blockBooks_putBits (v n : Nat) (s : State) : blockBooks (putBits v n s) = blockBooks s := by
  unfold putBits
  split <;> simp

@[simp] theorem blockBooks_opEncPad (s : State) : blockBooks (opEncPad s) = blockBooks s := by
  unfold opEncPad
  split <;> simp

@[simp] theorem blockBooks_putSymbol (t : Table) (sym x n : Nat) (s : State) :
    blockBooks (putSymbol t sym x n s) = blockBooks s := by
  simp [putSymbol, putCode]

@[simp] theorem blockBooks_putRecords (n k pos : Nat) (s : State) : blockBooks (putRecords n k pos s) = blockBooks s := by
  induction n generalizing k pos s with
  | zero => rfl
  | succ n ih =>
    unfold putRecords
    split_ifs <;> simp [ih, putMatch, putLit, putCode]

@[simp] theorem blockBooks_opEncPayload (s : State) : blockBooks (opEncPayload s) = blockBooks s := by
  simp [opEncPayload, putCode]

@[simp] theorem blockBooks_putWindow (n : Nat) (q : BitVec 32) (s : State) :
    blockBooks (putWindow n q s) = blockBooks s := by
  induction n generalizing q s with
  | zero => rfl
  | succ n ih => simp [putWindow, ih]

/-- HUF.BUILD leaves the books, whether or not its limiter and its sizes have a result (R186). -/
@[simp] theorem blockBooks_opHufBuild (t : Table) (s : State) : blockBooks (opHufBuild t s) = blockBooks s := by
  have hlimit (n : Nat) (s : State) : blockBooks (opHufLimit n s) = blockBooks s := by
    unfold opHufLimit
    split <;> simp
  have hsizes (s : State) : blockBooks (opHufAssignSizes t s) = blockBooks s := by
    unfold opHufAssignSizes
    split <;> simp
  simp [opHufBuild, opHufAssignCodes, hsizes, hlimit, opHufMinred, opHufKeys, opHufSort, opHufCollect]

/-- The cursors, the stream header, `BFINAL` and the EOB count (R265). -/
@[simp] theorem blockBooks_closeStart (fl : FlushMode) (s : State) : blockBooks (closeStart fl s) = blockBooks s := by
  have hcursors : blockBooks ((s.setEnc { s.enc with stagePos := 0 }).setDrv { s.drv with flushOfs := 0 })
      = blockBooks s := rfl
  unfold closeStart
  dsimp only
  refine Eq.trans ?_ hcursors
  split <;> simp [opEncZlibHdr, zlibHeader, putFinal]

/-- The tables, the plan and the costs (R265). -/
@[simp] theorem blockBooks_closePlan (s : State) : blockBooks (closePlan s) = blockBooks s := by
  simp [closePlan, opEncCost, opEncClPlan]

/-- The block in any of its types (R217 to R220). -/
@[simp] theorem blockBooks_encodeBlock (bt : BlockType) (s : State) : blockBooks (encodeBlock bt s) = blockBooks s := by
  cases bt with
  | stored => simp [encodeBlock, opEncStored, putType]
  | static => simp [encodeBlock, opEncStaticHdr, putType, opHufLoadStatic, opHufAssignCodes]
  | dynamic =>
    have hlengths (order : List Nat) (s : State) : blockBooks (putClLengths order s) = blockBooks s :=
      blockBooks_foldl (fun _ _ => blockBooks_putBits _ _ _) order s
    have hpacked (packed : List PackEntry) (s : State) : blockBooks (putPacked packed s) = blockBooks s :=
      blockBooks_foldl (fun _ _ => blockBooks_putSymbol _ _ _ _ _) packed s
    simp [encodeBlock, opEncDynHdr, putType, hlengths, hpacked]

/-- The trailer or the marker behind the block (R221, R222). -/
@[simp] theorem blockBooks_closeTail (fl : FlushMode) (s : State) : blockBooks (closeTail fl s) = blockBooks s := by
  cases fl with
  | none => rfl
  | sync | full => simp [closeTail, opEncSyncMark]
  | finish =>
    simp only [closeTail, opEncTrailer]
    split
    · rw [blockBooks_foldl fun _ _ => blockBooks_putBits _ _ _, blockBooks_opEncPad]
    · exact blockBooks_opEncPad s

/-- The bookkeeping (R163, R265): from the books `(lz, start, number)` to empty records and counts, a start moved past the
block's bytes, and the next number. -/
theorem closeBooks_of_blockBooks {s u : State} (h : blockBooks u = blockBooks s) :
    blockBooks (closeBooks u) = ({ s.lz with lzCodeLen := 0, lzOpCount := 0, totalLzBytes := 0 },
      s.drv.blockStartPos + s.lz.totalLzBytes, s.ctl.blockIndex + 1) := by
  obtain ⟨hlz, hstart, hindex⟩ : u.lz = s.lz ∧ u.drv.blockStartPos = s.drv.blockStartPos
      ∧ u.ctl.blockIndex = s.ctl.blockIndex := by simpa [blockBooks] using h
  rw [← hlz, ← hstart, ← hindex]
  rfl

/-- What a block staged leaves of the books: the encoding leaves them, the bookkeeping moves them on (R265). -/
theorem blockBooks_stageBlock (fl : FlushMode) (s : State) :
    blockBooks (stageBlock fl s) = ({ s.lz with lzCodeLen := 0, lzOpCount := 0, totalLzBytes := 0 },
      s.drv.blockStartPos + s.lz.totalLzBytes, s.ctl.blockIndex + 1) :=
  closeBooks_of_blockBooks (by simp)

/-- After the bookkeeping no symbol is counted (R163). -/
theorem stageBlock_counts (fl : FlushMode) (s : State) :
    (stageBlock fl s).huf.litLen.count = [] ∧ (stageBlock fl s).huf.dist.count = [] := ⟨rfl, rfl⟩

/-- The hand-over touches neither the records nor the tables (R266). -/
theorem handOver_lz_huf (s : State) : (handOver s).lz = s.lz ∧ (handOver s).huf = s.huf := by
  unfold handOver
  dsimp only
  split_ifs <;> exact ⟨rfl, rfl⟩

/-- DRV.CLOSE_BLOCK completes only with no staged byte pending (R265). -/
theorem exec_drvCloseBlock_next {fl : FlushMode} {s t : State} (h : exec (.drvCloseBlock fl) s = .next t) :
    t = handOver (stageBlock fl s) := by
  obtain ⟨hrun, rfl⟩ := settle_eq_next.1 h
  unfold opDrvCloseBlock at hrun ⊢
  split at hrun
  case isTrue hnone => rw [if_pos hnone]
  case isFalse => exact absurd hrun (stop_halt_ne s _)

/-- Settles O49: the books as staged; the staging and the hand-over keep the rest of the driver and the window. -/
theorem closeBlockBooks : Obligations.CloseBlockBooks := by
  unfold Obligations.CloseBlockBooks
  intro fl s t hexec
  rw [exec_drvCloseBlock_next hexec]
  have hstage := stageBlock_staging fl s
  have hover := handOver_frame (stageBlock fl s)
  obtain ⟨hlz, hhuf⟩ := handOver_lz_huf (stageBlock fl s)
  obtain ⟨hlit, hdist⟩ := stageBlock_counts fl s
  obtain ⟨hrecords, hstart, hindex⟩ : (stageBlock fl s).lz = _ ∧ (stageBlock fl s).drv.blockStartPos = _
      ∧ (stageBlock fl s).ctl.blockIndex = _ := by simpa only [blockBooks, Prod.mk.injEq] using blockBooks_stageBlock fl s
  refine ⟨hlz.trans hrecords, fun a => ?_, ?_, ?_, ?_⟩
  · rw [hhuf, hlit, hdist]
    exact ⟨read_nil a, read_nil a⟩
  · rw [hover.drv]
    exact hstart
  · rw [hover.ctl]
    exact hindex
  · rw [hover.drv, hover.win, hstage.drv, hstage.win]
    exact ⟨rfl, rfl, rfl, rfl, rfl, rfl, rfl, rfl⟩

end Sys2Proof.Proofs.RecorderUnit

/-! The Huffman family: HUF.SORT is a stable sort, HUF.MINRED makes a full code. -/

namespace Sys2Proof.Proofs.HuffmanUnit

open Sys2Proof Sys2Proof.Machine Sys2Proof.Laws Sys2Proof.Proofs.MinimumRedundancy Sys2Proof.Proofs.LengthLimit
  Sys2Proof.Proofs.Dictionary

/-! HUF.SORT. -/

/-- The order a stable pass on one digit makes of a list in the order `R` (R181). -/
def ByDigit (shift : Nat) (R : SymKey → SymKey → Prop) (x y : SymKey) : Prop :=
  digit shift x < digit shift y ∨ digit shift x = digit shift y ∧ R x y

/-- In a list in order of the digit an entry is put behind those whose digit is not above its own. -/
theorem insertByDigit_split {shift : Nat} {R : SymKey → SymKey → Prop} (x : SymKey) {l : List SymKey}
    (h : l.Pairwise (ByDigit shift R)) :
    ∃ before after, l = before ++ after ∧ insertByDigit shift x l = before ++ x :: after
      ∧ (∀ y ∈ before, digit shift y ≤ digit shift x) ∧ ∀ y ∈ after, digit shift x < digit shift y := by
  induction l with
  | nil => exact ⟨[], [], rfl, rfl, by simp, by simp⟩
  | cons y l ih =>
    obtain ⟨hy, hl⟩ := List.pairwise_cons.1 h
    rw [insertByDigit]
    split
    case isTrue hlt =>
      refine ⟨[], y :: l, rfl, rfl, by simp, fun z hz => ?_⟩
      rcases List.mem_cons.1 hz with rfl | hz
      · exact hlt
      · rcases hy z hz with h | h <;> omega
    case isFalse hge =>
      obtain ⟨before, after, rfl, hins, hbefore, hafter⟩ := ih hl
      refine ⟨y :: before, after, rfl, by rw [hins]; rfl, fun z hz => ?_, hafter⟩
      rcases List.mem_cons.1 hz with rfl | hz
      · exact Nat.not_lt.1 hge
      · exact hbefore z hz

theorem insertByDigit_pairwise {shift : Nat} {R : SymKey → SymKey → Prop} {x : SymKey} {l : List SymKey}
    (h : l.Pairwise (ByDigit shift R)) (hx : ∀ y ∈ l, R y x) : (insertByDigit shift x l).Pairwise (ByDigit shift R) := by
  obtain ⟨before, after, rfl, hins, hbefore, hafter⟩ := insertByDigit_split x h
  obtain ⟨h1, h2, h12⟩ := List.pairwise_append.1 h
  rw [hins]
  refine List.pairwise_append.2 ⟨h1, List.pairwise_cons.2 ⟨fun y hy => Or.inl (hafter y hy), h2⟩, fun y hy z hz => ?_⟩
  rcases List.mem_cons.1 hz with rfl | hz
  · rcases (hbefore y hy).lt_or_eq with hlt | heq
    · exact Or.inl hlt
    · exact Or.inr ⟨heq, hx y (List.mem_append_left _ hy)⟩
  · exact h12 y hy z hz

/-- Among entries of one digit an insertion puts the entry last. -/
theorem filter_insertByDigit {shift : Nat} {R : SymKey → SymKey → Prop} {x : SymKey} {l : List SymKey}
    (h : l.Pairwise (ByDigit shift R)) {p : SymKey → Bool} {d : Nat} (hp : ∀ y, p y = true → digit shift y = d) :
    (insertByDigit shift x l).filter p = l.filter p ++ [x].filter p := by
  obtain ⟨before, after, rfl, hins, -, hafter⟩ := insertByDigit_split x h
  rw [hins, List.filter_append, List.filter_append, List.append_assoc, ← List.singleton_append, List.filter_append]
  congr 1
  by_cases hx : p x = true
  · have hnone : after.filter p = [] := List.filter_eq_nil_iff.2 fun y hy hpy => by
      have := hafter y hy
      rw [hp x hx, hp y hpy] at this
      exact lt_irrefl _ this
    rw [hnone, List.append_nil, List.nil_append]
  · rw [List.filter_cons_of_neg hx, List.filter_nil, List.nil_append, List.append_nil]

/-- A pass sorts by its digit, and by the order there was within one digit; entries of one digit keep their order (R181). -/
theorem sortPass_stable {shift : Nat} {R : SymKey → SymKey → Prop} {l : List SymKey} (h : l.Pairwise R) :
    (sortPass shift l).Pairwise (ByDigit shift R)
    ∧ ∀ (p : SymKey → Bool) (d : Nat), (∀ y, p y = true → digit shift y = d) →
      (sortPass shift l).filter p = l.filter p := by
  suffices hacc : ∀ acc : List SymKey, acc.Pairwise (ByDigit shift R) → (∀ y ∈ acc, ∀ x ∈ l, R y x) →
      (l.foldl (fun acc x => insertByDigit shift x acc) acc).Pairwise (ByDigit shift R)
      ∧ ∀ (p : SymKey → Bool) (d : Nat), (∀ y, p y = true → digit shift y = d) →
        (l.foldl (fun acc x => insertByDigit shift x acc) acc).filter p = acc.filter p ++ l.filter p by
    obtain ⟨hsorted, hfilter⟩ := hacc [] List.Pairwise.nil (by simp)
    exact ⟨hsorted, fun p d hp => hfilter p d hp⟩
  induction l with
  | nil => exact fun acc hs _ => ⟨hs, fun p d _ => (List.append_nil _).symm⟩
  | cons x l ih =>
    intro acc hs hr
    obtain ⟨hx, hl⟩ := List.pairwise_cons.1 h
    obtain ⟨hsorted, hfilter⟩ := ih hl (insertByDigit shift x acc)
      (insertByDigit_pairwise hs fun y hy => hr y hy x List.mem_cons_self) fun y hy z hz => by
        rcases List.mem_cons.1 ((insertByDigit_perm shift x acc).mem_iff.1 hy) with rfl | hy
        · exact hx z hz
        · exact hr y hy z (List.mem_cons_of_mem _ hz)
    refine ⟨hsorted, fun p d hp => ?_⟩
    rw [List.foldl_cons, hfilter p d hp, filter_insertByDigit hs hp, List.append_assoc, ← List.filter_append,
      List.singleton_append]

/-- A key is its two digits. -/
theorem key_eq_digits (x : SymKey) : x.key.toNat = 256 * digit 8 x + digit 0 x := by
  have := x.key.isLt
  simp only [digit, bitField]
  omega

/-- HUF.SORT sorts by key (R181). -/
theorem radixSort_sorted (l : List SymKey) : (radixSort l).Pairwise fun x y => x.key.toNat ≤ y.key.toNat := by
  have hnone : l.Pairwise fun _ _ => True := List.pairwise_of_forall fun _ _ => trivial
  refine (sortPass_stable (shift := 8) (sortPass_stable (shift := 0) hnone).1).1.imp fun {x y} h => ?_
  rw [key_eq_digits x, key_eq_digits y]
  have hlow : digit 0 x < 256 := Nat.mod_lt _ (by norm_num)
  have hlow' : digit 0 y < 256 := Nat.mod_lt _ (by norm_num)
  rcases h with hlt | ⟨heq, hlt | ⟨heq', -⟩⟩ <;> omega

/-- HUF.SORT keeps the order of the pairs of one key (R181). -/
theorem filter_radixSort (k : BitVec 16) (l : List SymKey) :
    (radixSort l).filter (fun x => x.key == k) = l.filter fun x => x.key == k := by
  have hnone : ∀ m : List SymKey, m.Pairwise fun _ _ => True := fun m => List.pairwise_of_forall fun _ _ => trivial
  have hdigit : ∀ (shift : Nat) (y : SymKey), (y.key == k) = true → digit shift y = bitField k.toNat shift 8 :=
    fun shift y hy => by rw [digit, beq_iff_eq.1 hy]
  exact ((sortPass_stable (hnone _)).2 _ _ (hdigit 8)).trans ((sortPass_stable (hnone l)).2 _ _ (hdigit 0))

/-- Settles O26: two stable passes, the low digit first. -/
theorem hufSortStable : Obligations.HufSortStable := by
  unfold Obligations.HufSortStable
  intro t s hrun
  exact ⟨radixSort s.work.sym, exec_of_running rfl rfl hrun, radixSort_perm _, radixSort_sorted _,
    fun k => filter_radixSort k _⟩

/-! HUF.MINRED. -/

/-- HUF.MINRED gives as many lengths as there are frequencies, falling (R182, R188). -/
theorem minred_falls (a : List Nat) : (minred a).length = a.length ∧ (minred a).Pairwise fun x y => y ≤ x := by
  by_cases h2 : 2 ≤ a.length
  · exact ⟨(minred_full h2).length, (minred_full h2).falls⟩
  · rw [minred_of_length_le_one (by omega)]
    exact ⟨List.length_replicate, List.pairwise_replicate.2 (Or.inr le_rfl)⟩

/-- Settles O27: two frequencies or more give a full code, fewer are the table's own cases. -/
theorem hufMinredKraft : Obligations.HufMinredKraft := by
  unfold Obligations.HufMinredKraft
  intro s hrun
  obtain ⟨hlen, hfalls⟩ := minred_falls s.work.lengths
  refine ⟨minred s.work.lengths, exec_of_running rfl rfl hrun, hlen, hfalls, fun h1 => ?_, fun h2 => ?_⟩
  · rw [minred_of_length_le_one h1.le, h1]
    rfl
  · have hfull := minred_full h2
    rw [hlen]
    exact ⟨hfull.range, hfull.kraft⟩

end Sys2Proof.Proofs.HuffmanUnit

/-! The Huffman family: HUF.LIMIT keeps the Kraft sum, HUF.ASSIGN_SIZES deals the lengths. -/

namespace Sys2Proof.Proofs.HuffmanUnit

open Sys2Proof Sys2Proof.Machine Sys2Proof.Laws Sys2Proof.Proofs.HostCalls Sys2Proof.Proofs.MinimumRedundancy
  Sys2Proof.Proofs.LengthLimit Sys2Proof.Proofs.Dictionary

/-! HUF.LIMIT. -/

/-- The Kraft sum is one at whatever scale it is taken. -/
theorem kraft_rescaled {m m' : Nat} {a : List Nat} (hm : ∀ x ∈ a, x ≤ m) (hm' : ∀ x ∈ a, x ≤ m')
    (hkraft : (a.map fun x => 2 ^ (m - x)).sum = 2 ^ m) : (a.map fun x => 2 ^ (m' - x)).sum = 2 ^ m' := by
  refine Nat.eq_of_mul_eq_mul_right (Nat.two_pow_pos m) ?_
  calc (a.map fun x => 2 ^ (m' - x)).sum * 2 ^ m = (a.map fun x => 2 ^ (m' - x) * 2 ^ m).sum :=
        (List.sum_map_mul_right ..).symm
    _ = (a.map fun x => 2 ^ m' * 2 ^ (m - x)).sum := by
        refine congrArg List.sum (List.map_congr_left fun x hx => ?_)
        have := hm x hx
        have := hm' x hx
        rw [← pow_add, ← pow_add]
        congr 1
        omega
    _ = 2 ^ m' * 2 ^ m := by rw [List.sum_map_mul_left, hkraft]

/-- The scaled Kraft sum of a full code, cut off at the limit, is at least one, and that of its codes shorter than the limit
at most one (R183); `fullCode_limited` says this of HUF.MINRED's codes. -/
theorem kraft_limited {m limit : Nat} {a : List Nat} (hm : ∀ x ∈ a, x ≤ m)
    (hkraft : (a.map fun x => 2 ^ (m - x)).sum = 2 ^ m) :
    2 ^ limit ≤ (a.map fun x => 2 ^ (limit - min x limit)).sum
    ∧ (a.map fun x => shortWeight limit (min x limit)).sum ≤ 2 ^ limit := by
  have hscale : (a.map fun x => 2 ^ limit * 2 ^ (m - x)).sum = 2 ^ limit * 2 ^ m := by
    rw [List.sum_map_mul_left, hkraft]
  refine ⟨Nat.le_of_mul_le_mul_right ?_ (Nat.two_pow_pos m), Nat.le_of_mul_le_mul_right ?_ (Nat.two_pow_pos m)⟩
  all_goals
    rw [← List.sum_map_mul_right, ← hscale]
    refine List.sum_le_sum fun x hx => ?_
    have := hm x hx
  · rw [← pow_add, ← pow_add]
    exact Nat.pow_le_pow_right (by norm_num) (by omega)
  · rw [shortWeight]
    split
    · rw [← pow_add, ← pow_add]
      exact Nat.pow_le_pow_right (by norm_num) (by omega)
    · rw [Nat.zero_mul]
      exact Nat.zero_le _

/-- The rounds end with the scaled Kraft sum at one (R183). -/
theorem limitRounds_kraft {l n k : Nat} {num : List Nat} (h : Rebalancing (l + 1) n num) (hn : n ≤ 2 ^ (l + 1))
    (hl : l < 32) (hk : kraftTotal (l + 1) num = 2 ^ (l + 1) + k) :
    ∃ num', limitRounds (l + 1) k num = some num' ∧ Rebalancing (l + 1) n num' ∧ kraftTotal (l + 1) num' = 2 ^ (l + 1) := by
  induction k generalizing num with
  | zero => exact ⟨num, rfl, h, hk⟩
  | succ k ih =>
    obtain ⟨hdeep, hround, htotal⟩ := h.round hn hl (by omega)
    rw [limitRounds, if_neg hdeep, Nat.add_sub_cancel]
    exact ih hround (by omega)

/-- In a code of two symbols or more that meets the Kraft sum every code has a bit. -/
theorem pos_of_kraft {a : List Nat} {m : Nat} (h2 : 2 ≤ a.length) (hkraft : (a.map fun x => 2 ^ (m - x)).sum = 2 ^ m) :
    ∀ x ∈ a, 1 ≤ x := by
  intro x hx
  by_contra hzero
  obtain ⟨before, after, rfl⟩ := List.append_of_mem hx
  have hrest : (before ++ after).length ≤ ((before ++ after).map fun x => 2 ^ (m - x)).sum := by
    have hone := List.card_nsmul_le_sum ((before ++ after).map fun x => 2 ^ (m - x)) 1 fun v hv => by
      obtain ⟨y, -, rfl⟩ := List.mem_map.1 hv
      exact Nat.one_le_two_pow
    simpa using hone
  rw [Nat.lt_one_iff.1 (Nat.not_le.1 hzero)] at hkraft
  simp only [List.length_append, List.length_cons, List.map_append, List.map_cons, List.sum_append, List.sum_cons,
    Nat.sub_zero] at h2 hkraft hrest
  omega

/-- How many codes have one length, as a weighed sum. -/
theorem weighed_single {n i : Nat} (hi : 1 ≤ i) (hin : i ≤ n) (num : List Nat) :
    weighed n num (fun j => if j = i then 1 else 0) = arrAt num i := by
  induction n with
  | zero => omega
  | succ n ih =>
    rw [weighed_succ]
    by_cases hlast : i = n + 1
    · have hbelow : weighed n num (fun j => if j = i then 1 else 0) = 0 :=
        (weighed_congr (w' := fun _ => 0) fun j _ hj => by rw [if_neg (by omega)]).trans (by simp [weighed])
      rw [hbelow, hlast, if_pos rfl, Nat.zero_add, Nat.mul_one]
    · rw [ih (by omega), if_neg (fun h => hlast h.symm), Nat.mul_zero, Nat.add_zero]

theorem sum_single_eq_count (a : List Nat) (i : Nat) : (a.map fun x => if x = i then 1 else 0).sum = a.count i := by
  induction a with
  | nil => rfl
  | cons x a ih => rw [List.map_cons, List.sum_cons, ih, List.count_cons, Nat.add_comm]; simp

/-- The histogram counts each length (R183). -/
theorem arrAt_foldl_histogram {a num : List Nat} (ha : ∀ l ∈ a, l < num.length) (i : Nat) :
    arrAt (a.foldl (fun num l => addAt num l 1) num) i = arrAt num i + a.count i := by
  induction a generalizing num with
  | nil => rfl
  | cons l a ih =>
    have hl := ha l List.mem_cons_self
    rw [List.foldl_cons, ih (by simpa using fun x hx => ha x (List.mem_cons_of_mem _ hx)), List.count_cons, addAt,
      arrAt_set]
    by_cases heq : i = l
    · rw [if_pos ⟨heq, hl⟩, heq, beq_self_eq_true, if_pos rfl]
      omega
    · rw [if_neg fun h => heq h.1, if_neg (by simpa using fun h => heq h.symm)]
      rfl

theorem arrAt_lengthHistogram {a : List Nat} (ha : ∀ l ∈ a, l ≤ 32) (i : Nat) : arrAt (lengthHistogram a) i = a.count i := by
  have hzero : arrAt (List.replicate (Config.maxSupportedCodesize + 1) 0) i = 0 := by
    rw [arrAt, List.getD_eq_getElem?_getD, List.getElem?_getD_replicate_default_eq]
  rw [lengthHistogram, arrAt_foldl_histogram (by simpa [Config.maxSupportedCodesize, Nat.lt_succ_iff] using ha), hzero,
    Nat.zero_add]

/-- On at most one symbol HUF.LIMIT gives the histogram (R183). -/
theorem limitLengths_of_few {limit : Nat} {a : List Nat} (h1 : a.length ≤ 1) (h32 : ∀ x ∈ a, x ≤ 32) :
    limitLengths limit a = some (lengthHistogram a) := by
  rw [limitLengths, if_pos (by simpa [Config.maxSupportedCodesize] using h32)]
  exact if_pos h1

/-- HUF.LIMIT on the lengths of a full code, none above 32, completes: as many lengths as codes, the Kraft sum met, and
nothing changed when no length exceeds the limit (R183). -/
theorem limitLengths_of_kraft {l : Nat} {a : List Nat} (h2 : 2 ≤ a.length) (h32 : ∀ x ∈ a, x ≤ 32)
    (hn : a.length ≤ 2 ^ (l + 1)) (hl : l < 32) (hkraft : (a.map fun x => 2 ^ (32 - x)).sum = 2 ^ 32) :
    ∃ num, limitLengths (l + 1) a = some num ∧ weighed (l + 1) num (fun _ => 1) = a.length
      ∧ kraftTotal (l + 1) num = 2 ^ (l + 1)
      ∧ ((∀ x ∈ a, x ≤ l + 1) → ∀ i, 1 ≤ i → i ≤ l + 1 → arrAt num i = a.count i) := by
  have hrange : ∀ x ∈ a, 1 ≤ x ∧ x ≤ 32 := fun x hx => ⟨pos_of_kraft h2 hkraft x hx, h32 x hx⟩
  obtain ⟨folded, hfolded⟩ : ∃ folded, foldLong (l + 1) (lengthHistogram a) = folded := ⟨_, rfl⟩
  have hfold : ∀ w : Nat → Nat, folded.length = 33 ∧ weighed (l + 1) folded w = (a.map fun x => w (min x (l + 1))).sum :=
    fun w => by
      obtain ⟨hlen, hsum⟩ := foldLong_weighed (limit := l + 1) (by omega) (by omega)
        (histogram_weighed (le_refl 32) hrange w).1 w
      rw [hfolded] at hlen hsum
      exact ⟨hlen, by rw [hsum, (histogram_weighed (le_refl 32) hrange fun i => w (min i (l + 1))).2]⟩
  obtain ⟨hbig, hshort⟩ := kraft_limited (limit := l + 1) h32 hkraft
  rw [← (hfold fun i => 2 ^ (l + 1 - i)).2, ← kraftTotal_eq] at hbig
  rw [← (hfold _).2] at hshort
  have hstart : Rebalancing (l + 1) a.length folded := ⟨(hfold id).1, by rw [(hfold _).2]; simp, hshort⟩
  obtain ⟨num, hrounds, hdone, htotal⟩ := limitRounds_kraft (k := kraftTotal (l + 1) folded - 2 ^ (l + 1)) hstart hn hl
    (by omega)
  refine ⟨num, ?_, hdone.codes, htotal, fun hshort i hi hi' => ?_⟩
  · rw [limitLengths, if_pos (by simpa [Config.maxSupportedCodesize] using h32)]
    dsimp only
    rw [if_neg (by omega), hfolded, if_pos hbig]
    exact hrounds
  · have hcut : ∀ w : Nat → Nat, (a.map fun x => w (min x (l + 1))).sum = (a.map w).sum := fun w => by
      rw [List.map_congr_left fun x hx => by rw [Nat.min_eq_left (hshort x hx)]]
    have hsame : kraftTotal (l + 1) folded = 2 ^ (l + 1) := by
      rw [kraftTotal_eq, (hfold _).2, hcut fun i => 2 ^ (l + 1 - i)]
      exact kraft_rescaled h32 hshort hkraft
    rw [hsame, Nat.sub_self] at hrounds
    cases hrounds
    rw [← weighed_single hi hi', (hfold _).2, hcut fun x => if x = i then 1 else 0, sum_single_eq_count]

theorem limitValue_eq (lim : CodeLimit) : ∃ l, limitValue lim = l + 1 ∧ l < 15 := by
  cases lim
  · exact ⟨14, rfl, by decide⟩
  · exact ⟨6, rfl, by decide⟩

/-- Settles O28: the fold keeps the number of codes, the rounds bring the Kraft sum to one. -/
theorem hufLimitKraft : Obligations.HufLimitKraft := by
  unfold Obligations.HufLimitKraft
  intro lim s hrun h32
  dsimp only
  have hexec : ∀ num, limitLengths (limitValue lim) s.work.lengths = some num →
      exec (.hufLimit lim) s = .next (s.setWork { s.work with num := num }) :=
    fun num hnum => exec_of_running rfl (opHufLimit_of_some hnum) hrun
  refine ⟨fun h2 hn hkraft => ?_, fun h1 => ?_⟩
  · obtain ⟨l, hl, hl15⟩ := limitValue_eq lim
    rw [hl] at hn hexec ⊢
    obtain ⟨num, hnum, hcodes, htotal, hkept⟩ := limitLengths_of_kraft h2 h32 hn (by omega) hkraft
    refine ⟨num, hexec num hnum, ?_, htotal, hkept⟩
    rw [← hcodes]
    simp [weighed]
  · exact ⟨_, hexec _ (limitLengths_of_few h1 h32), fun i _ => arrAt_lengthHistogram h32 i⟩

/-! HUF.ASSIGN_SIZES. -/

theorem dealtLengths_succ (limit : Nat) (num : List Nat) :
    dealtLengths (limit + 1) num = dealtLengths limit num ++ List.replicate (arrAt num (limit + 1)) (limit + 1) := by
  simp [dealtLengths, List.range_succ]

/-- The lengths are dealt shortest first (R184). -/
theorem dealtLengths_rises (limit : Nat) (num : List Nat) : (dealtLengths limit num).Pairwise (· ≤ ·) := by
  induction limit with
  | zero => exact List.Pairwise.nil
  | succ limit ih =>
    rw [dealtLengths_succ]
    refine List.pairwise_append.2 ⟨ih, List.pairwise_replicate.2 (Or.inr le_rfl), fun x hx y hy => ?_⟩
    rw [(List.mem_replicate.1 hy).2]
    exact (mem_dealtLengths hx).2.trans (Nat.le_succ _)

theorem count_dealtLengths {limit i : Nat} (hi : 1 ≤ i) (hle : i ≤ limit) (num : List Nat) :
    (dealtLengths limit num).count i = arrAt num i := by
  induction limit with
  | zero => omega
  | succ limit ih =>
    rw [dealtLengths_succ, List.count_append, List.count_replicate]
    by_cases hlast : i = limit + 1
    · have hnone : (dealtLengths limit num).count i = 0 := List.count_eq_zero.2 fun h => by
        have := mem_dealtLengths h
        omega
      rw [hnone, hlast, beq_self_eq_true, if_pos rfl, Nat.zero_add]
    · rw [ih (by omega), if_neg (by simpa using fun h => hlast h.symm), Nat.add_zero]

/-- The lengths dealt weigh what the histogram weighs. -/
theorem sum_dealtLengths (limit : Nat) (num : List Nat) (w : Nat → Nat) :
    ((dealtLengths limit num).map w).sum = weighed limit num w := by
  induction limit with
  | zero => rfl
  | succ limit ih =>
    rw [dealtLengths_succ, List.map_append, List.sum_append, ih, weighed_succ, List.map_replicate, List.sum_replicate,
      smul_eq_mul]

/-- Dealing lengths to symbols, each of which occurs once: each reads as its length, all others as before (R184). -/
theorem read_foldl_sizes {l : List (SymKey × Nat)} {m : Mem 8} (hw : Mem.wf m) (hl : (l.map fun p => p.1.sym).Nodup) :
    let size := l.foldl (fun m p => Mem.write m p.1.sym (BitVec.ofNat 8 p.2)) m
    (∀ p ∈ l, Mem.read size p.1.sym = BitVec.ofNat 8 p.2)
    ∧ ∀ a, a ∉ l.map (fun p => p.1.sym) → Mem.read size a = Mem.read m a := by
  induction l generalizing m with
  | nil => exact ⟨fun p hp => absurd hp List.not_mem_nil, fun a _ => rfl⟩
  | cons p l ih =>
    obtain ⟨hp, hl⟩ := List.nodup_cons.1 hl
    obtain ⟨hdealt, hkept⟩ := ih (write_wf hw p.1.sym (BitVec.ofNat 8 p.2)) hl
    refine ⟨fun q hq => ?_, fun a ha => ?_⟩
    · rcases List.mem_cons.1 hq with rfl | hq
      · exact (hkept _ hp).trans (read_write_same _ _ _ hw)
      · exact hdealt q hq
    · rw [List.map_cons, List.mem_cons, not_or] at ha
      exact (hkept a ha.2).trans ((read_write hw _ _ _).trans (if_neg ha.1))

/-- The lengths the sorted symbols get are those dealt, the last symbol the first of them; other symbols get none (R184). -/
theorem assignedSizes_dealt {limit : Nat} {sym : List SymKey} {num : List Nat} (hlimit : limit < 256)
    (hnodup : (sym.map SymKey.sym).Nodup) (hall : (dealtLengths limit num).length = sym.length) :
    sym.map (fun x => (Mem.read (assignedSizes limit sym num) x.sym).toNat) = (dealtLengths limit num).reverse
    ∧ ∀ a, a ∉ sym.map SymKey.sym → Mem.read (assignedSizes limit sym num) a = 0 := by
  have hfst : (sym.reverse.zip (dealtLengths limit num)).map Prod.fst = sym.reverse :=
    List.map_fst_zip (by rw [List.length_reverse, hall])
  have hsnd : (sym.reverse.zip (dealtLengths limit num)).map Prod.snd = dealtLengths limit num :=
    List.map_snd_zip (by rw [List.length_reverse, hall])
  have hsyms : ((sym.reverse.zip (dealtLengths limit num)).map fun p => p.1.sym) = (sym.map SymKey.sym).reverse := by
    rw [← List.map_reverse]
    conv_rhs => rw [← hfst, List.map_map]
    rfl
  obtain ⟨hdealt, hkept⟩ := read_foldl_sizes (l := sym.reverse.zip (dealtLengths limit num)) wf_nil
    (by rw [hsyms]; exact List.nodup_reverse.2 hnodup)
  refine ⟨?_, fun a ha => ?_⟩
  · rw [← List.reverse_eq_iff, ← List.map_reverse]
    conv_lhs => rw [← hfst, List.map_map]
    refine Eq.trans (List.map_congr_left fun p hp => ?_) hsnd
    have hle := mem_dealtLengths (List.of_mem_zip hp).2
    have hread : Mem.read (assignedSizes limit sym num) p.1.sym = BitVec.ofNat 8 p.2 := hdealt p hp
    rw [Function.comp_apply, hread, BitVec.toNat_ofNat]
    omega
  · refine (hkept a ?_).trans (read_nil a)
    rw [hsyms]
    exact fun h => ha (List.mem_reverse.1 h)

/-- With as many lengths as symbols, each of the table, HUF.ASSIGN_SIZES has a result (R184). -/
theorem sizeable_of_length {t : Table} {w : Work} (hsyms : ∀ x ∈ w.sym, x.sym < numSyms t)
    (hall : (dealtLengths (codeLimit t) w.num).length = w.sym.length) : sizeable t w = true := by
  simp only [sizeable, Bool.and_eq_true, decide_eq_true_eq, List.all_eq_true]
  exact ⟨hall.le, fun x hx => hsyms x (List.mem_reverse.1 (List.mem_of_mem_take hx))⟩

/-- Settles O29: the lengths of the sorted symbols are the lengths dealt, reversed. -/
theorem hufAssignSizesDeals : Obligations.HufAssignSizesDeals := by
  unfold Obligations.HufAssignSizesDeals
  intro t s hrun hnodup hsyms hsum
  have hall : (dealtLengths (codeLimit t) s.work.num).length = s.work.sym.length := by
    rw [dealtLengths_length, ← hsum]
    simp [weighed]
  obtain ⟨hdealt, hothers⟩ := assignedSizes_dealt (limit := codeLimit t) (by cases t <;> decide) hnodup hall
  refine ⟨_, _, exec_of_running rfl (opHufAssignSizes_of_sizeable (sizeable_of_length hsyms hall)) hrun, fun _ => rfl,
    hothers, fun i hi hi' => ?_, ?_⟩
  · rw [← List.countP_eq_length_filter, ← count_dealtLengths hi hi', ← List.count_reverse, ← hdealt, List.count,
      List.countP_map]
    rfl
  · rw [hdealt, List.pairwise_reverse]
    exact dealtLengths_rises _ _

end Sys2Proof.Proofs.HuffmanUnit

/-! The Huffman family: HUF.ASSIGN_CODES gives codes none of which is the start of another. -/

namespace Sys2Proof.Proofs.HuffmanUnit

open Sys2Proof Sys2Proof.Machine Sys2Proof.Laws Sys2Proof.Proofs.HostCalls Sys2Proof.Proofs.MinimumRedundancy
  Sys2Proof.Proofs.LengthLimit Sys2Proof.Proofs.Dictionary

/-! The bit reversal. -/

theorem bitrev_lt (l c : Nat) : bitrev l c < 2 ^ l := by
  induction l generalizing c with
  | zero => exact Nat.one_pos
  | succ l ih =>
    have := ih (c / 2)
    have : c % 2 * 2 ^ l ≤ 1 * 2 ^ l := Nat.mul_le_mul_right _ (by omega)
    rw [bitrev, pow_succ]
    omega

/-- Reversed, the low bits of a word come first. -/
theorem bitrev_add (k m c : Nat) : bitrev (k + m) c = bitrev k c * 2 ^ m + bitrev m (c / 2 ^ k) := by
  induction k generalizing c with
  | zero => simp [bitrev]
  | succ k ih =>
    rw [show k + 1 + m = (k + m) + 1 by omega, bitrev, bitrev, ih, Nat.div_div_eq_div_mul, pow_succ', pow_add]
    ring

/-- The low bits of a reversed word are its high bits, reversed. -/
theorem bitrev_mod (k m c : Nat) : bitrev (k + m) c % 2 ^ m = bitrev m (c / 2 ^ k) := by
  rw [bitrev_add, Nat.mul_comm, Nat.mul_add_mod, Nat.mod_eq_of_lt (bitrev_lt _ _)]

/-- Bits beyond the word do not matter. -/
theorem bitrev_add_mul (l c k : Nat) : bitrev l (c + k * 2 ^ l) = bitrev l c := by
  induction l generalizing c with
  | zero => rfl
  | succ l ih =>
    have hhigh : c + k * 2 ^ (l + 1) = c + 2 * (k * 2 ^ l) := by rw [pow_succ]; ring
    rw [bitrev, bitrev, hhigh, Nat.add_mul_mod_self_left, Nat.add_mul_div_left _ _ (by norm_num), ih]

theorem bitrev_bitrev {l c : Nat} (h : c < 2 ^ l) : bitrev l (bitrev l c) = c := by
  induction l generalizing c with
  | zero => exact (Nat.lt_one_iff.1 h).symm
  | succ l ih =>
    have hlow := bitrev_lt l (c / 2)
    rw [pow_succ] at h
    rw [bitrev_add l 1, show bitrev (l + 1) c = bitrev l (c / 2) + c % 2 * 2 ^ l from Nat.add_comm _ _, bitrev_add_mul,
      ih (by omega), Nat.add_mul_div_right _ _ (Nat.two_pow_pos l), Nat.div_eq_of_lt hlow]
    simp only [bitrev]
    omega

theorem bitrev_injective {l c d : Nat} (hc : c < 2 ^ l) (hd : d < 2 ^ l) (h : bitrev l c = bitrev l d) : c = d := by
  rw [← bitrev_bitrev hc, h, bitrev_bitrev hd]

/-! The first codes of the lengths. -/

/-- The first code of length `i` (R185); tied to the model by `arrAt_nextCodes`. -/
def firstCode (lens : List Nat) : Nat → Nat
  | 0 => 0
  | i + 1 => (firstCode lens i + lens.count i) * 2

/-- The end of the codes of length `i`. -/
def codesEnd (lens : List Nat) (i : Nat) : Nat := firstCode lens i + lens.count i

theorem firstCode_succ (lens : List Nat) (i : Nat) : firstCode lens (i + 1) = codesEnd lens i * 2 := rfl

theorem nextCodesFrom_length (lens : List Nat) (k i c : Nat) : (nextCodesFrom lens k i c).length = k := by
  induction k generalizing i c with
  | zero => rfl
  | succ k ih => rw [nextCodesFrom, List.length_cons, ih]

theorem getD_nextCodesFrom (lens : List Nat) {j k : Nat} (hj : j < k) (i : Nat) :
    (nextCodesFrom lens k (i + 1) (firstCode lens i)).getD j 0 = firstCode lens (i + 1 + j) := by
  induction k generalizing i j with
  | zero => omega
  | succ k ih =>
    have hnext : nextCodesFrom lens (k + 1) (i + 1) (firstCode lens i)
        = firstCode lens (i + 1) :: nextCodesFrom lens k (i + 2) (firstCode lens (i + 1)) := rfl
    rw [hnext]
    cases j with
    | zero => rfl
    | succ j => rw [List.getD_cons_succ, ih (by omega), show i + 1 + 1 + j = i + 1 + (j + 1) by omega]

theorem nextCodes_length {limit : Nat} (hlimit : 1 ≤ limit) (lens : List Nat) :
    (nextCodes limit lens).length = limit + 1 := by
  rw [nextCodes, List.length_cons, List.length_cons, nextCodesFrom_length]
  omega

/-- `NEXT_CODE` holds the first codes (R185). -/
theorem arrAt_nextCodes {limit i : Nat} (hi : i ≤ limit) {lens : List Nat} (hzero : lens.count 0 = 0) :
    arrAt (nextCodes limit lens) i = firstCode lens i := by
  have hone : firstCode lens 1 = 0 := by rw [firstCode, firstCode, hzero]
  match i with
  | 0 => rfl
  | 1 => exact hone.symm
  | i + 2 =>
    have hget := getD_nextCodesFrom lens (j := i) (k := limit - 1) (by omega) 1
    rw [hone] at hget
    rw [nextCodes, arrAt, List.getD_cons_succ, List.getD_cons_succ, hget]
    congr 1
    omega

/-- The codes of one length end where those of the longer lengths begin. -/
theorem codesEnd_le_firstCode (lens : List Nat) (i k : Nat) :
    codesEnd lens i * 2 ^ (k + 1) ≤ firstCode lens (i + (k + 1)) := by
  induction k with
  | zero => exact le_rfl
  | succ k ih =>
    rw [pow_succ, ← Nat.mul_assoc, ← Nat.add_assoc i (k + 1) 1, firstCode_succ]
    exact Nat.mul_le_mul_right 2 (ih.trans (Nat.le_add_right _ _))

theorem sum_ite_eq_count (lens : List Nat) (i v : Nat) :
    (lens.map fun l => if l = i then v else 0).sum = lens.count i * v := by
  rw [← sum_single_eq_count, ← List.sum_map_mul_right]
  exact congrArg List.sum (List.map_congr_left fun l _ => by split <;> simp)

/-- The end of the codes of length `i` is the Kraft sum of the lengths up to `i`. -/
theorem codesEnd_eq_kraft (lens : List Nat) {i limit : Nat} (hi : i ≤ limit) :
    codesEnd lens i * 2 ^ (limit - i) = (lens.map fun l => if l ≤ i then 2 ^ (limit - l) else 0).sum := by
  induction i with
  | zero =>
    have hzero : (fun l => if l ≤ 0 then 2 ^ (limit - l) else 0) = fun l => if l = 0 then 2 ^ limit else 0 := by
      funext l
      cases l <;> rfl
    rw [hzero, sum_ite_eq_count, codesEnd, firstCode, Nat.zero_add, Nat.sub_zero]
  | succ i ih =>
    have hsplit : (fun l => if l ≤ i + 1 then 2 ^ (limit - l) else 0)
        = fun l => (if l ≤ i then 2 ^ (limit - l) else 0) + if l = i + 1 then 2 ^ (limit - (i + 1)) else 0 := by
      funext l
      by_cases hl : l ≤ i
      · rw [if_pos (by omega), if_pos hl, if_neg (by omega), Nat.add_zero]
      · by_cases heq : l = i + 1
        · rw [if_pos heq.le, if_neg hl, if_pos heq, heq, Nat.zero_add]
        · rw [if_neg (by omega), if_neg hl, if_neg heq]
    rw [hsplit, List.sum_map_add, sum_ite_eq_count, ← ih (by omega), codesEnd, firstCode_succ, Nat.add_mul,
      Nat.mul_assoc, ← pow_succ', show limit - (i + 1) + 1 = limit - i by omega]

/-- Under the Kraft inequality the codes of every length fit the length. -/
theorem codesEnd_le {lens : List Nat} {i limit : Nat} (hi : i ≤ limit)
    (hkraft : (lens.map fun l => 2 ^ (limit - l)).sum ≤ 2 ^ limit) : codesEnd lens i ≤ 2 ^ i := by
  refine Nat.le_of_mul_le_mul_right ?_ (Nat.two_pow_pos (limit - i))
  rw [codesEnd_eq_kraft lens hi, ← pow_add, Nat.add_sub_cancel' hi]
  refine (List.sum_le_sum fun l _ => ?_).trans hkraft
  split
  · exact le_rfl
  · exact Nat.zero_le _

/-! The codes of the symbols. -/

/-- A stronger condition that some element does not meet counts less. -/
theorem countP_lt_countP {α : Type} {p q : α → Bool} {l : List α} (h : ∀ x ∈ l, p x = true → q x = true) {x : α}
    (hx : x ∈ l) (hp : ¬ p x = true) (hq : q x = true) : l.countP p < l.countP q := by
  obtain ⟨before, after, rfl⟩ := List.append_of_mem hx
  have h1 : before.countP p ≤ before.countP q := List.countP_mono_left fun y hy => h y (List.mem_append_left _ hy)
  have h2 : after.countP p ≤ after.countP q :=
    List.countP_mono_left fun y hy => h y (List.mem_append_right _ (List.mem_cons_of_mem _ hy))
  rw [List.countP_append, List.countP_append, List.countP_cons_of_neg hp, List.countP_cons_of_pos hq]
  omega

/-- How many symbols before `a` have the length `l`. -/
def rankOf (used : List (Nat × BitVec 8)) (a : Nat) (l : BitVec 8) : Nat :=
  used.countP fun u => decide (u.1 < a) && u.2 == l

/-- The code a symbol gets: the next one of its length, reversed (R185). -/
theorem read_codesFrom {used : List (Nat × BitVec 8)} (hrise : used.Pairwise fun c d => c.1 < d.1) {next : List Nat}
    (hlen : ∀ u ∈ used, u.2.toNat < next.length) {c : Nat × BitVec 8} (hc : c ∈ used) :
    Mem.read (codesFrom used next) c.1
      = BitVec.ofNat 16 (bitrev c.2.toNat (arrAt next c.2.toNat + rankOf used c.1 c.2)) := by
  induction used generalizing next with
  | nil => exact absurd hc List.not_mem_nil
  | cons u used ih =>
    obtain ⟨a, l⟩ := u
    obtain ⟨hlt, hrest⟩ := List.pairwise_cons.1 hrise
    have hread : ∀ b, Mem.read (codesFrom ((a, l) :: used) next) b
        = if b = a then BitVec.ofNat 16 (bitrev l.toNat (arrAt next l.toNat))
          else Mem.read (codesFrom used (next.set l.toNat (arrAt next l.toNat + 1))) b := fun b => by
      have habsent : Mem.read (codesFrom used (next.set l.toNat (arrAt next l.toNat + 1))) a = 0 :=
        read_of_not_listed fun d hd hda => by
          obtain ⟨u, hu, hdu⟩ := mem_codesFrom hd
          have := hlt u hu
          omega
      simp only [codesFrom]
      split
      case isTrue hzero =>
        rw [hzero]
        split
        case isTrue heq => rw [heq, habsent]; rfl
        case isFalse => rfl
      case isFalse => exact read_cons _ _ _
    rw [hread]
    rcases List.mem_cons.1 hc with rfl | hc
    · have hrank : rankOf ((a, l) :: used) a l = 0 := List.countP_eq_zero.2 fun u hu => by
        rcases List.mem_cons.1 hu with rfl | hu
        · simp
        · have := hlt u hu
          simp only [Bool.and_eq_true, decide_eq_true_eq]
          omega
      rw [if_pos rfl, hrank, Nat.add_zero]
    · have hac := hlt c hc
      rw [if_neg (by omega), ih hrest (by simpa using fun u v hu => hlen (u, v) (List.mem_cons_of_mem _ hu)) hc, rankOf,
        rankOf, List.countP_cons, arrAt_set]
      by_cases heq : c.2 = l
      · rw [if_pos ⟨by rw [heq], hlen (a, l) List.mem_cons_self⟩, heq]
        simp only [hac, decide_true, beq_self_eq_true, Bool.and_self, if_true]
        congr 2
        omega
      · rw [if_neg fun h => heq (BitVec.eq_of_toNat_eq h.1), if_neg (by simpa using fun _ h => heq h.symm), Nat.add_zero]

/-- The symbols of a table of `n` with a length, and their lengths (R185). -/
def usedSizes (n : Nat) (size : Mem 8) : List (Nat × BitVec 8) := size.filter fun c => decide (c.1 < n) && c.2 != 0

/-- Their lengths as numbers. -/
def usedLengths (n : Nat) (size : Mem 8) : List Nat := (usedSizes n size).map fun c => c.2.toNat

theorem assignedCodes_eq (n limit : Nat) (size : Mem 8) :
    assignedCodes n limit size = codesFrom (usedSizes n size) (nextCodes limit (usedLengths n size)) := rfl

theorem usedSizes_rising {size : Mem 8} (hw : Mem.wf size) (n : Nat) :
    (usedSizes n size).Pairwise fun c d => c.1 < d.1 := hw.1.filter _

theorem mem_of_read_ne {w : Nat} {m : Mem w} (hw : Mem.wf m) {a : Nat} (h : Mem.read m a ≠ 0) : (a, Mem.read m a) ∈ m := by
  by_contra hnot
  refine h (read_of_not_listed fun c hc hca => hnot ?_)
  rw [← hca, read_of_mem hw hc]
  exact hc

theorem mem_usedSizes {size : Mem 8} (hw : Mem.wf size) {n : Nat} {c : Nat × BitVec 8} :
    c ∈ usedSizes n size ↔ c.1 < n ∧ c.2 ≠ 0 ∧ Mem.read size c.1 = c.2 := by
  simp only [usedSizes, List.mem_filter, Bool.and_eq_true, decide_eq_true_eq, bne_iff_ne]
  refine ⟨fun ⟨hmem, hlt, hne⟩ => ⟨hlt, hne, read_of_mem hw hmem⟩, fun ⟨hlt, hne, hread⟩ => ⟨?_, hlt, hne⟩⟩
  rw [← hread] at hne
  have hmem := mem_of_read_ne hw hne
  rwa [hread] at hmem

/-- The symbols with a length, in the order of the table. -/
theorem usedSizes_eq_tabulate {size : Mem 8} (hw : Mem.wf size) (n : Nat) :
    usedSizes n size = Mem.tabulate n (Mem.read size) := by
  have hwf : Mem.wf (usedSizes n size) :=
    ⟨usedSizes_rising hw n, fun c hc => ((mem_usedSizes hw).1 hc).2.1⟩
  refine wf_ext hwf (tabulate_wf _ _) fun a => ?_
  rw [read_tabulate]
  by_cases hused : a < n ∧ Mem.read size a ≠ 0
  · rw [if_pos hused.1]
    exact read_of_mem (c := (a, Mem.read size a)) hwf ((mem_usedSizes hw).2 ⟨hused.1, hused.2, rfl⟩)
  · rw [read_of_not_listed fun c hc hca => hused ?_]
    · split
      · by_contra hne
        exact hused ⟨by assumption, fun h => hne h.symm⟩
      · rfl
    · obtain ⟨hlt, hne, hread⟩ := (mem_usedSizes hw).1 hc
      rw [← hca, hread]
      exact ⟨hlt, hne⟩

/-- The Kraft sum of a table is that of its lengths in use. -/
theorem kraft_usedLengths {size : Mem 8} (hw : Mem.wf size) (n limit : Nat) :
    ((usedLengths n size).map fun l => 2 ^ (limit - l)).sum = kraftOf size n limit := by
  rw [usedLengths, usedSizes_eq_tabulate hw, Mem.tabulate, kraftOf, List.map_map]
  induction List.range n with
  | nil => rfl
  | cons a l ih =>
    rw [List.map_cons, List.sum_cons, ← ih]
    by_cases hzero : Mem.read size a = 0
    · rw [if_pos hzero, List.filterMap_cons_none (by exact if_pos hzero), Nat.zero_add]
    · rw [if_neg hzero, List.filterMap_cons_some (by exact if_neg hzero), List.map_cons, List.sum_cons]
      rfl

theorem count_zero_usedLengths {size : Mem 8} (hw : Mem.wf size) (n : Nat) : (usedLengths n size).count 0 = 0 :=
  List.count_eq_zero.2 fun h => by
    obtain ⟨c, hc, hzero⟩ := List.mem_map.1 h
    exact ((mem_usedSizes hw).1 hc).2.1 (BitVec.eq_of_toNat_eq hzero)

/-- The code of symbol `a` before the reversal: the first of its length and one more for each symbol of the length before
it (R185). -/
def codeOf (n : Nat) (size : Mem 8) (a : Nat) : Nat :=
  firstCode (usedLengths n size) (Mem.read size a).toNat + rankOf (usedSizes n size) a (Mem.read size a)

/-- HUF.ASSIGN_CODES lists the codes of the symbols with a length only (R185). -/
theorem read_assignedCodes_unused {size : Mem 8} (hw : Mem.wf size) {n limit a : Nat}
    (h : n ≤ a ∨ Mem.read size a = 0) : Mem.read (assignedCodes n limit size) a = 0 :=
  read_of_not_listed fun c hc hca => by
    obtain ⟨u, hu, hcu⟩ := mem_codesFrom hc
    obtain ⟨hlt, hne, hread⟩ := (mem_usedSizes hw).1 hu
    rw [← hcu, hca] at hlt hread
    rcases h with h | h
    · omega
    · exact hne (hread.symm.trans h)

section
variable {n limit : Nat} {size : Mem 8}

/-- The code of a symbol lies before the end of the codes of its length. -/
theorem codeOf_lt (hw : Mem.wf size) {a : Nat} (ha : a < n) (hused : Mem.read size a ≠ 0) :
    codeOf n size a < codesEnd (usedLengths n size) (Mem.read size a).toNat := by
  have hcount : (usedLengths n size).count (Mem.read size a).toNat
      = (usedSizes n size).countP fun u => u.2 == Mem.read size a := by
    rw [usedLengths, List.count, List.countP_map]
    refine List.countP_congr fun u _ => ?_
    simp only [Function.comp_apply, beq_iff_eq]
    exact BitVec.toNat_inj
  rw [codeOf, codesEnd, hcount]
  exact Nat.add_lt_add_left (countP_lt_countP (x := (a, Mem.read size a))
    (fun u _ hu => (Bool.and_eq_true_iff.1 hu).2)
    ((mem_usedSizes hw).2 ⟨ha, hused, rfl⟩) (by simp) (by simp)) _

/-- Codes of one length rise with the symbol. -/
theorem codeOf_rises (hw : Mem.wf size) {a b : Nat} (hab : a < b) (hb : b < n) (hused : Mem.read size a ≠ 0)
    (hsame : Mem.read size a = Mem.read size b) : codeOf n size a < codeOf n size b := by
  rw [codeOf, codeOf, ← hsame]
  refine Nat.add_lt_add_left (countP_lt_countP (x := (a, Mem.read size a)) (fun u _ hu => ?_)
    ((mem_usedSizes hw).2 ⟨hab.trans hb, hused, rfl⟩) (by simp) (by simpa using hab)) _
  simp only [Bool.and_eq_true, decide_eq_true_eq] at hu ⊢
  exact ⟨hu.1.trans hab, hu.2⟩

/-- A code is not the start of a longer one. -/
theorem codeOf_lt_start (hw : Mem.wf size) {a b k : Nat} (ha : a < n) (hused : Mem.read size a ≠ 0)
    (hlonger : (Mem.read size b).toNat = (Mem.read size a).toNat + (k + 1)) :
    codeOf n size a < codeOf n size b / 2 ^ (k + 1) := by
  refine (codeOf_lt hw ha hused).trans_le ((Nat.le_div_iff_mul_le (Nat.two_pow_pos _)).2 ?_)
  refine (codesEnd_le_firstCode _ _ k).trans ?_
  rw [← hlonger]
  exact Nat.le_add_right _ _

/-- What a table's codes are to be: each of its length, none the start of another, increasing within one length, and 0 where
there is none (R185, R189 item 4). -/
structure StartFree (n : Nat) (len c : Nat → Nat) : Prop where
  unused : ∀ a < n, len a = 0 → c a = 0
  fits : ∀ a < n, c a < 2 ^ len a
  apart : ∀ a < n, ∀ b < n, len a ≠ 0 → len a ≤ len b → a ≠ b → c b % 2 ^ len a ≠ c a
  rises : ∀ a b, a < b → b < n → len a ≠ 0 → len a = len b → bitrev (len a) (c a) < bitrev (len b) (c b)

/-- The codes of lengths that obey the Kraft inequality, as numbers (R185). -/
theorem read_assignedCodes (hw : Mem.wf size) (hlimit : 1 ≤ limit ∧ limit ≤ 15)
    (hcap : ∀ a < n, (Mem.read size a).toNat ≤ limit) (hkraft : kraftOf size n limit ≤ 2 ^ limit) {a : Nat} (ha : a < n)
    (hused : Mem.read size a ≠ 0) : codeOf n size a < 2 ^ (Mem.read size a).toNat
    ∧ (Mem.read (assignedCodes n limit size) a).toNat = bitrev (Mem.read size a).toNat (codeOf n size a) := by
  have hmem : (a, Mem.read size a) ∈ usedSizes n size := (mem_usedSizes hw).2 ⟨ha, hused, rfl⟩
  have hread := read_codesFrom (usedSizes_rising hw n) (next := nextCodes limit (usedLengths n size)) (fun u hu => by
    obtain ⟨hlt, -, hread⟩ := (mem_usedSizes hw).1 hu
    have := hcap u.1 hlt
    rw [hread] at this
    rw [nextCodes_length hlimit.1]
    omega) hmem
  rw [arrAt_nextCodes (hcap a ha) (count_zero_usedLengths hw n), ← assignedCodes_eq] at hread
  have hend : codeOf n size a < 2 ^ (Mem.read size a).toNat :=
    (codeOf_lt hw ha hused).trans_le (codesEnd_le (hcap a ha) (by rwa [kraft_usedLengths hw]))
  refine ⟨hend, ?_⟩
  have hsmall : bitrev (Mem.read size a).toNat (codeOf n size a) < 2 ^ 16 :=
    (bitrev_lt _ _).trans_le (Nat.pow_le_pow_right (by norm_num) ((hcap a ha).trans (by omega)))
  rw [hread, BitVec.toNat_ofNat]
  exact Nat.mod_eq_of_lt hsmall

/-- HUF.ASSIGN_CODES gives such codes for lengths that obey the Kraft inequality (R185, R189 item 4). -/
theorem assignedCodes_startFree (hw : Mem.wf size) (hlimit : 1 ≤ limit ∧ limit ≤ 15)
    (hcap : ∀ a < n, (Mem.read size a).toNat ≤ limit) (hkraft : kraftOf size n limit ≤ 2 ^ limit) :
    StartFree n (fun a => (Mem.read size a).toNat) fun a => (Mem.read (assignedCodes n limit size) a).toNat := by
  have hne : ∀ {a : Nat}, (Mem.read size a).toNat ≠ 0 → Mem.read size a ≠ 0 := fun h hzero => h (by rw [hzero]; rfl)
  have hcode := fun {a : Nat} => read_assignedCodes (a := a) hw hlimit hcap hkraft
  have hunused : ∀ a, (Mem.read size a).toNat = 0 → (Mem.read (assignedCodes n limit size) a).toNat = 0 := fun a hzero => by
    rw [read_assignedCodes_unused hw (Or.inr (BitVec.eq_of_toNat_eq hzero))]
    rfl
  refine ⟨fun a _ => hunused a, fun a ha => ?_, fun a ha b hb hlen hle hab heq => ?_, fun a b hab hb hlen hsame => ?_⟩
  · by_cases hzero : (Mem.read size a).toNat = 0
    · rw [hunused a hzero]
      exact Nat.two_pow_pos _
    · rw [(hcode ha (hne hzero)).2]
      exact bitrev_lt _ _
  · obtain ⟨k, hk⟩ := Nat.exists_eq_add_of_le' hle
    obtain ⟨hfit, hread⟩ := hcode ha (hne hlen)
    obtain ⟨hfit', hread'⟩ := hcode hb (hne (by omega))
    rw [hread, hread', hk, bitrev_mod] at heq
    rw [hk, pow_add] at hfit'
    have hstart := bitrev_injective (Nat.div_lt_of_lt_mul hfit') hfit heq
    cases k with
    | succ k =>
      have := codeOf_lt_start hw (b := b) (k := k) ha (hne hlen) (by omega)
      omega
    | zero =>
      have hsame : Mem.read size a = Mem.read size b := BitVec.eq_of_toNat_eq (by omega)
      rw [pow_zero, Nat.div_one] at hstart
      rcases Nat.lt_or_gt_of_ne hab with hlt | hlt
      · have := codeOf_rises hw hlt hb (hne hlen) hsame
        omega
      · have := codeOf_rises hw hlt ha (by rw [← hsame]; exact hne hlen) hsame.symm
        omega
  · obtain ⟨hfit, hread⟩ := hcode (hab.trans hb) (hne hlen)
    obtain ⟨hfit', hread'⟩ := hcode hb (hne (by omega))
    rw [hread, hread', bitrev_bitrev hfit, bitrev_bitrev hfit']
    exact codeOf_rises hw hab hb (hne hlen) (BitVec.eq_of_toNat_eq hsame)

end

/-- Settles O30: the codes of each length are consecutive numbers that end before those of the next length begin. -/
theorem hufAssignCodesPrefixFree : Obligations.HufAssignCodesPrefixFree := by
  unfold Obligations.HufAssignCodesPrefixFree
  intro t s hrun hw
  refine ⟨_, exec_of_running rfl rfl hrun, fun a _ hzero => ?_, fun hcap hkraft => ?_⟩
  · dsimp only at hzero ⊢
    rw [read_assignedCodes_unused hw (Or.inr (BitVec.eq_of_toNat_eq hzero))]
    rfl
  · obtain ⟨-, hfits, hapart, hrises⟩ := assignedCodes_startFree hw (by cases t <;> decide) hcap hkraft
    exact ⟨hfits, hapart, hrises⟩

end Sys2Proof.Proofs.HuffmanUnit

/-! The Huffman family: HUF.LOAD_STATIC loads the fixed tables. -/

namespace Sys2Proof.Proofs.HuffmanUnit

open Sys2Proof Sys2Proof.Machine Sys2Proof.Laws Sys2Proof.Proofs.Dictionary

/-- The fixed literal/length code of symbol `a` before the reversal (R104); tied to the model by `staticLitLenCodes_eq`. -/
def fixedCode (a : Nat) : Nat :=
  if a < 144 then 0x30 + a else if a < 256 then 0x190 + (a - 144) else if a < 280 then a - 256 else 0xC0 + (a - 280)

/-- The codes HUF.ASSIGN_CODES makes of the fixed literal/length lengths (R104, R187). -/
theorem staticLitLenCodes_eq : assignedCodes (numSyms .litLen) (codeLimit .litLen) staticLitLenSizes
    = Mem.tabulate 288 fun a => BitVec.ofNat 16 (bitrev (staticLitLenSize a) (fixedCode a)) := by
  decide +kernel

/-- The codes HUF.ASSIGN_CODES makes of the fixed distance lengths (R104, R187). -/
theorem staticDistCodes_eq : assignedCodes (numSyms .dist) (codeLimit .dist) staticDistSizes
    = Mem.tabulate 32 fun a => BitVec.ofNat 16 (bitrev 5 a) := by
  decide +kernel

/-- HUF.LOAD_STATIC replaces the lengths and codes of the tables 0 and 1 (R187). -/
theorem opHufLoadStatic_eq (s : State) : opHufLoadStatic s = s.setHuf { s.huf with
    litLen := { s.huf.litLen with
      size := staticLitLenSizes, code := assignedCodes (numSyms .litLen) (codeLimit .litLen) staticLitLenSizes }
    dist := { s.huf.dist with
      size := staticDistSizes, code := assignedCodes (numSyms .dist) (codeLimit .dist) staticDistSizes } } := rfl

/-- A reversed code of at most 16 bits is what its element holds. -/
theorem toNat_bitrev {l : Nat} (hl : l ≤ 16) (c : Nat) : (BitVec.ofNat 16 (bitrev l c)).toNat = bitrev l c := by
  rw [BitVec.toNat_ofNat]
  exact Nat.mod_eq_of_lt ((bitrev_lt l c).trans_le (Nat.pow_le_pow_right (by norm_num) hl))

/-- A literal/length symbol's fixed length and code (R104). -/
theorem read_staticLitLen {a l c : Nat} (ha : a < 288) (hl : staticLitLenSize a = l) (hc : fixedCode a = c)
    (hl16 : l ≤ 16) : Mem.read staticLitLenSizes a = BitVec.ofNat 8 l
      ∧ (Mem.read (assignedCodes (numSyms .litLen) (codeLimit .litLen) staticLitLenSizes) a).toNat = bitrev l c := by
  rw [staticLitLenCodes_eq, staticLitLenSizes, read_tabulate, read_tabulate, if_pos ha, if_pos ha, hl, hc]
  exact ⟨rfl, toNat_bitrev hl16 c⟩

/-- A distance symbol's fixed length and code (R104). -/
theorem read_staticDist {a : Nat} (ha : a < 32) : Mem.read staticDistSizes a = 5
    ∧ (Mem.read (assignedCodes (numSyms .dist) (codeLimit .dist) staticDistSizes) a).toNat = bitrev 5 a := by
  rw [staticDistCodes_eq, staticDistSizes, read_tabulate, read_tabulate, if_pos ha, if_pos ha]
  exact ⟨rfl, toNat_bitrev (by norm_num) a⟩

/-- Settles O32: the codes of the fixed lengths are the printed ones, range by range. -/
theorem hufLoadStaticTables : Obligations.HufLoadStaticTables := by
  unfold Obligations.HufLoadStaticTables
  intro s hrun
  refine ⟨_, _, _, _, exec_of_running rfl (opHufLoadStatic_eq s) hrun, fun a h => ?_, fun a h h' => ?_, fun a h h' => ?_,
    fun a h h' => ?_, fun a h => read_staticDist h⟩
  all_goals refine read_staticLitLen (by omega) ?_ ?_ (by norm_num)
  · exact if_pos h
  · exact if_pos h
  · rw [staticLitLenSize, if_neg (by omega), if_pos h']
  · rw [fixedCode, if_neg (by omega), if_pos h']
  · rw [staticLitLenSize, if_neg (by omega), if_neg (by omega), if_pos h']
  · rw [fixedCode, if_neg (by omega), if_neg (by omega), if_pos h']
  · rw [staticLitLenSize, if_neg (by omega), if_neg (by omega), if_neg (by omega), if_pos h']
  · rw [fixedCode, if_neg (by omega), if_neg (by omega), if_neg (by omega)]

end Sys2Proof.Proofs.HuffmanUnit

/-! The Huffman family: HUF.BUILD builds a valid table. -/

namespace Sys2Proof.Proofs.HuffmanUnit

open Sys2Proof Sys2Proof.Machine Sys2Proof.Laws Sys2Proof.Proofs.HostCalls Sys2Proof.Proofs.MinimumRedundancy
  Sys2Proof.Proofs.LengthLimit Sys2Proof.Proofs.Dictionary

/-! The symbols counted, sorted. -/

section
variable {count : Mem 16} (hw : Mem.wf count)
include hw

/-- The pairs sorted are the counted symbols of the table with their counts (R180, R181). -/
theorem mem_radixSort_collect {n : Nat} {x : SymKey} :
    x ∈ radixSort (collect count n) ↔ x.sym < n ∧ Mem.read count x.sym = x.key ∧ x.key ≠ 0 := by
  rw [(radixSort_perm _).mem_iff, mem_collect]
  refine ⟨fun ⟨hmem, hlt, hne⟩ => ⟨hlt, read_of_mem hw hmem, hne⟩, fun ⟨hlt, hread, hne⟩ => ⟨?_, hlt, hne⟩⟩
  have hmem := mem_of_read_ne hw (a := x.sym) (by rwa [hread])
  rwa [hread] at hmem

theorem mem_radixSort_collect_sym {n a : Nat} :
    a ∈ (radixSort (collect count n)).map SymKey.sym ↔ a < n ∧ Mem.read count a ≠ 0 := by
  rw [List.mem_map]
  constructor
  · rintro ⟨x, hx, rfl⟩
    obtain ⟨hlt, hread, hne⟩ := (mem_radixSort_collect hw).1 hx
    exact ⟨hlt, by rwa [hread]⟩
  · rintro ⟨hlt, hne⟩
    exact ⟨⟨Mem.read count a, a⟩, (mem_radixSort_collect hw).2 ⟨hlt, rfl, hne⟩, rfl⟩

/-- Each counted symbol is sorted once. -/
theorem radixSort_collect_nodup (n : Nat) : ((radixSort (collect count n)).map SymKey.sym).Nodup := by
  have hrising : ((collect count n).map SymKey.sym).Pairwise (· < ·) := by
    refine List.Pairwise.map _ (fun _ _ h => h) (List.Pairwise.filterMap _ (fun c d hcd x hx y hy => ?_) hw.1)
    split at hx <;> split at hy <;> cases hx <;> cases hy
    exact hcd
  exact ((radixSort_perm _).map _).nodup_iff.2 (hrising.imp Nat.ne_of_lt)

theorem radixSort_collect_perm (n : Nat) : ((radixSort (collect count n)).map SymKey.sym).Perm
    ((List.range n).filter fun a => decide (Mem.read count a ≠ 0)) := by
  refine (List.perm_ext_iff_of_nodup (radixSort_collect_nodup hw n) (List.nodup_range.filter _)).2 fun a => ?_
  rw [mem_radixSort_collect_sym hw, List.mem_filter, List.mem_range, decide_eq_true_iff]

/-- As many pairs are sorted as symbols have been counted. -/
theorem usedCount_eq (n : Nat) : usedCount count n = (radixSort (collect count n)).length := by
  rw [usedCount, ← (radixSort_collect_perm hw n).length_eq, List.length_map]

end

/-! The lengths. -/

/-- The Kraft sum of a valid table of `used` symbols, scaled by `2^limit` (R188, R189 item 3). -/
def tableKraft (used limit : Nat) : Nat := if used = 0 then 0 else if used = 1 then 2 ^ (limit - 1) else 2 ^ limit

/-- HUF.LIMIT on natural lengths of at most 32 gives a valid table's numbers of codes (R183, R188). -/
theorem limitLengths_builds {t : Table} {count : Mem 16} (hw : Mem.wf count)
    (h32 : ∀ l ∈ naturalOf count (numSyms t), l ≤ 32) :
    ∃ num, limitLengths (codeLimit t) (naturalOf count (numSyms t)) = some num
      ∧ weighed (codeLimit t) num (fun _ => 1) = (radixSort (collect count (numSyms t))).length
      ∧ kraftTotal (codeLimit t) num = tableKraft (radixSort (collect count (numSyms t))).length (codeLimit t) := by
  obtain ⟨keys, hkeys, hnat⟩ := naturalOf_eq count (numSyms t)
  obtain ⟨l, hl, hl15, hsyms⟩ := codeLimit_eq t
  have hfew : keys.length ≤ numSyms t := by
    rw [hkeys, (radixSort_perm _).length_eq]
    exact collect_length_le hw _
  rw [hnat] at h32 ⊢
  rw [← hkeys, hl]
  by_cases h2 : 2 ≤ keys.length
  · have hfull := minred_full h2
    have hkraft := kraft_rescaled (fun x hx => (hfull.range x hx).2.le) h32 hfull.kraft
    obtain ⟨num, hnum, hcodes, htotal, -⟩ := limitLengths_of_kraft (by rwa [hfull.length]) h32
      (by rw [hfull.length]; exact hfew.trans hsyms) (by omega) hkraft
    refine ⟨num, hnum, by rw [hcodes, hfull.length], ?_⟩
    rw [htotal, tableKraft, if_neg (by omega), if_neg (by omega)]
  · rw [minred_of_length_le_one (by omega)] at h32 ⊢
    have hrange : ∀ x ∈ List.replicate keys.length 1, 1 ≤ x ∧ x ≤ l + 1 := fun x hx => by
      rw [(List.mem_replicate.1 hx).2]
      omega
    have hsum := fun w : Nat → Nat => (histogram_weighed (show l + 1 ≤ 32 by omega) hrange w).2
    refine ⟨_, limitLengths_of_few (by rw [List.length_replicate]; omega) h32, by rw [hsum]; simp, ?_⟩
    rw [kraftTotal_eq, hsum, List.map_replicate, List.sum_replicate, smul_eq_mul, tableKraft]
    obtain h | h : keys.length = 0 ∨ keys.length = 1 := by omega
    · rw [h, if_pos rfl, Nat.zero_mul]
    · rw [h, if_neg one_ne_zero, if_pos rfl, Nat.one_mul]

/-- Terms that are zero add nothing. -/
theorem sum_map_ite_zero {l : List Nat} {p : Nat → Prop} [DecidablePred p] (w : Nat → Nat) :
    (l.map fun a => if p a then 0 else w a).sum = ((l.filter fun a => decide (¬ p a)).map w).sum := by
  induction l with
  | nil => rfl
  | cons a l ih =>
    by_cases ha : p a
    · rw [List.map_cons, List.sum_cons, ih, if_pos ha, List.filter_cons_of_neg (by simpa using ha), Nat.zero_add]
    · rw [List.map_cons, List.sum_cons, ih, if_neg ha, List.filter_cons_of_pos (by simpa using ha), List.map_cons,
        List.sum_cons]

/-- The code lengths of a valid table with these counts (R189 items 1 to 3). -/
structure ValidSizes (n limit : Nat) (count : Mem 16) (size : Mem 8) : Prop where
  used : ∀ a, Mem.read size a ≠ 0 ↔ a < n ∧ Mem.read count a ≠ 0
  capped : ∀ a, (Mem.read size a).toNat ≤ limit
  kraft : kraftOf size n limit = tableKraft (usedCount count n) limit
  ordered : ∀ a < n, ∀ b < n, Mem.read count b ≠ 0 → (Mem.read count b).toNat < (Mem.read count a).toNat →
    (Mem.read size a).toNat ≤ (Mem.read size b).toNat

/-- In a list ordered by rising keys and falling lengths a symbol of a larger key is not longer. -/
theorem length_le_of_key_lt {len : SymKey → Nat} {l : List SymKey}
    (hkeys : l.Pairwise fun x y => x.key.toNat ≤ y.key.toNat) (hlens : l.Pairwise fun x y => len y ≤ len x) {x y : SymKey}
    (hx : x ∈ l) (hy : y ∈ l) (h : x.key.toNat < y.key.toNat) : len y ≤ len x := by
  obtain ⟨before, after, rfl⟩ := List.append_of_mem hx
  have hk := (List.pairwise_append.1 hkeys).2.2
  have hl := (List.pairwise_append.1 hlens).2.1
  rcases List.mem_append.1 hy with hy | hy
  · have := hk y hy x List.mem_cons_self
    omega
  · rcases List.mem_cons.1 hy with rfl | hy
    · exact le_rfl
    · exact (List.pairwise_cons.1 hl).1 y hy

/-- Lengths dealt to the sorted symbols, one each, their Kraft sum that of a valid table, are valid (R184, R189). -/
theorem assignedSizes_valid {n limit : Nat} {count : Mem 16} {num : List Nat} (hw : Mem.wf count) (hlimit : limit < 256)
    (hall : weighed limit num (fun _ => 1) = (radixSort (collect count n)).length)
    (hkraft : kraftTotal limit num = tableKraft (radixSort (collect count n)).length limit) :
    ValidSizes n limit count (assignedSizes limit (radixSort (collect count n)) num) := by
  rw [← dealtLengths_length] at hall
  obtain ⟨hdealt, hothers⟩ := assignedSizes_dealt hlimit (radixSort_collect_nodup hw n) hall
  set size := assignedSizes limit (radixSort (collect count n)) num with hsize
  have hrange : ∀ x ∈ radixSort (collect count n), 1 ≤ (Mem.read size x.sym).toNat ∧ (Mem.read size x.sym).toNat ≤ limit :=
    fun x hx => mem_dealtLengths (num := num)
      (List.mem_reverse.1 (hdealt ▸ List.mem_map_of_mem (f := fun x => (Mem.read size x.sym).toNat) hx))
  have hmem : ∀ a, a < n ∧ Mem.read count a ≠ 0 → (⟨Mem.read count a, a⟩ : SymKey) ∈ radixSort (collect count n) :=
    fun a ⟨ha, hne⟩ => (mem_radixSort_collect hw).2 ⟨ha, rfl, hne⟩
  have hused : ∀ a, Mem.read size a ≠ 0 ↔ a < n ∧ Mem.read count a ≠ 0 := fun a => by
    rw [← mem_radixSort_collect_sym hw]
    refine ⟨fun h => by_contra fun hnot => h (hothers a hnot), fun h hzero => ?_⟩
    have := (hrange _ (hmem a ((mem_radixSort_collect_sym hw).1 h))).1
    rw [hzero] at this
    exact absurd this (by decide)
  refine ⟨hused, fun a => ?_, ?_, fun a ha b hb hne hlt => ?_⟩
  · by_cases h : a < n ∧ Mem.read count a ≠ 0
    · exact (hrange _ (hmem a h)).2
    · rw [hothers a fun h' => h ((mem_radixSort_collect_sym hw).1 h')]
      exact Nat.zero_le _
  · have hfilter : (List.range n).filter (fun a => decide (¬ Mem.read size a = 0))
        = (List.range n).filter fun a => decide (Mem.read count a ≠ 0) := List.filter_congr fun a ha => by
      rw [decide_eq_decide]
      exact (hused a).trans (and_iff_right (List.mem_range.1 ha))
    rw [usedCount_eq hw, ← hkraft, kraftTotal_eq, ← sum_dealtLengths, ← List.sum_reverse, ← List.map_reverse, ← hdealt,
      List.map_map, kraftOf, sum_map_ite_zero, hfilter, ← ((radixSort_collect_perm hw n).map _).sum_eq, List.map_map]
    rfl
  · have hfalls : (radixSort (collect count n)).Pairwise
        fun x y => (Mem.read size y.sym).toNat ≤ (Mem.read size x.sym).toNat := by
      rw [← List.pairwise_map (f := fun x : SymKey => (Mem.read size x.sym).toNat) (R := fun p q => q ≤ p), hdealt,
        List.pairwise_reverse]
      exact dealtLengths_rises _ _
    have hne' : Mem.read count a ≠ 0 := fun hzero => by
      rw [hzero] at hlt
      exact absurd hlt (Nat.not_lt_zero _)
    exact length_le_of_key_lt (radixSort_sorted _) hfalls (hmem b ⟨hb, hne⟩) (hmem a ⟨ha, hne'⟩) hlt

/-- HUF.BUILD has valid lengths whenever no natural length exceeds 32 (R186, R189). -/
theorem builtSizes_valid {t : Table} {count : Mem 16} (hw : Mem.wf count)
    (h32 : ∀ l ∈ naturalOf count (numSyms t), l ≤ 32) :
    ∃ size, builtSizes t count = some size ∧ Mem.wf size ∧ ValidSizes (numSyms t) (codeLimit t) count size := by
  obtain ⟨num, hnum, hcodes, hkraft⟩ := limitLengths_builds hw h32
  refine ⟨_, ?_, assignedSizes_wf _ _ _, assignedSizes_valid hw (by cases t <;> decide) hcodes hkraft⟩
  rw [builtSizes, hnum]
  exact if_pos (sizeable_of_length (fun x hx => ((mem_radixSort_collect hw).1 hx).1) (by rw [dealtLengths_length, hcodes]))

/-! The codes. -/

theorem tableKraft_le (used limit : Nat) : tableKraft used limit ≤ 2 ^ limit := by
  unfold tableKraft
  split
  · exact Nat.zero_le _
  split
  · exact Nat.pow_le_pow_right (by norm_num) (Nat.sub_le _ _)
  · exact le_rfl

/-- A table of valid lengths has as many lengths as symbols counted. -/
theorem ValidSizes.usedLengths_length {n limit : Nat} {count : Mem 16} {size : Mem 8} (hw : Mem.wf size)
    (h : ValidSizes n limit count size) : (usedLengths n size).length = usedCount count n := by
  have hperm : ((usedSizes n size).map Prod.fst).Perm
      ((List.range n).filter fun a => decide (Mem.read count a ≠ 0)) := by
    refine (List.perm_ext_iff_of_nodup ?_ (List.nodup_range.filter _)).2 fun a => ?_
    · exact (List.Pairwise.map Prod.fst (fun _ _ h => h) (usedSizes_rising hw n)).imp Nat.ne_of_lt
    · rw [List.mem_filter, List.mem_range, decide_eq_true_iff, ← h.used, List.mem_map]
      constructor
      · rintro ⟨c, hc, rfl⟩
        obtain ⟨-, hne, hread⟩ := (mem_usedSizes hw).1 hc
        rwa [hread]
      · exact fun hne => ⟨(a, Mem.read size a), (mem_usedSizes hw).2 ⟨((h.used a).1 hne).1, hne, rfl⟩, rfl⟩
  rw [usedLengths, List.length_map, usedCount, ← hperm.length_eq, List.length_map]

/-- A single symbol has one bit (R188). -/
theorem ValidSizes.usedLengths_of_single {n limit : Nat} {count : Mem 16} {size : Mem 8} (hw : Mem.wf size)
    (h : ValidSizes n limit count size) (hone : usedCount count n = 1) : usedLengths n size = [1] := by
  obtain ⟨l, hl⟩ := List.length_eq_one_iff.1 ((h.usedLengths_length hw).trans hone)
  obtain ⟨c, hc, hcl⟩ := List.mem_map.1 (hl ▸ List.mem_singleton_self l : l ∈ usedLengths n size)
  obtain ⟨-, hne, hread⟩ := (mem_usedSizes hw).1 hc
  have hpos : c.2.toNat ≠ 0 := fun hzero => hne (BitVec.eq_of_toNat_eq hzero)
  have hcap := h.capped c.1
  have hkraft := kraft_usedLengths hw n limit
  rw [h.kraft, hone, tableKraft, if_neg one_ne_zero, if_pos rfl, hl, List.map_singleton, List.sum_singleton] at hkraft
  have hbits := Nat.pow_right_injective (le_refl 2) hkraft
  rw [hread] at hcap
  rw [hl, show l = 1 by omega]

/-- A single symbol has the code 0 (R188). -/
theorem ValidSizes.code_of_single {n limit : Nat} {count : Mem 16} {size : Mem 8} (hw : Mem.wf size)
    (hlimit : 1 ≤ limit ∧ limit ≤ 15) (h : ValidSizes n limit count size) (hone : usedCount count n = 1) (a : Nat) :
    Mem.read (assignedCodes n limit size) a = 0 := by
  by_cases hne : Mem.read size a = 0
  · exact read_assignedCodes_unused hw (Or.inr hne)
  · have ha := ((h.used a).1 hne).1
    have hlengths := h.usedLengths_of_single hw hone
    have hmem : (Mem.read size a).toNat ∈ usedLengths n size :=
      List.mem_map.2 ⟨(a, Mem.read size a), (mem_usedSizes hw).2 ⟨ha, hne, rfl⟩, rfl⟩
    have hcode := codeOf_lt hw ha hne
    rw [hlengths] at hmem hcode
    rw [List.mem_singleton.1 hmem] at hcode
    have hzero : codeOf n size a = 0 := Nat.lt_one_iff.1 hcode
    obtain ⟨-, hread⟩ := read_assignedCodes hw hlimit (fun b _ => h.capped b)
      (by rw [h.kraft]; exact tableKraft_le _ _) ha hne
    refine BitVec.eq_of_toNat_eq ?_
    rw [hread, hzero, List.mem_singleton.1 hmem]
    rfl

/-- Settles O31: the lengths dealt are valid, and their Kraft sum makes a code of them in which none is the start of another. -/
theorem hufBuildValid : Obligations.HufBuildValid := by
  unfold Obligations.HufBuildValid
  intro t s hrun hw h32
  obtain ⟨size, hsize, hwsize, hvalid⟩ := builtSizes_valid hw h32
  obtain ⟨w, hbuild⟩ := opHufBuild_of_sizes (s := s) hsize
  have hlimit : 1 ≤ codeLimit t ∧ codeLimit t ≤ 15 := by cases t <;> decide
  obtain ⟨-, hfits, hapart, hrises⟩ := assignedCodes_startFree (n := numSyms t) hwsize hlimit
    (fun a _ => hvalid.capped a) (by rw [hvalid.kraft]; exact tableKraft_le _ _)
  refine ⟨size, _, w, exec_of_running rfl hbuild hrun, fun a ha => ?_, hvalid.capped, hvalid.kraft, hvalid.ordered,
    fun a => ?_, fun hone a => ?_, hapart, hrises⟩ <;> dsimp only
  · have hiff := not_iff_not.2 (hvalid.used a)
    rw [not_and_or, not_not, not_not] at hiff
    refine ⟨fun hzero => (hiff.1 (BitVec.eq_of_toNat_eq hzero)).resolve_left (not_not.2 ha), fun hzero => ?_⟩
    rw [hiff.2 (Or.inr hzero)]
    rfl
  · by_cases ha : a < numSyms t
    · exact hfits a ha
    · rw [read_assignedCodes_unused hwsize (Or.inl (Nat.not_lt.1 ha))]
      exact Nat.two_pow_pos _
  · rw [hvalid.code_of_single hwsize hlimit hone a]
    rfl

end Sys2Proof.Proofs.HuffmanUnit

/-! The Huffman family: in forced-raw mode the parse records every byte of the input as a literal. -/

namespace Sys2Proof.Proofs.RawStream

open Sys2Proof Sys2Proof.Machine Sys2Proof.Laws Sys2Proof.Proofs.HostCalls

/-- In forced-raw mode, `s` being reached in the call begun as `b`: `f` bytes of the input have been filled in, the first
`j` of them parsed, each recorded as a literal and counted (R255, R256, R260 to R263). -/
structure RawParsed (b : State) (j f : Nat) (s : State) : Prop where
  running : s.halt = none
  host : s.host = b.host
  enc : s.enc = b.enc
  ctl : s.ctl = { b.ctl with adler32 := s.ctl.adler32 }
  call : s.call = { b.call with srcPos := BitVec.ofNat 32 f }
  ahead : j ≤ f ∧ f ≤ j + 258 ∧ f ≤ b.call.inLen.toNat
  pos : s.drv.lookaheadPos.toNat = j
  size : s.drv.lookaheadSize.toNat = f - j
  history : s.drv.dictSize.toNat = j
  inserted : s.drv.insPos.toNat ≤ j
  start : s.drv.blockStartPos = 0
  held : s.drv.savedLen = 0
  pending : s.drv.flushRemaining = 0
  dict : Mem.wf s.win.dict
  bytes : ∀ i < f, Mem.read s.win.dict i = Mem.read b.host.inSlice i
  records : s.lz.lzCodeLen.toNat = j ∧ s.lz.lzOpCount.toNat = j ∧ s.lz.totalLzBytes.toNat = j
  counts : Mem.wf s.huf.litLen.count ∧ ∀ a, Mem.read s.huf.litLen.count a
    = BitVec.ofNat 16 ((Mem.readRun b.host.inSlice 0 j).countP fun v => v.toNat == a)
  distances : s.huf.dist.count = []

namespace RawParsed

variable {b s : State} {j f : Nat}

/-- The checksum is no part of it. -/
theorem checksum (h : RawParsed b j f s) (x : BitVec 32) : RawParsed b j f (s.setCtl { s.ctl with adler32 := x }) where
  __ := h
  ctl := by rw [setCtl_ctl, h.ctl]

section
variable (hsmall : b.call.inLen.toNat ≤ 31744)
include hsmall

theorem srcPos_toNat (h : RawParsed b j f s) : s.call.srcPos.toNat = f := by
  have := h.ahead
  rw [h.call, BitVec.toNat_ofNat]
  omega

theorem srcLeft_eq (h : RawParsed b j f s) : srcLeft s = b.call.inLen.toNat - f := by
  rw [srcLeft, h.srcPos_toNat hsmall, h.call]

/-- A byte filled in (R256). -/
theorem byteFilled (h : RawParsed b j f s) (hleft : f < b.call.inLen.toNat) (hroom : f < j + 258) :
    RawParsed b j (f + 1) (fillOne s) := by
  obtain ⟨hjf, -, -⟩ := h.ahead
  have hsrc := h.srcPos_toNat hsmall
  obtain ⟨u, hu⟩ : ∃ u, ((s.setCall { s.call with srcPos := s.call.srcPos + 1 }).setWin { s.win with
      dict := windowWrite s.win.dict (s.drv.lookaheadPos + s.drv.lookaheadSize.setWidth 32)
        (Mem.read s.host.inSlice s.call.srcPos.toNat) }).setDrv
      { s.drv with lookaheadSize := s.drv.lookaheadSize + 1 } = u := ⟨_, rfl⟩
  have hfill : fillOne s = if u.ctl.writeZlibHeader || u.ctl.computeAdler32
      then opDrvAdler (Mem.read s.host.inSlice s.call.srcPos.toNat) u else u := by rw [← hu]; rfl
  have hslot : slotOf (s.drv.lookaheadPos + s.drv.lookaheadSize.setWidth 32) = f := by
    rw [slotOf_eq, BitVec.toNat_add, BitVec.toNat_setWidth, h.pos, h.size]
    omega
  have hparsed : RawParsed b j (f + 1) u := by
    subst hu
    exact { h with
      call := by
        show ({ s.call with srcPos := s.call.srcPos + 1 } : CallRegs) = _
        rw [h.call, BitVec.ofNat_add]
        rfl
      ahead := by omega
      size := by
        show (s.drv.lookaheadSize + 1).toNat = _
        rw [BitVec.toNat_add, h.size, show (1 : BitVec 9).toNat = 1 from rfl]
        omega
      dict := windowWrite_wf h.dict _ _
      bytes := fun i hi => by
        show Mem.read (windowWrite _ _ _) i = _
        rw [read_windowWrite h.dict, hslot, hsrc, h.host]
        by_cases hlast : i = f
        · rw [if_pos (Or.inl hlast), hlast]
        · rw [if_neg (by omega), h.bytes i (by omega)] }
  rw [hfill]
  split
  · exact hparsed.checksum _
  · exact hparsed

theorem bytesFilled (k : Nat) (h : RawParsed b j f s) (hleft : f + k ≤ b.call.inLen.toNat) (hroom : f + k ≤ j + 258) :
    RawParsed b j (f + k) (fillBytes k s) := by
  induction k generalizing f s with
  | zero => exact h
  | succ k ih =>
    have hnext := ih (h.byteFilled hsmall (by omega) (by omega)) (by omega) (by omega)
    rwa [show f + (k + 1) = f + 1 + k by omega]

/-- DRV.FILL (R256): the window is large enough for the whole input. -/
theorem filled (h : RawParsed b j f s) (hmore : j < b.call.inLen.toNat) :
    ∃ f', j < f' ∧ RawParsed b j f' (opDrvFill s) := by
  obtain ⟨hjf, hahead, hwithin⟩ := h.ahead
  have hleft := h.srcLeft_eq hsmall
  have hsize := h.size
  obtain ⟨k, hk⟩ : ∃ k, min (srcLeft s) (Config.maxMatch - s.drv.lookaheadSize.toNat) = k := ⟨_, rfl⟩
  have hmax : Config.maxMatch = 258 := rfl
  rw [hleft, hmax, hsize] at hk
  have hfilled := h.bytesFilled hsmall k (by omega) (by omega)
  refine ⟨f + k, by omega, ?_⟩
  rw [opDrvFill, hleft, hmax, hsize, hk]
  exact { hfilled with
    history := by
      show (BitVec.ofNat 16 (min (Config.windowSize - (fillBytes k s).drv.lookaheadSize.toNat)
        (fillBytes k s).drv.dictSize.toNat)).toNat = j
      rw [hfilled.size, hfilled.history, BitVec.toNat_ofNat, show Config.windowSize = 32768 from rfl]
      omega }

/-- DRV.CATCHUP inserts positions whose bytes are filled in (R258). -/
theorem caughtUp (k : Nat) (h : RawParsed b j f s) : RawParsed b j f (catchupLoop k s) := by
  induction k generalizing s with
  | zero => exact h
  | succ k ih =>
    unfold catchupLoop
    dsimp only
    split
    case isTrue hlag =>
      obtain ⟨hjf, hahead, hwithin⟩ := h.ahead
      have hins := h.inserted
      have hpos := h.pos
      have hsize := h.size
      rw [BitVec.toNat_sub] at hlag
      have hinsertable : insertable s.drv.insPos s = true := by
        rw [insertable_iff, BitVec.toNat_sub, BitVec.toNat_add, BitVec.toNat_setWidth]
        omega
      rw [opDictInsert, if_pos hinsertable]
      refine ih { h with
        inserted := ?_ }
      show (s.drv.insPos + 1).toNat ≤ j
      rw [BitVec.toNat_add, show (1 : BitVec 32).toNat = 1 from rfl]
      omega
    case isFalse => exact h

end

end RawParsed

/-- In forced-raw mode DRV.PARSE_STEP records the byte at the front of the lookahead (R260, R262). -/
theorem opDrvParseStep_raw {s : State} (hraw : s.ctl.forceRaw = true) (hheld : s.drv.savedLen = 0)
    (hahead : s.drv.lookaheadSize ≠ 0) :
    opDrvParseStep s = advance 1 (opRecLit (winByte s.win.dict s.drv.lookaheadPos) s) := by
  have hselect : selectCandidate s = (s, 0, 2) := by
    rw [selectCandidate, hraw, Bool.or_true, if_pos rfl, if_neg (by simp), hheld]
    rfl
  have hfilter : ∃ len, filterCandidate s.ctl 0 2 = (0, len) := by
    unfold filterCandidate
    split
    · exact ⟨0, rfl⟩
    · exact ⟨2, rfl⟩
  obtain ⟨len, hlen⟩ := hfilter
  rw [opDrvParseStep, if_neg hahead, hselect]
  dsimp only
  rw [hlen, decideStep, if_neg (not_not.2 hheld), if_pos rfl]

theorem readRun_succ_right {w : Nat} (m : Mem w) (a n : Nat) :
    Mem.readRun m a (n + 1) = Mem.readRun m a n ++ [Mem.read m (a + n)] := readRun_add m a n 1

namespace RawParsed

variable {b s : State} {j f : Nat}

section
variable (hsmall : b.call.inLen.toNat ≤ 31744) (hraw : b.ctl.forceRaw = true)
include hsmall hraw

/-- DRV.PARSE_STEP records one more literal (R160, R262, R263). -/
theorem stepped (h : RawParsed b j f s) (hmore : j < f) : RawParsed b (j + 1) f (opDrvParseStep s) := by
  obtain ⟨hjf, hahead, hwithin⟩ := h.ahead
  obtain ⟨hcode, hops, htotal⟩ := h.records
  obtain ⟨hwcount, hcount⟩ := h.counts
  have hpos := h.pos
  have hsize := h.size
  have hbyte : winByte s.win.dict s.drv.lookaheadPos = Mem.read b.host.inSlice j := by
    rw [winByte, slotOf_eq, hpos, Nat.mod_eq_of_lt (by omega), h.bytes j hmore]
  have hrecord : opRecLit (winByte s.win.dict s.drv.lookaheadPos) s = countSym .litLen (Mem.read b.host.inSlice j).toNat
      (s.setLz (appendRecord s.lz [Mem.read b.host.inSlice j] false 1)) := by
    rw [hbyte, opRecLit, if_pos ((Dictionary.recordable_iff s).2 (by omega))]
  have hstepped := opDrvParseStep_raw (s := s) (by rw [h.ctl]; exact hraw) h.held fun hzero => by
    rw [hzero] at hsize
    change 0 = f - j at hsize
    omega
  rw [hstepped, hrecord]
  exact { h with
    ahead := by omega
    pos := by
      show (s.drv.lookaheadPos + BitVec.ofNat 32 1).toNat = j + 1
      rw [BitVec.toNat_add, BitVec.toNat_ofNat]
      omega
    size := by
      show (s.drv.lookaheadSize - BitVec.ofNat 9 1).toNat = f - (j + 1)
      rw [BitVec.toNat_sub, BitVec.toNat_ofNat]
      omega
    history := by
      show (BitVec.ofNat 16 (min (s.drv.dictSize.toNat + 1) Config.windowSize)).toNat = j + 1
      rw [h.history, BitVec.toNat_ofNat, show Config.windowSize = 32768 from rfl]
      omega
    inserted := h.inserted.trans (Nat.le_succ j)
    records := by
      refine ⟨?_, ?_, ?_⟩
      · show (s.lz.lzCodeLen + BitVec.ofNat 17 1).toNat = j + 1
        rw [BitVec.toNat_add, BitVec.toNat_ofNat]
        omega
      · show (s.lz.lzOpCount + 1).toNat = j + 1
        rw [BitVec.toNat_add, show (1 : BitVec 17).toNat = 1 from rfl]
        omega
      · show (s.lz.totalLzBytes + BitVec.ofNat 32 1).toNat = j + 1
        rw [BitVec.toNat_add, BitVec.toNat_ofNat]
        omega
    counts := by
      refine ⟨bump_wf hwcount _, fun a => ?_⟩
      show Mem.read (bump s.huf.litLen.count (Mem.read b.host.inSlice j).toNat) a = _
      rw [read_bump hwcount, hcount, readRun_succ_right, Nat.zero_add, List.countP_append, List.countP_singleton,
        BitVec.ofNat_add]
      by_cases ha : a = (Mem.read b.host.inSlice j).toNat
      · rw [if_pos ha, if_pos (by simp [ha])]
        rfl
      · rw [if_neg ha, if_neg (by simpa using fun h => ha h.symm)]
        rfl }

/-- The parse loop records the whole input and closes no block (R255, R264). -/
theorem parsed (k : Nat) (h : RawParsed b j f s) (hk : j + k = b.call.inLen.toNat) :
    RawParsed b b.call.inLen.toNat b.call.inLen.toNat (parseLoop .finish k s) := by
  induction k generalizing j f s with
  | zero =>
    obtain ⟨hjf, -, hwithin⟩ := h.ahead
    obtain rfl : j = b.call.inLen.toNat := hk
    obtain rfl : f = b.call.inLen.toNat := le_antisymm hwithin hjf
    exact h
  | succ k ih =>
    have hmore : parseMore .finish s = true := by
      have hleft := h.srcLeft_eq hsmall
      have hsize := h.size
      have hahead := h.ahead
      simp only [parseMore, Bool.or_eq_true, Bool.and_eq_true, decide_eq_true_eq]
      by_cases hin : f < b.call.inLen.toNat
      · exact Or.inl (by omega)
      · exact Or.inr ⟨rfl, by omega⟩
    obtain ⟨f', hf', hfilled⟩ := h.filled hsmall (by omega)
    have hcaught : RawParsed b j f' (opDrvCatchup (opDrvFill s)) := hfilled.caughtUp hsmall _
    have hstepped := hcaught.stepped hsmall hraw hf'
    have hopen : closeDue (opDrvParseStep (opDrvCatchup (opDrvFill s))) = false := by
      obtain ⟨hcode, -, htotal⟩ := hstepped.records
      have hahead := hstepped.ahead
      simp only [closeDue, Bool.or_eq_false_iff, Bool.and_eq_false_iff, decide_eq_false_iff_not, Config.lzCloseThreshold,
        Config.rawBlockLimit]
      exact ⟨by rw [hcode]; omega, Or.inr (by rw [htotal]; omega)⟩
    rw [parseLoop, if_pos hmore]
    dsimp only
    rw [if_neg (by simp), hopen, if_neg Bool.false_ne_true]
    exact ih hstepped (by omega)

end

end RawParsed

end Sys2Proof.Proofs.RawStream

/-! The Huffman family: in forced-raw mode the block is stored and delivered verbatim. -/

namespace Sys2Proof.Proofs.RawStream

open Sys2Proof Sys2Proof.Machine Sys2Proof.Laws Sys2Proof.Proofs.HostCalls Sys2Proof.Proofs.Encoding
  Sys2Proof.Proofs.LengthLimit Sys2Proof.Proofs.CodeLengthPlan Sys2Proof.Proofs.HuffmanUnit

/-! Bytes in the output. -/

theorem bytesValue_injective {xs ys : List (BitVec 8)} (hlen : xs.length = ys.length)
    (h : bytesValue xs = bytesValue ys) : xs = ys := by
  induction xs generalizing ys with
  | nil => exact (List.length_eq_zero_iff.1 hlen.symm).symm
  | cons x xs ih =>
    obtain ⟨y, ys, rfl⟩ := List.exists_cons_of_length_eq_add_one (hlen.symm.trans (List.length_cons ..))
    have hx := x.isLt
    have hy := y.isLt
    simp only [bytesValue] at h
    rw [ih (Nat.succ_injective hlen) (by omega), BitVec.eq_of_toNat_eq (show x.toNat = y.toNat by omega)]

/-- Fields that make up whole bytes leave these bytes in `stage` (R67). -/
theorem readRun_of_appended {e e' : Encoder} {fs : List Field} {bytes : List (BitVec 8)} (h : e.Appended fs e')
    (hbits : e.bitsIn.toNat = 0) (hempty : e.bitBuffer.toNat = 0) (hcount : bitCount fs = 8 * bytes.length)
    (hvalue : bitValue fs = bytesValue bytes) : Mem.readRun e'.stage e.stagePos.toNat bytes.length = bytes := by
  have hwhole : wholeBytes e fs = bytes.length := by
    rw [wholeBytes, hbits, hcount]
    omega
  have hrest : e'.bitBuffer.toNat = 0 := by
    have hsmall := h.small
    rw [h.bits, hbits, hcount, Nat.zero_add, Nat.mul_mod_right, pow_zero] at hsmall
    omega
  have hv := h.value
  rw [hwhole, hrest, hbits, hempty, hvalue] at hv
  exact bytesValue_injective (readRun_length _ _ _) (by simpa using hv)

/-- Bytes as fields have the value of the bytes. -/
theorem bitValue_bytes (bytes : List (BitVec 8)) : bitValue (bytes.map fun v => (v.toNat, 8)) = bytesValue bytes := by
  induction bytes with
  | nil => rfl
  | cons v bytes ih =>
    rw [List.map_cons, bitValue_cons, ih]
    rfl

theorem bitCount_bytes (bytes : List (BitVec 8)) : bitCount (bytes.map fun v => (v.toNat, 8)) = 8 * bytes.length := by
  induction bytes with
  | nil => rfl
  | cons v bytes ih =>
    rw [List.map_cons, bitCount_cons, ih, List.length_cons]
    omega

/-- The bytes of a final stored block that begins at a byte boundary (R102, R103). -/
def storedBlock (data : List (BitVec 8)) : List (BitVec 8) :=
  [1#8, BitVec.ofNat 8 data.length, BitVec.ofNat 8 (data.length / 256), BitVec.ofNat 8 (255 - data.length % 256),
    BitVec.ofNat 8 (255 - data.length / 256)] ++ data

/-- Its fields: `BFINAL`, the stored block, and the padding after it (R103, R217, R221). -/
def storedBlockFields (data : List (BitVec 8)) : List Field :=
  [(1, 1)] ++ storedFields 1 (data.map BitVec.toNat) ++ [(0, 0)]

theorem bitCount_storedBlockFields (data : List (BitVec 8)) :
    bitCount (storedBlockFields data) = 8 * (storedBlock data).length := by
  simp only [storedBlockFields, storedFields, List.map_map, bitCount_append, Function.comp_def, bitCount_bytes, storedBlock,
    padBits, bitCount_cons, bitCount_nil, List.length_append, List.length_cons, List.length_nil]
  omega

theorem bitValue_storedBlockFields {data : List (BitVec 8)} (hlen : data.length < 65536) :
    bitValue (storedBlockFields data) = bytesValue (storedBlock data) := by
  have hheader : ∀ n v : Nat, n < 65536 → 1 + 2 * (0 + 4 * (0 + 32 * (n % 65536 + 65536 *
      (65535 - n % 65536 + 65536 * v)))) = 1 + 256 * (n % 256 + 256 * (n / 256 % 256 + 256 * ((255 - n % 256) % 256
        + 256 * ((255 - n / 256) % 256 + 256 * v)))) := fun n v h => by omega
  have hfields : bitValue (storedBlockFields data) = 1 + 2 * (0 + 4 * (0 + 32 * (data.length % 65536 + 65536 *
      (65535 - data.length % 65536 + 65536 * bytesValue data)))) := by
    simp only [storedBlockFields, storedFields, List.map_map, List.length_map, Function.comp_def, padBits, bitValue_append,
      bitValue_bytes, bitValue_cons, bitValue_nil, List.cons_append, List.nil_append]
    simp
  rw [hfields, hheader _ _ hlen]
  simp only [storedBlock, List.cons_append, List.nil_append, bytesValue, BitVec.toNat_ofNat]

/-! The block staged. -/

/-- The start of DRV.CLOSE_BLOCK: the head is appended to an empty `stage`, EOB is counted (R265). -/
theorem closeStart_appends {s : State} (fl : FlushMode)
    (ht : ({ s.enc with stagePos := 0 } : Encoder).TakesBits (headFields s fl)) :
    ∃ e, closeStart fl s = ((s.setEnc e).setDrv { s.drv with flushOfs := 0 }).setTable .litLen
        { s.huf.litLen with count := Mem.write s.huf.litLen.count 256 1 }
      ∧ ({ s.enc with stagePos := 0 } : Encoder).Appended (headFields s fl) e := by
  obtain ⟨e, he, ha⟩ := head_emits
    (s := (s.setEnc { s.enc with stagePos := 0 }).setDrv { s.drv with flushOfs := 0 }) fl ht
  refine ⟨e, ?_, ha⟩
  unfold closeStart
  dsimp only
  rw [he]
  rfl

/-- HUF.BUILD on canonical counts whose natural lengths are at most 32 completes, its lengths at most 15 (R186, R189). -/
theorem opHufBuild_completes {t : Table} {s : State} (hw : Mem.wf (s.huf.get t).count)
    (h32 : ∀ l ∈ naturalLengths t s, l ≤ 32) :
    ∃ h w, opHufBuild t s = (s.setTable t h).setWork w ∧ ∀ a, (Mem.read h.size a).toNat < 16 := by
  obtain ⟨size, hsize, -, hvalid⟩ := builtSizes_valid hw h32
  obtain ⟨w, hbuild⟩ := opHufBuild_of_sizes (s := s) hsize
  have hlimit : codeLimit t < 16 := by cases t <;> decide
  exact ⟨_, w, hbuild, fun a => (hvalid.capped a).trans_lt hlimit⟩

/-- ENC.CL_PLAN on lengths of at most 15 completes (R214). -/
theorem opEncClPlan_completes {s : State} (hlit : ∀ a, (Mem.read s.huf.litLen.size a).toNat < 16)
    (hdist : ∀ a, (Mem.read s.huf.dist.size a).toNat < 16) :
    ∃ h w, opEncClPlan s = (s.setTable .codeLen h).setWork w := by
  obtain ⟨p, hp⟩ : ∃ p, packLengths (lengthSequence s.huf (trimCodes s.huf.litLen.size 257 286)
      (trimCodes s.huf.dist.size 1 30)) = p := ⟨_, rfl⟩
  obtain ⟨-, -, hcounted, -⟩ := packLengths_spec (seq := lengthSequence s.huf (trimCodes s.huf.litLen.size 257 286)
      (trimCodes s.huf.dist.size 1 30)) fun cs hcs => by
    rw [lengthSequence_eq] at hcs
    rcases List.mem_append.1 hcs with hcs | hcs
    · obtain ⟨a, -, rfl⟩ := List.mem_map.1 hcs
      exact hlit a
    · obtain ⟨a, -, rfl⟩ := List.mem_map.1 hcs
      exact hdist a
  rw [hp] at hcounted
  obtain ⟨size, hsize, -⟩ := builtSizes_complete (t := .codeLen) hcounted.1 (naturalOf_le hcounted.1 (by decide))
  exact opEncClPlan_of_sizes (by rw [hp]; exact hsize)

/-- The tables, the plan and the costs complete on canonical counts when the natural literal/length code lengths are at most
32; a distance code of 32 symbols has none longer (R183, R265). -/
theorem closePlan_completes {s : State} (hlit : Mem.wf s.huf.litLen.count) (hdist : Mem.wf s.huf.dist.count)
    (h32 : ∀ l ∈ naturalOf s.huf.litLen.count 288, l ≤ 32) : ∃ h w, closePlan s = (s.setHuf h).setWork w := by
  obtain ⟨l, w1, h1, hlsize⟩ := opHufBuild_completes (t := .litLen) hlit h32
  obtain ⟨d, w2, h2, hdsize⟩ := opHufBuild_completes (t := .dist) (s := (s.setTable .litLen l).setWork w1) hdist
    (naturalOf_le hdist (by decide))
  obtain ⟨c, w3, h3⟩ := opEncClPlan_completes
    (s := (((s.setTable .litLen l).setWork w1).setTable .dist d).setWork w2) hlsize hdsize
  exact ⟨_, _, by rw [closePlan, h1, h2, h3]; rfl⟩

/-- ENC.STORED appends a stored block's fields (R217). -/
theorem opEncStored_appends {s : State} {bytes : List Nat} (hrun : s.halt = none)
    (hbytes : ((List.range s.lz.totalLzBytes.toNat).map fun i =>
      (winByte s.win.dict (s.drv.blockStartPos + BitVec.ofNat 32 i)).toNat) = bytes)
    (ht : s.enc.TakesBits (storedFields s.enc.bitsIn.toNat bytes)) :
    Emits (storedFields s.enc.bitsIn.toNat bytes) s (opEncStored s) := by
  have happends := storedAppends
  unfold Obligations.StoredAppends at happends
  subst hbytes
  obtain ⟨e, hexec, happ⟩ := happends s hrun ht
  exact ⟨e, (settle_eq_next.1 hexec).2.symm, happ⟩

/-- The last block of a stream without header in forced-raw mode, its bytes `data` all in the window: a stored block is
staged, whatever the tables of its symbols are (R216, R217, R265). -/
theorem stageBlock_raw {s : State} {data : List (BitVec 8)} (hrun : s.halt = none) (hlit : Mem.wf s.huf.litLen.count)
    (hdist : Mem.wf s.huf.dist.count) (h32 : ∀ l ∈ naturalOf (Mem.write s.huf.litLen.count 256 1) 288, l ≤ 32)
    (hraw : s.ctl.forceRaw = true) (hheader : s.ctl.writeZlibHeader = false) (hok : storedOk s = true)
    (hdata : ((List.range s.lz.totalLzBytes.toNat).map fun i =>
      (winByte s.win.dict (s.drv.blockStartPos + BitVec.ofNat 32 i)).toNat) = data.map BitVec.toNat)
    (hbits : s.enc.bitsIn.toNat = 0)
    (ht : ({ s.enc with stagePos := 0 } : Encoder).TakesBits (storedBlockFields data)) :
    (stageBlock .finish s).halt = none
    ∧ ({ s.enc with stagePos := 0 } : Encoder).Appended (storedBlockFields data) (stageBlock .finish s).enc := by
  have hhead : headFields s .finish = [(1, 1)] := by rw [headFields, hheader]; rfl
  obtain ⟨e1, hstart, happ1⟩ := closeStart_appends (s := s) .finish (by rw [hhead]; exact takes_left (takes_left ht))
  rw [hhead] at happ1
  obtain ⟨h, w, hplan⟩ := closePlan_completes (s := closeStart .finish s) (by rw [hstart]; exact write_wf hlit _ _)
    (by rw [hstart]; exact hdist) (by rw [hstart]; exact h32)
  obtain ⟨x, hx⟩ : ∃ x, ((closeStart .finish s).setHuf h).setWork w = x := ⟨_, rfl⟩
  rw [hx] at hplan
  have hxenc : x.enc = e1 := by rw [← hx, hstart]; rfl
  have hxctl : x.ctl = s.ctl := by rw [← hx, hstart]; rfl
  have hxrun : x.halt = none := by rw [← hx, hstart]; exact hrun
  have hchoose : chooseType x = .stored := by
    have hxok : storedOk x = true := by rw [← hx, hstart]; exact hok
    rw [chooseType, hxctl, hraw, hxok]
    rfl
  have hone : x.enc.bitsIn.toNat = 1 := by
    rw [hxenc, happ1.bits]
    simp [hbits]
  obtain ⟨e2, hbody, happ2⟩ := opEncStored_appends (s := x) (bytes := data.map BitVec.toNat) hxrun
    (by rw [← hx, hstart]; exact hdata) (by rw [hone, hxenc]; exact takes_right (takes_left ht) happ1)
  rw [hone, hxenc] at happ2
  have happ12 := appended_trans happ1 happ2
  have hzero : e2.bitsIn.toNat = 0 := by
    have hcount := bitCount_storedBlockFields data
    rw [storedBlockFields, bitCount_append] at hcount
    rw [happ12.bits, show ({ s.enc with stagePos := 0 } : Encoder).bitsIn.toNat = 0 from hbits]
    simp only [bitCount_cons, bitCount_nil] at hcount
    omega
  have htrailer : ((0, padBits 0) :: trailerFields (x.setEnc e2).ctl : List Field) = [(0, 0)] := by
    rw [setEnc_ctl, hxctl, trailerFields, hheader]
    rfl
  obtain ⟨e3, htail, happ3⟩ := opEncTrailer_emits (s := x.setEnc e2) (b := 0) hzero
    (by rw [htrailer]; exact takes_right ht happ12)
  rw [htrailer] at happ3
  have hall : stageBlock .finish s = closeBooks (x.setEnc e3) := by
    rw [stageBlock, hplan, hchoose]
    simp only [encodeBlock, closeTail]
    rw [hbody, htail, setEnc_setEnc]
  rw [hall]
  exact ⟨hxrun, appended_trans happ12 happ3⟩

/-! The call. -/

/-- The counts of a block of literals with its EOB (R160, R265). -/
theorem write_eob_counts {count : Mem 16} {bytes : List (BitVec 8)} (hw : Mem.wf count)
    (h : ∀ a, Mem.read count a = BitVec.ofNat 16 (bytes.countP fun v => v.toNat == a)) :
    Mem.write count 256 1 = literalCounts bytes := by
  refine wf_ext (write_wf hw _ _) (tabulate_wf _ _) fun a => ?_
  rw [read_write hw, literalCounts, read_tabulate]
  by_cases heob : a = 256
  · rw [if_pos heob, if_pos (by omega), if_pos heob]
  · rw [if_neg heob, if_neg heob, h]
    by_cases hsym : a < 288
    · rw [if_pos hsym]
    · have hnone : (bytes.countP fun v => v.toNat == a) = 0 := List.countP_eq_zero.2 fun v _ hv => by
        have := v.isLt
        have := beq_iff_eq.1 hv
        omega
      rw [if_neg hsym, hnone]
      rfl

/-- The bytes of the block are the input's (R256, R265). -/
theorem RawParsed.blockBytes {b s : State} {n : Nat} (h : RawParsed b n n s) (hn : n ≤ 31744) :
    ((List.range s.lz.totalLzBytes.toNat).map fun i =>
      (winByte s.win.dict (s.drv.blockStartPos + BitVec.ofNat 32 i)).toNat)
      = (Mem.readRun b.host.inSlice 0 n).map BitVec.toNat := by
  rw [h.records.2.2, readRun_eq_map, List.map_map, h.start]
  refine List.map_congr_left fun i hi => ?_
  have hi := List.mem_range.1 hi
  have hslot : slotOf (0 + BitVec.ofNat 32 i) = i := by
    rw [slotOf_eq, zero_add, BitVec.toNat_ofNat]
    omega
  rw [winByte, hslot, h.bytes i hi, Function.comp_apply, Nat.zero_add]

/-- A call in forced-raw mode on a new stream without header: the whole input is taken, the room is enough. -/
structure RawCall (b : State) : Prop where
  start : RawParsed b 0 0 b
  small : b.call.inLen.toNat ≤ 31744
  raw : b.ctl.forceRaw = true
  header : b.ctl.writeZlibHeader = false
  slice : b.ctl.sinkMode = false
  okay : b.ctl.prevStatus = .okay
  unfinished : b.ctl.finished = false
  bits : b.enc.bitsIn.toNat = 0
  buffer : b.enc.bitBuffer.toNat = 0
  stage : Mem.wf b.enc.stage
  output : Mem.wf b.host.outSlice
  outOfs : b.call.outOfs = 0
  room : b.call.inLen.toNat + 5 ≤ b.call.outCap.toNat
  lengths : ∀ l ∈ naturalOf (literalCounts (Mem.readRun b.host.inSlice 0 b.call.inLen.toNat)) 288, l ≤ 32

namespace RawCall

variable {b p : State} (hb : RawCall b)
include hb

/-- An empty `stage` has room for the block. -/
theorem takes : ({ b.enc with stagePos := 0 } : Encoder).TakesBits
    (storedBlockFields (Mem.readRun b.host.inSlice 0 b.call.inLen.toNat)) := by
  have hsmall := hb.small
  have hlt : b.enc.bitBuffer.toNat < 2 ^ b.enc.bitsIn.toNat := by
    rw [hb.buffer, hb.bits]
    exact Nat.one_pos
  refine ⟨⟨hb.bits.le.trans (Nat.zero_le 7), hlt⟩, hb.stage, ?_⟩
  have hwhole : wholeBytes { b.enc with stagePos := 0 }
      (storedBlockFields (Mem.readRun b.host.inSlice 0 b.call.inLen.toNat)) = b.call.inLen.toNat + 5 := by
    rw [wholeBytes, bitCount_storedBlockFields, show ({ b.enc with stagePos := 0 } : Encoder).bitsIn.toNat = 0 from hb.bits]
    simp [storedBlock]
  rw [hwhole, show ({ b.enc with stagePos := 0 } : Encoder).stagePos.toNat = 0 from rfl,
    show Config.outStageSize = 85196 from rfl]
  omega

/-- The block at the end of the call, staged (R265). -/
theorem staged (hp : RawParsed b b.call.inLen.toNat b.call.inLen.toNat p) :
    (stageBlock .finish p).halt = none
    ∧ ({ b.enc with stagePos := 0 } : Encoder).Appended
      (storedBlockFields (Mem.readRun b.host.inSlice 0 b.call.inLen.toNat)) (stageBlock .finish p).enc := by
  have hsmall := hb.small
  have hok : storedOk p = true := by
    rw [storedOk, decide_eq_true_iff, hp.start, hp.history, sub_zero, hp.pos]
  rw [← hp.enc]
  refine stageBlock_raw hp.running hp.counts.1 (by rw [hp.distances]; exact wf_nil) ?_ (by rw [hp.ctl]; exact hb.raw)
    (by rw [hp.ctl]; exact hb.header) hok (hp.blockBytes hsmall) (by rw [hp.enc]; exact hb.bits)
    (by rw [hp.enc]; exact hb.takes)
  rw [write_eob_counts hp.counts.1 hp.counts.2]
  exact hb.lengths

/-- The block closed: all its bytes are delivered (R265, R266). -/
theorem closed (hp : RawParsed b b.call.inLen.toNat b.call.inLen.toNat p) :
    opDrvCloseBlock .finish p = deliver 0 (b.call.inLen.toNat + 5) (stageBlock .finish p)
    ∧ Mem.readRun (stageBlock .finish p).enc.stage 0 (b.call.inLen.toNat + 5)
      = storedBlock (Mem.readRun b.host.inSlice 0 b.call.inLen.toNat) := by
  obtain ⟨-, happ⟩ := hb.staged hp
  have hstage := stageBlock_staging .finish p
  have hsmall := hb.small
  have hlen : (storedBlock (Mem.readRun b.host.inSlice 0 b.call.inLen.toNat)).length = b.call.inLen.toNat + 5 := by
    simp [storedBlock]
  have hcount := bitCount_storedBlockFields (Mem.readRun b.host.inSlice 0 b.call.inLen.toNat)
  have hpos : (stageBlock .finish p).enc.stagePos.toNat = b.call.inLen.toNat + 5 := by
    rw [happ.pos, wholeBytes, hcount, hlen, show ({ b.enc with stagePos := 0 } : Encoder).bitsIn.toNat = 0 from hb.bits,
      show ({ b.enc with stagePos := 0 } : Encoder).stagePos.toNat = 0 from rfl]
    omega
  have hroom : (stageBlock .finish p).enc.stagePos.toNat ≤ outRoom (stageBlock .finish p) := by
    have := hb.room
    have hofs : b.call.outOfs.toNat = 0 := by rw [hb.outOfs]; rfl
    rw [hpos, outRoom, hstage.call, hp.call]
    dsimp only
    omega
  refine ⟨?_, ?_⟩
  · rw [opDrvCloseBlock, if_pos hp.pending, handOver_fits (by rw [hstage.ctl, hp.ctl]; exact hb.slice) hroom, hpos]
  · have hrun := readRun_of_appended happ hb.bits hb.buffer hcount (bitValue_storedBlockFields (by
      rw [readRun_length]; omega))
    rwa [hlen] at hrun

/-- The call: the input is parsed, the block closed, the stream finished (R251, R255, R267). -/
theorem callBody_eq : ∃ p, RawParsed b b.call.inLen.toNat b.call.inLen.toNat p
    ∧ callBody .finish b = finishCall (afterFlush .finish (opDrvCloseBlock .finish p)) := by
  have hstart := hb.start
  have hbound : parseBound b = b.call.inLen.toNat := by
    rw [parseBound, hstart.srcLeft_eq hb.small, hstart.size]
    rfl
  have hp := hstart.parsed hb.small hb.raw b.call.inLen.toNat (Nat.zero_add _)
  refine ⟨_, hp, ?_⟩
  obtain ⟨p, hpeq⟩ : ∃ p, parseLoop .finish b.call.inLen.toNat b = p := ⟨_, rfl⟩
  rw [callBody, if_neg (by simp [hstart.pending, hb.unfinished]), hbound, hpeq]
  rw [hpeq] at hp
  have hquiet : ∀ u : State, u.ctl.prevStatus = b.ctl.prevStatus → raised u = false := fun u hu => by
    rw [raised, hu, hb.okay]
    rfl
  have hclosed : raised (opDrvCloseBlock .finish p) = false := by
    rw [(hb.closed hp).1]
    refine hquiet _ ?_
    show (stageBlock .finish p).ctl.prevStatus = _
    rw [(stageBlock_staging .finish p).ctl, hp.ctl]
  have hempty : p.drv.lookaheadSize = 0 := BitVec.eq_of_toNat_eq (by rw [hp.size, Nat.sub_self]; rfl)
  dsimp only
  rw [hquiet p (by rw [hp.ctl]), if_neg Bool.false_ne_true,
    endFlush_eq (by simp) hempty (by rw [hp.srcLeft_eq hb.small, Nat.sub_self]) hp.pending, hclosed,
    if_neg Bool.false_ne_true, afterFlush_raised, hclosed, if_neg Bool.false_ne_true]

/-- What the call leaves: the answer, and the block in the slice (R268). -/
theorem answered : (callBody .finish b).halt = none
    ∧ (callBody .finish b).host.response = some
      { status := .done, inConsumed := BitVec.ofNat 32 b.call.inLen.toNat
        outProduced := BitVec.ofNat 32 (b.call.inLen.toNat + 5) }
    ∧ Mem.readRun (callBody .finish b).host.outSlice 0 (b.call.inLen.toNat + 5)
      = storedBlock (Mem.readRun b.host.inSlice 0 b.call.inLen.toNat) := by
  obtain ⟨p, hp, hbody⟩ := hb.callBody_eq
  obtain ⟨hclosed, hstaged⟩ := hb.closed hp
  obtain ⟨hrun, -⟩ := hb.staged hp
  have hstage := stageBlock_staging .finish p
  rw [hbody, hclosed]
  obtain ⟨x, hx⟩ : ∃ x, stageBlock .finish p = x := ⟨_, rfl⟩
  rw [hx] at hstaged hrun hstage ⊢
  have hnone : x.drv.flushRemaining = 0 := by rw [hstage.drv]; exact hp.pending
  have hofs : x.call.outOfs = 0 := by rw [hstage.call, hp.call]; exact hb.outOfs
  have hslice : Mem.wf x.host.outSlice := by rw [hstage.host, hp.host]; exact hb.output
  have hdrain : opDrvDrain (afterFlush .finish (deliver 0 (b.call.inLen.toNat + 5) x))
      = afterFlush .finish (deliver 0 (b.call.inLen.toNat + 5) x) := opDrvDrain_of_nothing (Or.inr (Or.inl hnone))
  have hstatus : callStatus (afterFlush .finish (deliver 0 (b.call.inLen.toNat + 5) x)) = .done :=
    if_pos ⟨rfl, hnone⟩
  rw [finishCall, hdrain, hstatus]
  refine ⟨hrun, ?_, ?_⟩
  · show some (Response.mk .done x.call.srcPos (x.call.outOfs + BitVec.ofNat 32 (b.call.inLen.toNat + 5))) = _
    rw [hofs, zero_add, hstage.call, hp.call]
  · rw [← hstaged]
    refine readRun_congr fun i hi => ?_
    have hread := read_deliver_start 0 (b.call.inLen.toNat + 5) x hslice hofs i
    rw [if_pos hi] at hread
    rw [Nat.zero_add]
    rwa [Nat.zero_add] at hread

end RawCall

/-- The call begun after an INIT in forced-raw mode (R34, R253). -/
theorem rawCall_of_init {flags : BitVec 20} {oc : BitVec 32} {n : Nat} {s : State} (hrun : s.halt = none)
    (hdict : Mem.wf s.win.dict) (hstage : Mem.wf s.enc.stage) (hout : Mem.wf s.host.outSlice) (hn : n ≤ 31744)
    (hroom : n + 5 ≤ oc.toNat) (h32 : ∀ l ∈ naturalOf (literalCounts (Mem.readRun s.host.inSlice 0 n)) 288, l ≤ 32)
    (hraw : flags.getLsbD 19 = true) (hheader : flags.getLsbD 12 = false) :
    RawCall (callBegun .finish true true (BitVec.ofNat 32 n) oc (opInit flags false s)) := by
  have hlen : (BitVec.ofNat 32 n).toNat = n := by
    rw [BitVec.toNat_ofNat]
    omega
  exact {
    start := {
      running := hrun, host := rfl, enc := rfl, ctl := rfl, call := rfl, pos := rfl, size := rfl, history := rfl
      start := rfl, held := rfl, pending := rfl, dict := hdict, records := ⟨rfl, rfl, rfl⟩, distances := rfl
      ahead := ⟨le_rfl, Nat.zero_le _, Nat.zero_le _⟩
      inserted := le_rfl
      bytes := fun i hi => absurd hi (Nat.not_lt_zero i)
      counts := ⟨wf_nil, fun _ => rfl⟩ }
    small := hlen.le.trans hn
    raw := hraw, header := hheader, slice := rfl, okay := rfl, unfinished := rfl, bits := rfl, buffer := rfl
    stage := hstage, output := hout, outOfs := rfl
    room := by
      show (BitVec.ofNat 32 n).toNat + 5 ≤ oc.toNat
      rwa [hlen]
    lengths := by
      show ∀ l ∈ naturalOf (literalCounts (Mem.readRun s.host.inSlice 0 (BitVec.ofNat 32 n).toNat)) 288, l ≤ 32
      rwa [hlen] }

/-- Settles O17: every byte is recorded as a literal, and the block, all of it in the window, is stored. -/
theorem forcedRawVerbatim : Obligations.ForcedRawVerbatim := by
  unfold Obligations.ForcedRawVerbatim
  intro flags oc n s s' hrun hdict hstage hout hn hroom h32 hraw hheader hinit
  obtain ⟨-, rfl⟩ := settle_eq_next.1 hinit
  have hcall := rawCall_of_init hrun hdict hstage hout hn hroom h32 hraw hheader
  have haccepted : ¬ Rejected (flushField .finish) true true (BitVec.ofNat 32 n) (opInit flags false s) := by
    rw [← badParam_iff]
    simp [badParam, opInit, initState, respond, flushMode, flushField]
  have hlen : (BitVec.ofNat 32 n).toNat = n := by
    rw [BitVec.toNat_ofNat]
    omega
  obtain ⟨hdone, hresponse, hslice⟩ := hcall.answered
  simp only [show (callBegun .finish true true (BitVec.ofNat 32 n) oc (opInit flags false s)).call.inLen
    = BitVec.ofNat 32 n from rfl, hlen] at hresponse hslice
  refine ⟨_, (exec_compressOf_accepted haccepted).trans (settle_of_running hdone), hresponse, ?_, ?_⟩
  all_goals
    rw [Nat.add_comm n 5, readRun_add, storedBlock] at hslice
    obtain ⟨hhead, hdata⟩ := List.append_inj hslice (by simp)
  · simpa using hhead
  · intro j hj
    have hbyte := congrArg (fun l => l.getD j 0) hdata
    rwa [readRun_getD _ _ _ _ hj, readRun_getD _ _ _ _ hj, Nat.zero_add, Nat.zero_add] at hbyte

end Sys2Proof.Proofs.RawStream

/-! The encoder family: the overflow of the staging buffer, the static header, the costs and the choice of block type. -/

namespace Sys2Proof.Proofs.EncoderUnit

open Sys2Proof Sys2Proof.Machine Sys2Proof.Laws Sys2Proof.Proofs.HostCalls Sys2Proof.Proofs.Encoding
  Sys2Proof.Proofs.Dictionary Sys2Proof.Proofs.HuffmanUnit Sys2Proof.Proofs.RecorderUnit

/-! The full staging buffer. -/

/-- The byte loop of ENC.PUT_BITS has a byte to store and no place for it (R210, R303). -/
theorem emitBytes_full {k : Nat} {s : State} (hbyte : 8 ≤ s.enc.bitsIn.toNat) (hfull : 85196 ≤ s.enc.stagePos.toNat) :
    emitBytes (k + 1) s = s.faulted .stageOverflow := by
  rw [emitBytes, if_neg (Nat.not_lt.2 hbyte), if_neg (Nat.not_lt.2 hfull)]

/-- A field that fills a byte for a full `stage` stops a running unit (R210, R303). -/
theorem putField_overflows {v n : Nat} {s : State} (hrun : s.halt = none) (hn : n ≤ 16) (hbits : s.enc.bitsIn.toNat ≤ 7)
    (hbyte : 8 ≤ s.enc.bitsIn.toNat + n) (hfull : 85196 ≤ s.enc.stagePos.toNat) :
    (putField v n s).halt = some (.fault .stageOverflow) := by
  have hsum : (s.enc.bitsIn + BitVec.ofNat 6 n).toNat = s.enc.bitsIn.toNat + n := by
    simp only [BitVec.toNat_add, BitVec.toNat_ofNat]
    omega
  rw [putField, emitBytes_full (by rw [setEnc_enc, hsum]; exact hbyte) (by rw [setEnc_enc]; exact hfull)]
  exact stop_of_running ((setEnc_halt s _).trans hrun) _

/-- Settles O35: the field fits, so it is put, and its first whole byte has no place. -/
theorem stageOverflowFaults : Obligations.StageOverflowFaults := by
  unfold Obligations.StageOverflowFaults
  intro v n s hrun hn hv hbits hbyte hfull
  have hexec : exec (.encPutBits v n) s = settle (putField v.toNat n.toNat s) :=
    congrArg settle (if_pos ⟨hn, hv⟩)
  rw [hexec]
  exact settle_of_faulted (putField_overflows hrun hn hbits hbyte hfull)

/-! ENC.STATIC_HDR. -/

/-- Settles O37: HUF.LOAD_STATIC changes the tables alone, and the block type is put behind it. -/
theorem staticHeaderAppends : Obligations.StaticHeaderAppends := by
  unfold Obligations.StaticHeaderAppends
  intro s hrun ht
  have hload := opHufLoadStatic_eq s
  obtain ⟨e, he, ha⟩ : Emits [(1, 2)] (opHufLoadStatic s) (opEncStaticHdr s) :=
    putBits_emits (by decide) (by rw [hload]; exact ht)
  rw [hload] at he ha
  exact ⟨_, e, exec_of_running rfl he hrun, exec_of_running rfl hload hrun, ha⟩

/-! ENC.COST. -/

/-- One element of a range weighed alone. -/
theorem sum_range_single (n b x : Nat) : ((List.range n).map fun a => if a = b then x else 0).sum = if b < n then x else 0 := by
  rw [List.sum_map_eq_nsmul_single b _ fun a hne _ => if_neg hne, if_pos rfl]
  split
  case isTrue hlt => rw [List.count_eq_one_of_mem List.nodup_range (List.mem_range.2 hlt), one_smul]
  case isFalse hge => rw [List.count_eq_zero_of_not_mem (mt List.mem_range.1 hge), zero_smul]

/-- The weight of a canonical memory is the sum over all its indices, an unlisted element counting as zero (R215). -/
theorem weigh_eq_sum {w : Nat} {m : Mem w} (hw : Mem.wf m) (n : Nat) (f : Nat → Nat) :
    Mem.weigh m n f = ((List.range n).map fun a => (Mem.read m a).toNat * f a).sum := by
  induction m with
  | nil => simp [Mem.weigh]
  | cons c m ih =>
    have hnot : Mem.read m c.1 = 0#w := read_of_lt (wf_cons_lt hw)
    have hsplit : ∀ a, (Mem.read (c :: m) a).toNat * f a
        = (if a = c.1 then c.2.toNat * f c.1 else 0) + (Mem.read m a).toNat * f a := fun a => by
      rw [read_cons]
      split
      case isTrue heq => rw [heq, hnot, BitVec.toNat_zero, Nat.zero_mul, Nat.add_zero]
      case isFalse => rw [Nat.zero_add]
    simp only [hsplit]
    rw [List.sum_map_add, sum_range_single, Mem.weigh, ih (wf_tail hw)]

/-- The fixed length of a literal/length symbol, as R104 lists the ranges. -/
theorem staticLitLenSize_of_lt {a : Nat} (ha : a < 288) :
    staticLitLenSize a = if a < 144 then 8 else if a < 256 then 9 else if a < 280 then 7 else 8 := by
  rw [staticLitLenSize, if_pos ha]

/-- The cost of the static type, summed over the alphabets (R215). -/
theorem costStatic_eq {h : Huffman} (hlit : Mem.wf h.litLen.count) (hdist : Mem.wf h.dist.count) :
    costStatic h = 2
      + ((List.range 288).map fun a => (Mem.read h.litLen.count a).toNat
          * ((if a < 144 then 8 else if a < 256 then 9 else if a < 280 then 7 else 8) + lenExtra a)).sum
      + ((List.range 32).map fun a => (Mem.read h.dist.count a).toNat * (5 + distExtra a)).sum := by
  have hsizes : ((List.range 288).map fun a => (Mem.read h.litLen.count a).toNat * (staticLitLenSize a + lenExtra a))
      = (List.range 288).map fun a => (Mem.read h.litLen.count a).toNat
          * ((if a < 144 then 8 else if a < 256 then 9 else if a < 280 then 7 else 8) + lenExtra a) :=
    List.map_congr_left fun a ha => by rw [staticLitLenSize_of_lt (List.mem_range.1 ha)]
  rw [costStatic, weigh_eq_sum hlit, weigh_eq_sum hdist, hsizes]
  rfl

/-- The cost of the dynamic type, summed over the alphabets (R215). -/
theorem costDynamic_eq {h : Huffman} (hlit : Mem.wf h.litLen.count) (hdist : Mem.wf h.dist.count)
    (hcl : Mem.wf h.codeLen.count) (n : Nat) :
    costDynamic h n = 2 + 5 + 5 + 4 + 3 * n
      + ((List.range 19).map fun c => (Mem.read h.codeLen.count c).toNat
          * ((Mem.read h.codeLen.size c).toNat + clExtra c)).sum
      + ((List.range 288).map fun a => (Mem.read h.litLen.count a).toNat
          * ((Mem.read h.litLen.size a).toNat + lenExtra a)).sum
      + ((List.range 32).map fun a => (Mem.read h.dist.count a).toNat
          * ((Mem.read h.dist.size a).toNat + distExtra a)).sum := by
  rw [costDynamic, weigh_eq_sum hlit, weigh_eq_sum hdist, weigh_eq_sum hcl]

/-- Settles O41: each weighed memory is a sum over its alphabet. -/
theorem costFormulas : Obligations.CostFormulas := by
  unfold Obligations.CostFormulas
  intro s hrun hlit hdist hcl
  dsimp only
  rw [← costStatic_eq hlit hdist, ← costDynamic_eq hlit hdist hcl]
  exact exec_of_running (u := opEncCost s) rfl rfl hrun

/-! The choice of block type. -/

theorem storedOk_iff (s : State) :
    storedOk s = true ↔ (s.drv.lookaheadPos - s.drv.blockStartPos).toNat ≤ s.drv.dictSize.toNat := decide_eq_true_iff

/-- Forced raw comes first (R216). -/
theorem chooseType_raw {s : State} (hraw : s.ctl.forceRaw = true) (hok : storedOk s = true) : chooseType s = .stored := by
  simp [chooseType, hraw, hok]

/-- Forced static comes next (R216). -/
theorem chooseType_static {s : State} (hraw : s.ctl.forceRaw = false ∨ ¬ storedOk s = true)
    (hstatic : s.ctl.forceStatic = true) : chooseType s = .static := by
  rcases hraw with hraw | hok
  · simp [chooseType, hraw, hstatic]
  · simp [chooseType, hok, hstatic]

/-- Nothing forced, the cheapest of the three is taken: the stored type when it may be and costs strictly less than the
cheaper of the others, the dynamic type when it costs strictly less than the static one (R216). -/
theorem chooseType_cheapest {s : State} (hraw : s.ctl.forceRaw = false ∨ ¬ storedOk s = true)
    (hstatic : s.ctl.forceStatic = false) :
    chooseType s = if storedOk s = true ∧ s.work.costStored < min s.work.costStatic s.work.costDynamic then .stored
      else if s.work.costDynamic < s.work.costStatic then .dynamic else .static := by
  have hnone : (s.ctl.forceRaw && storedOk s) = false := by
    rcases hraw with hraw | hok
    · rw [hraw, Bool.false_and]
    · rw [Bool.eq_false_iff.2 hok, Bool.and_false]
  have hbest : (if s.work.costDynamic < s.work.costStatic then s.work.costDynamic else s.work.costStatic)
      = min s.work.costStatic s.work.costDynamic := by
    split <;> omega
  simp only [chooseType, hnone, hstatic, Bool.false_eq_true, if_false, Bool.and_eq_true, decide_eq_true_eq, hbest]

/-- Settles O42: the flags in their order, then the comparison of the costs. -/
theorem blockTypeChoice : Obligations.BlockTypeChoice := by
  unfold Obligations.BlockTypeChoice
  intro s
  dsimp only
  rw [← storedOk_iff]
  refine ⟨fun hstored => ?_, chooseType_raw, chooseType_static, fun hraw hstatic => ?_⟩
  · by_contra hok
    cases hforced : s.ctl.forceStatic with
    | true =>
      rw [chooseType_static (Or.inr hok) hforced] at hstored
      cases hstored
    | false =>
      rw [chooseType_cheapest (Or.inr hok) hforced, if_neg fun h => hok h.1] at hstored
      split at hstored <;> cases hstored
  · rw [chooseType_cheapest hraw hstatic]
    split
    case isTrue hsto =>
      obtain ⟨hok, hless⟩ := hsto
      exact ⟨iff_of_true rfl ⟨hok, hless⟩, iff_of_false nofun fun h => h.2 ⟨hok, hless.trans_le (min_le_right _ _)⟩⟩
    case isFalse hsto =>
      split
      case isTrue hdyn =>
        rw [min_eq_right hdyn.le] at hsto ⊢
        exact ⟨iff_of_false nofun hsto, iff_of_true rfl ⟨hdyn, hsto⟩⟩
      case isFalse hdyn => exact ⟨iff_of_false nofun hsto, iff_of_false nofun fun h => hdyn h.1⟩

/-! DRV.CLOSE_BLOCK between two blocks. -/

/-- Up to the choice of the type, DRV.CLOSE_BLOCK writes one register of the driver, `flush_ofs` (R265). -/
theorem closePlan_quiet_drv {s : State} (fl : FlushMode) (hq : Quiet s)
    (ht : ({ s.enc with stagePos := 0 } : Encoder).TakesBits (headFields s fl)) :
    (closePlan (closeStart fl s)).drv = { s.drv with flushOfs := 0 } := by
  obtain ⟨e, hstart, -⟩ := closeStart_emits fl hq.counts.1 ht
  obtain ⟨h, w, hplan, -⟩ := closePlan_eob (s := closeStart fl s) (by rw [hstart]; rfl)
    (by rw [hstart]; exact hq.counts.2)
  rw [hplan, hstart]
  rfl

/-- A block without a record moves the driver's registers no further: its emitters write the encoder and the tables, and its
bookkeeping adds no byte to the block's start (R265). -/
theorem stageBlock_quiet_drv {s : State} (fl : FlushMode) (hq : Quiet s) :
    (stageBlock fl s).drv = { s.drv with flushOfs := 0 } := by
  have htakes := takes_emptyBlock fl hq.bits hq.stage
  rw [emptyBlockFields_eq, List.append_assoc] at htakes
  obtain ⟨x, hplan, hchoose, -, hctl, hlz, happ⟩ := closePlan_quiet fl hq (takes_left htakes)
  have hright := takes_right htakes happ
  have hdrv := closePlan_quiet_drv fl hq (takes_left htakes)
  rw [hplan] at hdrv
  have hbits : x.enc.bitsIn.toNat = (s.enc.bitsIn.toNat + 1) % 8 := by
    have hhead := (bitCount_headFields s fl).1
    rw [happ.bits]
    dsimp only
    omega
  rw [← hctl] at hright hchoose
  obtain ⟨h, e, htail, -⟩ := bodyTail_appends fl (by rw [hlz]; exact hq.records.1) (by rw [hlz]; exact hq.records.2)
    hbits hright
  have hall : stageBlock fl s = closeBooks ((x.setHuf h).setEnc e) := by
    rw [stageBlock, hplan, hchoose, htail]
  have hbooks : (closeBooks ((x.setHuf h).setEnc e)).drv
      = { x.drv with blockStartPos := x.drv.blockStartPos + x.lz.totalLzBytes } := rfl
  rw [hall, hbooks, hdrv, hlz, hq.records.2]
  simp

/-- Between two blocks with room in the slice, the block is staged and delivered whole (the first clause of O48). -/
theorem closeBlock_quiet {fl : FlushMode} {s : State} (hq : Quiet s) (hslice : s.ctl.sinkMode = false)
    (hw : Mem.wf s.host.outSlice) (hroom : s.call.outOfs.toNat + 16 ≤ s.call.outCap.toNat) :
    ∃ t, exec (.drvCloseBlock fl) s = .next t
      ∧ ({ s.enc with stagePos := 0 } : Encoder).Appended (emptyBlockFields s fl) t.enc
      ∧ Delivered t.enc.stage 0 (wholeBytes { s.enc with stagePos := 0 } (emptyBlockFields s fl)) s t
      ∧ t.ctl = { s.ctl with blockIndex := s.ctl.blockIndex + 1 }
      ∧ t.drv = { s.drv with flushOfs := 0 } ∧ t.win = s.win := by
  have hfew := wholeBytes_emptyBlock_le (s := s) (fl := fl) hq.bits.1
  have hcap := s.call.outCap.isLt
  have hclose := opDrvCloseBlock_quiet (fl := fl) hq hslice (by rw [outRoom]; omega)
  have hdrv := stageBlock_quiet_drv fl hq
  have hstage := stageBlock_staging fl s
  obtain ⟨hrun, happ, hindex⟩ := stageBlock_quiet fl hq
  generalize wholeBytes { s.enc with stagePos := 0 } (emptyBlockFields s fl) = n at hfew hclose ⊢
  generalize stageBlock fl s = x at hclose hdrv hstage hrun happ hindex
  obtain ⟨hofs, hbytes, hkeep, -⟩ := deliver_spec 0 n x (by rw [hstage.host]; exact hw) (by rw [hstage.call]; omega)
  rw [hstage.call] at hofs hbytes hkeep
  rw [hstage.host] at hkeep
  refine ⟨deliver 0 n x, exec_of_running rfl hclose hrun, happ, ⟨hofs, hbytes, hkeep⟩, ?_, hdrv, hstage.win⟩
  rw [← hindex]
  exact hstage.ctl

/-! DRV.CLOSE_BLOCK as its steps. -/

/-- The first instruction of a run that completes completes, and the others complete behind it. -/
theorem runAll_cons_next {i : Instr} {is : List Instr} {f : State → State} {s u : State}
    (h : runAll (i :: is) s = .next u) (hexec : exec i s = settle (f s)) :
    (f s).halt = none ∧ runAll is (f s) = .next u := by
  rw [runAll, hexec] at h
  split at h
  case h_1 t ht =>
    obtain ⟨hrun, rfl⟩ := settle_eq_next.1 ht
    exact ⟨hrun, h⟩
  case h_2 hstop => exact absurd h (hstop u)

theorem runAll_nil_next {s u : State} (h : runAll [] s = .next u) : u = s := by
  cases h
  rfl

/-- The head of a block as instructions (R212, R213). -/
theorem runAll_head {fl : FlushMode} {s x a : State} (hctl : x.ctl = s.ctl)
    (h : runAll (headInstrs fl s) x = .next a) :
    a = putFinal (fl == .finish)
      (if x.ctl.writeZlibHeader = true ∧ x.ctl.blockIndex = 0 then opEncZlibHdr x else x) := by
  have hfinal : ∀ y, runAll [.encPutBits (if fl = .finish then 1 else 0) 1] y = .next a →
      a = putFinal (fl == .finish) y := fun y hy => by
    cases fl <;> exact runAll_nil_next (runAll_cons_next (f := putFinal _) hy rfl).2
  rw [headInstrs, ← hctl] at h
  split at h
  case isTrue hfirst =>
    rw [if_pos hfirst]
    exact hfinal _ (runAll_cons_next (f := opEncZlibHdr) h rfl).2
  case isFalse hlater =>
    rw [if_neg hlater]
    exact hfinal _ h

/-- The tables, the plan and the costs as instructions (R265). -/
theorem runAll_plan {s b : State} (h : runAll [.hufBuild .litLen, .hufBuild .dist, .encClPlan, .encCost] s = .next b) :
    b = closePlan s := by
  obtain ⟨-, h⟩ := runAll_cons_next (f := opHufBuild .litLen) h rfl
  obtain ⟨-, h⟩ := runAll_cons_next (f := opHufBuild .dist) h rfl
  obtain ⟨-, h⟩ := runAll_cons_next (f := opEncClPlan) h rfl
  exact runAll_nil_next (runAll_cons_next (f := opEncCost) h rfl).2

/-- The emitters of a block of the chosen type as instructions (R265). -/
theorem runAll_body {bt : BlockType} {is : List Instr} {s u : State} (h : runAll (bodyInstrs bt ++ is) s = .next u) :
    (encodeBlock bt s).halt = none ∧ runAll is (encodeBlock bt s) = .next u := by
  cases bt with
  | stored => exact runAll_cons_next (f := opEncStored) h rfl
  | static =>
    obtain ⟨-, h⟩ := runAll_cons_next (f := opEncStaticHdr) h rfl
    exact runAll_cons_next (f := opEncPayload) h rfl
  | dynamic =>
    obtain ⟨-, h⟩ := runAll_cons_next (f := opEncDynHdr) h rfl
    exact runAll_cons_next (f := opEncPayload) h rfl

/-- What follows the block as instructions (R265). -/
theorem runAll_tail {fl : FlushMode} {s u : State} (hrun : s.halt = none) (h : runAll (tailInstrs fl) s = .next u) :
    u.halt = none ∧ u = closeTail fl s := by
  have hone : ∀ {i : Instr} {f : State → State}, runAll [i] s = .next u → exec i s = settle (f s) →
      u.halt = none ∧ u = f s := fun hi hexec => by
    obtain ⟨hdone, hnil⟩ := runAll_cons_next hi hexec
    obtain rfl := runAll_nil_next hnil
    exact ⟨hdone, rfl⟩
  cases fl with
  | none =>
    obtain rfl := runAll_nil_next h
    exact ⟨hrun, rfl⟩
  | sync | full => exact hone (f := opEncSyncMark) h rfl
  | finish => exact hone (f := opEncTrailer) h rfl

/-- The steps of DRV.CLOSE_BLOCK, complete, leave what it hands to its bookkeeping (R265). -/
theorem stageBlock_of_staged {fl : FlushMode} {s u : State} (h : BlockStaged fl s u) :
    u.halt = none ∧ stageBlock fl s = closeBooks u := by
  obtain ⟨a, b, hhead, hplan, hblock⟩ := h
  obtain rfl := runAll_head (by rfl) hhead
  obtain rfl : b = closePlan (closeStart fl s) := runAll_plan hplan
  obtain ⟨hbody, htail⟩ := runAll_body hblock
  obtain ⟨hrun, rfl⟩ := runAll_tail hbody htail
  exact ⟨hrun, rfl⟩

/-- The hand-over leaves the encoder and the working values, and stops nothing (R266). -/
theorem handOver_enc_work_halt (s : State) :
    (handOver s).enc = s.enc ∧ (handOver s).work = s.work ∧ (handOver s).halt = s.halt := by
  unfold handOver
  dsimp only
  split_ifs <;> exact ⟨rfl, rfl, rfl⟩

/-- The bookkeeping clears counts and leaves the lengths and codes of every table (R265). -/
theorem closeBooks_tables (u : State) (t : Table) :
    ((closeBooks u).huf.get t).size = (u.huf.get t).size ∧ ((closeBooks u).huf.get t).code = (u.huf.get t).code := by
  cases t <;> exact ⟨rfl, rfl⟩

/-- Settles O48: between two blocks what is staged is computed; in any state the steps run as instructions are the block
staged, which the bookkeeping and the hand-over leave. -/
theorem closeBlockDelivers : Obligations.CloseBlockDelivers := by
  unfold Obligations.CloseBlockDelivers
  refine ⟨fun fl s hq hslice hw hroom => closeBlock_quiet hq hslice hw hroom, fun fl s u hnone hstaged => ?_⟩
  obtain ⟨hrun, hstage⟩ := stageBlock_of_staged hstaged
  have hclose : opDrvCloseBlock fl s = handOver (closeBooks u) := by rw [opDrvCloseBlock, if_pos hnone, hstage]
  obtain ⟨henc, hwork, hhalt⟩ := handOver_enc_work_halt (closeBooks u)
  refine ⟨_, exec_of_running rfl hclose (hhalt.trans hrun), henc, hwork, fun t => ?_⟩
  rw [(handOver_lz_huf (closeBooks u)).2]
  exact closeBooks_tables u t

end Sys2Proof.Proofs.EncoderUnit

/-! The driver family: the checksum, the resumption and the hand-over. -/

namespace Sys2Proof.Proofs.DriverUnit

open Sys2Proof Sys2Proof.Machine Sys2Proof.Laws Sys2Proof.Proofs.HostCalls Sys2Proof.Proofs.Dictionary
  Sys2Proof.Proofs.RecorderUnit

/-! DRV.ADLER. -/

/-- The two halves of the checksum after one byte, each below the modulus and so in its own 16 bits (R257). -/
theorem adlerNext_halves (x : BitVec 32) (c : BitVec 8) :
    (adlerNext x c).toNat % 2 ^ 16 = (x.toNat % 2 ^ 16 + c.toNat) % 65521
    ∧ (adlerNext x c).toNat / 2 ^ 16 = (x.toNat / 2 ^ 16 + (x.toNat % 2 ^ 16 + c.toNat) % 65521) % 65521 := by
  have hx := x.isLt
  have hlow : bitField x.toNat 0 16 = x.toNat % 2 ^ 16 := by simp [bitField]
  have hhigh : bitField x.toNat 16 16 = x.toNat / 2 ^ 16 := Nat.mod_eq_of_lt (by omega)
  simp only [adlerNext, hlow, hhigh, Config.adlerMod, BitVec.toNat_ofNat]
  have ha : (x.toNat % 2 ^ 16 + c.toNat) % 65521 < 65521 := Nat.mod_lt _ (by norm_num)
  generalize (x.toNat % 2 ^ 16 + c.toNat) % 65521 = a at ha ⊢
  have hb : (x.toNat / 2 ^ 16 + a) % 65521 < 65521 := Nat.mod_lt _ (by norm_num)
  generalize (x.toNat / 2 ^ 16 + a) % 65521 = b at hb ⊢
  omega

/-- Settles O44: the checksum's halves, in a state of which nothing else is written. -/
theorem adlerAdvances : Obligations.AdlerAdvances := by
  unfold Obligations.AdlerAdvances
  intro c s hrun
  obtain ⟨hlow, hhigh⟩ := adlerNext_halves s.ctl.adler32 c
  exact ⟨adlerNext s.ctl.adler32 c, settle_of_running hrun, hlow, hhigh⟩

/-! DRV.DRAIN. -/

/-- Settles O52: in sink mode the state stays, in slice mode the resumption is one delivery and the pair advanced. -/
theorem drainCopies : Obligations.DrainCopies := by
  unfold Obligations.DrainCopies
  intro s hrun
  refine ⟨fun hsink => exec_of_running rfl (if_pos hsink) hrun, fun hslice hw hofs hstage => ?_⟩
  intro k
  have hcap := s.call.outCap.isLt
  have hdrain := opDrvDrain_within (k := k) hslice rfl (by omega)
  obtain ⟨hadvance, hbytes, hkeep, -⟩ := deliver_spec s.drv.flushOfs.toNat k s hw (by omega)
  exact ⟨_, _, rfl, exec_of_running rfl hdrain hrun, hadvance, hbytes, hkeep⟩

/-! DRV.CLOSE_BLOCK up to its hand-over: the emitters and the tables write no register of the driver (R265). -/

@[simp] theorem emitBytes_drv (k : Nat) (s : State) : (emitBytes k s).drv = s.drv := by
  induction k generalizing s with
  | zero => rfl
  | succ k ih =>
    unfold emitBytes
    split_ifs <;> simp [ih, State.faulted]

@[simp] theorem putField_drv (v n : Nat) (s : State) : (putField v n s).drv = s.drv := by simp [putField]

@[simp] theorem putFree_drv (i n : Nat) (s : State) : (putFree i n s).drv = s.drv := by
  induction n generalizing i s with
  | zero => rfl
  | succ n ih => simp [putFree, ih]

@[simp] theorem putBits_drv (v n : Nat) (s : State) : (putBits v n s).drv = s.drv := by
  unfold putBits
  split <;> simp

@[simp] theorem opEncPad_drv (s : State) : (opEncPad s).drv = s.drv := by
  unfold opEncPad
  split <;> simp

@[simp] theorem putSymbol_drv (t : Table) (sym x n : Nat) (s : State) : (putSymbol t sym x n s).drv = s.drv := by
  simp [putSymbol, putCode]

@[simp] theorem putRecords_drv (n k pos : Nat) (s : State) : (putRecords n k pos s).drv = s.drv := by
  induction n generalizing k pos s with
  | zero => rfl
  | succ n ih =>
    unfold putRecords
    split_ifs <;> simp [ih, putMatch, putLit, putCode, State.faulted]

@[simp] theorem opEncPayload_drv (s : State) : (opEncPayload s).drv = s.drv := by simp [opEncPayload, putCode]

@[simp] theorem putWindow_drv (n : Nat) (q : BitVec 32) (s : State) : (putWindow n q s).drv = s.drv := by
  induction n generalizing q s with
  | zero => rfl
  | succ n ih => simp [putWindow, ih]

@[simp] theorem foldl_drv {α : Type} {f : State → α → State} (hf : ∀ s x, (f s x).drv = s.drv) (l : List α) (s : State) :
    (l.foldl f s).drv = s.drv := by
  induction l generalizing s with
  | nil => rfl
  | cons x l ih => rw [List.foldl_cons, ih, hf]

@[simp] theorem opHufBuild_drv (t : Table) (s : State) : (opHufBuild t s).drv = s.drv := by
  have hlimit (n : Nat) (s : State) : (opHufLimit n s).drv = s.drv := by
    unfold opHufLimit
    split <;> simp [State.refuse]
  have hsizes (s : State) : (opHufAssignSizes t s).drv = s.drv := by
    unfold opHufAssignSizes
    split <;> simp [State.refuse]
  simp [opHufBuild, opHufAssignCodes, hsizes, hlimit, opHufMinred, opHufKeys, opHufSort, opHufCollect]

/-- The start of DRV.CLOSE_BLOCK writes one register of the driver (R265). -/
theorem closeStart_drv (fl : FlushMode) (s : State) : (closeStart fl s).drv = { s.drv with flushOfs := 0 } := by
  unfold closeStart
  dsimp only
  split <;> simp [opEncZlibHdr, zlibHeader, putFinal]

@[simp] theorem closePlan_drv (s : State) : (closePlan s).drv = s.drv := by simp [closePlan, opEncCost, opEncClPlan]

@[simp] theorem encodeBlock_drv (bt : BlockType) (s : State) : (encodeBlock bt s).drv = s.drv := by
  cases bt with
  | stored => simp [encodeBlock, opEncStored, putType]
  | static => simp [encodeBlock, opEncStaticHdr, putType, opHufLoadStatic, opHufAssignCodes]
  | dynamic => simp [encodeBlock, opEncDynHdr, putType, putClLengths, putPacked]

@[simp] theorem closeTail_drv (fl : FlushMode) (s : State) : (closeTail fl s).drv = s.drv := by
  cases fl with
  | none => rfl
  | sync | full => simp [closeTail, opEncSyncMark]
  | finish =>
    simp only [closeTail, opEncTrailer]
    split <;> simp

/-- A block staged has nothing of it delivered yet: the cursor of the pending bytes is at the start (R265). -/
theorem stageBlock_flushOfs (fl : FlushMode) (s : State) : (stageBlock fl s).drv.flushOfs = 0 := by
  have hbooks (u : State) : (closeBooks u).drv.flushOfs = u.drv.flushOfs := rfl
  simp [stageBlock, hbooks, closeStart_drv]

/-- A DRV.CLOSE_BLOCK that completes found no byte pending, and staging the block left none (R265). -/
theorem stageBlock_flushRemaining {fl : FlushMode} {s t : State} (h : exec (.drvCloseBlock fl) s = .next t) :
    (stageBlock fl s).drv.flushRemaining = 0 := by
  obtain ⟨hrun, -⟩ := settle_eq_next.1 h
  unfold opDrvCloseBlock at hrun
  split at hrun
  case isTrue hnone => rw [(stageBlock_staging fl s).drv]; exact hnone
  case isFalse => exact absurd hrun (stop_halt_ne s _)

/-! The hand-over. -/

/-- The hand-over in slice mode: as many staged bytes as fit are delivered, and the pair keeps the rest (R266, R306). -/
theorem handOver_slice {s : State} (hslice : s.ctl.sinkMode = false) (hw : Mem.wf s.host.outSlice)
    (hofs : s.call.outOfs.toNat ≤ s.call.outCap.toNat) :
    let n := s.enc.stagePos.toNat
    let k := min n (outRoom s)
    Delivered s.enc.stage 0 k s (handOver s)
    ∧ (if k < n then (handOver s).drv.flushOfs.toNat = k ∧ (handOver s).drv.flushRemaining.toNat = n - k
       else (handOver s).drv = s.drv)
    ∧ (handOver s).ctl = s.ctl ∧ (handOver s).host.response = s.host.response := by
  intro n k
  have hcap := s.call.outCap.isLt
  have hroom : outRoom s = s.call.outCap.toNat - s.call.outOfs.toNat := rfl
  obtain ⟨hadvance, hbytes, hkeep, -⟩ := deliver_spec 0 k s hw (by omega)
  have hover : handOver s = if k < n then suspend k n (deliver 0 k s) else deliver 0 k s := by
    by_cases hzero : n = 0
    · rw [if_neg (by omega), show k = 0 by omega, deliver_zero, handOver, if_pos hzero]
    · rw [handOver, if_neg hzero, hslice, if_neg Bool.false_ne_true]
  rw [hover]
  split
  case isTrue hless =>
    obtain ⟨hstart, hrest, -⟩ := suspend_spec k n (deliver 0 k s) hless.le s.enc.stagePos.isLt
    exact ⟨⟨hadvance, hbytes, hkeep⟩, ⟨hstart, hrest⟩, rfl, rfl⟩
  case isFalse => exact ⟨⟨hadvance, hbytes, hkeep⟩, rfl, rfl, rfl⟩

/-- Settles O50: the block staged leaves the slice and the call as they were, and its hand-over is the one delivery. -/
theorem closeBlockSuspends : Obligations.CloseBlockSuspends := by
  unfold Obligations.CloseBlockSuspends
  intro fl s t hslice hw hofs hexec
  have hstage := stageBlock_staging fl s
  have hstart := stageBlock_flushOfs fl s
  have hnone := stageBlock_flushRemaining hexec
  obtain rfl := exec_drvCloseBlock_next hexec
  generalize stageBlock fl s = x at hstage hstart hnone ⊢
  have hroom : outRoom x = s.call.outCap.toNat - s.call.outOfs.toNat := by rw [outRoom, hstage.call]
  obtain ⟨hdelivered, hpair, hctl, hresponse⟩ := handOver_slice (s := x) (by rw [hstage.ctl]; exact hslice)
    (by rw [hstage.host]; exact hw) (by rw [hstage.call]; exact hofs)
  rw [(EncoderUnit.handOver_enc_work_halt x).1, ← hroom]
  refine ⟨?_, ?_, ?_, ?_⟩
  · rwa [Delivered, hstage.call, hstage.host] at hdelivered
  · split at hpair
    case isTrue hless => rwa [if_pos hless]
    case isFalse hall => rw [if_neg hall, hpair]; exact ⟨hstart, hnone⟩
  · rw [hctl, hstage.ctl]
  · rw [hresponse, hstage.host]

/-- The hand-over in sink mode is one invocation of the sink with all staged bytes; its refusal is raised (R266, R302). -/
theorem handOver_sink {s : State} (hsink : s.ctl.sinkMode = true) (hsome : s.enc.stagePos ≠ 0) :
    handOver s = if sinkAccepts s then sinkInvoked (Mem.readRun s.enc.stage 0 s.enc.stagePos.toNat) s
      else raise .putBufFailed (sinkInvoked (Mem.readRun s.enc.stage 0 s.enc.stagePos.toNat) s) := by
  have hcount : ¬ s.enc.stagePos.toNat = 0 := fun hzero => hsome (BitVec.eq_of_toNat_eq hzero)
  rw [handOver, if_neg hcount, if_pos hsink]

/-- Settles O51: the books are done when the block is staged, and the sink's answer decides what is raised. -/
theorem sinkRefusalRaises : Obligations.SinkRefusalRaises := by
  unfold Obligations.SinkRefusalRaises
  intro fl answer rest s t hsink hanswers hexec hsome
  have hstage := stageBlock_staging fl s
  have hnone := stageBlock_flushRemaining hexec
  obtain ⟨hlz, -, hindex⟩ : (stageBlock fl s).lz = _ ∧ (stageBlock fl s).drv.blockStartPos = _
      ∧ (stageBlock fl s).ctl.blockIndex = _ := by simpa only [blockBooks, Prod.mk.injEq] using blockBooks_stageBlock fl s
  obtain rfl := exec_drvCloseBlock_next hexec
  generalize stageBlock fl s = x at hstage hnone hlz hindex hsome ⊢
  have hlist : x.host.sinkAnswers = answer :: rest := by rw [hstage.host, hanswers]
  have henc := (EncoderUnit.handOver_enc_work_halt x).1
  rw [henc] at hsome ⊢
  rw [handOver_sink (by rw [hstage.ctl]; exact hsink) hsome, sinkAccepts_listed hlist]
  have hinvoked : (sinkInvoked (Mem.readRun x.enc.stage 0 x.enc.stagePos.toNat) x).host = { s.host with
      sinkOut := s.host.sinkOut ++ [Mem.readRun x.enc.stage 0 x.enc.stagePos.toNat]
      sinkAnswers := rest, sinkCalls := s.host.sinkCalls + 1 } := by
    rw [sinkInvoked, setHost_host, hlist, hstage.host]
    rfl
  have hprev : x.ctl.prevStatus = s.ctl.prevStatus := by rw [hstage.ctl]
  have hread : x.call.srcPos = s.call.srcPos := by rw [hstage.call]
  have hops : x.lz.lzOpCount = 0 := by rw [hlz]
  cases answer
  case true =>
    rw [if_pos rfl, hinvoked]
    exact ⟨rfl, rfl, rfl, rfl, hnone, hops, hindex, hprev, rfl⟩
  case false =>
    have hraised : (raise .putBufFailed (sinkInvoked (Mem.readRun x.enc.stage 0 x.enc.stagePos.toNat) x)).host
        = { (sinkInvoked (Mem.readRun x.enc.stage 0 x.enc.stagePos.toNat) x).host with
          response := some { status := .putBufFailed, inConsumed := x.call.srcPos, outProduced := 0 } } := rfl
    rw [if_neg Bool.false_ne_true, hraised, hinvoked, hread]
    exact ⟨rfl, rfl, rfl, rfl, hnone, hops, hindex, rfl, rfl⟩

end Sys2Proof.Proofs.DriverUnit

/-! The driver family: DRV.FILL. -/

namespace Sys2Proof.Proofs.DriverUnit

open Sys2Proof Sys2Proof.Machine Sys2Proof.Laws Sys2Proof.Proofs.HostCalls Sys2Proof.Proofs.Dictionary
  Sys2Proof.Proofs.RecorderUnit

/-- `dict` after the bytes `cs` were stored as the window bytes of the positions from `q` on (R141, R256). -/
def windowFilled (d : Mem 8) (q : BitVec 32) : List (BitVec 8) → Mem 8
  | [] => d
  | c :: cs => windowFilled (windowWrite d q c) (q + 1) cs

theorem slotOf_eq_slotOf_iff (p q : BitVec 32) : slotOf p = slotOf q ↔ (p - q).toNat % 32768 = 0 := by
  have := p.isLt
  have := q.isLt
  rw [slotOf_eq, slotOf_eq, BitVec.toNat_sub]
  omega

/-- No more bytes than slots: the window holds each byte at its position, and what it held at every other slot (R61). -/
theorem winByte_windowFilled {d : Mem 8} (h : Mem.wf d) (q : BitVec 32) {cs : List (BitVec 8)} (hlen : cs.length ≤ 32768)
    (p : BitVec 32) : winByte (windowFilled d q cs) p =
      if (p - q).toNat % 32768 < cs.length then cs.getD ((p - q).toNat % 32768) 0 else winByte d p := by
  induction cs generalizing d q with
  | nil => rfl
  | cons c cs ih =>
    simp only [List.length_cons] at hlen ⊢
    have hnext : (p - (q + 1)).toNat = ((p - q).toNat + (2 ^ 32 - 1)) % 2 ^ 32 := by
      have := p.isLt
      have := q.isLt
      rw [BitVec.toNat_sub, BitVec.toNat_sub, BitVec.toNat_add, show (1 : BitVec 32).toNat = 1 from rfl]
      omega
    rw [windowFilled, ih (windowWrite_wf h q c) (q + 1) (by omega), winByte_windowWrite h, hnext]
    simp only [slotOf_eq_slotOf_iff]
    have hp := (p - q).isLt
    generalize (p - q).toNat = i at hp ⊢
    by_cases hfirst : i % 32768 = 0
    · rw [if_neg (by omega), if_pos hfirst, if_pos (by omega), hfirst]
      rfl
    · rw [if_neg hfirst]
      by_cases hin : i % 32768 < cs.length + 1
      · obtain ⟨j, hj⟩ : ∃ j, i % 32768 = j + 1 := ⟨i % 32768 - 1, by omega⟩
        have hrest : (i + (2 ^ 32 - 1)) % 2 ^ 32 % 32768 = j := by omega
        rw [hrest, if_pos (by omega), if_pos hin, hj, List.getD_cons_succ]
      · rw [if_neg (by omega), if_neg hin]

/-- The byte number `j` of those stored stands at the position number `j` (R256). -/
theorem winByte_windowFilled_offset {d : Mem 8} (h : Mem.wf d) (q : BitVec 32) {cs : List (BitVec 8)}
    (hlen : cs.length ≤ 32768) {j : Nat} (hj : j < cs.length) :
    winByte (windowFilled d q cs) (q + BitVec.ofNat 32 j) = cs.getD j 0 := by
  have hoff : (q + BitVec.ofNat 32 j - q).toNat % 32768 = j := by
    rw [add_sub_cancel_left, BitVec.toNat_ofNat]
    omega
  rw [winByte_windowFilled h q hlen, hoff, if_pos hj]

/-- Storing bytes keeps the mirror (R33 item 3). -/
theorem windowFilled_mirrored {d : Mem 8} (h : Mem.wf d) (hm : Mirrored d) (q : BitVec 32) (cs : List (BitVec 8)) :
    Mirrored (windowFilled d q cs) := by
  induction cs generalizing d q with
  | nil => exact hm
  | cons c cs ih => exact ih (windowWrite_wf h q c) (windowWrite_mirrored h hm q c) (q + 1)

/-- The checksum after the bytes `cs`, which a stream without a checksum flag leaves alone (R256, R257). -/
def checksummed (c : Control) (cs : List (BitVec 8)) : BitVec 32 :=
  if c.writeZlibHeader || c.computeAdler32 then cs.foldl adlerNext c.adler32 else c.adler32

/-- The position behind the lookahead, where the next byte of the input goes (R256). -/
def fillPos (s : State) : BitVec 32 := s.drv.lookaheadPos + s.drv.lookaheadSize.setWidth 32

/-- The state after the bytes `cs` of the input were moved behind the lookahead (R256). -/
def filledWith (cs : List (BitVec 8)) (s : State) : State :=
  (((s.setWin { s.win with dict := windowFilled s.win.dict (fillPos s) cs }).setDrv
    { s.drv with lookaheadSize := s.drv.lookaheadSize + BitVec.ofNat 9 cs.length }).setCall
    { s.call with srcPos := s.call.srcPos + BitVec.ofNat 32 cs.length }).setCtl
    { s.ctl with adler32 := checksummed s.ctl cs }

theorem filledWith_nil (s : State) : filledWith [] s = s := by
  have hsize : s.drv.lookaheadSize + BitVec.ofNat 9 0 = s.drv.lookaheadSize := BitVec.add_zero _
  have hread : s.call.srcPos + BitVec.ofNat 32 0 = s.call.srcPos := BitVec.add_zero _
  have hsum : checksummed s.ctl [] = s.ctl.adler32 := ite_self _
  simp only [filledWith, List.length_nil, hsize, hread, hsum]
  rfl

/-- One byte more, while the register holds the size of the lookahead. -/
theorem filledWith_cons (c : BitVec 8) (cs : List (BitVec 8)) {s : State} (h : s.drv.lookaheadSize.toNat < 511) :
    filledWith cs (filledWith [c] s) = filledWith (c :: cs) s := by
  have hnext : fillPos (filledWith [c] s) = fillPos s + 1 := by
    have hsize : (s.drv.lookaheadSize + BitVec.ofNat 9 1).setWidth 32 = s.drv.lookaheadSize.setWidth 32 + 1#32 :=
      BitVec.eq_of_toNat_eq (by simp only [BitVec.toNat_setWidth, BitVec.toNat_add, BitVec.toNat_ofNat]; omega)
    show s.drv.lookaheadPos + (s.drv.lookaheadSize + BitVec.ofNat 9 1).setWidth 32 = _
    rw [hsize, fillPos, BitVec.add_assoc]
    rfl
  have hsum : checksummed { s.ctl with adler32 := checksummed s.ctl [c] } cs = checksummed s.ctl (c :: cs) := by
    show (if s.ctl.writeZlibHeader || s.ctl.computeAdler32 then cs.foldl adlerNext (checksummed s.ctl [c])
      else checksummed s.ctl [c]) = _
    unfold checksummed
    split <;> rfl
  have hadd (n : Nat) (x : BitVec n) :
      x + BitVec.ofNat n 1 + BitVec.ofNat n cs.length = x + BitVec.ofNat n (cs.length + 1) := by
    rw [BitVec.add_assoc, ← BitVec.ofNat_add, Nat.add_comm 1]
  rw [filledWith, hnext]
  simp only [filledWith, setWin_win, setDrv_win, setCall_win, setCtl_win, setDrv_drv, setCall_drv, setCtl_drv, setCall_call,
    setCtl_call, setCtl_ctl, hsum, List.length_cons, List.length_nil, Nat.zero_add, hadd]
  rfl

theorem fillOne_eq (s : State) : fillOne s = filledWith [Mem.read s.host.inSlice s.call.srcPos.toNat] s := by
  unfold fillOne filledWith checksummed
  dsimp only
  show (if s.ctl.writeZlibHeader || s.ctl.computeAdler32 then _ else _) = _
  split <;> rfl

/-- The loop of DRV.FILL moves the bytes of the input from `src_pos` on (R256). -/
theorem fillBytes_eq {k : Nat} {s : State} (hleft : k ≤ srcLeft s) (hroom : s.drv.lookaheadSize.toNat + k ≤ 511) :
    fillBytes k s = filledWith (Mem.readRun s.host.inSlice s.call.srcPos.toNat k) s := by
  induction k generalizing s with
  | zero => exact (filledWith_nil s).symm
  | succ k ih =>
    have hlen := s.call.inLen.isLt
    have hsize : (filledWith [Mem.read s.host.inSlice s.call.srcPos.toNat] s).drv.lookaheadSize.toNat
        = s.drv.lookaheadSize.toNat + 1 := by
      show (s.drv.lookaheadSize + BitVec.ofNat 9 1).toNat = _
      rw [BitVec.toNat_add, BitVec.toNat_ofNat]
      omega
    have hread : (filledWith [Mem.read s.host.inSlice s.call.srcPos.toNat] s).call.srcPos.toNat
        = s.call.srcPos.toNat + 1 := by
      show (s.call.srcPos + BitVec.ofNat 32 1).toNat = _
      rw [srcLeft] at hleft
      rw [BitVec.toNat_add, BitVec.toNat_ofNat]
      omega
    rw [fillBytes, fillOne_eq, ih (by rw [srcLeft] at hleft ⊢; rw [hread]; show k ≤ s.call.inLen.toNat - _; omega)
      (by omega), hread, Mem.readRun]
    exact filledWith_cons _ _ (by omega)

/-- How many bytes DRV.FILL moves: as many as are left and as fit (R256). -/
def fillCount (s : State) : Nat := min (srcLeft s) (258 - s.drv.lookaheadSize.toNat)

/-- The bytes DRV.FILL moves (R256). -/
def fillInput (s : State) : List (BitVec 8) := Mem.readRun s.host.inSlice s.call.srcPos.toNat (fillCount s)

theorem fillInput_length (s : State) : (fillInput s).length = fillCount s := readRun_length _ _ _

theorem fillCount_le (s : State) : fillCount s ≤ 258 := (Nat.min_le_right _ _).trans (Nat.sub_le _ _)

/-- What DRV.FILL leaves, in every state (R256). -/
theorem opDrvFill_eq (s : State) :
    opDrvFill s = (((s.setWin { s.win with dict := windowFilled s.win.dict (fillPos s) (fillInput s) }).setDrv { s.drv with
        lookaheadSize := BitVec.ofNat 9 (s.drv.lookaheadSize.toNat + fillCount s)
        dictSize := BitVec.ofNat 16 (min (32768 - (s.drv.lookaheadSize.toNat + fillCount s)) s.drv.dictSize.toNat) }).setCall
      { s.call with srcPos := s.call.srcPos + BitVec.ofNat 32 (fillCount s) }).setCtl
      { s.ctl with adler32 := checksummed s.ctl (fillInput s) } := by
  have hsize := s.drv.lookaheadSize.isLt
  have hk : fillCount s ≤ srcLeft s := Nat.min_le_left _ _
  have hfits : fillCount s ≤ 258 - s.drv.lookaheadSize.toNat := Nat.min_le_right _ _
  have hadd : s.drv.lookaheadSize + BitVec.ofNat 9 (fillCount s)
      = BitVec.ofNat 9 (s.drv.lookaheadSize.toNat + fillCount s) := by rw [BitVec.ofNat_add, BitVec.ofNat_toNat]; rfl
  have hcap : (BitVec.ofNat 9 (s.drv.lookaheadSize.toNat + fillCount s)).toNat
      = s.drv.lookaheadSize.toNat + fillCount s := by rw [BitVec.toNat_ofNat]; omega
  have hlen := fillInput_length s
  show capDict (fillBytes (fillCount s) s) = _
  rw [fillBytes_eq hk (by omega), ← fillInput]
  simp only [capDict, filledWith, hlen, hadd, setCtl_drv, setCall_drv, setDrv_drv, hcap, Config.windowSize]
  rfl

/-- The bytes DRV.FILL moved stand behind the lookahead (R256). -/
theorem winByte_fillInput {s : State} (h : Mem.wf s.win.dict) {j : Nat} (hj : j < fillCount s) :
    winByte (windowFilled s.win.dict (fillPos s) (fillInput s)) (fillPos s + BitVec.ofNat 32 j)
      = Mem.read s.host.inSlice (s.call.srcPos.toNat + j) := by
  have hlen := fillInput_length s
  have hcount := fillCount_le s
  rw [winByte_windowFilled_offset h _ (by omega) (by omega)]
  exact readRun_getD _ _ _ _ hj

/-- Settles O43: the bytes moved are a run of the input, and a run of slots takes them. -/
theorem fillMovesInput : Obligations.FillMovesInput := by
  unfold Obligations.FillMovesInput
  intro s hrun hdict k size
  have hlen : (fillInput s).length = k := fillInput_length s
  have hk : k ≤ 258 := fillCount_le s
  refine ⟨windowFilled s.win.dict (fillPos s) (fillInput s), checksummed s.ctl (fillInput s),
    exec_of_running rfl (opDrvFill_eq s) hrun, fun j hj => winByte_fillInput hdict hj, fun q hq => ?_,
    fun hm => windowFilled_mirrored hdict hm _ _, rfl⟩
  rw [winByte_windowFilled hdict _ (by omega), hlen]
  exact if_neg (Nat.not_lt.2 hq)

end Sys2Proof.Proofs.DriverUnit

/-! The driver family: DRV.PARSE_STEP. -/

namespace Sys2Proof.Proofs.DriverUnit

open Sys2Proof Sys2Proof.Machine Sys2Proof.Laws Sys2Proof.Proofs.HostCalls Sys2Proof.Proofs.Encoding
  Sys2Proof.Proofs.Dictionary Sys2Proof.Proofs.RecorderUnit

/-- The candidate is none, not longer than the length to beat, or a match that lies in the lookahead and the history (R260). -/
def InRange (s : State) (dist : BitVec 16) (len : BitVec 9) : Prop :=
  dist = 0 ∧ len.toNat ≤ (lengthToBeat s).toNat
  ∨ (3 ≤ len.toNat ∧ len.toNat ≤ s.drv.lookaheadSize.toNat) ∧ 1 ≤ dist.toNat ∧ dist.toNat ≤ s.drv.dictSize.toNat

/-- The search of R260 stays within the valid window in every state: it goes back over the history and ahead over the
lookahead. -/
theorem findable_candidate (s : State) :
    findable s.drv.lookaheadPos s.drv.dictSize.toNat s.drv.lookaheadSize.toNat s = true := by
  have hoff : (s.drv.lookaheadPos - (s.drv.lookaheadPos - s.drv.dictSize.setWidth 32)).toNat = s.drv.dictSize.toNat := by
    have := s.drv.lookaheadPos.isLt
    have := s.drv.dictSize.isLt
    simp only [BitVec.toNat_sub, BitVec.toNat_setWidth]
    omega
  rw [findable_iff, hoff]
  exact ⟨le_rfl, le_rfl⟩

theorem prior_eq_lengthToBeat (s : State) :
    (if s.drv.savedLen ≠ 0 then s.drv.savedLen else 2) = lengthToBeat s := ite_not ..

/-- The candidate of a search (R260). -/
theorem selectCandidate_find {s : State} (hrun : s.halt = none) (hahead : s.drv.lookaheadSize.toNat ≤ 258)
    (hbeat : 2 ≤ (lengthToBeat s).toNat) (hraw : ¬ s.ctl.forceRaw = true) (hrle : ¬ s.ctl.rleMatches = true) :
    ∃ w d l, selectCandidate s = (s.setWork w, d, l) ∧ Candidate s d l ∧ InRange s d l := by
  obtain ⟨d, l, hexec, hfound⟩ := exec_dictFind (priorDist := 0) (priorLen := lengthToBeat s) hrun
    (Or.inr (findable_candidate s))
  rw [runRead_of_le hahead] at hexec
  refine ⟨{ s.work with findDist := d, findLen := l }, d, l, ?_, ?_, ?_⟩
  · obtain ⟨-, hop⟩ := settle_eq_next.1 hexec
    have hprior := prior_eq_lengthToBeat s
    unfold selectCandidate
    dsimp only
    rw [if_neg (by simp [hraw, hrle]), hprior, ← hop]
    rfl
  · unfold Candidate
    rw [if_neg (by tauto), if_neg hrle]
    exact ⟨_, hexec, rfl, rfl⟩
  · rcases hfound.prior_or_mem with ⟨rfl, rfl⟩ | ⟨hmem, hlonger, hlen⟩
    · exact Or.inl ⟨rfl, le_rfl⟩
    · have hfits := candidateRun_le s.draws s.win.dict s.drv.lookaheadPos s.drv.lookaheadSize.toNat d
      exact Or.inr ⟨by omega, mem_chainDistances hmem⟩

/-- The candidate of RLE mode (R260). -/
theorem selectCandidate_rle {s : State} (hrun : s.halt = none) (hahead : s.drv.lookaheadSize.toNat ≤ 258)
    (hraw : ¬ s.ctl.forceRaw = true) (hrle : s.ctl.rleMatches = true) (hhistory : s.drv.dictSize ≠ 0) :
    ∃ w d l, selectCandidate s = (s.setWork w, d, l) ∧ Candidate s d l ∧ InRange s d l := by
  have hexec := exec_dictRle (p := s.drv.lookaheadPos) (maxLen := s.drv.lookaheadSize) hrun hhistory
  have hfits := (rleRun_leading s.draws s.win.dict (winByte s.win.dict (s.drv.lookaheadPos - 1))
    (slotOf s.drv.lookaheadPos) s.drv.lookaheadSize.toNat).bound
  rw [runRead_of_le hahead] at hexec
  generalize rleRun _ _ _ _ _ = n at hexec hfits
  have hn : (BitVec.ofNat 9 n).toNat = n := by
    rw [BitVec.toNat_ofNat]
    omega
  obtain ⟨-, hop⟩ := settle_eq_next.1 hexec
  have hselect : selectCandidate s = if n < 3 then (s.setWork { s.work with rleLen := BitVec.ofNat 9 n }, 0, 0)
      else (s.setWork { s.work with rleLen := BitVec.ofNat 9 n }, 1, BitVec.ofNat 9 n) := by
    unfold selectCandidate
    dsimp only
    rw [hrle, Bool.true_or, if_pos rfl, if_pos ⟨hhistory, by simpa using hraw⟩, ← hop, setWork_work, hn]
  have hcandidate : ∀ d l, (if n < 3 then d = 0 ∧ l = 0 else d = 1 ∧ l = BitVec.ofNat 9 n) → Candidate s d l :=
    fun d l h => by
      unfold Candidate
      rw [if_neg (by tauto), if_pos hrle]
      refine ⟨_, hexec, ?_⟩
      rwa [setWork_work, hn]
  by_cases hshort : n < 3
  · refine ⟨_, 0, 0, hselect.trans (if_pos hshort), hcandidate 0 0 ?_, Or.inl ⟨rfl, Nat.zero_le _⟩⟩
    rw [if_pos hshort]
    exact ⟨rfl, rfl⟩
  · refine ⟨_, 1, BitVec.ofNat 9 n, hselect.trans (if_neg hshort), hcandidate _ _ ?_, Or.inr ⟨by omega, le_rfl, ?_⟩⟩
    · rw [if_neg hshort]
      exact ⟨rfl, rfl⟩
    · exact Nat.pos_of_ne_zero fun hzero => hhistory (BitVec.eq_of_toNat_eq hzero)

/-- Candidate selection stops in no state, writes working values alone, and selects what R260 says. -/
theorem selectCandidate_spec {s : State} (hrun : s.halt = none) (hahead : s.drv.lookaheadSize.toNat ≤ 258)
    (hbeat : 2 ≤ (lengthToBeat s).toNat) :
    ∃ w d l, selectCandidate s = (s.setWork w, d, l) ∧ Candidate s d l ∧ InRange s d l := by
  by_cases hnone : s.ctl.forceRaw = true ∨ s.ctl.rleMatches = true ∧ s.drv.dictSize = 0
  · have hprior := prior_eq_lengthToBeat s
    refine ⟨s.work, 0, lengthToBeat s, ?_, ?_, Or.inl ⟨rfl, le_rfl⟩⟩
    · unfold selectCandidate
      dsimp only
      rw [hprior, if_pos (by rw [Bool.or_eq_true]; tauto), if_neg (by simp; tauto), setWork_self]
    · unfold Candidate
      rw [if_pos hnone]
      exact ⟨rfl, rfl⟩
  · obtain ⟨hraw, hrle⟩ : ¬ s.ctl.forceRaw = true ∧ (s.ctl.rleMatches = true → s.drv.dictSize ≠ 0) := by tauto
    by_cases hmode : s.ctl.rleMatches = true
    · exact selectCandidate_rle hrun hahead hraw hmode (hrle hmode)
    · exact selectCandidate_find hrun hahead hbeat hraw hmode

/-- DRV.PARSE_STEP decides on the candidate of R260 after the filter of R261, and advances (R262, R263). -/
theorem opDrvParseStep_eq {s : State} (hrun : s.halt = none) (hsome : s.drv.lookaheadSize ≠ 0)
    (hahead : s.drv.lookaheadSize.toNat ≤ 258) (hbeat : 2 ≤ (lengthToBeat s).toNat) :
    ∃ w d l, opDrvParseStep s = advance (decideStep d l (s.setWork w)).2 (decideStep d l (s.setWork w)).1
      ∧ Filtered s d l ∧ InRange s d l := by
  obtain ⟨w, d, l, hselect, hcandidate, hrange⟩ := selectCandidate_spec hrun hahead hbeat
  have hstep : opDrvParseStep s = advance
      (decideStep (filterCandidate s.ctl d l).1 (filterCandidate s.ctl d l).2 (s.setWork w)).2
      (decideStep (filterCandidate s.ctl d l).1 (filterCandidate s.ctl d l).2 (s.setWork w)).1 := by
    rw [opDrvParseStep, if_neg hsome, hselect]
    rfl
  by_cases hdrop : s.ctl.filterMatches = true ∧ l.toNat ≤ 5
  · rw [filterCandidate, if_pos hdrop] at hstep
    refine ⟨w, 0, 0, hstep, ⟨d, l, hcandidate, ?_⟩, Or.inl ⟨rfl, Nat.zero_le _⟩⟩
    rw [if_pos hdrop]
    exact ⟨rfl, rfl⟩
  · rw [filterCandidate, if_neg hdrop] at hstep
    refine ⟨w, d, l, hstep, ⟨d, l, hcandidate, ?_⟩, hrange⟩
    rw [if_neg hdrop]
    exact ⟨rfl, rfl⟩

/-- Recording a literal changes the recorder and the counts as REC.LIT does, and no more (R160). -/
theorem opRecLit_setWork {s : State} (hrun : s.halt = none) (hroom : recordable s = true) (b : BitVec 8) (w : Work) :
    ∃ lz huf, opRecLit b (s.setWork w) = ((s.setWork w).setLz lz).setHuf huf
      ∧ ∀ t : State, t.lz = lz → t.huf = huf → Records (.recLit b) s t :=
  ⟨_, _, if_pos hroom, fun _ hlz hhuf => ⟨_, exec_recLit hrun hroom, hlz, hhuf⟩⟩

/-- Recording a match changes the recorder and the counts as REC.MATCH does, and no more (R161). -/
theorem opRecMatch_setWork {s : State} (hrun : s.halt = none) (hroom : recordable s = true) {len : BitVec 9}
    {dist : BitVec 16} (hwf : (Instr.recMatch len dist).wf = true) (w : Work) :
    ∃ lz huf, opRecMatch len dist (s.setWork w) = ((s.setWork w).setLz lz).setHuf huf
      ∧ ∀ t : State, t.lz = lz → t.huf = huf → Records (.recMatch len dist) s t :=
  ⟨_, _, (if_pos hwf).trans (if_pos hroom), fun _ hlz hhuf => ⟨_, exec_recMatch hrun hwf hroom, hlz, hhuf⟩⟩

/-- Between two parse steps a record fits (R33 item 5, R162). -/
theorem recordable_of_driving {s : State} (h : Driving 65528 s) : recordable s = true :=
  (recordable_iff s).2 (by have := h.recorded; omega)

/-- A match held has at least three bytes (R33 item 12). -/
theorem three_le_savedLen {s : State} (h : Driving 65528 s) (hheld : s.drv.savedLen ≠ 0) : 3 ≤ s.drv.savedLen.toNat := by
  obtain ⟨-, -, -, hlen, -⟩ := h.held hheld
  exact hlen

/-- The length to beat is at least 2 (R260, R33 item 12). -/
theorem two_le_lengthToBeat {s : State} (h : s.drv.savedLen ≠ 0 → 3 ≤ s.drv.savedLen.toNat) :
    2 ≤ (lengthToBeat s).toNat := by
  unfold lengthToBeat
  split
  case isTrue => decide
  case isFalse hheld => exact (by norm_num : 2 ≤ 3).trans (h hheld)

/-- From `s` to `t` what R262 decides on the candidate `(dist, len)` was recorded, and the registers advanced (R263). -/
def Decided (s t : State) (dist : BitVec 16) (len : BitVec 9) : Prop :=
  let d := s.drv
  let here := winByte s.win.dict d.lookaheadPos
  if d.savedLen ≠ 0 then
    if d.savedLen.toNat < len.toNat then
      Records (.recLit d.savedLit) s t ∧ t.drv = advanced 1 dist len here d
    else
      Records (.recMatch d.savedLen d.savedDist) s t
      ∧ t.drv = advanced (d.savedLen.toNat - 1) d.savedDist 0 d.savedLit d
  else if dist = 0 then
    Records (.recLit here) s t ∧ t.drv = advanced 1 d.savedDist 0 d.savedLit d
  else if s.ctl.greedyParsing = true ∨ s.ctl.rleMatches = true then
    Records (.recMatch len dist) s t ∧ t.drv = advanced len.toNat d.savedDist 0 d.savedLit d
  else t.lz = s.lz ∧ t.huf = s.huf ∧ t.drv = advanced 1 dist len here d

/-- The decision completes: the state `u` and the move after it are those of R262. -/
def Decides (s : State) (w : Work) (dist : BitVec 16) (len : BitVec 9) : Prop :=
  ∃ u move, decideStep dist len (s.setWork w) = (u, move) ∧ u.halt = none ∧ Decided s (advance move u) dist len

/-- With a match held, a longer one replaces it, its literal recorded; else it is committed (R262). -/
theorem decides_of_held {s : State} (hrun : s.halt = none) (hdriving : Driving 65528 s) (hheld : s.drv.savedLen ≠ 0)
    (w : Work) (d : BitVec 16) (l : BitVec 9) : Decides s w d l := by
  have hroom := recordable_of_driving hdriving
  unfold Decides Decided
  by_cases hlonger : s.drv.savedLen.toNat < l.toNat
  · obtain ⟨lz, huf, hrecord, hrecords⟩ := opRecLit_setWork hrun hroom s.drv.savedLit w
    refine ⟨_, _, (if_pos hheld).trans (if_pos hlonger), ?_⟩
    rw [setWork_drv, hrecord, if_pos hheld, if_pos hlonger]
    exact ⟨hrun, hrecords _ rfl rfl, rfl⟩
  · obtain ⟨-, -, -, hlen3, hlen, hdist1, hdist, -⟩ := hdriving.held hheld
    obtain ⟨lz, huf, hrecord, hrecords⟩ := opRecMatch_setWork hrun hroom
      ((wf_recMatch_iff s.drv.savedLen s.drv.savedDist).2 ⟨⟨hlen3, hlen⟩, hdist1, hdist⟩) w
    refine ⟨_, _, (if_pos hheld).trans (if_neg hlonger), ?_⟩
    rw [setWork_drv, hrecord, if_pos hheld, if_neg hlonger]
    exact ⟨hrun, hrecords _ rfl rfl, rfl⟩

/-- With none held, no candidate gives a literal; greedy and RLE mode commit a match, lazy mode holds it (R262). -/
theorem decides_of_none_held {s : State} (hrun : s.halt = none) (hdriving : Driving 65528 s) (hnone : s.drv.savedLen = 0)
    (w : Work) {d : BitVec 16} {l : BitVec 9} (hrange : InRange s d l) : Decides s w d l := by
  have hroom := recordable_of_driving hdriving
  have hheld : ¬ s.drv.savedLen ≠ 0 := not_not.2 hnone
  have hclear (move : Nat) : advanced move s.drv.savedDist 0 s.drv.savedLit s.drv
      = advanced move s.drv.savedDist s.drv.savedLen s.drv.savedLit s.drv := by rw [hnone]
  unfold Decides Decided
  simp only [hclear]
  by_cases hliteral : d = 0
  · obtain ⟨lz, huf, hrecord, hrecords⟩ := opRecLit_setWork hrun hroom (winByte s.win.dict s.drv.lookaheadPos) w
    refine ⟨_, _, (if_neg hheld).trans (if_pos hliteral), ?_⟩
    rw [setWork_drv, setWork_win, hrecord, if_neg hheld, if_pos hliteral]
    exact ⟨hrun, hrecords _ rfl rfl, rfl⟩
  have hchoose {u v : State × Nat} : (if d = 0 then u else v) = v := if_neg hliteral
  by_cases hcommit : s.ctl.greedyParsing = true ∨ s.ctl.rleMatches = true
  · obtain ⟨⟨hlen3, hlen⟩, hdist1, hdist⟩ := hrange.resolve_left fun h => hliteral h.1
    have hwindow := hdriving.window
    have hahead := hdriving.ahead
    simp only [Config.windowSize, Config.maxMatch] at hwindow hahead
    obtain ⟨lz, huf, hrecord, hrecords⟩ := opRecMatch_setWork hrun hroom
      ((wf_recMatch_iff l d).2 ⟨⟨hlen3, by omega⟩, hdist1, by omega⟩) w
    refine ⟨_, _, (if_neg hheld).trans (hchoose.trans (if_pos (Bool.or_eq_true_iff.2 hcommit))), ?_⟩
    rw [hrecord, if_neg hheld, if_neg hliteral, if_pos hcommit]
    exact ⟨hrun, hrecords _ rfl rfl, rfl⟩
  · refine ⟨_, _, (if_neg hheld).trans (hchoose.trans (if_neg (mt Bool.or_eq_true_iff.1 hcommit))), hrun, ?_⟩
    rw [if_neg hheld, if_neg hliteral, if_neg hcommit]
    exact ⟨rfl, rfl, rfl⟩

/-- Settles O47: the step is the decision on the candidate and the advance, and in each branch of the decision the record
fits and is in range. -/
theorem parseStepDecides : Obligations.ParseStepDecides := by
  unfold Obligations.ParseStepDecides
  intro s hrun hdriving hsome
  obtain ⟨w, d, l, hstep, hfiltered, hrange⟩ := opDrvParseStep_eq hrun hsome hdriving.ahead
    (two_le_lengthToBeat (three_le_savedLen hdriving))
  have hdecides : Decides s w d l := by
    by_cases hheld : s.drv.savedLen = 0
    · exact decides_of_none_held hrun hdriving hheld w hrange
    · exact decides_of_held hrun hdriving hheld w d l
  obtain ⟨u, move, hdecide, hdone, hdecided⟩ := hdecides
  rw [hdecide] at hstep
  exact ⟨_, d, l, exec_of_running rfl hstep hdone, hfiltered, hdecided⟩

end Sys2Proof.Proofs.DriverUnit

/-! The driver family: the status of an accepted call. -/

namespace Sys2Proof.Proofs.DriverUnit

open Sys2Proof Sys2Proof.Machine Sys2Proof.Laws Sys2Proof.Proofs.HostCalls

/-- What every micro-operation of a call keeps holds from the call's beginning to its end (R251, R255, R267). -/
structure CallInvariant (P : State → Prop) : Prop where
  filled : ∀ s, P s → P (opDrvFill s)
  caughtUp : ∀ s, P s → P (opDrvCatchup s)
  stepped : ∀ s, P s → P (opDrvParseStep s)
  closed : ∀ fl s, P s → P (opDrvCloseBlock fl s)
  ended : ∀ fl s, P s → P (afterFlush fl s)

namespace CallInvariant

variable {P : State → Prop} {s : State}

/-- The parse loop (R255). -/
theorem parseLoop (hP : CallInvariant P) (fl : FlushMode) (k : Nat) (h : P s) : P (Machine.parseLoop fl k s) := by
  induction k generalizing s with
  | zero => exact h
  | succ k ih =>
    have hcaught := hP.caughtUp _ (hP.filled _ h)
    have hstepped := hP.stepped _ hcaught
    have hclosed := hP.closed .none _ hstepped
    unfold Machine.parseLoop
    dsimp only
    split
    · split
      · exact hcaught
      · split
        · split
          · exact hclosed
          · exact ih hclosed
        · exact ih hstepped
    · exact h

/-- The flush at the end of the call (R267). -/
theorem endFlush (hP : CallInvariant P) (fl : FlushMode) (h : P s) : P (Machine.endFlush fl s) := by
  by_cases hdue : fl ≠ .none ∧ s.drv.lookaheadSize = 0 ∧ srcLeft s = 0 ∧ s.drv.flushRemaining = 0
  · obtain ⟨hfl, hempty, hread, hnone⟩ := hdue
    rw [endFlush_eq hfl hempty hread hnone]
    split
    · exact hP.closed fl _ h
    · exact hP.ended fl _ (hP.closed fl _ h)
  · rwa [Machine.endFlush, if_neg hdue]

/-- An accepted call ends with the sink's refusal or with the answer of its last step, in a state that meets the invariant
(R251, R268, R302). -/
theorem callBody_cases (hP : CallInvariant P) (fl : FlushMode) (h : P s) :
    ∃ x, P x ∧ (callBody fl s = x ∧ raised x = true ∨ callBody fl s = finishCall x) := by
  have hparsed := hP.parseLoop fl (parseBound s) h
  have hflushed := hP.endFlush fl hparsed
  unfold callBody
  dsimp only
  split
  · exact ⟨s, h, Or.inr rfl⟩
  split
  case isTrue hraised => exact ⟨_, hparsed, Or.inl ⟨rfl, hraised⟩⟩
  case isFalse =>
    split
    case isTrue hraised => exact ⟨_, hflushed, Or.inl ⟨rfl, hraised⟩⟩
    case isFalse => exact ⟨_, hflushed, Or.inr rfl⟩

end CallInvariant

/-- In a call with `SINK_MODE` as `sink`: the mode stands, and PutBufFailed is recorded only where it was answered, which
is in sink mode (R302). -/
structure RefusalAnswered (sink : Bool) (s : State) : Prop where
  mode : s.ctl.sinkMode = sink
  answered : s.ctl.prevStatus = .putBufFailed →
    sink = true ∧ ∃ i, s.host.response = some { status := .putBufFailed, inConsumed := i, outProduced := 0 }

namespace RefusalAnswered

variable {sink : Bool} {s t : State}

theorem of_same (h : RefusalAnswered sink s) (hmode : t.ctl.sinkMode = s.ctl.sinkMode)
    (hprev : t.ctl.prevStatus = s.ctl.prevStatus) (hresponse : t.host.response = s.host.response) :
    RefusalAnswered sink t :=
  ⟨hmode.trans h.mode, by rw [hprev, hresponse]; exact h.answered⟩

theorem hostKept (h : RefusalAnswered sink s) (hk : HostKept s t) : RefusalAnswered sink t :=
  h.of_same hk.sink hk.prev (by rw [hk.host])

/-- The hand-over raises PutBufFailed in sink mode only, and answers it there (R266, R302). -/
theorem handedOver (h : RefusalAnswered sink s) : RefusalAnswered sink (handOver s) := by
  unfold handOver
  dsimp only
  split
  · exact h
  split
  case isTrue hsink =>
    split
    · exact h.of_same rfl rfl rfl
    · exact ⟨h.mode, fun _ => ⟨h.mode.symm.trans hsink, _, rfl⟩⟩
  case isFalse => split <;> exact h.of_same rfl rfl rfl

theorem callInvariant (sink : Bool) : CallInvariant (RefusalAnswered sink) where
  filled s h := by
    rw [opDrvFill_eq]
    exact h.of_same rfl rfl rfl
  caughtUp _ h := h.hostKept (catchupLoop_hostKept _ _)
  stepped _ h := h.hostKept (opDrvParseStep_hostKept _)
  closed fl s h := by
    unfold opDrvCloseBlock
    split
    · exact (h.hostKept (stageBlock_staging fl s).hostKept).handedOver
    · exact h.hostKept (Staging.stop s _).hostKept
  ended fl _ h := by cases fl <;> exact h.of_same rfl rfl rfl

end RefusalAnswered

/-- The status answered in `t`, `sink` being the mode of the call: what it says of the stream, and that it is recorded
(R268, R302, R305). -/
def StatusAnswered (sink : Bool) (t : State) : Prop :=
  ∃ r, t.host.response = some r ∧ t.ctl.prevStatus = r.status ∧ r.status ≠ .badParam
    ∧ (r.status = .done → t.ctl.finished = true ∧ t.drv.flushRemaining = 0)
    ∧ (r.status = .okay → t.ctl.finished = false ∨ t.drv.flushRemaining ≠ 0)
    ∧ (r.status = .putBufFailed → sink = true ∧ r.outProduced = 0)

/-- A sink's refusal ends the call with the answer given there (R302). -/
theorem statusAnswered_of_raised {sink : Bool} {s : State} (h : RefusalAnswered sink s) (hraised : raised s = true) :
    StatusAnswered sink s := by
  have hprev := (raised_iff s).1 hraised
  obtain ⟨hsink, i, hresponse⟩ := h.answered hprev
  exact ⟨_, hresponse, hprev, nofun, nofun, nofun, fun _ => ⟨hsink, rfl⟩⟩

/-- The last step answers Done exactly when the stream is over and all of it delivered (R268). -/
theorem statusAnswered_finishCall (sink : Bool) (s : State) : StatusAnswered sink (finishCall s) := by
  unfold finishCall
  dsimp only
  generalize opDrvDrain s = x
  rw [raise_callStatus]
  by_cases hover : x.ctl.finished = true ∧ x.drv.flushRemaining = 0
  · rw [callStatus, if_pos hover]
    exact ⟨_, rfl, rfl, nofun, fun _ => hover, nofun, nofun⟩
  · rw [callStatus, if_neg hover]
    refine ⟨_, rfl, rfl, nofun, nofun, fun _ => ?_, nofun⟩
    show x.ctl.finished = false ∨ x.drv.flushRemaining ≠ 0
    rw [← Bool.not_eq_true]
    tauto

/-- Settles O12: the call ends with a sink's refusal, which is answered where it happens, or with the answer of its last
step. -/
theorem acceptedStatus : Obligations.AcceptedStatus := by
  unfold Obligations.AcceptedStatus
  intro i f ip op il oc s t hparts haccepted hexec
  rw [exec_of_compressParts hparts, compressCall, if_neg (mt (badParam_iff _ _ _ _ _).1 haccepted)] at hexec
  obtain ⟨-, rfl⟩ := settle_eq_next.1 hexec
  cases hfl : flushMode f with
  | none => exact absurd (Or.inr (Or.inl ((flushMode_eq_none f).1 hfl))) haccepted
  | some fl =>
    have hbegun : RefusalAnswered s.ctl.sinkMode (callSetup f ip op il oc s) :=
      ⟨rfl, fun hrefused => absurd ((prevStatus_of_accepted haccepted).symm.trans hrefused) nofun⟩
    obtain ⟨x, hx, ⟨hend, hraised⟩ | hend⟩ := (RefusalAnswered.callInvariant _).callBody_cases fl hbegun
    · dsimp only
      rw [hend]
      exact statusAnswered_of_raised hx hraised
    · dsimp only
      rw [hend]
      exact statusAnswered_finishCall _ x

end Sys2Proof.Proofs.DriverUnit

/-! The driver family: an accepted call as its micro-operations. -/

namespace Sys2Proof.Proofs.DriverUnit

open Sys2Proof Sys2Proof.Machine Sys2Proof.Laws Sys2Proof.Proofs.HostCalls Sys2Proof.Proofs.Dictionary
  Sys2Proof.Proofs.RecorderUnit

/-! DRV.CATCHUP. -/

/-- DICT.INSERT writes the chains; it stops only at a position that is not insertable (R142). -/
theorem opDictInsert_cases (q : BitVec 32) (s : State) :
    ∃ w h, opDictInsert q s = (s.setWin w).setHalt h ∧ w.dict = s.win.dict ∧ (insertable q s = true → h = s.halt) := by
  unfold opDictInsert
  split
  case isTrue => exact ⟨chainInsert s.win q, s.halt, rfl, rfl, fun _ => rfl⟩
  case isFalse hbehind =>
    rcases stop_cases s (.refusal .windowRange) with ⟨-, hstop⟩ | ⟨-, hstop⟩
    · exact ⟨s.win, _, hstop, rfl, fun h => absurd h hbehind⟩
    · exact ⟨s.win, s.halt, hstop, rfl, fun _ => rfl⟩

/-- The catch-up writes the chains and `ins_pos`, and with a lag of at most 258 it does not stop (R258). -/
theorem catchupLoop_cases (k : Nat) (s : State) :
    ∃ w q h, catchupLoop k s = ((s.setWin w).setDrv { s.drv with insPos := q }).setHalt h ∧ w.dict = s.win.dict
      ∧ (lag s ≤ 258 → h = s.halt) := by
  induction k generalizing s with
  | zero => exact ⟨s.win, s.drv.insPos, s.halt, rfl, rfl, fun _ => rfl⟩
  | succ k ih =>
    unfold catchupLoop
    dsimp only
    split
    case isTrue hmore =>
      obtain ⟨w, h, hinsert, hdict, hrun⟩ := opDictInsert_cases s.drv.insPos s
      obtain ⟨w', q, h', hloop, hdict', hrun'⟩ := ih
        (((s.setWin w).setHalt h).setDrv { s.drv with insPos := s.drv.insPos + 1 })
      refine ⟨w', q, h', ?_, hdict'.trans hdict, fun hlag => ?_⟩
      · rw [hinsert]
        exact hloop
      have hlag' : (s.drv.lookaheadPos - s.drv.insPos).toNat ≤ 258 := hlag
      have hnext : lag (((s.setWin w).setHalt h).setDrv { s.drv with insPos := s.drv.insPos + 1 }) ≤ 258 := by
        show (s.drv.lookaheadPos - (s.drv.insPos + 1)).toNat ≤ 258
        rw [sub_add_eq_sub_sub, BitVec.toNat_sub, show (1 : BitVec 32).toNat = 1 from rfl]
        omega
      have hinsertable : insertable s.drv.insPos s = true := by
        have hsize := s.drv.lookaheadSize.isLt
        rw [insertable_iff, add_sub_right_comm, BitVec.toNat_add, BitVec.toNat_setWidth]
        omega
      exact (hrun' hnext).trans (hrun hinsertable)
    case isFalse => exact ⟨s.win, s.drv.insPos, s.halt, rfl, rfl, fun _ => rfl⟩

/-! A call without a parse step. -/

/-- DRV.FILL and DRV.CATCHUP at the start of a call whose input fits the lookahead: all of it is moved there (R256, R258). -/
theorem shortRound {b : State} (hrun : b.halt = none) (hlag : lag b ≤ 258) (hread : b.call.srcPos = 0)
    (hcount : fillCount b = b.call.inLen.toNat) :
    ∃ w ds q, opDrvCatchup (opDrvFill b) = (((b.setWin w).setDrv { b.drv with
          lookaheadSize := BitVec.ofNat 9 (b.drv.lookaheadSize.toNat + b.call.inLen.toNat), dictSize := ds, insPos := q }).setCall
        { b.call with srcPos := b.call.inLen }).setCtl { b.ctl with adler32 := checksummed b.ctl (fillInput b) }
      ∧ w.dict = windowFilled b.win.dict (fillPos b) (fillInput b) := by
  have hfill := opDrvFill_eq b
  rw [hcount, hread, zero_add, BitVec.ofNat_toNat, BitVec.setWidth_eq] at hfill
  obtain ⟨w, q, h, hcatch, hdict, hgoes⟩ := catchupLoop_cases (lag (opDrvFill b)) (opDrvFill b)
  have hlag' : lag (opDrvFill b) = lag b := by rw [hfill]; rfl
  obtain rfl : h = none := (hgoes (hlag'.trans_le hlag)).trans (by rw [hfill]; exact hrun)
  have hround : opDrvCatchup (opDrvFill b) = _ := hcatch
  refine ⟨w, (opDrvFill b).drv.dictSize, q, ?_, by rw [hdict, hfill]; rfl⟩
  rw [hround, hfill, ← hrun]
  rfl

/-- COMPRESS.None on input that does not fill the lookahead: the loop moves it there, catches up and leaves (R255, R259). -/
theorem parseLoop_short {b : State} (hrun : b.halt = none) (hdict : Mem.wf b.win.dict) (hlag : lag b ≤ 258)
    (hread : b.call.srcPos = 0) (hshort : b.call.inLen.toNat + b.drv.lookaheadSize.toNat < 258) :
    ∃ w size ds q x, parseLoop .none (parseBound b) b = (((b.setWin w).setDrv
        { b.drv with lookaheadSize := size, dictSize := ds, insPos := q }).setCall
        { b.call with srcPos := b.call.inLen }).setCtl { b.ctl with adler32 := x }
      ∧ size.toNat = b.drv.lookaheadSize.toNat + b.call.inLen.toNat
      ∧ ∀ j < b.call.inLen.toNat, winByte w.dict (fillPos b + BitVec.ofNat 32 j) = Mem.read b.host.inSlice j := by
  have hzero : b.call.srcPos.toNat = 0 := by rw [hread]; rfl
  have hleft : srcLeft b = b.call.inLen.toNat := by rw [srcLeft, hzero, Nat.sub_zero]
  by_cases hempty : b.call.inLen = 0
  · have hstay : ∀ k, parseLoop .none k b = b := fun k => by
      cases k with
      | zero => rfl
      | succ k => rw [parseLoop, if_neg (by simp [parseMore, hleft, hempty])]
    refine ⟨b.win, b.drv.lookaheadSize, b.drv.dictSize, b.drv.insPos, b.ctl.adler32, ?_, by rw [hempty]; rfl,
      fun j hj => absurd hj (by rw [hempty]; exact Nat.not_lt_zero j)⟩
    rw [hstay, hempty, ← hread]
    rfl
  · have hsome : 0 < b.call.inLen.toNat := Nat.pos_of_ne_zero fun h => hempty (BitVec.eq_of_toNat_eq h)
    have hcount : fillCount b = b.call.inLen.toNat := by
      rw [fillCount, hleft]
      omega
    have hsize : (BitVec.ofNat 9 (b.drv.lookaheadSize.toNat + b.call.inLen.toNat)).toNat
        = b.drv.lookaheadSize.toNat + b.call.inLen.toNat := by
      rw [BitVec.toNat_ofNat]
      omega
    obtain ⟨w, ds, q, hround, hstored⟩ := shortRound hrun hlag hread hcount
    have hleave : (opDrvCatchup (opDrvFill b)).drv.lookaheadSize.toNat < Config.maxMatch := by
      rw [hround]
      exact hsize.trans_lt (by rw [Nat.add_comm]; exact hshort)
    obtain ⟨k, hk⟩ : ∃ k, parseBound b = k + 1 := ⟨parseBound b - 1, by rw [parseBound]; omega⟩
    refine ⟨w, _, ds, q, checksummed b.ctl (fillInput b), ?_, hsize, fun j hj => ?_⟩
    · rw [hk, parseLoop, if_pos (by rw [parseMore, hleft, decide_eq_true hsome, Bool.true_or])]
      exact (if_pos ⟨rfl, hleave⟩).trans hround
    · rw [hstored, winByte_fillInput hdict (hcount ▸ hj), hzero, Nat.zero_add]

/-- A COMPRESS.None that parses nothing answers Okay (R251, R259, R268). -/
theorem callBody_of_parsed_none {b p : State} (hparse : parseLoop .none (parseBound b) b = p)
    (hbegin : b.drv.flushRemaining = 0 ∧ b.ctl.finished = false)
    (hend : p.drv.flushRemaining = 0 ∧ p.ctl.finished = false) (hok : p.ctl.prevStatus = .okay) :
    callBody .none b = raise .okay p := by
  have hquiet : raised p = false := by rw [raised, hok]; rfl
  have hflush : endFlush .none p = p := if_neg fun h => h.1 rfl
  have hstatus : callStatus p = .okay := if_neg (by simp [hend.2])
  rw [callBody, if_neg (by simp [hbegin.1, hbegin.2]), hparse]
  dsimp only
  rw [hquiet, if_neg Bool.false_ne_true, hflush, hquiet, if_neg Bool.false_ne_true, finishCall,
    opDrvDrain_of_nothing (Or.inr (Or.inl hend.1)), hstatus]

/-! The rounds of the parse loop. -/

theorem parseMore_iff (fl : FlushMode) (s : State) : parseMore fl s = true ↔ LoopGoesOn fl s := by
  have hsize : 0 < s.drv.lookaheadSize.toNat ↔ s.drv.lookaheadSize ≠ 0 := by
    rw [Nat.pos_iff_ne_zero, Ne, Ne, ← BitVec.toNat_inj]
    rfl
  simp only [parseMore, srcLeft, Bool.or_eq_true, Bool.and_eq_true, decide_eq_true_eq, bne_iff_ne, hsize, Nat.sub_pos_iff_lt]

theorem closeDue_iff (s : State) : closeDue s = true ↔ BlockFull s := by
  simp only [closeDue, Bool.or_eq_true, Bool.and_eq_true, decide_eq_true_eq, Config.lzCloseThreshold, Config.rawBlockLimit]

/-- What the parse loop needs of R33 to count its rounds: the lookahead's size, and that a held match reaches no further
(items 2 and 12). -/
structure Parsing (s : State) : Prop where
  running : s.halt = none
  ahead : s.drv.lookaheadSize.toNat ≤ 258
  held : s.drv.savedLen ≠ 0 → 3 ≤ s.drv.savedLen.toNat ∧ s.drv.savedLen.toNat - 1 ≤ s.drv.lookaheadSize.toNat

/-- DRV.FILL moves bytes from the input to the lookahead: what is left to parse stays (R256). -/
theorem opDrvFill_parsing {s : State} (h : Parsing s) : Parsing (opDrvFill s) ∧ parseBound (opDrvFill s) = parseBound s := by
  have hahead := h.ahead
  have hlen := s.call.inLen.isLt
  have hk : fillCount s ≤ srcLeft s := Nat.min_le_left _ _
  have hfits : fillCount s ≤ 258 - s.drv.lookaheadSize.toNat := Nat.min_le_right _ _
  have hfill := opDrvFill_eq s
  have hsize : (opDrvFill s).drv.lookaheadSize.toNat = s.drv.lookaheadSize.toNat + fillCount s := by
    rw [hfill]
    show (BitVec.ofNat 9 _).toNat = _
    rw [BitVec.toNat_ofNat]
    omega
  have hread : (opDrvFill s).call.srcPos.toNat = s.call.srcPos.toNat + fillCount s := by
    rw [hfill]
    show (s.call.srcPos + BitVec.ofNat 32 (fillCount s)).toNat = _
    rw [srcLeft] at hk
    rw [BitVec.toNat_add, BitVec.toNat_ofNat]
    omega
  have hheld : (opDrvFill s).drv.savedLen = s.drv.savedLen := by rw [hfill]; rfl
  have hinput : (opDrvFill s).call.inLen = s.call.inLen := by rw [hfill]; rfl
  refine ⟨⟨by rw [hfill]; exact h.running, by omega, fun hne => ?_⟩, ?_⟩
  · have := h.held (hheld ▸ hne)
    rw [hheld]
    omega
  · rw [srcLeft] at hk
    rw [parseBound, parseBound, srcLeft, srcLeft, hread, hsize, hinput]
    omega

/-- The first half of a round (R255, R256, R258). -/
theorem filled_spec {fl : FlushMode} {s u : State} (h : Filled fl s u) (hs : Parsing s) :
    opDrvCatchup (opDrvFill s) = u ∧ Parsing u ∧ parseBound u = parseBound s ∧ 0 < parseBound s := by
  obtain ⟨hmore, hrounds⟩ := h
  obtain ⟨-, hrounds⟩ := EncoderUnit.runAll_cons_next (f := opDrvFill) hrounds rfl
  obtain ⟨hrun, hrounds⟩ := EncoderUnit.runAll_cons_next (f := opDrvCatchup) hrounds rfl
  obtain rfl := EncoderUnit.runAll_nil_next hrounds
  obtain ⟨hfilled, hbound⟩ := opDrvFill_parsing hs
  obtain ⟨w, q, h, hcatch, -⟩ := catchupLoop_cases (lag (opDrvFill s)) (opDrvFill s)
  have hround : opDrvCatchup (opDrvFill s) = _ := hcatch
  refine ⟨rfl, ⟨hrun, ?_, ?_⟩, ?_, ?_⟩
  · rw [hround]; exact hfilled.ahead
  · rw [hround]; exact hfilled.held
  · rw [← hbound, hround]; rfl
  · have := (parseMore_iff fl s).2 hmore
    simp only [parseMore, Bool.or_eq_true, Bool.and_eq_true, decide_eq_true_eq] at this
    rw [parseBound]
    omega

@[simp] theorem opRecLit_drv (b : BitVec 8) (s : State) : (opRecLit b s).drv = s.drv := by
  unfold opRecLit
  split
  · rfl
  · exact stop_drv s _

@[simp] theorem opRecMatch_drv (len : BitVec 9) (dist : BitVec 16) (s : State) :
    (opRecMatch len dist s).drv = s.drv := by
  unfold opRecMatch
  split
  · split
    · rfl
    · exact stop_drv s _
  · exact stop_drv s _

/-- The decision moves by at least one byte and at most the lookahead, and a match it leaves held reaches no further
(R262). -/
theorem decideStep_moves {s : State} (hs : Parsing s) (hsome : s.drv.lookaheadSize ≠ 0) (w : Work) {d : BitVec 16}
    {l : BitVec 9} (hrange : InRange s d l) :
    ∃ u move, decideStep d l (s.setWork w) = (u, move) ∧ 1 ≤ move ∧ move ≤ s.drv.lookaheadSize.toNat
      ∧ u.drv.lookaheadSize = s.drv.lookaheadSize
      ∧ (u.drv.savedLen = 0 ∨ u.drv.savedLen = l ∧ move = 1 ∧ 3 ≤ l.toNat ∧ l.toNat ≤ s.drv.lookaheadSize.toNat) := by
  have hone : 1 ≤ s.drv.lookaheadSize.toNat := Nat.pos_of_ne_zero fun h => hsome (BitVec.eq_of_toNat_eq h)
  by_cases hheld : s.drv.savedLen ≠ 0
  · obtain ⟨hheld3, hreach⟩ := hs.held hheld
    by_cases hlonger : s.drv.savedLen.toNat < l.toNat
    · refine ⟨_, _, (if_pos hheld).trans (if_pos hlonger), le_rfl, hone, by simp [holdMatch], Or.inr ⟨rfl, rfl, ?_⟩⟩
      refine (hrange.resolve_left fun ⟨_, hbeaten⟩ => ?_).1
      rw [lengthToBeat, if_neg hheld] at hbeaten
      omega
    · refine ⟨_, _, (if_pos hheld).trans (if_neg hlonger), ?_, ?_, by simp, Or.inl rfl⟩
      · show 1 ≤ s.drv.savedLen.toNat - 1
        omega
      · exact hreach
  · by_cases hliteral : d = 0
    · exact ⟨_, _, (if_neg hheld).trans (if_pos hliteral), le_rfl, hone, by simp, Or.inl (by simpa using hheld)⟩
    obtain ⟨⟨hlen3, hlen⟩, -⟩ := hrange.resolve_left fun h => hliteral h.1
    have hchoose {u v : State × Nat} : (if d = 0 then u else v) = v := if_neg hliteral
    by_cases hcommit : (s.ctl.greedyParsing || s.ctl.rleMatches) = true
    · exact ⟨_, _, (if_neg hheld).trans (hchoose.trans (if_pos hcommit)), by omega, hlen, by simp,
        Or.inl (by simpa using hheld)⟩
    · exact ⟨_, _, (if_neg hheld).trans (hchoose.trans (if_neg hcommit)), le_rfl, hone, rfl,
        Or.inr ⟨rfl, rfl, hlen3, hlen⟩⟩

/-- A parse step that completes leaves less to parse (R262, R263). -/
theorem opDrvParseStep_parsing {s : State} (hs : Parsing s) (hsome : s.drv.lookaheadSize ≠ 0)
    (hrun : (opDrvParseStep s).halt = none) :
    Parsing (opDrvParseStep s) ∧ parseBound (opDrvParseStep s) < parseBound s := by
  obtain ⟨w, d, l, hstep, -, hrange⟩ := opDrvParseStep_eq hs.running hsome hs.ahead
    (two_le_lengthToBeat fun hheld => (hs.held hheld).1)
  obtain ⟨u, move, hdecide, hone, hmove, hkeep, hheld⟩ := decideStep_moves hs hsome w hrange
  have hcall := (opDrvParseStep_hostKept s).call
  have hahead := hs.ahead
  rw [hdecide] at hstep
  have hsize : (opDrvParseStep s).drv.lookaheadSize.toNat = s.drv.lookaheadSize.toNat - move := by
    rw [hstep]
    show (u.drv.lookaheadSize - BitVec.ofNat 9 move).toNat = _
    rw [hkeep, BitVec.toNat_sub, BitVec.toNat_ofNat]
    omega
  have hsaved : (opDrvParseStep s).drv.savedLen = u.drv.savedLen := by rw [hstep]; rfl
  refine ⟨⟨hrun, by omega, fun hne => ?_⟩, ?_⟩
  · rw [hsaved] at hne ⊢
    obtain ⟨hl, rfl, hlen3, hlen⟩ := hheld.resolve_left hne
    rw [hl]
    omega
  · rw [parseBound, parseBound, srcLeft, srcLeft, hcall, hsize]
    omega

/-- A round that parses, up to the closing of a block (R255, R264). -/
theorem stepped_spec {fl : FlushMode} {s v : State} (h : Stepped fl s v) (hs : Parsing s) :
    Parsing v ∧ parseBound v < parseBound s
    ∧ ∀ k, parseLoop fl (k + 1) s = if closeDue v = true then
        if raised (opDrvCloseBlock .none v) = true ∨ (opDrvCloseBlock .none v).drv.flushRemaining ≠ 0
          then opDrvCloseBlock .none v else parseLoop fl k (opDrvCloseBlock .none v)
      else parseLoop fl k v := by
  obtain ⟨u, hfilled, hlong, hexec⟩ := h
  obtain ⟨hround, hu, hbound, -⟩ := filled_spec hfilled hs
  obtain ⟨hrun, rfl⟩ := settle_eq_next.1 hexec
  have hsome : u.drv.lookaheadSize ≠ 0 := fun hempty => by
    have hstop : opDrvParseStep u = u.refuse .emptyLookahead := if_pos hempty
    rw [hstop] at hrun
    exact stop_halt_ne u _ hrun
  obtain ⟨hv, hless⟩ := opDrvParseStep_parsing hu hsome hrun
  refine ⟨hv, hbound ▸ hless, fun k => ?_⟩
  have hgoes : ¬ (fl = .none ∧ u.drv.lookaheadSize.toNat < Config.maxMatch) := fun ⟨hfl, hshort⟩ => by
    have := hlong hfl
    simp only [Config.maxMatch] at hshort
    omega
  rw [parseLoop, if_pos ((parseMore_iff fl s).2 hfilled.1), hround]
  dsimp only
  rw [if_neg hgoes]

/-- Closing a block leaves what is to be parsed (R265). -/
theorem closed_parsing {fl : FlushMode} {s w : State} (h : exec (.drvCloseBlock fl) s = .next w) (hs : Parsing s) :
    opDrvCloseBlock fl s = w ∧ Parsing w ∧ parseBound w = parseBound s := by
  have hclosed := exec_drvCloseBlock_next h
  obtain ⟨hrun, hop⟩ := settle_eq_next.1 h
  have hstage := stageBlock_staging fl s
  have hover := handOver_frame (stageBlock fl s)
  rw [← hop] at hrun
  have hdrv : w.drv.lookaheadSize = s.drv.lookaheadSize ∧ w.drv.savedLen = s.drv.savedLen := by
    rw [hclosed, hover.drv, hstage.drv]
    exact ⟨rfl, rfl⟩
  have hcall : w.call.inLen = s.call.inLen ∧ w.call.srcPos = s.call.srcPos := by
    rw [hclosed, hover.call, hstage.call]
    exact ⟨rfl, rfl⟩
  obtain ⟨hsize, hsaved⟩ := hdrv
  obtain ⟨hlen, hread⟩ := hcall
  refine ⟨hop.symm, ⟨hrun, by rw [hsize]; exact hs.ahead, by rw [hsize, hsaved]; exact hs.held⟩, ?_⟩
  rw [parseBound, parseBound, srcLeft, srcLeft, hsize, hlen, hread]

/-- The parse loop run as instructions is the loop of the model, whose bound on the rounds is never reached: every round but
the last parses a byte (R255). -/
theorem parseLoop_of_parsed {fl : FlushMode} {s t : State} (h : Parsed fl s t) {k : Nat} (hk : parseBound s ≤ k)
    (hs : Parsing s) : parseLoop fl k s = t ∧ t.halt = none := by
  induction h generalizing k with
  | done hstop =>
    refine ⟨?_, hs.running⟩
    cases k with
    | zero => rfl
    | succ k => rw [parseLoop, if_neg (mt (parseMore_iff fl _).1 hstop)]
  | short hfilled hfl hshort =>
    obtain ⟨hround, hu, -, hsome⟩ := filled_spec hfilled hs
    obtain ⟨k, rfl⟩ := Nat.exists_eq_add_of_lt (hsome.trans_le hk)
    refine ⟨?_, hu.running⟩
    rw [Nat.zero_add, parseLoop, if_pos ((parseMore_iff fl _).2 hfilled.1), hround]
    exact if_pos ⟨hfl, hshort⟩
  | round hstepped hopen _ ih =>
    obtain ⟨hv, hless, hloop⟩ := stepped_spec hstepped hs
    obtain ⟨k, rfl⟩ := Nat.exists_eq_add_of_lt ((Nat.zero_le _).trans_lt (hless.trans_le hk))
    rw [Nat.zero_add] at hk ⊢
    rw [hloop, if_neg (mt (closeDue_iff _).1 hopen)]
    exact ih (by omega) hv
  | closed hstepped hfull hclose hok hnone _ ih =>
    obtain ⟨hv, hless, hloop⟩ := stepped_spec hstepped hs
    obtain ⟨hclosed, hw, hbound⟩ := closed_parsing hclose hv
    obtain ⟨k, rfl⟩ := Nat.exists_eq_add_of_lt ((Nat.zero_le _).trans_lt (hless.trans_le hk))
    rw [Nat.zero_add] at hk ⊢
    rw [hloop, if_pos ((closeDue_iff _).2 hfull), hclosed,
      if_neg (not_or.2 ⟨mt (raised_iff _).1 hok, not_not.2 hnone⟩)]
    exact ih (by omega) hw
  | full hstepped hfull hclose hleave =>
    obtain ⟨hv, hless, hloop⟩ := stepped_spec hstepped hs
    obtain ⟨hclosed, hw, -⟩ := closed_parsing hclose hv
    obtain ⟨k, rfl⟩ := Nat.exists_eq_add_of_lt ((Nat.zero_le _).trans_lt (hless.trans_le hk))
    rw [Nat.zero_add]
    rw [hloop, if_pos ((closeDue_iff _).2 hfull), hclosed, if_pos (hleave.imp_left (raised_iff _).2)]
    exact ⟨rfl, hw.running⟩

/-! The end of the call. -/

/-- The flush at the end of the call run as instructions is the flush of the model (R267). -/
theorem endFlush_of_flushed {fl : FlushMode} {u w : State} (h : Flushed fl u w) (hrun : u.halt = none) :
    endFlush fl u = w ∧ w.halt = none := by
  have hread : u.call.inLen.toNat ≤ u.call.srcPos.toNat ↔ srcLeft u = 0 := Nat.sub_eq_zero_iff_le.symm
  unfold Flushed at h
  simp only [hread] at h
  split at h
  case isFalse hidle =>
    subst h
    exact ⟨if_neg hidle, hrun⟩
  case isTrue hdue =>
    obtain ⟨hfl, hempty, hsrc, hnone⟩ := hdue
    obtain ⟨v, hclose, h⟩ := h
    obtain ⟨hv, rfl⟩ := settle_eq_next.1 hclose
    have hflush := endFlush_eq hfl hempty hsrc hnone
    rw [hflush]
    change (opDrvCloseBlock fl u).halt = none at hv
    split at h
    case isTrue hraised =>
      subst h
      exact ⟨if_pos ((raised_iff _).2 hraised), hv⟩
    case isFalse hok =>
      rw [if_neg (mt (raised_iff _).1 hok)]
      cases fl with
      | none => exact absurd rfl hfl
      | sync => exact ⟨h.symm, h ▸ hv⟩
      | finish => exact ⟨h.symm, h ▸ hv⟩
      | full =>
        obtain ⟨hw, rfl⟩ := settle_eq_next.1 h
        exact ⟨rfl, hw⟩

/-- The end of the call run as instructions is the end of the model's call (R268). -/
theorem finishCall_of_answered {w t : State} (h : Answered w t) : finishCall w = t ∧ t.halt = none := by
  obtain ⟨x, hdrain, hanswer⟩ := h
  obtain ⟨-, rfl⟩ := settle_eq_next.1 hdrain
  have hstatus : exec (if (opDrvDrain w).ctl.finished = true ∧ (opDrvDrain w).drv.flushRemaining = 0 then .statusDone
      else .statusOkay) (opDrvDrain w) = settle (raise (callStatus (opDrvDrain w)) (opDrvDrain w)) := by
    unfold callStatus
    split <;> rfl
  obtain ⟨hrun, rfl⟩ := settle_eq_next.1 (hstatus.symm.trans hanswer)
  exact ⟨rfl, hrun⟩

/-- A call that parses, run as instructions, is the call of the model (R251, R302). -/
theorem callBody_of_callRuns {fl : FlushMode} {b t : State} (h : CallRuns fl b t) (hb : Parsing b)
    (hnone : b.drv.flushRemaining = 0) (hfin : b.ctl.finished = false) : callBody fl b = t ∧ t.halt = none := by
  obtain ⟨u, hparsed, h⟩ := h
  obtain ⟨hloop, hu⟩ := parseLoop_of_parsed hparsed le_rfl hb
  rw [callBody, if_neg (by simp [hnone, hfin]), hloop]
  dsimp only
  split at h
  case isTrue hraised =>
    subst h
    exact ⟨if_pos ((raised_iff _).2 hraised), hu⟩
  case isFalse hok =>
    obtain ⟨w, hflushed, h⟩ := h
    obtain ⟨hflush, hw⟩ := endFlush_of_flushed hflushed hu
    rw [if_neg (mt (raised_iff _).1 hok), hflush]
    split at h
    case isTrue hraised =>
      subst h
      exact ⟨if_pos ((raised_iff _).2 hraised), hw⟩
    case isFalse hok' =>
      rw [if_neg (mt (raised_iff _).1 hok')]
      exact finishCall_of_answered h

/-- Settles O15: short input takes at most one round of the loop, which stops before the parse step; in general the loop's
rounds and the end of the call are the micro-operations, one by one. -/
theorem noneTakesInput : Obligations.NoneTakesInput := by
  unfold Obligations.NoneTakesInput
  refine ⟨fun ip op il oc s hrun hdict haccepted hnone hfin hlag hshort => ?_,
    fun fl ip op il oc s t hrun hdriving haccepted hnone hfin hruns => ?_⟩
  · have hok := prevStatus_of_accepted haccepted
    obtain ⟨w, size, ds, q, x, hparse, hsize, hbytes⟩ :=
      parseLoop_short (b := callBegun .none ip op il oc s) hrun hdict hlag rfl hshort
    have hbody := callBody_of_parsed_none hparse ⟨hnone, hfin⟩ ⟨hnone, hfin⟩ hok
    have hexec : exec (.compressNone ip op il oc) s = settle (callBody .none (callBegun .none ip op il oc s)) :=
      exec_compressOf_accepted (fl := .none) haccepted
    rw [hbody] at hexec
    exact ⟨_, hexec.trans (settle_of_running hrun), rfl, hsize, rfl, hbytes, rfl, rfl, rfl, rfl, rfl, rfl,
      Bool.or_false _, hfin, rfl⟩
  · have hbegun : Parsing (callBegun fl ip op il oc s) := ⟨hrun, hdriving.ahead, fun hheld => by
      obtain ⟨-, -, -, hlen3, -, -, -, hreach⟩ := hdriving.held hheld
      exact ⟨hlen3, hreach⟩⟩
    obtain ⟨hbody, hdone⟩ := callBody_of_callRuns hruns hbegun hnone hfin
    rw [exec_compressOf_accepted haccepted, hbody]
    exact settle_of_running hdone

end Sys2Proof.Proofs.DriverUnit

/-! The whole machine: idle steps, the state after power-on, INIT. -/

namespace Sys2Proof.Proofs.WholeMachine

open Sys2Proof Sys2Proof.Machine Sys2Proof.Laws Sys2Proof.Proofs.HostCalls Sys2Proof.Proofs.Encoding
  Sys2Proof.Proofs.Dictionary

/-- A running instance without a request does nothing (R35). -/
theorem step_of_no_request {s : State} (hrun : s.halt = none) (hidle : s.host.requests = []) : step s = .next s := by
  simp only [step, hrun, fetch, hidle]

/-- A stopped instance answers its stop again (R303). -/
theorem step_of_stopped {s : State} (hstop : s.halt ≠ none) : step s = settle s := by
  obtain ⟨r, hr⟩ := Option.ne_none_iff_exists'.1 hstop
  simp only [step, hr]

/-- Settles O7: without a request nothing is fetched; a stopped instance settles on its stop. -/
theorem stepIdleOrStopped : Obligations.StepIdleOrStopped := by
  unfold Obligations.StepIdleOrStopped
  refine ⟨fun s hrun hidle => step_of_no_request hrun hidle, fun s t hstop hnext => ?_⟩
  rw [step_of_stopped hstop] at hnext
  exact hstop (settle_eq_next.1 hnext).1

/-- Settles O8: after power-on `INITED` is 0, the first condition of R252. -/
theorem powerOnRejectsCompress : Obligations.PowerOnRejectsCompress := by
  unfold Obligations.PowerOnRejectsCompress
  refine ⟨rfl, if_pos rfl, fun i ⟨f, ip, op, il, oc⟩ hparts => ?_⟩
  exact exec_of_rejected rfl hparts (Or.inl rfl)

theorem fits_nil {w : Nat} (n : Nat) : Mem.fits ([] : Mem w) n := ⟨wf_nil, fun _ h => absurd h List.not_mem_nil⟩

/-- Memories that list nothing are canonical, of whatever size (R60). -/
theorem reset_canonical : State.reset.Canonical where
  dict := fits_nil _
  head := fits_nil _
  next := fits_nil _
  lzCode := fits_nil _
  lzFlags := fits_nil _
  stage := fits_nil _
  table t := by cases t <;> exact ⟨fits_nil _, fits_nil _, fits_nil _, fun _ h => absurd h List.not_mem_nil⟩
  input := wf_nil
  output := wf_nil
  requests := fun _ h => absurd h List.not_mem_nil

/-- With nothing read, recorded or held the invariants of R33 are those of empty memories and zero registers. -/
theorem reset_driving : Driving 65528 State.reset where
  canonical := wf_nil
  window := by decide
  ahead := by decide
  mirror := fun _ _ => rfl
  recorded := by decide
  span := rfl
  bits := by unfold Encoder.Sound; decide
  staged := by decide
  behind := by decide
  pending := fun h => absurd rfl h
  sink := fun _ => rfl
  held := fun h => absurd rfl h

/-- Settles O9: each invariant of an empty state. -/
theorem resetMeetsInvariants : Obligations.ResetMeetsInvariants := by
  unfold Obligations.ResetMeetsInvariants
  exact ⟨reset_canonical, reset_driving, ⟨wf_nil, wf_nil, rfl, rfl⟩, rfl⟩

/-- INIT completes in every running state (R250). -/
theorem exec_init {s : State} (hrun : s.halt = none) (flags : BitVec 20) (sink : Bool) :
    exec (.init flags sink) s = .next (opInit flags sink s) :=
  exec_of_running rfl rfl hrun

/-- Settles O10: what INIT writes it writes outright, and the driver state follows from the registers. -/
theorem initLeaves : Obligations.InitLeaves := by
  unfold Obligations.InitLeaves
  intro flags sink s hrun
  exact ⟨_, exec_init hrun flags sink, rfl, rfl, fun _ => ⟨rfl, rfl⟩, rfl, rfl, rfl, fun _ => ⟨rfl, rfl⟩, rfl, rfl, rfl, rfl,
    rfl, rfl, rfl, rfl, rfl, hrun, rfl⟩

end Sys2Proof.Proofs.WholeMachine

/-! The driver family: DRV.CATCHUP. -/

namespace Sys2Proof.Proofs.DriverUnit

open Sys2Proof Sys2Proof.Machine Sys2Proof.Laws Sys2Proof.Proofs.Dictionary

/-- How many insertions DRV.CATCHUP makes: the lag, but for positions whose third byte is not there yet (R258). -/
def catchupCount (s : State) : Nat := lag s - (2 - s.drv.lookaheadSize.toNat)

/-- The state after the `n` oldest positions of the lag were inserted (R142, R258). -/
def insertedRun (n : Nat) (s : State) : State :=
  (s.setWin (insertRun n s.drv.insPos s.win)).setDrv { s.drv with insPos := s.drv.insPos + BitVec.ofNat 32 n }

theorem insertedRun_zero (s : State) : insertedRun 0 s = s := by
  have hsame : s.drv.insPos + BitVec.ofNat 32 0 = s.drv.insPos := BitVec.add_zero _
  rw [insertedRun, hsame]
  rfl

/-- The oldest position first, then the others. -/
theorem insertedRun_succ (n : Nat) (s : State) : insertedRun n (insertedRun 1 s) = insertedRun (n + 1) s := by
  have hnext : s.drv.insPos + BitVec.ofNat 32 1 + BitVec.ofNat 32 n = s.drv.insPos + BitVec.ofNat 32 (n + 1) := by
    rw [BitVec.add_assoc, ← BitVec.ofNat_add, Nat.add_comm 1]
  simp only [insertedRun, setDrv_drv, setDrv_win, setWin_win, hnext]
  rfl

/-- An insertion lowers the lag by one. -/
theorem lag_insertedRun_one {s : State} (h : lag s ≠ 0) : lag (insertedRun 1 s) = lag s - 1 := by
  show (s.drv.lookaheadPos - (s.drv.insPos + BitVec.ofNat 32 1)).toNat = _
  rw [sub_add_eq_sub_sub, BitVec.toNat_sub, show (BitVec.ofNat 32 1).toNat = 1 from rfl]
  have := (s.drv.lookaheadPos - s.drv.insPos).isLt
  change (s.drv.lookaheadPos - s.drv.insPos).toNat ≠ 0 at h
  rw [lag]
  omega

/-- A position passed by at most 258 bytes, three of them in the window, is inserted (R142). -/
theorem opDictInsert_of_lag {s : State} (hlag : lag s ≤ 258) (hthree : 3 ≤ lag s + s.drv.lookaheadSize.toNat) :
    opDictInsert s.drv.insPos s = s.setWin (chainInsert s.win s.drv.insPos) := by
  refine if_pos ((insertable_iff _ _).2 ?_)
  have hsize := s.drv.lookaheadSize.isLt
  rw [lag] at hlag hthree
  rw [add_sub_right_comm, BitVec.toNat_add, BitVec.toNat_setWidth]
  omega

/-- The loop of DRV.CATCHUP inserts while a position of the lag has its three bytes (R258). -/
theorem catchupLoop_eq {k : Nat} {s : State} (hk : lag s ≤ k) (hlag : lag s ≤ 258) :
    catchupLoop k s = insertedRun (catchupCount s) s := by
  induction k generalizing s with
  | zero =>
    rw [catchupCount, Nat.le_zero.1 hk, Nat.zero_sub, insertedRun_zero]
    rfl
  | succ k ih =>
    rw [catchupLoop]
    dsimp only
    rw [← lag]
    split
    case isTrue hmore =>
      obtain ⟨hbehind, hthree⟩ := hmore
      have hnext := lag_insertedRun_one hbehind
      have hcount : catchupCount s = catchupCount (insertedRun 1 s) + 1 := by
        rw [catchupCount, catchupCount, hnext]
        show _ = lag s - 1 - (2 - s.drv.lookaheadSize.toNat) + 1
        omega
      rw [opDictInsert_of_lag hlag hthree, hcount, ← insertedRun_succ]
      exact ih (s := insertedRun 1 s) (by omega) (by omega)
    case isFalse hdone =>
      rw [show catchupCount s = 0 by rw [catchupCount]; omega, insertedRun_zero]

/-- DRV.CATCHUP with a lag the driver reaches (R258). -/
theorem opDrvCatchup_eq {s : State} (hlag : lag s ≤ 258) : opDrvCatchup s = insertedRun (catchupCount s) s :=
  catchupLoop_eq le_rfl hlag

/-- Settles O45: the loop is a run of insertions, which stops nothing. -/
theorem catchupInserts : Obligations.CatchupInserts := by
  unfold Obligations.CatchupInserts
  intro s hrun hlag
  exact exec_of_running rfl (opDrvCatchup_eq hlag) hrun

end Sys2Proof.Proofs.DriverUnit

/-! The whole machine: every instruction but INIT as single writes, each to one part of the state. -/

namespace Sys2Proof.Proofs.WholeMachine

open Sys2Proof Sys2Proof.Machine Sys2Proof.Laws Sys2Proof.Proofs.HostCalls Sys2Proof.Proofs.Encoding
  Sys2Proof.Proofs.Dictionary Sys2Proof.Proofs.LengthLimit Sys2Proof.Proofs.CodeLengthPlan Sys2Proof.Proofs.DriverUnit

/-- Every table is canonical (R24). -/
def TablesCanonical (h : Huffman) : Prop := ∀ t, (h.get t).Canonical (numSyms t) (codeLimit t)

/-- What only INIT changes of the control registers stays, and the latches of a stream stay set (R29, R342). -/
structure Latched (c c' : Control) : Prop where
  flags : c'.flags = c.flags
  probes : c'.maxProbes = c.maxProbes
  sink : c'.sinkMode = c.sinkMode
  inited : c'.inited = c.inited
  finished : c.finished = true → c'.finished = true
  wantsFinish : c.wantsFinish = true → c'.wantsFinish = true

/-- What an instruction leaves of the host's side: the requests, the input slice, a canonical output slice (R60, R66). -/
structure Answering (h h' : HostSide) : Prop where
  requests : h'.requests = h.requests
  input : h'.inSlice = h.inSlice
  output : Mem.wf h.outSlice → Mem.wf h'.outSlice

/-- A single write to a part of the state, with what the operation that makes it has checked; a stop counts as a write to
any part. -/
inductive Write : UnitName → State → State → Prop
  /-- A byte of the window (R141). -/
  | byte (s q c) : Write .win s (s.setWin { s.win with dict := windowWrite s.win.dict q c })
  /-- A position into its chain (R142). -/
  | chained (s q) : Write .win s (s.setWin (chainInsert s.win q))
  /-- All chains emptied (R145). -/
  | forgotten (s) : Write .win s (s.setWin { s.win with head := [], next := [] })
  /-- A record, where one fits (R160 to R162). -/
  | recorded (s bytes f n) : recordable s = true → bytes.length ≤ 3 →
      Write .lz s (s.setLz (appendRecord s.lz bytes f n))
  /-- All records dropped (R163). -/
  | emptied (s) : Write .lz s (s.setLz { s.lz with lzCodeLen := 0, lzOpCount := 0, totalLzBytes := 0 })
  /-- The tables, which stay canonical (R24). -/
  | tables (s h) : (TablesCanonical s.huf → TablesCanonical h) → Write .huf s (s.setHuf h)
  /-- A field of the bitstream in the range of R210. -/
  | field (s v n) : n ≤ 16 → v < 2 ^ n → Write .enc s (putField v n s)
  /-- The staging buffer started anew (R265). -/
  | restaged (s) : Write .enc s (s.setEnc { s.enc with stagePos := 0 })
  /-- The registers of the driver; in sink mode the count of pending bytes stays (R33 item 11). -/
  | registers (s d) : (s.ctl.sinkMode = true → d.flushRemaining = s.drv.flushRemaining) → Write .drv s (s.setDrv d)
  /-- The control registers (R27). -/
  | control (s c) : Latched s.ctl c → Write .ctl s (s.setCtl c)
  /-- The per-call registers (R31). -/
  | call (s v) : Write .call s (s.setCall v)
  /-- The working values (R36). -/
  | work (s v) : Write .work s (s.setWork v)
  /-- The host's side (R66, R91, R266). -/
  | host (s v) : Answering s.host v → Write .host s (s.setHost v)
  /-- A free value drawn (log entry 26). -/
  | drawn (s) : Write .draws s s.drawn
  /-- A stop (R303). -/
  | stopped (u s r) : Write u s (s.stop r)

/-- From `s` to `t` by single writes to the parts `us`. -/
abbrev Writing (us : List UnitName) : State → State → Prop := Relation.ReflTransGen fun s t => ∃ u ∈ us, Write u s t

theorem Write.writing {us : List UnitName} {u : UnitName} {s t : State} (h : Write u s t) (hu : u ∈ us) : Writing us s t :=
  .single ⟨u, hu, h⟩

section Operations

variable {us : List UnitName}

theorem setDrv_writing (hr : .drv ∈ us) (s : State) (d : Driver)
    (h : s.ctl.sinkMode = true → d.flushRemaining = s.drv.flushRemaining) :
    Writing us s (s.setDrv d) :=
  (Write.registers s d h).writing hr

theorem setCtl_writing (hc : .ctl ∈ us) (s : State) (c : Control)
    (h : Latched s.ctl c) : Writing us s (s.setCtl c) :=
  (Write.control s c h).writing hc

theorem setHost_writing (ho : .host ∈ us) (s : State) (v : HostSide)
    (h : Answering s.host v) : Writing us s (s.setHost v) :=
  (Write.host s v h).writing ho

/-- A loop over a list writes what its rounds write. -/
theorem foldl_writing {α : Type} {f : State → α → State} (hf : ∀ s x, Writing us s (f s x)) (l : List α) (s : State) :
    Writing us s (l.foldl f s) := by
  induction l generalizing s with
  | nil => exact .refl
  | cons x l ih => exact (hf s x).trans (ih _)

/-! The emitters. -/

theorem putFree_writing (he : .enc ∈ us) (i n : Nat) (s : State) : Writing us s (putFree i n s) := by
  induction n generalizing i s with
  | zero => exact .refl
  | succ n ih => exact ((Write.field s _ 1 (by decide) (Bool.toNat_lt _)).writing he).trans (ih _ _)

/-- A field in the range of R210 draws no free value. -/
theorem putBits_fits_writing (he : .enc ∈ us) {v n : Nat} (hf : n ≤ 16 ∧ v < 2 ^ n) (s : State) :
    Writing us s (putBits v n s) := by
  rw [putBits, if_pos hf]
  exact (Write.field s v n hf.1 hf.2).writing he

theorem putBits_writing (he : .enc ∈ us) (hd : .draws ∈ us) (v n : Nat) (s : State) : Writing us s (putBits v n s) := by
  by_cases hf : n ≤ 16 ∧ v < 2 ^ n
  · exact putBits_fits_writing he hf s
  · rw [putBits, if_neg hf]
    exact (putFree_writing he 0 n s).trans ((Write.drawn _).writing hd)

theorem opEncPad_writing (he : .enc ∈ us) (s : State) : Writing us s (opEncPad s) := by
  unfold opEncPad
  split
  · exact .refl
  · exact putBits_fits_writing he ⟨by omega, Nat.two_pow_pos _⟩ s

theorem opEncZlibHdr_writing (he : .enc ∈ us) (s : State) : Writing us s (opEncZlibHdr s) :=
  ((Write.field s _ 8 (by decide) (by decide)).writing he).trans
    ((Write.field _ _ 8 (by decide) (BitVec.isLt _)).writing he)

theorem putHeader_writing (he : .enc ∈ us) (bfinal : Bool) (bt : BlockType) (s : State) :
    Writing us s (putHeader bfinal bt s) :=
  (putBits_fits_writing he ⟨by decide, Bool.toNat_lt _⟩ s).trans
    (putBits_fits_writing he ⟨by decide, by cases bt <;> decide⟩ _)

theorem putType_writing (he : .enc ∈ us) (bt : BlockType) (s : State) : Writing us s (putType bt s) :=
  putBits_fits_writing he ⟨by decide, by cases bt <;> decide⟩ s

theorem putSymbol_writing (he : .enc ∈ us) (hd : .draws ∈ us) (t : Table) (sym x n : Nat) (s : State) :
    Writing us s (putSymbol t sym x n s) :=
  (putBits_writing he hd _ _ s).trans (putBits_writing he hd x n _)

theorem putMatch_writing (he : .enc ∈ us) (hd : .draws ∈ us) (l3 d1 : Nat) (s : State) :
    Writing us s (putMatch l3 d1 s) :=
  (putSymbol_writing he hd .litLen _ _ _ s).trans (putSymbol_writing he hd .dist _ _ _ _)

theorem putRecords_writing (he : .enc ∈ us) (hd : .draws ∈ us) (n k pos : Nat) (s : State) :
    Writing us s (putRecords n k pos s) := by
  have hfault : Writing us s (s.faulted .lzCodeRange) := (Write.stopped .enc s _).writing he
  induction n generalizing k pos s with
  | zero => exact .refl
  | succ n ih =>
    have hfault' (s : State) : Writing us s (s.faulted .lzCodeRange) := (Write.stopped .enc s _).writing he
    unfold putRecords
    split
    · exact hfault
    · split
      · split
        · exact (putMatch_writing he hd _ _ s).trans (ih _ _ _ (hfault' _))
        · exact hfault
      · split
        · exact (putBits_writing he hd _ _ s).trans (ih _ _ _ (hfault' _))
        · exact hfault

theorem opEncPayload_writing (he : .enc ∈ us) (hd : .draws ∈ us) (s : State) : Writing us s (opEncPayload s) :=
  (putRecords_writing he hd _ 0 0 s).trans (putBits_writing he hd _ _ _)

theorem putWindow_writing (he : .enc ∈ us) (n : Nat) (q : BitVec 32) (s : State) : Writing us s (putWindow n q s) := by
  induction n generalizing q s with
  | zero => exact .refl
  | succ n ih => exact (putBits_fits_writing he ⟨by decide, BitVec.isLt _⟩ s).trans (ih _ _)

theorem opEncStored_writing (he : .enc ∈ us) (s : State) : Writing us s (opEncStored s) :=
  ((putType_writing he .stored s).trans (opEncPad_writing he _)).trans
    (((putBits_fits_writing he ⟨by decide, BitVec.isLt _⟩ _).trans
      (putBits_fits_writing he ⟨by decide, BitVec.isLt _⟩ _)).trans (putWindow_writing he _ _ _))

theorem opEncDynHdr_writing (he : .enc ∈ us) (hd : .draws ∈ us) (s : State) : Writing us s (opEncDynHdr s) :=
  (((putType_writing he .dynamic s).trans (putBits_writing he hd _ 5 _)).trans
    ((putBits_writing he hd _ 5 _).trans (putBits_writing he hd _ 4 _))).trans
    ((foldl_writing (fun _ _ => putBits_writing he hd _ 3 _) _ _).trans
      (foldl_writing (fun _ _ => putSymbol_writing he hd .codeLen _ _ _ _) _ _))

theorem opEncTrailer_writing (he : .enc ∈ us) (s : State) : Writing us s (opEncTrailer s) := by
  unfold opEncTrailer
  dsimp only
  split
  · exact (opEncPad_writing he s).trans
      (foldl_writing (fun _ _ => putBits_fits_writing he ⟨by decide, Nat.mod_lt _ (Nat.two_pow_pos 8)⟩ _) _ _)
  · exact opEncPad_writing he s

theorem opEncSyncMark_writing (he : .enc ∈ us) (s : State) : Writing us s (opEncSyncMark s) :=
  ((putBits_fits_writing he (by decide) s).trans (opEncPad_writing he _)).trans
    ((putBits_fits_writing he (by decide) _).trans (putBits_fits_writing he (by decide) _))

/-! The tables. -/

theorem canonical_set {h : Huffman} (hc : TablesCanonical h) {t : Table} {v : HuffTable}
    (hv : v.Canonical (numSyms t) (codeLimit t)) : TablesCanonical (h.set t v) := fun u => by
  by_cases hu : u = t
  · subst hu
    rwa [get_set_same]
  · rw [get_set_ne h t u v hu]
    exact hc u

/-- A table replaced by a canonical one. -/
theorem setTable_writing (hh : .huf ∈ us) (t : Table) (v : HuffTable) (s : State)
    (hv : TablesCanonical s.huf → v.Canonical (numSyms t) (codeLimit t)) : Writing us s (s.setTable t v) :=
  (Write.tables s _ fun hc => canonical_set hc (hv hc)).writing hh

theorem write_fits {w n a : Nat} {m : Mem w} (h : Mem.fits m n) (ha : a < n) (v : BitVec w) : Mem.fits (Mem.write m a v) n :=
  ⟨write_wf h.1 a v, write_below h.2 ha⟩

/-- A counter of a symbol of the table replaced (R160, R161, R265). -/
theorem setCount_writing (hh : .huf ∈ us) (t : Table) {sym : Nat} (hsym : sym < numSyms t) (x : BitVec 16) (s : State) :
    Writing us s (s.setTable t { s.huf.get t with count := Mem.write (s.huf.get t).count sym x }) :=
  setTable_writing hh t _ s fun hc => { hc t with count := write_fits (hc t).count hsym x }

/-- The sizes dealt are lengths below the limit, of symbols of the table (R184). -/
theorem mem_assignedSizes {t : Table} {w : Work} (h : sizeable t w = true) {c : Nat × BitVec 8}
    (hc : c ∈ assignedSizes (codeLimit t) w.sym w.num) : c.1 < numSyms t ∧ c.2.toNat ≤ codeLimit t := by
  simp only [sizeable, Bool.and_eq_true, decide_eq_true_eq, List.all_eq_true] at h
  obtain ⟨hfew, hsyms⟩ := h
  have hlimit : codeLimit t < 256 := by cases t <;> decide
  have hpair : ∀ p ∈ w.sym.reverse.zip (dealtLengths (codeLimit t) w.num), p.1.sym < numSyms t ∧ p.2 ≤ codeLimit t :=
    fun p hp => by
      have htake : p ∈ (w.sym.reverse.take (dealtLengths (codeLimit t) w.num).length).zip
          (dealtLengths (codeLimit t) w.num) := by
        rwa [List.zip_eq_zip_take_min, List.length_reverse, Nat.min_eq_right hfew, List.take_length] at hp
      exact ⟨hsyms _ (List.of_mem_zip htake).1, (mem_dealtLengths (List.of_mem_zip htake).2).2⟩
  suffices ∀ (l : List (SymKey × Nat)) (m : Mem 8), (∀ p ∈ l, p.1.sym < numSyms t ∧ p.2 ≤ codeLimit t) →
      (∀ c ∈ m, c.1 < numSyms t ∧ c.2.toNat ≤ codeLimit t) →
      ∀ c ∈ l.foldl (fun m p => Mem.write m p.1.sym (BitVec.ofNat 8 p.2)) m, c.1 < numSyms t ∧ c.2.toNat ≤ codeLimit t from
    this _ [] hpair (fun _ h => absurd h List.not_mem_nil) c hc
  intro l
  induction l with
  | nil => exact fun _ _ hm => hm
  | cons p l ih =>
    intro m hl hm
    refine ih _ (fun q hq => hl q (List.mem_cons_of_mem _ hq)) fun d hd => ?_
    rcases mem_write hd with rfl | hd
    · obtain ⟨hsym, hlen⟩ := hl p List.mem_cons_self
      refine ⟨hsym, ?_⟩
      rw [BitVec.toNat_ofNat, Nat.mod_eq_of_lt (by omega)]
      exact hlen
    · exact hm d hd

/-- The codes of a table are those of its symbols (R185). -/
theorem assignedCodes_fits {n limit : Nat} {size : Mem 8} (h : Mem.wf size) : Mem.fits (assignedCodes n limit size) n := by
  refine ⟨assignedCodes_wf n limit h, fun c hc => ?_⟩
  obtain ⟨u, hu, hcu⟩ := mem_codesFrom hc
  have hlow := (List.mem_filter.1 hu).2
  rw [Bool.and_eq_true, decide_eq_true_eq] at hlow
  rw [hcu]
  exact hlow.1

theorem opHufLimit_writing (hw : .work ∈ us) (limit : Nat) (s : State) : Writing us s (opHufLimit limit s) := by
  unfold opHufLimit
  split
  · exact (Write.work s _).writing hw
  · exact (Write.stopped .work s _).writing hw

theorem opHufAssignSizes_writing (hh : .huf ∈ us) (t : Table) (s : State) : Writing us s (opHufAssignSizes t s) := by
  unfold opHufAssignSizes
  split
  case isTrue hsize =>
    refine setTable_writing hh t _ s fun hc => ⟨(hc t).count, ⟨assignedSizes_wf _ _ _, fun c hc => ?_⟩, fits_nil _, fun c hc => ?_⟩
    · exact (mem_assignedSizes hsize hc).1
    · exact (mem_assignedSizes hsize hc).2
  case isFalse => exact (Write.stopped .huf s _).writing hh

theorem opHufAssignCodes_writing (hh : .huf ∈ us) (t : Table) (s : State) : Writing us s (opHufAssignCodes t s) :=
  setTable_writing hh t _ s fun hc => { hc t with code := assignedCodes_fits (hc t).size.1 }

theorem opHufBuild_writing (hh : .huf ∈ us) (hw : .work ∈ us) (t : Table) (s : State) : Writing us s (opHufBuild t s) :=
  ((((Write.work s _).writing hw).trans ((Write.work _ _).writing hw)).trans
    (((Write.work _ _).writing hw).trans ((Write.work _ _).writing hw))).trans
    ((opHufLimit_writing hw _ _).trans ((opHufAssignSizes_writing hh t _).trans (opHufAssignCodes_writing hh t _)))

theorem mem_tabulate {w n : Nat} {f : Nat → BitVec w} {c : Nat × BitVec w} (h : c ∈ Mem.tabulate n f) :
    c.1 < n ∧ c.2 = f c.1 := by
  obtain ⟨i, hi, hc⟩ := List.mem_filterMap.1 h
  split at hc
  case isTrue => cases hc
  case isFalse => cases hc; exact ⟨List.mem_range.1 hi, rfl⟩

/-- The fixed lengths are in the range of their tables (R104). -/
theorem staticSizes_canonical {h : Huffman} (hc : TablesCanonical h) : TablesCanonical { h with
      litLen := { h.litLen with size := staticLitLenSizes }, dist := { h.dist with size := staticDistSizes } } := by
  have hlit (a : Nat) : (BitVec.ofNat 8 (staticLitLenSize a)).toNat ≤ 15 := by
    rw [BitVec.toNat_ofNat, staticLitLenSize]
    split_ifs <;> decide
  have hdist (a : Nat) : (BitVec.ofNat 8 (staticDistSize a)).toNat ≤ 15 := show 5 ≤ 15 by decide
  intro t
  cases t with
  | litLen => exact { hc .litLen with
      size := ⟨tabulate_wf _ _, fun c hm => (mem_tabulate hm).1⟩
      capped := fun c hm => by rw [(mem_tabulate hm).2]; exact hlit _ }
  | dist => exact { hc .dist with
      size := ⟨tabulate_wf _ _, fun c hm => (mem_tabulate hm).1⟩
      capped := fun c hm => by rw [(mem_tabulate hm).2]; exact hdist _ }
  | codeLen => exact hc .codeLen

theorem opHufLoadStatic_writing (hh : .huf ∈ us) (s : State) : Writing us s (opHufLoadStatic s) :=
  (((Write.tables s _ staticSizes_canonical).writing hh).trans (opHufAssignCodes_writing hh .litLen _)).trans
    (opHufAssignCodes_writing hh .dist _)

theorem opEncStaticHdr_writing (hh : .huf ∈ us) (he : .enc ∈ us) (s : State) : Writing us s (opEncStaticHdr s) :=
  (opHufLoadStatic_writing hh s).trans (putType_writing he .static _)

/-- The length read of a canonical table is within the table's limit. -/
theorem read_le_of_capped {m : Mem 8} {limit : Nat} (hw : Mem.wf m) (h : ∀ c ∈ m, c.2.toNat ≤ limit) (a : Nat) :
    (Mem.read m a).toNat ≤ limit := by
  by_cases hzero : Mem.read m a = 0
  · rw [hzero]
    exact Nat.zero_le _
  · exact h _ (HuffmanUnit.mem_of_read_ne hw hzero)

theorem mem_readRun {w : Nat} {m : Mem w} {a n : Nat} {v : BitVec w} (h : v ∈ Mem.readRun m a n) : ∃ b, v = Mem.read m b := by
  induction n generalizing a with
  | zero => cases h
  | succ n ih =>
    rcases List.mem_cons.1 h with rfl | h
    · exact ⟨a, rfl⟩
    · exact ih h

/-- The lengths ENC.CL_PLAN packs are at most 15 (R24, R214). -/
theorem lengthSequence_lt {h : Huffman} (hc : TablesCanonical h) (numLit numDist : Nat) :
    ∀ cs ∈ lengthSequence h numLit numDist, cs < 16 := fun cs hcs => by
  have hlit := read_le_of_capped (hc .litLen).size.1 (hc .litLen).capped
  have hdist := read_le_of_capped (hc .dist).size.1 (hc .dist).capped
  rcases List.mem_append.1 hcs with hm | hm
  · obtain ⟨v, hv, rfl⟩ := List.mem_map.1 hm
    obtain ⟨b, rfl⟩ := mem_readRun hv
    exact Nat.lt_succ_of_le (hlit b)
  · obtain ⟨v, hv, rfl⟩ := List.mem_map.1 hm
    obtain ⟨b, rfl⟩ := mem_readRun hv
    exact Nat.lt_succ_of_le (hdist b)

/-- The counts of the packing are those of the 19 code-length symbols (R101, R214). -/
theorem packLengths_fits {seq : List Nat} (hseq : ∀ cs ∈ seq, cs < 16) : Mem.fits (packLengths seq).count 19 := by
  obtain ⟨-, hfit, ⟨hwf, hread⟩, -⟩ := packLengths_spec hseq
  refine ⟨hwf, fun c hc => ?_⟩
  by_contra hbeyond
  have hnone : (packLengths seq).packed.countP (fun e => e.c == c.1) = 0 := List.countP_eq_zero.2 fun e he hce => by
    have := (hfit e he).1
    rw [beq_iff_eq] at hce
    omega
  have hzero := hread c.1
  rw [hnone, read_of_mem hwf hc] at hzero
  exact hwf.2 c hc hzero

theorem opEncClPlan_writing (hh : .huf ∈ us) (hw : .work ∈ us) (s : State) : Writing us s (opEncClPlan s) := by
  unfold opEncClPlan
  refine (Relation.ReflTransGen.trans (setTable_writing hh .codeLen _ s fun hc => ?_)
    (opHufBuild_writing hh hw .codeLen _)).trans ((Write.work _ _).writing hw)
  exact { hc .codeLen with count := packLengths_fits (lengthSequence_lt hc _ _) }

/-! The window and the records. -/

theorem opDictInsert_writing (hw : .win ∈ us) (q : BitVec 32) (s : State) : Writing us s (opDictInsert q s) := by
  unfold opDictInsert
  split
  · exact (Write.chained s q).writing hw
  · exact (Write.stopped .win s _).writing hw

theorem runRead_writing (hd : .draws ∈ us) (n : BitVec 9) (s : State) : Writing us s (runRead n s) := by
  unfold runRead
  split
  · exact (Write.drawn s).writing hd
  · exact .refl

theorem opDictFind_writing (hw : .work ∈ us) (hd : .draws ∈ us) (p : BitVec 32) (maxDist : BitVec 16) (maxLen : BitVec 9)
    (priorDist : BitVec 16) (priorLen : BitVec 9) (s : State) :
    Writing us s (opDictFind p maxDist maxLen priorDist priorLen s) := by
  unfold opDictFind
  split
  · exact ((Write.work s _).writing hw).trans (runRead_writing hd _ _)
  · exact (Write.stopped .work s _).writing hw

theorem opDictRle_writing (hw : .work ∈ us) (hd : .draws ∈ us) (p : BitVec 32) (maxLen : BitVec 9) (s : State) :
    Writing us s (opDictRle p maxLen s) := by
  unfold opDictRle
  split
  · exact (Write.stopped .work s _).writing hw
  · exact ((Write.work s _).writing hw).trans (runRead_writing hd _ _)

theorem opDictResetChains_writing (hw : .win ∈ us) (hr : .drv ∈ us) (s : State) : Writing us s (opDictResetChains s) :=
  ((Write.forgotten s).writing hw).trans (setDrv_writing hr _ _ fun _ => by rfl)

theorem opRecLit_writing (hl : .lz ∈ us) (hh : .huf ∈ us) (b : BitVec 8) (s : State) : Writing us s (opRecLit b s) := by
  unfold opRecLit
  split
  case isTrue hroom =>
    exact ((Write.recorded s [b] false 1 hroom (by simp)).writing hl).trans
      (setCount_writing hh .litLen (b.isLt.trans (by decide)) _ _)
  case isFalse => exact (Write.stopped .lz s _).writing hl

/-- The symbols of a match in range are symbols of their tables (R98, R99). -/
theorem matchSyms_lt {len : BitVec 9} {dist : BitVec 16} (h : (Instr.recMatch len dist).wf = true) :
    lenSym len.toNat < numSyms .litLen ∧ distSym dist.toNat < numSyms .dist := by
  obtain ⟨⟨hlen3, hlen⟩, hdist1, hdist⟩ := (wf_recMatch_iff len dist).1 h
  have hlenSyms : ∀ r ∈ lenRows, r.sym < 288 := by decide
  have hdistSyms : ∀ r ∈ distRows, r.sym < 32 := by decide
  obtain ⟨r, hr, hbase, hlast⟩ := exists_lenRow hlen3 hlen
  obtain ⟨q, hq, hqbase, hqlast⟩ := exists_distRow hdist1 hdist
  refine ⟨?_, by rw [distSym_of_row hq hqbase hqlast]; exact hdistSyms q hq⟩
  rw [lenSym, rowOf_of_mem lenRows_sound.1 hr hbase hlast]
  exact hlenSyms r hr

theorem opRecMatch_writing (hl : .lz ∈ us) (hh : .huf ∈ us) (len : BitVec 9) (dist : BitVec 16) (s : State) :
    Writing us s (opRecMatch len dist s) := by
  unfold opRecMatch
  split
  case isTrue hwf =>
    obtain ⟨hlen, hdist⟩ := matchSyms_lt hwf
    split
    case isTrue hroom =>
      exact (((Write.recorded s _ _ _ hroom le_rfl).writing hl).trans (setCount_writing hh .litLen hlen _ _)).trans
        (setCount_writing hh .dist hdist _ _)
    case isFalse => exact (Write.stopped .lz s _).writing hl
  case isFalse => exact (Write.stopped .lz s _).writing hl

/-! The driver. -/

theorem opDrvAdler_writing (hc : .ctl ∈ us) (c : BitVec 8) (s : State) : Writing us s (opDrvAdler c s) :=
  setCtl_writing hc s _ (by exact ⟨rfl, rfl, rfl, rfl, id, id⟩)

theorem fillBytes_writing (hw : .win ∈ us) (hr : .drv ∈ us) (hc : .ctl ∈ us) (ha : .call ∈ us) (k : Nat) (s : State) :
    Writing us s (fillBytes k s) := by
  induction k generalizing s with
  | zero => exact .refl
  | succ k ih =>
    have hbyte (c : BitVec 8) (s : State) : Writing us s ((opDictWrite (fillPos s) c s).setDrv
        { s.drv with lookaheadSize := s.drv.lookaheadSize + 1 }) :=
      ((Write.byte s _ c).writing hw).trans (setDrv_writing hr _ _ fun _ => by rfl)
    refine Relation.ReflTransGen.trans ?_ (ih (fillOne s))
    unfold fillOne
    dsimp only
    split
    · exact (((Write.call s _).writing ha).trans (hbyte _ _)).trans (opDrvAdler_writing hc _ _)
    · exact ((Write.call s _).writing ha).trans (hbyte _ _)

theorem opDrvFill_writing (hw : .win ∈ us) (hr : .drv ∈ us) (hc : .ctl ∈ us) (ha : .call ∈ us) (s : State) :
    Writing us s (opDrvFill s) :=
  (fillBytes_writing hw hr hc ha _ s).trans (setDrv_writing hr _ _ fun _ => by rfl)

theorem catchupLoop_writing (hw : .win ∈ us) (hr : .drv ∈ us) (k : Nat) (s : State) : Writing us s (catchupLoop k s) := by
  induction k generalizing s with
  | zero => exact .refl
  | succ k ih =>
    unfold catchupLoop
    dsimp only
    split
    · exact ((opDictInsert_writing hw _ s).trans (setDrv_writing hr _ _ fun _ => by rfl)).trans (ih _)
    · exact .refl

theorem selectCandidate_writing (hw : .work ∈ us) (hd : .draws ∈ us) (s : State) : Writing us s (selectCandidate s).1 := by
  unfold selectCandidate
  dsimp only
  split
  · split
    · split <;> exact opDictRle_writing hw hd _ _ s
    · exact .refl
  · exact opDictFind_writing hw hd _ _ _ _ _ s

theorem decideStep_writing (hl : .lz ∈ us) (hh : .huf ∈ us) (hr : .drv ∈ us) (dist : BitVec 16) (len : BitVec 9)
    (s : State) : Writing us s (decideStep dist len s).1 := by
  unfold decideStep
  split
  · split
    · exact (opRecLit_writing hl hh _ s).trans (setDrv_writing hr _ _ fun _ => by rfl)
    · exact (opRecMatch_writing hl hh _ _ s).trans (setDrv_writing hr _ _ fun _ => by rfl)
  · split
    · exact opRecLit_writing hl hh _ s
    · split
      · exact opRecMatch_writing hl hh _ _ s
      · exact setDrv_writing hr s _ fun _ => by rfl

theorem opDrvParseStep_writing (hl : .lz ∈ us) (hh : .huf ∈ us) (hr : .drv ∈ us) (hw : .work ∈ us) (hd : .draws ∈ us)
    (s : State) : Writing us s (opDrvParseStep s) := by
  unfold opDrvParseStep
  split
  · exact (Write.stopped .lz s _).writing hl
  · exact ((selectCandidate_writing hw hd s).trans (decideStep_writing hl hh hr _ _ _)).trans
      (setDrv_writing hr _ _ fun _ => by rfl)

/-! Taking a status and handing bytes over. -/

theorem respond_writing (ho : .host ∈ us) (st : Status) (i o : BitVec 32) (s : State) : Writing us s (respond st i o s) :=
  setHost_writing ho s _ (by exact ⟨rfl, rfl, id⟩)

theorem raise_writing (hc : .ctl ∈ us) (ho : .host ∈ us) (st : Status) (s : State) : Writing us s (raise st s) := by
  have hrecord : Writing us s (setPrevStatus st s) := setCtl_writing hc s _ (by exact ⟨rfl, rfl, rfl, rfl, id, id⟩)
  cases st with
  | badParam => exact respond_writing ho _ _ _ s
  | putBufFailed | okay | done => exact hrecord.trans (respond_writing ho _ _ _ _)

theorem deliver_writing (ha : .call ∈ us) (ho : .host ∈ us) (a k : Nat) (s : State) : Writing us s (deliver a k s) :=
  (setHost_writing ho s _ (by exact ⟨rfl, rfl, fun h => writeRun_wf h _ _⟩)).trans ((Write.call _ _).writing ha)

theorem resume_writing (hr : .drv ∈ us) (ha : .call ∈ us) (ho : .host ∈ us) {s : State} (hslice : s.ctl.sinkMode = false) :
    Writing us s (resume s) := by
  rcases resume_cases s with ⟨-, hresume⟩ | ⟨-, hstop⟩
  · rw [hresume]
    exact (deliver_writing ha ho _ _ s).trans
      (setDrv_writing hr _ _ fun hsink => absurd (hslice.symm.trans hsink) nofun)
  · rw [hstop]
    exact (Write.stopped .drv s _).writing hr

theorem opDrvDrain_writing (hr : .drv ∈ us) (ha : .call ∈ us) (ho : .host ∈ us) (s : State) : Writing us s (opDrvDrain s) := by
  unfold opDrvDrain
  split
  case isTrue => exact .refl
  case isFalse hslice => exact resume_writing hr ha ho (Bool.not_eq_true _ ▸ hslice)

theorem handOver_writing (hr : .drv ∈ us) (hc : .ctl ∈ us) (ha : .call ∈ us) (ho : .host ∈ us) (s : State) :
    Writing us s (handOver s) := by
  have hsink (bytes : List (BitVec 8)) : Writing us s (sinkInvoked bytes s) := setHost_writing ho s _ (by exact ⟨rfl, rfl, id⟩)
  unfold handOver
  dsimp only
  split
  · exact .refl
  split
  · split
    · exact hsink _
    · exact (hsink _).trans (raise_writing hc ho _ _)
  case isFalse hslice =>
    split
    · exact (deliver_writing ha ho 0 _ s).trans (setDrv_writing hr _ _ fun hsink => absurd hsink hslice)
    · exact deliver_writing ha ho 0 _ s

/-! Closing a block. -/

theorem closeStart_writing (hh : .huf ∈ us) (he : .enc ∈ us) (hr : .drv ∈ us) (fl : FlushMode) (s : State) :
    Writing us s (closeStart fl s) := by
  have hcursors : Writing us s ((s.setEnc { s.enc with stagePos := 0 }).setDrv { s.drv with flushOfs := 0 }) :=
    ((Write.restaged s).writing he).trans (setDrv_writing hr _ _ fun _ => by rfl)
  have hfinal (s : State) : Writing us s (putFinal (fl == .finish) s) :=
    putBits_fits_writing he ⟨by decide, Bool.toNat_lt _⟩ s
  unfold closeStart
  dsimp only
  split
  · exact ((hcursors.trans (opEncZlibHdr_writing he _)).trans (hfinal _)).trans
      (setCount_writing hh .litLen (by decide) 1 _)
  · exact (hcursors.trans (hfinal _)).trans (setCount_writing hh .litLen (by decide) 1 _)

theorem closePlan_writing (hh : .huf ∈ us) (hw : .work ∈ us) (s : State) : Writing us s (closePlan s) :=
  ((opHufBuild_writing hh hw .litLen s).trans (opHufBuild_writing hh hw .dist _)).trans
    ((opEncClPlan_writing hh hw _).trans ((Write.work _ _).writing hw))

theorem encodeBlock_writing (hh : .huf ∈ us) (he : .enc ∈ us) (hd : .draws ∈ us) (bt : BlockType) (s : State) :
    Writing us s (encodeBlock bt s) := by
  cases bt with
  | stored => exact opEncStored_writing he s
  | static => exact (opEncStaticHdr_writing hh he s).trans (opEncPayload_writing he hd _)
  | dynamic => exact (opEncDynHdr_writing he hd s).trans (opEncPayload_writing he hd _)

theorem closeTail_writing (he : .enc ∈ us) (fl : FlushMode) (s : State) : Writing us s (closeTail fl s) := by
  cases fl with
  | none => exact .refl
  | sync | full => exact opEncSyncMark_writing he s
  | finish => exact opEncTrailer_writing he s

/-- Empty counts are canonical. -/
theorem noCounts_canonical {h : Huffman} (hc : TablesCanonical h) : TablesCanonical { h with
    litLen := { h.litLen with count := [] }, dist := { h.dist with count := [] } } := fun t => by
  cases t with
  | litLen => exact { hc .litLen with count := fits_nil _ }
  | dist => exact { hc .dist with count := fits_nil _ }
  | codeLen => exact hc .codeLen

theorem closeBooks_writing (hl : .lz ∈ us) (hh : .huf ∈ us) (hr : .drv ∈ us) (hc : .ctl ∈ us) (s : State) :
    Writing us s (closeBooks s) :=
  (((Write.tables s _ noCounts_canonical).writing hh).trans (setDrv_writing hr _ _ fun _ => by rfl)).trans
    (((Write.emptied _).writing hl).trans (setCtl_writing hc _ _ (by exact ⟨rfl, rfl, rfl, rfl, id, id⟩)))

/-- The parts DRV.CLOSE_BLOCK writes (R265). -/
theorem opDrvCloseBlock_writing (hus : ∀ u, u ≠ .win → u ∈ us) (fl : FlushMode) (s : State) :
    Writing us s (opDrvCloseBlock fl s) := by
  have hl := hus .lz nofun
  have hh := hus .huf nofun
  have he := hus .enc nofun
  have hr := hus .drv nofun
  have hc := hus .ctl nofun
  unfold opDrvCloseBlock
  split
  · exact ((closeStart_writing hh he hr fl s).trans (closePlan_writing hh (hus .work nofun) _)).trans
      ((encodeBlock_writing hh he (hus .draws nofun) _ _).trans ((closeTail_writing he fl _).trans
        ((closeBooks_writing hl hh hr hc _).trans (handOver_writing hr hc (hus .call nofun) (hus .host nofun) _))))
  · exact (Write.stopped .lz s _).writing hl

/-! The commands. -/

/-- Every micro-operation of a call is made of single writes. -/
theorem callInvariant_writing (hus : ∀ u, u ∈ us) (s : State) : CallInvariant (Writing us s) where
  filled _ h := h.trans (opDrvFill_writing (hus _) (hus _) (hus _) (hus _) _)
  caughtUp _ h := h.trans (catchupLoop_writing (hus _) (hus _) _ _)
  stepped _ h := h.trans (opDrvParseStep_writing (hus _) (hus _) (hus _) (hus _) (hus _) _)
  closed fl _ h := h.trans (opDrvCloseBlock_writing (fun u _ => hus u) fl _)
  ended fl x h := by
    refine h.trans ?_
    cases fl with
    | none | sync => exact .refl
    | full => exact opDictResetChains_writing (hus _) (hus _) x
    | finish => exact setCtl_writing (hus _) x _ (by exact ⟨rfl, rfl, rfl, rfl, fun _ => rfl, id⟩)

theorem compressCall_writing (hus : ∀ u, u ∈ us) (f : BitVec 3) (ip op : Bool) (il oc : BitVec 32) (s : State) :
    Writing us s (compressCall f ip op il oc s) := by
  have hsetup : Writing us s (callSetup f ip op il oc s) :=
    ((Write.call s (callSetup f ip op il oc s).call).writing (hus _)).trans
      (setCtl_writing (hus _) _ (callSetup f ip op il oc s).ctl
        ⟨rfl, rfl, rfl, rfl, id, fun h => Bool.or_eq_true_iff.2 (Or.inl h)⟩)
  unfold compressCall
  split
  · exact raise_writing (hus _) (hus _) _ s
  split
  · exact raise_writing (hus _) (hus _) _ s
  case h_2 fl _ =>
    obtain ⟨x, hx, ⟨hend, -⟩ | hend⟩ := (callInvariant_writing hus s).callBody_cases fl hsetup
    · rwa [hend]
    · rw [hend]
      exact (hx.trans (opDrvDrain_writing (hus _) (hus _) (hus _) x)).trans (raise_writing (hus _) (hus _) _ _)

end Operations

/-- What an instruction's operation writes, the instruction writes, and it completes only on a running instance. -/
theorem writing_of_settle {us : List UnitName} {s t x : State} (hop : Writing us s x) (h : settle x = .next t) :
    Writing us s t ∧ t.halt = none := by
  obtain ⟨hrun, rfl⟩ := settle_eq_next.1 h
  exact ⟨hop, hrun⟩

/-- A COMPRESS writes any part. -/
theorem mem_writes_of_compressParts {i : Instr} {p : BitVec 3 × Bool × Bool × BitVec 32 × BitVec 32}
    (h : compressParts i = some p) (u : UnitName) : u ∈ writes i := by
  have hall : ∀ u, u ∈ [UnitName.win, .lz, .huf, .enc, .drv, .ctl, .call, .work, .host, .draws] := by
    intro u
    cases u <;> decide
  unfold compressParts at h
  split at h <;> cases h <;> exact hall u

/-- A symbol row sends bits (R98, R99, R101). -/
theorem exec_symbol_writing {i : Instr} {p : Table × Nat × Nat × Nat} (hi : symbolParts i = some p) {s t : State}
    (h : exec i s = .next t) : Writing (writes i) s t ∧ t.halt = none := by
  have hput (t : Table) (sym x n : Nat) : Writing [.enc, .draws] s (putSymbol t sym x n s) :=
    putSymbol_writing (by decide) (by decide) t sym x n s
  cases i with
  | symLen284 extra =>
    refine writing_of_settle (us := [.enc, .draws]) ?_ h
    split
    · exact hput _ _ _ _
    · exact (Write.stopped .enc s _).writing (by decide)
  | _ => cases hi <;> exact writing_of_settle (us := [.enc, .draws]) (hput _ _ _ _) h

/-- Every instruction but INIT is made of single writes to the parts listed for it (R24, R26, R27, R60). -/
theorem exec_writing {i : Instr} {s t : State} (hi : ∀ flags sink, i ≠ .init flags sink) (h : exec i s = .next t) :
    Writing (writes i) s t ∧ t.halt = none := by
  cases hcall : compressParts i with
  | some p =>
    rw [exec_of_compressParts hcall] at h
    exact writing_of_settle (compressCall_writing (mem_writes_of_compressParts hcall) _ _ _ _ _ s) h
  | none =>
  cases hsym : symbolParts i with
  | some p => exact exec_symbol_writing hsym h
  | none =>
  cases i with
  | init flags sink => exact absurd rfl (hi flags sink)
  | dictWrite q c => exact writing_of_settle (us := [.win]) ((Write.byte s q c).writing (by decide)) h
  | dictInsert q => exact writing_of_settle (us := [.win]) (opDictInsert_writing (by decide) q s) h
  | dictFind p md ml pd pl =>
    exact writing_of_settle (us := [.work, .draws]) (opDictFind_writing (by decide) (by decide) p md ml pd pl s) h
  | dictRle p ml => exact writing_of_settle (us := [.work, .draws]) (opDictRle_writing (by decide) (by decide) p ml s) h
  | dictResetChains => exact writing_of_settle (us := [.win, .drv]) (opDictResetChains_writing (by decide) (by decide) s) h
  | recLit b => exact writing_of_settle (us := [.lz, .huf]) (opRecLit_writing (by decide) (by decide) b s) h
  | recMatch len dist => exact writing_of_settle (us := [.lz, .huf]) (opRecMatch_writing (by decide) (by decide) len dist s) h
  | hufSort t | hufMinred | encCost => exact writing_of_settle (us := [.work]) ((Write.work s _).writing (by decide)) h
  | hufLimit limit => exact writing_of_settle (us := [.work]) (opHufLimit_writing (by decide) _ s) h
  | hufAssignSizes t => exact writing_of_settle (us := [.huf]) (opHufAssignSizes_writing (by decide) t s) h
  | hufAssignCodes t => exact writing_of_settle (us := [.huf]) (opHufAssignCodes_writing (by decide) t s) h
  | hufBuild t => exact writing_of_settle (us := [.huf, .work]) (opHufBuild_writing (by decide) (by decide) t s) h
  | hufLoadStatic => exact writing_of_settle (us := [.huf]) (opHufLoadStatic_writing (by decide) s) h
  | encPutBits v n => exact writing_of_settle (us := [.enc, .draws]) (putBits_writing (by decide) (by decide) _ _ s) h
  | encPad => exact writing_of_settle (us := [.enc]) (opEncPad_writing (by decide) s) h
  | encClPlan => exact writing_of_settle (us := [.huf, .work]) (opEncClPlan_writing (by decide) (by decide) s) h
  | encStored => exact writing_of_settle (us := [.enc]) (opEncStored_writing (by decide) s) h
  | encStaticHdr => exact writing_of_settle (us := [.huf, .enc]) (opEncStaticHdr_writing (by decide) (by decide) s) h
  | encDynHdr => exact writing_of_settle (us := [.enc, .draws]) (opEncDynHdr_writing (by decide) (by decide) s) h
  | encPayload => exact writing_of_settle (us := [.enc, .draws]) (opEncPayload_writing (by decide) (by decide) s) h
  | encZlibHdr => exact writing_of_settle (us := [.enc]) (opEncZlibHdr_writing (by decide) s) h
  | encTrailer => exact writing_of_settle (us := [.enc]) (opEncTrailer_writing (by decide) s) h
  | encSyncMark => exact writing_of_settle (us := [.enc]) (opEncSyncMark_writing (by decide) s) h
  | drvFill =>
    exact writing_of_settle (us := [.win, .drv, .ctl, .call])
      (opDrvFill_writing (by decide) (by decide) (by decide) (by decide) s) h
  | drvCatchup => exact writing_of_settle (us := [.win, .drv]) (catchupLoop_writing (by decide) (by decide) _ s) h
  | drvParseStep =>
    exact writing_of_settle (us := [.lz, .huf, .drv, .work, .draws])
      (opDrvParseStep_writing (by decide) (by decide) (by decide) (by decide) (by decide) s) h
  | drvCloseBlock fl =>
    exact writing_of_settle (us := [.lz, .huf, .enc, .drv, .ctl, .call, .work, .host, .draws])
      (opDrvCloseBlock_writing (by intro u; cases u <;> decide) fl s) h
  | drvDrain =>
    exact writing_of_settle (us := [.drv, .call, .host]) (opDrvDrain_writing (by decide) (by decide) (by decide) s) h
  | drvAdler c => exact writing_of_settle (us := [.ctl]) (opDrvAdler_writing (by decide) c s) h
  | lit b => exact writing_of_settle (us := [.enc, .draws]) (putBits_writing (by decide) (by decide) _ _ s) h
  | matchRec l3 d1 => exact writing_of_settle (us := [.enc, .draws]) (putMatch_writing (by decide) (by decide) _ _ s) h
  | blockStored b | blockStatic b | blockDynamic b =>
    exact writing_of_settle (us := [.enc]) (putHeader_writing (by decide) b _ s) h
  | statusOkay | statusDone | statusPutBufFailed =>
    exact writing_of_settle (us := [.ctl, .host]) (raise_writing (by decide) (by decide) _ s) h
  | statusBadParam => exact writing_of_settle (us := [.host]) (respond_writing (by decide) _ _ _ s) h
  | _ => cases hcall <;> cases hsym

end Sys2Proof.Proofs.WholeMachine

/-! The whole machine: what single writes keep, instructions and steps keep. -/

namespace Sys2Proof.Proofs.WholeMachine

open Sys2Proof Sys2Proof.Machine Sys2Proof.Laws Sys2Proof.Proofs.HostCalls Sys2Proof.Proofs.Encoding
  Sys2Proof.Proofs.Dictionary

/-- An instruction that completes leaves a running instance (R303). -/
theorem exec_halt {i : Instr} {s t : State} (h : exec i s = .next t) : t.halt = none := by
  by_cases hinit : ∃ flags sink, i = .init flags sink
  · obtain ⟨flags, sink, rfl⟩ := hinit
    obtain ⟨hrun, rfl⟩ := settle_eq_next.1 h
    exact hrun
  · exact (exec_writing (fun flags sink hi => hinit ⟨flags, sink, hi⟩) h).2

/-- What every single write keeps, a run of them keeps. -/
theorem Writing.invariant {us : List UnitName} {P : State → Prop} (hP : ∀ u ∈ us, ∀ s t, Write u s t → P s → P t)
    {s t : State} (h : Writing us s t) (hs : P s) : P t := by
  induction h with
  | refl => exact hs
  | tail _ hwrite ih =>
    obtain ⟨u, hu, hwrite⟩ := hwrite
    exact hP u hu _ _ hwrite ih

/-- What no write to the parts `us` changes, a run of them leaves as it was. -/
theorem Writing.unchanged {us : List UnitName} {α : Type} {f : State → α} (hf : ∀ u ∈ us, ∀ s t, Write u s t → f t = f s)
    {s t : State} (h : Writing us s t) : f t = f s :=
  Writing.invariant (P := fun x => f x = f s) (fun u hu x y hwrite hx => (hf u hu x y hwrite).trans hx) h rfl

/-! The frame of each part. -/

/-- Emitted bytes change the encoder alone, but for a stop. -/
theorem emitBytes_cases (k : Nat) (s : State) : ∃ e h, emitBytes k s = (s.setEnc e).setHalt h := by
  induction k generalizing s with
  | zero => exact ⟨s.enc, s.halt, rfl⟩
  | succ k ih =>
    unfold emitBytes
    split
    · exact ⟨s.enc, s.halt, rfl⟩
    split
    · obtain ⟨e, h, hrest⟩ := ih (s.setEnc {
        stage := Mem.write s.enc.stage s.enc.stagePos.toNat (s.enc.bitBuffer.setWidth 8)
        stagePos := s.enc.stagePos + 1
        bitBuffer := s.enc.bitBuffer >>> 8
        bitsIn := s.enc.bitsIn - 8 })
      exact ⟨e, h, hrest⟩
    · rcases stop_cases s (.fault .stageOverflow) with ⟨-, hstop⟩ | ⟨-, hstop⟩
      · exact ⟨s.enc, _, hstop⟩
      · exact ⟨s.enc, s.halt, hstop⟩

/-- A field sent changes the encoder alone, but for a stop (R210). -/
theorem putField_cases (v n : Nat) (s : State) : ∃ e h, putField v n s = (s.setEnc e).setHalt h :=
  let ⟨e, h, hemit⟩ := emitBytes_cases 8 (s.setEnc { s.enc with
    bitBuffer := s.enc.bitBuffer ||| (BitVec.ofNat 32 v <<< s.enc.bitsIn.toNat)
    bitsIn := s.enc.bitsIn + BitVec.ofNat 6 n })
  ⟨e, h, hemit⟩

/-- From `s` to `t` only the part `u` changed, but for a stop, and no request was taken nor input presented. -/
structure OnlyPart (u : UnitName) (s t : State) : Prop where
  win : u ≠ .win → t.win = s.win
  lz : u ≠ .lz → t.lz = s.lz
  huf : u ≠ .huf → t.huf = s.huf
  enc : u ≠ .enc → t.enc = s.enc
  drv : u ≠ .drv → t.drv = s.drv
  ctl : u ≠ .ctl → t.ctl = s.ctl
  call : u ≠ .call → t.call = s.call
  work : u ≠ .work → t.work = s.work
  host : u ≠ .host → t.host = s.host
  draws : u ≠ .draws → t.draws = s.draws
  requests : t.host.requests = s.host.requests
  input : t.host.inSlice = s.host.inSlice

theorem Write.onlyPart {u : UnitName} {s t : State} (h : Write u s t) : OnlyPart u s t := by
  cases h with
  | field _ v n =>
    obtain ⟨e, h, hput⟩ := putField_cases v n s
    rw [hput]
    constructor <;> simp
  | host _ v hv => exact ⟨by simp, by simp, by simp, by simp, by simp, by simp, by simp, by simp, by simp, by simp,
      hv.requests, hv.input⟩
  | _ => constructor <;> simp

/-- Settles O58: an instruction is a run of single writes to the parts listed, INIT apart, which is one assignment. -/
theorem onlyListedPartsChange : Obligations.OnlyListedPartsChange := by
  unfold Obligations.OnlyListedPartsChange
  intro i s t hexec
  by_cases hinit : ∃ flags sink, i = .init flags sink
  · obtain ⟨flags, sink, rfl⟩ := hinit
    obtain ⟨hrun, rfl⟩ := settle_eq_next.1 hexec
    have hlist : writes (.init flags sink) = [.win, .lz, .huf, .enc, .drv, .ctl, .host] := rfl
    rw [hlist]
    exact ⟨absurd (by decide), absurd (by decide), absurd (by decide), absurd (by decide), absurd (by decide),
      absurd (by decide), fun _ => rfl, fun _ => rfl, absurd (by decide), fun _ => rfl, rfl, rfl, hrun⟩
  · obtain ⟨hwriting, hrun⟩ := exec_writing (fun flags sink h => hinit ⟨flags, sink, h⟩) hexec
    have hne {u v : UnitName} (hv : v ∉ writes i) (hu : u ∈ writes i) : u ≠ v := fun h => hv (h ▸ hu)
    exact ⟨fun hv => hwriting.unchanged fun u hu _ _ h => h.onlyPart.win (hne hv hu),
      fun hv => hwriting.unchanged fun u hu _ _ h => h.onlyPart.lz (hne hv hu),
      fun hv => hwriting.unchanged fun u hu _ _ h => h.onlyPart.huf (hne hv hu),
      fun hv => hwriting.unchanged fun u hu _ _ h => h.onlyPart.enc (hne hv hu),
      fun hv => hwriting.unchanged fun u hu _ _ h => h.onlyPart.drv (hne hv hu),
      fun hv => hwriting.unchanged fun u hu _ _ h => h.onlyPart.ctl (hne hv hu),
      fun hv => hwriting.unchanged fun u hu _ _ h => h.onlyPart.call (hne hv hu),
      fun hv => hwriting.unchanged fun u hu _ _ h => h.onlyPart.work (hne hv hu),
      fun hv => hwriting.unchanged fun u hu _ _ h => h.onlyPart.host (hne hv hu),
      fun hv => hwriting.unchanged fun u hu _ _ h => h.onlyPart.draws (hne hv hu),
      hwriting.unchanged (f := fun x => x.host.requests) fun u _ _ _ h => h.onlyPart.requests,
      hwriting.unchanged (f := fun x => x.host.inSlice) fun u _ _ _ h => h.onlyPart.input, hrun⟩

/-! The latches. -/

theorem Latched.refl (c : Control) : Latched c c := ⟨rfl, rfl, rfl, rfl, id, id⟩

theorem Latched.trans {c d e : Control} (h : Latched c d) (h' : Latched d e) : Latched c e where
  flags := h'.flags.trans h.flags
  probes := h'.probes.trans h.probes
  sink := h'.sink.trans h.sink
  inited := h'.inited.trans h.inited
  finished := h'.finished ∘ h.finished
  wantsFinish := h'.wantsFinish ∘ h.wantsFinish

theorem Write.latched {u : UnitName} {s t : State} (h : Write u s t) : Latched s.ctl t.ctl := by
  by_cases hu : u = .ctl
  · cases h with
    | control _ c hc => exact hc
    | stopped _ _ r => rw [stop_ctl]; exact .refl _
    | _ => cases hu
  · rw [h.onlyPart.ctl hu]
    exact .refl _

/-- A run of writes keeps the latches of a stream (R29, R342). -/
theorem Writing.latched {us : List UnitName} {s t : State} (h : Writing us s t) : Latched s.ctl t.ctl :=
  Writing.invariant (P := fun x => Latched s.ctl x.ctl) (fun _ _ _ _ hwrite hx => hx.trans hwrite.latched) h (.refl _)

/-- Settles O57: each single write keeps them. -/
theorem flagsFixedForStream : Obligations.FlagsFixedForStream := by
  unfold Obligations.FlagsFixedForStream
  intro i s t hi hexec
  have h := (exec_writing hi hexec).1.latched
  exact ⟨h.flags, h.probes, h.sink, h.inited, h.finished, h.wantsFinish⟩

/-! The steps. -/

/-- An invariant of every step: the fetch of a request, INIT, and single writes keep it. It may be given up where the
instance stops, for nothing follows there. -/
structure StepInvariant (P : State → Prop) : Prop where
  fetched : ∀ s r t, fetch s = some (r, t) → P s → P t
  inited : ∀ flags sink s, P s → P (opInit flags sink s)
  written : ∀ u s t, Write u s t → P s → P t

/-- An instruction keeps it. -/
theorem StepInvariant.exec {P : State → Prop} (hP : StepInvariant P) {i : Instr} {s t : State} (hs : P s)
    (h : exec i s = .next t) : P t := by
  by_cases hinit : ∃ flags sink, i = .init flags sink
  · obtain ⟨flags, sink, rfl⟩ := hinit
    obtain ⟨-, rfl⟩ := settle_eq_next.1 h
    exact hP.inited flags sink s hs
  · exact (exec_writing (fun flags sink hi => hinit ⟨flags, sink, hi⟩) h).1.invariant (fun u _ x y => hP.written u x y) hs

/-- A rejected request answers BadParam or stops (R110). -/
theorem rejected_cases {e : DecodeError} {s t : State} (h : rejected e s = .next t) :
    settle (raise .badParam s) = .next t := by
  cases e with
  | reservedOpcode => exact h
  | _ => cases h

/-- A step that goes on was idle, or ran or rejected the request it took. -/
theorem step_cases {s t : State} (h : step s = .next t) : s.halt = none ∧
    (s.host.requests = [] ∧ t = s
    ∨ ∃ r x, fetch s = some (r, x) ∧ ((∃ i, decode r.space r.words = .ok i ∧ exec i x = .next t)
        ∨ settle (raise .badParam x) = .next t)) := by
  have hrun : s.halt = none := by
    by_contra hstop
    rw [step_of_stopped hstop] at h
    exact hstop (settle_eq_next.1 h).1
  refine ⟨hrun, ?_⟩
  cases hreq : s.host.requests with
  | nil =>
    rw [step_of_no_request hrun hreq] at h
    cases h
    exact Or.inl ⟨rfl, rfl⟩
  | cons r rest =>
    have hfetch := fetch_of_requests hreq
    refine Or.inr ⟨r, _, hfetch, ?_⟩
    cases hdec : decode r.space r.words with
    | ok i => exact Or.inl ⟨i, rfl, by rwa [step_of_fetch_decode hrun hfetch hdec] at h⟩
    | error e =>
      rw [step_of_fetch_rejected hrun hfetch hdec] at h
      exact Or.inr (rejected_cases h)

/-- A step that goes on leaves a running instance (R303). -/
theorem step_halt {s t : State} (h : step s = .next t) : t.halt = none := by
  obtain ⟨hrun, ⟨-, rfl⟩ | ⟨r, x, -, ⟨i, -, hexec⟩ | hrejected⟩⟩ := step_cases h
  · exact hrun
  · exact exec_halt hexec
  · obtain ⟨hrun', rfl⟩ := settle_eq_next.1 hrejected
    exact hrun'

/-- A step keeps it. -/
theorem StepInvariant.step {P : State → Prop} (hP : StepInvariant P) {s t : State} (hs : P s) (h : step s = .next t) :
    P t := by
  obtain ⟨-, ⟨-, rfl⟩ | ⟨r, x, hfetch, hran⟩⟩ := step_cases h
  · exact hs
  have hx := hP.fetched s r x hfetch hs
  rcases hran with ⟨i, -, hexec⟩ | hrejected
  · exact hP.exec hx hexec
  · obtain ⟨-, rfl⟩ := settle_eq_next.1 hrejected
    exact hP.written .host x _ (.host x _ ⟨rfl, rfl, id⟩) hx

/-! The canonical form. -/

theorem writeRun_fits {w n a : Nat} {m : Mem w} {vs : List (BitVec w)} (h : Mem.fits m n) (ha : a + vs.length ≤ n) :
    Mem.fits (Mem.writeRun m a vs) n :=
  ⟨writeRun_wf h.1 a vs, writeRun_below h.2 ha⟩

/-- A window byte goes to its slot and the mirror, both within `dict` (R21, R61). -/
theorem windowWrite_fits {d : Mem 8} (h : Mem.fits d Config.dictBufSize) (q : BitVec 32) (c : BitVec 8) :
    Mem.fits (windowWrite d q c) Config.dictBufSize := by
  have hslot := slotOf_lt q
  unfold windowWrite
  simp only [Config.dictBufSize, Config.maxMatch, Config.windowSize] at h ⊢
  split
  · exact write_fits (write_fits h (by omega) c) (by omega) c
  · exact write_fits h (by omega) c

/-- A record that fits is written within `lz_code` and `lz_flags` (R23, R162). -/
theorem appendRecord_fits {s : State} (hcode : Mem.fits s.lz.lzCode Config.lzCodeBufSize)
    (hflags : Mem.fits s.lz.lzFlags Config.lzFlagBufSize) (hroom : recordable s = true) {bytes : List (BitVec 8)}
    (hlen : bytes.length ≤ 3) (f : Bool) (n : Nat) :
    Mem.fits (appendRecord s.lz bytes f n).lzCode Config.lzCodeBufSize
    ∧ Mem.fits (appendRecord s.lz bytes f n).lzFlags Config.lzFlagBufSize := by
  obtain ⟨hpos, hops⟩ := (recordable_iff s).1 hroom
  simp only [Config.lzCodeBufSize, Config.lzFlagBufSize] at hcode hflags ⊢
  exact ⟨writeRun_fits hcode (by omega), write_fits hflags (by omega) _⟩

/-- Bytes are emitted within `stage` (R25, R210). -/
theorem emitBytes_fits (k : Nat) {s : State} (h : Mem.fits s.enc.stage Config.outStageSize) :
    Mem.fits (emitBytes k s).enc.stage Config.outStageSize := by
  induction k generalizing s with
  | zero => exact h
  | succ k ih =>
    unfold emitBytes
    split
    · exact h
    split
    case isTrue hroom => exact ih (write_fits h hroom _)
    case isFalse => simpa only [State.faulted, stop_enc] using h

/-- A stop leaves every memory. -/
theorem stop_canonical {s : State} (h : s.Canonical) (r : Stop) : (s.stop r).Canonical := by
  constructor <;> simp only [stop_win, stop_lz, stop_enc, stop_huf, stop_host]
  exacts [h.dict, h.head, h.next, h.lzCode, h.lzFlags, h.stage, h.table, h.input, h.output, h.requests]

theorem Write.canonical {u : UnitName} {s t : State} (h : Write u s t) (hs : s.Canonical) : t.Canonical := by
  cases h with
  | byte _ q c => exact { hs with dict := windowWrite_fits hs.dict q c }
  | chained _ q =>
    exact { hs with
      head := write_fits hs.head (BitVec.isLt _) _
      next := write_fits hs.next (slotOf_lt q) _ }
  | forgotten => exact { hs with head := fits_nil _, next := fits_nil _ }
  | recorded _ bytes f n hroom hlen =>
    obtain ⟨hcode, hflags⟩ := appendRecord_fits hs.lzCode hs.lzFlags hroom hlen f n
    exact { hs with lzCode := hcode, lzFlags := hflags }
  | emptied => exact { hs with }
  | tables _ h hh => exact { hs with table := hh hs.table }
  | field _ v n =>
    have hstage : Mem.fits (putField v n s).enc.stage Config.outStageSize := emitBytes_fits 8 hs.stage
    obtain ⟨e, h, hput⟩ := putField_cases v n s
    rw [hput] at hstage ⊢
    exact { hs with stage := hstage }
  | restaged => exact { hs with }
  | registers => exact { hs with }
  | control => exact { hs with }
  | call => exact { hs with }
  | work => exact { hs with }
  | host _ v hv =>
    exact { hs with
      input := by rw [setHost_host, hv.input]; exact hs.input
      output := hv.output hs.output
      requests := by rw [setHost_host, hv.requests]; exact hs.requests }
  | drawn => exact { hs with }
  | stopped _ _ r => exact stop_canonical hs r

/-- INIT empties memories and counts (R34). -/
theorem opInit_canonical (flags : BitVec 20) (sink : Bool) {s : State} (hs : s.Canonical) :
    (opInit flags sink s).Canonical :=
  { hs with head := fits_nil _, next := fits_nil _, table := noCounts_canonical hs.table }

theorem canonical_stepInvariant : StepInvariant State.Canonical where
  fetched s r t hfetch hs := by
    cases hreq : s.host.requests with
    | nil => simp [fetch, hreq] at hfetch
    | cons q rest =>
      have hall := hs.requests
      rw [hreq] at hall
      rw [fetch_of_requests hreq] at hfetch
      cases hfetch
      obtain ⟨hin, hout⟩ := hall r List.mem_cons_self
      exact { hs with
        input := hin, output := hout, requests := fun x hx => hall x (List.mem_cons_of_mem _ hx) }
  inited flags sink _ hs := opInit_canonical flags sink hs
  written _ _ _ hwrite hs := hwrite.canonical hs

/-- Settles O54: the fetch, INIT and each single write keep the canonical form. -/
theorem stepKeepsCanonical : Obligations.StepKeepsCanonical := by
  unfold Obligations.StepKeepsCanonical
  exact fun s t hs hstep => canonical_stepInvariant.step hs hstep

/-! The accumulator, the mirror, `MAX_PROBES`, and the pending bytes in sink mode. -/

/-- While `8 k + 7` bits or fewer are pending, `k` bytes emitted leave the accumulator sound, unless `stage` is full (R210). -/
theorem emitBytes_sound {k : Nat} {s : State} (hk : s.enc.bitsIn.toNat ≤ 8 * k + 7)
    (hsmall : s.enc.bitBuffer.toNat < 2 ^ s.enc.bitsIn.toNat) (hrun : (emitBytes k s).halt = none) :
    (emitBytes k s).enc.Sound := by
  induction k generalizing s with
  | zero => exact ⟨by rw [emitBytes]; omega, hsmall⟩
  | succ k ih =>
    unfold emitBytes at hrun ⊢
    split at hrun
    case isTrue hfew =>
      rw [if_pos hfew]
      exact ⟨by omega, hsmall⟩
    case isFalse hbyte =>
      rw [if_neg hbyte]
      split at hrun
      case isFalse => exact absurd hrun (stop_halt_ne s _)
      case isTrue hroom =>
        rw [if_pos hroom]
        have hbits : (s.enc.bitsIn - 8).toNat = s.enc.bitsIn.toNat - 8 := by
          have := s.enc.bitsIn.isLt
          rw [BitVec.toNat_sub, show (8 : BitVec 6).toNat = 8 from rfl]
          omega
        refine ih ?_ ?_ hrun
        · show (s.enc.bitsIn - 8).toNat ≤ _
          omega
        · show (s.enc.bitBuffer >>> 8).toNat < 2 ^ (s.enc.bitsIn - 8).toNat
          rw [hbits, BitVec.toNat_ushiftRight, Nat.shiftRight_eq_div_pow, Nat.div_lt_iff_lt_mul (Nat.two_pow_pos 8), ← pow_add,
            Nat.sub_add_cancel (by omega)]
          exact hsmall

/-- A field in the range of R210 leaves the accumulator sound, unless `stage` is full. -/
theorem putField_sound {v n : Nat} {s : State} (hn : n ≤ 16) (hv : v < 2 ^ n) (hs : s.enc.Sound)
    (hrun : (putField v n s).halt = none) : (putField v n s).enc.Sound := by
  obtain ⟨hfew, hsmall⟩ := hs
  have hbits : (s.enc.bitsIn + BitVec.ofNat 6 n).toNat = s.enc.bitsIn.toNat + n := by
    rw [BitVec.toNat_add, BitVec.toNat_ofNat]
    omega
  refine emitBytes_sound ?_ ?_ hrun
  · show (s.enc.bitsIn + BitVec.ofNat 6 n).toNat ≤ _
    omega
  · show (s.enc.bitBuffer ||| BitVec.ofNat 32 v <<< s.enc.bitsIn.toNat).toNat < 2 ^ (s.enc.bitsIn + BitVec.ofNat 6 n).toNat
    rw [hbits, BitVec.toNat_or, BitVec.toNat_shiftLeft, BitVec.toNat_ofNat, Nat.shiftLeft_eq]
    refine Nat.or_lt_two_pow (hsmall.trans_le (Nat.pow_le_pow_right Nat.two_pos (Nat.le_add_right _ _))) ?_
    calc v % 2 ^ 32 * 2 ^ s.enc.bitsIn.toNat % 2 ^ 32
        ≤ v * 2 ^ s.enc.bitsIn.toNat := (Nat.mod_le _ _).trans (Nat.mul_le_mul_right _ (Nat.mod_le _ _))
      _ < 2 ^ n * 2 ^ s.enc.bitsIn.toNat := Nat.mul_lt_mul_of_pos_right hv (Nat.two_pow_pos _)
      _ = 2 ^ (s.enc.bitsIn.toNat + n) := by rw [← pow_add, Nat.add_comm]

/-- A write does not set a stopped instance going (R303). -/
theorem Write.stays_stopped {u : UnitName} {s t : State} (h : Write u s t) (hrun : t.halt = none) : s.halt = none := by
  cases h with
  | field _ v n =>
    by_contra hstop
    obtain ⟨q, hq⟩ := Option.ne_none_iff_exists'.1 hstop
    rw [(putField_staging v n s).stopped q hq] at hrun
    cases hrun
  | stopped _ _ r => exact absurd hrun (stop_halt_ne s r)
  | _ => exact hrun

/-- The accumulator is sound after a write, unless it stops (R33 item 8). -/
theorem Write.sound {u : UnitName} {s t : State} (h : Write u s t) (hrun : t.halt = none) (hs : s.enc.Sound) :
    t.enc.Sound := by
  by_cases hu : u = .enc
  · cases h with
    | field _ v n hn hv => exact putField_sound hn hv hs hrun
    | restaged => exact hs
    | stopped _ _ r => exact absurd hrun (stop_halt_ne s r)
    | _ => cases hu
  · rw [h.onlyPart.enc hu]
    exact hs

/-- A write keeps a canonical window with its mirror (R33 item 3). -/
theorem Write.mirrored {u : UnitName} {s t : State} (h : Write u s t) (hs : Mem.wf s.win.dict ∧ Mirrored s.win.dict) :
    Mem.wf t.win.dict ∧ Mirrored t.win.dict := by
  by_cases hu : u = .win
  · cases h with
    | byte _ q c => exact ⟨windowWrite_wf hs.1 q c, windowWrite_mirrored hs.1 hs.2 q c⟩
    | chained | forgotten => exact hs
    | stopped _ _ r => rwa [stop_win]
    | _ => cases hu
  · rwa [h.onlyPart.win hu]

/-- In sink mode no write leaves bytes pending (R33 item 11). -/
theorem Write.sink {u : UnitName} {s t : State} (h : Write u s t)
    (hs : s.ctl.sinkMode = true → s.drv.flushRemaining = 0) (hsink : t.ctl.sinkMode = true) : t.drv.flushRemaining = 0 := by
  have hmode : s.ctl.sinkMode = true := h.latched.sink.symm.trans hsink
  by_cases hu : u = .drv
  · cases h with
    | registers _ d hd => exact (hd hmode).trans (hs hmode)
    | stopped _ _ r => rw [stop_drv]; exact hs hmode
    | _ => cases hu
  · rw [h.onlyPart.drv hu]
    exact hs hmode

/-- The invariants of O55, while the instance runs. -/
def BitsAndMirror (s : State) : Prop :=
  s.halt = none → Mem.wf s.win.dict ∧ s.enc.Sound ∧ Mirrored s.win.dict ∧ s.ctl.maxProbes = probesOf s.ctl.flags
    ∧ (s.ctl.sinkMode = true → s.drv.flushRemaining = 0)

theorem fetch_eq {s t : State} {r : Request} (h : fetch s = some (r, t)) :
    r ∈ s.host.requests.head? ∧ ∃ v, t = s.setHost v := by
  cases hreq : s.host.requests with
  | nil => simp [fetch, hreq] at h
  | cons q rest =>
    rw [fetch_of_requests hreq] at h
    cases h
    exact ⟨rfl, _, rfl⟩

theorem bitsAndMirror_stepInvariant : StepInvariant BitsAndMirror where
  fetched s r t hfetch hs := by
    obtain ⟨-, v, rfl⟩ := fetch_eq hfetch
    exact hs
  inited flags sink s hs hrun := by
    obtain ⟨hdict, -, hmirror, -⟩ := hs hrun
    exact ⟨hdict, ⟨Nat.zero_le _, Nat.one_pos⟩, hmirror, rfl, fun _ => rfl⟩
  written u s t hwrite hs hrun := by
    obtain ⟨hdict, hsound, hmirror, hprobes, hsink⟩ := hs (hwrite.stays_stopped hrun)
    obtain ⟨hdict', hmirror'⟩ := hwrite.mirrored ⟨hdict, hmirror⟩
    refine ⟨hdict', hwrite.sound hrun hsound, hmirror', ?_, hwrite.sink hsink⟩
    rw [hwrite.latched.probes, hwrite.latched.flags, hprobes]

/-- Settles O55: the fetch, INIT and each single write keep the invariants, or stop. -/
theorem stepKeepsBitsAndMirror : Obligations.StepKeepsBitsAndMirror := by
  unfold Obligations.StepKeepsBitsAndMirror
  exact fun s t hs hstep => bitsAndMirror_stepInvariant.step (fun _ => hs) hstep (step_halt hstep)

end Sys2Proof.Proofs.WholeMachine

/-! The driver family: what DRV.PARSE_STEP leaves of the invariants of R33. -/

namespace Sys2Proof.Proofs.DriverUnit

open Sys2Proof Sys2Proof.Machine Sys2Proof.Laws Sys2Proof.Proofs.HostCalls Sys2Proof.Proofs.Encoding
  Sys2Proof.Proofs.Dictionary Sys2Proof.Proofs.RecorderUnit Sys2Proof.Proofs.WholeMachine

/-- The recorder `r` with at most one record more, covering `n` bytes (R160, R161). -/
inductive Recorded (r : Recorder) : Recorder → Nat → Prop
  /-- None: the match is held (R262). -/
  | none : Recorded r r 0
  /-- A LIT. -/
  | lit (b) : Recorded r (appendRecord r [b] false 1) 1
  /-- A MATCH in range. -/
  | run (len dist) : 3 ≤ len → len ≤ 258 → dist ≤ 32768 →
      Recorded r (appendRecord r (matchBytes len dist) true len) len

/-- The byte a held match has already been moved past and not yet recorded (R33 item 5). -/
def heldCount (d : Driver) : Nat := if d.savedLen = 0 then 0 else 1

/-- A held match is one of lazy mode, in range, and reaches no further than the lookahead (R33 item 12). -/
def HeldFits (c : Control) (d : Driver) : Prop :=
  d.savedLen ≠ 0 →
    c.greedyParsing = false ∧ c.rleMatches = false ∧ c.forceRaw = false
    ∧ 3 ≤ d.savedLen.toNat ∧ d.savedLen.toNat ≤ 258
    ∧ 1 ≤ d.savedDist.toNat ∧ d.savedDist.toNat ≤ 32768
    ∧ d.savedLen.toNat - 1 ≤ d.lookaheadSize.toNat

/-- From `s` to `t` a parse step moved by `move` bytes and recorded `n` of them: what it moved past is what it recorded and
the byte of a match held (R262, R263). -/
structure Moved (s t : State) (move n : Nat) : Prop where
  some : 1 ≤ move
  within : move ≤ s.drv.lookaheadSize.toNat
  drv : ∃ dist len lit, t.drv = advanced move dist len lit s.drv
  lz : Recorded s.lz t.lz n
  covers : move + heldCount s.drv = n + heldCount t.drv
  held : HeldFits s.ctl t.drv

theorem advanced_lookaheadSize {move : Nat} {d : Driver} (h : move ≤ d.lookaheadSize.toNat) (dist : BitVec 16)
    (len : BitVec 9) (lit : BitVec 8) :
    (advanced move dist len lit d).lookaheadSize.toNat = d.lookaheadSize.toNat - move := by
  have := d.lookaheadSize.isLt
  show (d.lookaheadSize - BitVec.ofNat 9 move).toNat = _
  rw [BitVec.toNat_sub, BitVec.toNat_ofNat]
  omega

theorem advanced_dictSize (move : Nat) (d : Driver) (dist : BitVec 16) (len : BitVec 9) (lit : BitVec 8) :
    (advanced move dist len lit d).dictSize.toNat = min (d.dictSize.toNat + move) 32768 := by
  show (BitVec.ofNat 16 (min (d.dictSize.toNat + move) 32768)).toNat = _
  rw [BitVec.toNat_ofNat]
  omega

/-- A literal recorded between two parse steps (R160). -/
theorem recorded_of_recLit {s t : State} (hrun : s.halt = none) (hdriving : Driving 65528 s) {b : BitVec 8}
    (h : Records (.recLit b) s t) : Recorded s.lz t.lz 1 := by
  obtain ⟨u, hexec, hlz, -⟩ := h
  rw [exec_recLit hrun (recordable_of_driving hdriving)] at hexec
  cases hexec
  rw [hlz]
  exact .lit b

/-- A match in range recorded between two parse steps (R161). -/
theorem recorded_of_recMatch {s t : State} (hrun : s.halt = none) (hdriving : Driving 65528 s) {len : BitVec 9}
    {dist : BitVec 16} (hlen : 3 ≤ len.toNat ∧ len.toNat ≤ 258) (hdist : 1 ≤ dist.toNat ∧ dist.toNat ≤ 32768)
    (h : Records (.recMatch len dist) s t) : Recorded s.lz t.lz len.toNat := by
  obtain ⟨u, hexec, hlz, -⟩ := h
  rw [exec_recMatch hrun ((wf_recMatch_iff len dist).2 ⟨hlen, hdist⟩) (recordable_of_driving hdriving)] at hexec
  cases hexec
  rw [hlz]
  exact .run len.toNat dist.toNat hlen.1 hlen.2 hdist.2

/-- In forced-raw mode there is no candidate (R260, R261). -/
theorem forceRaw_of_filtered {s : State} {dist : BitVec 16} {len : BitVec 9} (h : Filtered s dist len) (hsome : dist ≠ 0) :
    s.ctl.forceRaw = false := by
  obtain ⟨d, l, hcandidate, hfilter⟩ := h
  split at hfilter
  · exact absurd hfilter.1 hsome
  · rw [← Bool.not_eq_true]
    intro hraw
    rw [Candidate, if_pos (Or.inl hraw)] at hcandidate
    exact hsome (hfilter.1.trans hcandidate.1)

/-- A match the step leaves held: it was in range of the lookahead and the history, and the step moved by one (R262). -/
theorem heldFits_advanced {s : State} (hdriving : Driving 65528 s) {dist : BitVec 16} {len : BitVec 9} (lit : BitVec 8)
    (hlazy : s.ctl.greedyParsing = false ∧ s.ctl.rleMatches = false ∧ s.ctl.forceRaw = false)
    (hlen : 3 ≤ len.toNat ∧ len.toNat ≤ s.drv.lookaheadSize.toNat)
    (hdist : 1 ≤ dist.toNat ∧ dist.toNat ≤ s.drv.dictSize.toNat) :
    HeldFits s.ctl (advanced 1 dist len lit s.drv) := fun _ => by
  obtain ⟨hgreedy, hrle, hraw⟩ := hlazy
  have hahead := hdriving.ahead
  have hwindow := hdriving.window
  simp only [Config.maxMatch, Config.windowSize] at hahead hwindow
  have hsize := advanced_lookaheadSize (d := s.drv) (show 1 ≤ s.drv.lookaheadSize.toNat by omega) dist len lit
  refine ⟨hgreedy, hrle, hraw, hlen.1, ?_, hdist.1, ?_, ?_⟩
  · show len.toNat ≤ 258
    omega
  · show dist.toNat ≤ 32768
    omega
  · rw [hsize]
    show len.toNat - 1 ≤ _
    omega

theorem heldCount_of_ne {d : Driver} (h : d.savedLen ≠ 0) : heldCount d = 1 := if_neg h

/-- With none held after the step, the bytes moved past are those recorded and the one of a match held before. -/
theorem moved_of_recorded {s t : State} {move n : Nat} {dist : BitVec 16} {lit : BitVec 8} (hsome : 1 ≤ move)
    (hwithin : move ≤ s.drv.lookaheadSize.toNat) (hdrv : t.drv = advanced move dist 0 lit s.drv)
    (hlz : Recorded s.lz t.lz n) (hcovers : move + heldCount s.drv = n) : Moved s t move n where
  some := hsome
  within := hwithin
  drv := ⟨_, _, _, hdrv⟩
  lz := hlz
  covers := by rw [hcovers, hdrv]; rfl
  held := by rw [hdrv]; exact fun h => absurd rfl h

/-- With a match held: replaced by a longer one, or committed (R262). -/
theorem moved_of_held {s t : State} (hrun : s.halt = none) (hdriving : Driving 65528 s) (hheld : s.drv.savedLen ≠ 0)
    {dist : BitVec 16} {len : BitVec 9} (hrange : InRange s dist len) (h : Decided s t dist len) :
    ∃ move n, Moved s t move n := by
  obtain ⟨hgreedy, hrle, hraw, hlen3, hlen, hdist1, hdist, hreach⟩ := hdriving.held hheld
  have hcount := heldCount_of_ne hheld
  simp only [Decided, if_pos hheld] at h
  split at h
  case isTrue hlonger =>
    obtain ⟨hlz, hdrv⟩ := h
    have hin := hrange.resolve_left fun ⟨_, hbeaten⟩ => by
      rw [lengthToBeat, if_neg hheld] at hbeaten
      omega
    have hne : len ≠ 0 := fun hzero => by
      rw [hzero] at hlonger
      exact absurd hlonger (Nat.not_lt_zero _)
    refine ⟨1, 1, le_rfl, by omega, ⟨_, _, _, hdrv⟩, recorded_of_recLit hrun hdriving hlz, ?_, ?_⟩
    · rw [hcount, hdrv, heldCount_of_ne (by exact hne)]
    · rw [hdrv]
      exact heldFits_advanced hdriving _ ⟨hgreedy, hrle, hraw⟩ hin.1 hin.2
  case isFalse =>
    obtain ⟨hlz, hdrv⟩ := h
    exact ⟨_, _, moved_of_recorded (by omega) hreach hdrv
      (recorded_of_recMatch hrun hdriving ⟨hlen3, hlen⟩ ⟨hdist1, hdist⟩ hlz) (by rw [hcount]; omega)⟩

/-- With none held: a literal, a match committed at once, or a match held (R262). -/
theorem moved_of_none_held {s t : State} (hrun : s.halt = none) (hdriving : Driving 65528 s) (hnone : s.drv.savedLen = 0)
    (hsome : 1 ≤ s.drv.lookaheadSize.toNat) {dist : BitVec 16} {len : BitVec 9} (hfiltered : Filtered s dist len)
    (hrange : InRange s dist len) (h : Decided s t dist len) : ∃ move n, Moved s t move n := by
  have hcount : heldCount s.drv = 0 := if_pos hnone
  have hahead := hdriving.ahead
  have hwindow := hdriving.window
  simp only [Config.maxMatch, Config.windowSize] at hahead hwindow
  simp only [Decided, if_neg (not_not.2 hnone)] at h
  split at h
  case isTrue =>
    exact ⟨_, _, moved_of_recorded le_rfl hsome h.2 (recorded_of_recLit hrun hdriving h.1) (by rw [hcount])⟩
  case isFalse hmatch =>
    obtain ⟨⟨hlen3, hlen⟩, hdist1, hdist⟩ := hrange.resolve_left fun h => hmatch h.1
    split at h
    case isTrue =>
      exact ⟨_, _, moved_of_recorded (by omega) hlen h.2
        (recorded_of_recMatch hrun hdriving ⟨hlen3, by omega⟩ ⟨hdist1, by omega⟩ h.1) (by rw [hcount, Nat.add_zero])⟩
    case isFalse hlazy =>
      obtain ⟨hlz, -, hdrv⟩ := h
      rw [not_or, Bool.not_eq_true, Bool.not_eq_true] at hlazy
      have hne : len ≠ 0 := fun hzero => by
        rw [hzero] at hlen3
        exact absurd hlen3 (by decide)
      refine ⟨1, 0, le_rfl, hsome, ⟨_, _, _, hdrv⟩, by rw [hlz]; exact .none, ?_, ?_⟩
      · rw [hcount, hdrv, heldCount_of_ne (by exact hne)]
      · rw [hdrv]
        exact heldFits_advanced hdriving _ ⟨hlazy.1, hlazy.2, forceRaw_of_filtered hfiltered hmatch⟩ ⟨hlen3, hlen⟩
          ⟨hdist1, hdist⟩

/-- DRV.PARSE_STEP completes between two steps of the driver, moves, and writes no more than the decision says (R260 to
R263). -/
theorem exec_drvParseStep {s : State} (hrun : s.halt = none) (hdriving : Driving 65528 s)
    (hsome : s.drv.lookaheadSize ≠ 0) : ∃ t move n, exec .drvParseStep s = .next t ∧ Moved s t move n := by
  obtain ⟨w, d, l, hstep, hfiltered, hrange⟩ := opDrvParseStep_eq hrun hsome hdriving.ahead
    (two_le_lengthToBeat (three_le_savedLen hdriving))
  have hone : 1 ≤ s.drv.lookaheadSize.toNat := Nat.pos_of_ne_zero fun h => hsome (BitVec.eq_of_toNat_eq h)
  by_cases hheld : s.drv.savedLen = 0
  · obtain ⟨u, move, hdecide, hdone, hdecided⟩ := decides_of_none_held hrun hdriving hheld w hrange
    rw [hdecide] at hstep
    obtain ⟨move', n, hmoved⟩ := moved_of_none_held hrun hdriving hheld hone hfiltered hrange hdecided
    exact ⟨_, move', n, exec_of_running rfl hstep hdone, hmoved⟩
  · obtain ⟨u, move, hdecide, hdone, hdecided⟩ := decides_of_held hrun hdriving hheld w d l
    rw [hdecide] at hstep
    obtain ⟨move', n, hmoved⟩ := moved_of_held hrun hdriving hheld hrange hdecided
    exact ⟨_, move', n, exec_of_running rfl hstep hdone, hmoved⟩

/-- The counters of the recorder after a record that fits (R33 item 5). -/
theorem Recorded.counters {r r' : Recorder} {n : Nat} (h : Recorded r r' n)
    (hr : r.lzCodeLen.toNat ≤ 65528 ∧ r.lzOpCount.toNat ≤ r.lzCodeLen.toNat) :
    (r'.lzCodeLen.toNat ≤ 65531 ∧ r'.lzOpCount.toNat ≤ r'.lzCodeLen.toNat)
    ∧ r'.totalLzBytes = r.totalLzBytes + BitVec.ofNat 32 n := by
  obtain ⟨hlen, hops⟩ := hr
  have hgrow (bytes : List (BitVec 8)) (f : Bool) (n : Nat) (hbytes : 1 ≤ bytes.length ∧ bytes.length ≤ 3) :
      (appendRecord r bytes f n).lzCodeLen.toNat = r.lzCodeLen.toNat + bytes.length
      ∧ (appendRecord r bytes f n).lzOpCount.toNat = r.lzOpCount.toNat + 1 := by
    simp only [appendRecord, BitVec.toNat_add, BitVec.toNat_ofNat, show (1 : BitVec 17).toNat = 1 from rfl]
    omega
  cases h with
  | none => exact ⟨by omega, (BitVec.add_zero _).symm⟩
  | lit b =>
    obtain ⟨hlen', hops'⟩ := hgrow [b] false 1 (by simp)
    rw [List.length_singleton] at hlen'
    exact ⟨by omega, rfl⟩
  | run _ dist _ _ _ =>
    obtain ⟨hlen', hops'⟩ := hgrow (matchBytes n dist) true n (by simp [matchBytes])
    rw [show (matchBytes n dist).length = 3 from rfl] at hlen'
    exact ⟨by omega, rfl⟩

/-- The block's span after a step: the bytes recorded and the one of a match held (R33 item 5). -/
theorem Moved.span {s t : State} {move n : Nat} (h : Moved s t move n)
    (hspan : s.drv.lookaheadPos - s.drv.blockStartPos = s.lz.totalLzBytes + (if s.drv.savedLen = 0 then 0 else 1))
    (htotal : t.lz.totalLzBytes = s.lz.totalLzBytes + BitVec.ofNat 32 n) :
    t.drv.lookaheadPos - t.drv.blockStartPos = t.lz.totalLzBytes + (if t.drv.savedLen = 0 then 0 else 1) := by
  have hheld (d : Driver) : (if d.savedLen = 0 then 0 else 1 : BitVec 32) = BitVec.ofNat 32 (heldCount d) := by
    unfold heldCount
    split <;> rfl
  obtain ⟨dist, len, lit, hdrv⟩ := h.drv
  have hpos : t.drv.lookaheadPos = s.drv.lookaheadPos + BitVec.ofNat 32 move := by rw [hdrv]; rfl
  have hstart : t.drv.blockStartPos = s.drv.blockStartPos := by rw [hdrv]; rfl
  rw [hheld] at hspan ⊢
  calc t.drv.lookaheadPos - t.drv.blockStartPos
      = (s.drv.lookaheadPos - s.drv.blockStartPos) + BitVec.ofNat 32 move := by rw [hpos, hstart, add_sub_right_comm]
    _ = s.lz.totalLzBytes + BitVec.ofNat 32 (move + heldCount s.drv) := by
      rw [hspan, add_assoc, ← BitVec.ofNat_add, Nat.add_comm]
    _ = t.lz.totalLzBytes + BitVec.ofNat 32 (heldCount t.drv) := by
      rw [h.covers, htotal, BitVec.ofNat_add, add_assoc]

/-- What a step leaves of the lag: with two bytes or more ahead it was caught up before (R258, R33 item 9). -/
theorem Moved.lag_le {s t : State} {move n : Nat} (h : Moved s t move n) (hahead : s.drv.lookaheadSize.toNat ≤ 258)
    (hlag : lag s ≤ 2 - s.drv.lookaheadSize.toNat) : lag t ≤ 258 := by
  obtain ⟨dist, len, lit, hdrv⟩ := h.drv
  have hsome := h.some
  have hwithin := h.within
  have hmove : lag t ≤ lag s + move := by
    show (t.drv.lookaheadPos - t.drv.insPos).toNat ≤ _
    rw [hdrv]
    show (s.drv.lookaheadPos + BitVec.ofNat 32 move - s.drv.insPos).toNat ≤ (s.drv.lookaheadPos - s.drv.insPos).toNat + move
    rw [add_sub_right_comm, BitVec.toNat_add, BitVec.toNat_ofNat]
    exact (Nat.mod_le _ _).trans (Nat.add_le_add_left (Nat.mod_le _ _) _)
  omega

/-- The parts a parse step leaves as they were (R260 to R263). -/
theorem exec_drvParseStep_frame {s t : State} (h : exec .drvParseStep s = .next t) :
    t.win = s.win ∧ t.enc = s.enc ∧ t.ctl = s.ctl ∧ t.call = s.call ∧ t.host = s.host := by
  have hwriting := (exec_writing (fun _ _ => Instr.noConfusion) h).1
  have hne {u : UnitName} (hu : u ∈ writes .drvParseStep) :
      u ≠ .win ∧ u ≠ .enc ∧ u ≠ .ctl ∧ u ≠ .call ∧ u ≠ .host := by
    revert u
    unfold writes
    decide
  exact ⟨hwriting.unchanged fun _ hu _ _ hw => hw.onlyPart.win (hne hu).1,
    hwriting.unchanged fun _ hu _ _ hw => hw.onlyPart.enc (hne hu).2.1,
    hwriting.unchanged fun _ hu _ _ hw => hw.onlyPart.ctl (hne hu).2.2.1,
    hwriting.unchanged fun _ hu _ _ hw => hw.onlyPart.call (hne hu).2.2.2.1,
    hwriting.unchanged fun _ hu _ _ hw => hw.onlyPart.host (hne hu).2.2.2.2⟩

/-- A parse step after the catch-up keeps the invariants of R33, with room for the block's closing threshold to be passed. -/
theorem Moved.driving {s t : State} {move n : Nat} (h : Moved s t move n) (hexec : exec .drvParseStep s = .next t)
    (hs : Driving 65528 s) (hlag : lag s ≤ 2 - s.drv.lookaheadSize.toNat) : Driving 65531 t := by
  obtain ⟨hwin, henc, hctl, -, -⟩ := exec_drvParseStep_frame hexec
  obtain ⟨hrecorded, htotal⟩ := h.lz.counters hs.recorded
  obtain ⟨dist, len, lit, hdrv⟩ := h.drv
  have hwithin := h.within
  have hsize : t.drv.lookaheadSize.toNat = s.drv.lookaheadSize.toNat - move := by
    rw [hdrv, advanced_lookaheadSize hwithin]
  have hdict : t.drv.dictSize.toNat = min (s.drv.dictSize.toNat + move) 32768 := by rw [hdrv, advanced_dictSize]
  have hpending : t.drv.flushRemaining = s.drv.flushRemaining ∧ t.drv.flushOfs = s.drv.flushOfs := by
    rw [hdrv]
    exact ⟨rfl, rfl⟩
  obtain ⟨hremaining, hofs⟩ := hpending
  have hwindow := hs.window
  have hahead := hs.ahead
  simp only [Config.windowSize, Config.maxMatch] at hwindow hahead
  exact {
    canonical := by rw [hwin]; exact hs.canonical
    window := by simp only [Config.windowSize]; omega
    ahead := by simp only [Config.maxMatch]; omega
    mirror := by rw [hwin]; exact hs.mirror
    recorded := hrecorded
    span := h.span hs.span htotal
    bits := by rw [henc]; exact hs.bits
    staged := by rw [henc]; exact hs.staged
    behind := h.lag_le hahead hlag
    pending := by rw [hremaining, hofs, henc]; exact hs.pending
    sink := by rw [hctl, hremaining]; exact hs.sink
    held := by rw [hctl]; exact h.held }

/-- Settles O46: the decision moves past the bytes it records or holds, and the rest of the state stays. -/
theorem parseStepAdvances : Obligations.ParseStepAdvances := by
  unfold Obligations.ParseStepAdvances
  intro s hrun hdriving hsome hlag
  obtain ⟨t, move, n, hexec, hmoved⟩ := exec_drvParseStep hrun hdriving hsome
  obtain ⟨hwin, henc, hctl, hcall, hhost⟩ := exec_drvParseStep_frame hexec
  obtain ⟨dist, len, lit, hdrv⟩ := hmoved.drv
  refine ⟨t, move, hexec, hmoved.driving hexec hdriving hlag, hmoved.some, hmoved.within, ?_⟩
  rw [hdrv, advanced_lookaheadSize hmoved.within, advanced_dictSize]
  exact ⟨rfl, rfl, rfl, rfl, rfl, rfl, rfl, hwin, henc, hctl, hcall, hhost⟩

end Sys2Proof.Proofs.DriverUnit

/-! The records between two commands: appending one keeps what a state holds of item 6 of R33. -/

namespace Sys2Proof.Proofs.RecorderUnit

open Sys2Proof Sys2Proof.Machine Sys2Proof.Laws Sys2Proof.Proofs.HostCalls Sys2Proof.Proofs.Encoding
  Sys2Proof.Proofs.Dictionary

/-- How many bytes of `lz_code` record `k` takes (R97). -/
def recordLength (s : State) (k : Nat) : Nat := if recordFlag s k then 3 else 1

/-- How many bytes record `k` covers, from index `pos` on (R163). -/
def recordCover (s : State) (k pos : Nat) : Nat := if recordFlag s k then (Mem.read s.lz.lzCode pos).toNat + 3 else 1

theorem recordsEnd_succ (s : State) (n k pos : Nat) :
    recordsEnd s (n + 1) k pos = recordsEnd s n (k + 1) (pos + recordLength s k) := by
  rw [recordsEnd, recordLength, apply_ite (pos + ·)]

theorem recordsSpan_succ (s : State) (n k pos : Nat) :
    recordsSpan s (n + 1) k pos = recordCover s k pos + recordsSpan s n (k + 1) (pos + recordLength s k) := by
  rw [recordsSpan, recordLength, recordCover]
  split <;> rfl

/-- One record more at the end: where it ends (R97). -/
theorem recordsEnd_succ_right (s : State) (n k pos : Nat) :
    recordsEnd s (n + 1) k pos = recordsEnd s n k pos + recordLength s (k + n) := by
  induction n generalizing k pos with
  | zero => exact recordsEnd_succ s 0 k pos
  | succ n ih => rw [recordsEnd_succ s (n + 1), ih, recordsEnd_succ s n, Nat.add_right_comm, Nat.add_assoc k]

/-- One record more at the end: what it covers (R163). -/
theorem recordsSpan_succ_right (s : State) (n k pos : Nat) :
    recordsSpan s (n + 1) k pos = recordsSpan s n k pos + recordCover s (k + n) (recordsEnd s n k pos) := by
  induction n generalizing k pos with
  | zero => exact (recordsSpan_succ s 0 k pos).trans (Nat.add_comm _ _)
  | succ n ih =>
    rw [recordsSpan_succ s (n + 1), ih, recordsSpan_succ s n, recordsEnd_succ s n, Nat.add_right_comm k, Nat.add_assoc k,
      Nat.add_assoc (recordCover s k pos)]

/-- Records are read where their flags and bytes are the same (R97, R163). -/
theorem records_congr {s t : State} {n : Nat} (hflags : ∀ k < n, recordFlag t k = recordFlag s k)
    (hcode : ∀ a < recordsEnd s n 0 0, Mem.read t.lz.lzCode a = Mem.read s.lz.lzCode a) :
    recordsEnd t n 0 0 = recordsEnd s n 0 0 ∧ recordsSpan t n 0 0 = recordsSpan s n 0 0 := by
  induction n with
  | zero => exact ⟨rfl, rfl⟩
  | succ n ih =>
    have hflag : recordFlag t (0 + n) = recordFlag s (0 + n) := hflags _ (by omega)
    have hlength : 1 ≤ recordLength s (0 + n) := by
      unfold recordLength
      split <;> decide
    rw [recordsEnd_succ_right] at hcode
    obtain ⟨hend, hspan⟩ := ih (fun k hk => hflags k (by omega)) fun a ha => hcode a (by omega)
    rw [recordsEnd_succ_right, recordsEnd_succ_right, recordsSpan_succ_right, recordsSpan_succ_right, hend, hspan,
      recordLength, recordLength, recordCover, recordCover, hflag, hcode _ (by omega)]
    exact ⟨rfl, rfl⟩

/-- A record covers at most 258 bytes (R95). -/
theorem recordsSpan_le (s : State) (n k pos : Nat) : recordsSpan s n k pos ≤ 258 * n := by
  induction n generalizing k pos with
  | zero => exact le_rfl
  | succ n ih =>
    have hcover : recordCover s (k + n) (recordsEnd s n k pos) ≤ 258 := by
      have := (Mem.read s.lz.lzCode (recordsEnd s n k pos)).isLt
      unfold recordCover
      split <;> omega
    have := ih k pos
    rw [recordsSpan_succ_right]
    omega

/-- A record appended where one fits: the records fill `lz_code` and cover the bytes again (R160, R161). -/
theorem recordsHeld_appended {s t : State} {bytes : List (BitVec 8)} {f : Bool} {n : Nat} (h : RecordsHeld s)
    (hroom : s.lz.lzCodeLen.toNat ≤ 65528 ∧ s.lz.lzOpCount.toNat ≤ s.lz.lzCodeLen.toNat)
    (hlz : t.lz = appendRecord s.lz bytes f n) (hbytes : bytes.length = if f then 3 else 1)
    (hcover : n = if f then (bytes.getD 0 0).toNat + 3 else 1) : RecordsHeld t := by
  have hflags (k : Nat) : recordFlag t k = if k = s.lz.lzOpCount.toNat then f else recordFlag s k := by
    rw [recordFlag, hlz]
    exact testBit_appendRecord_flags h.flags bytes f n k
  have hcode (a : Nat) : Mem.read t.lz.lzCode a = if s.lz.lzCodeLen.toNat ≤ a ∧ a < s.lz.lzCodeLen.toNat + bytes.length
      then bytes.getD (a - s.lz.lzCodeLen.toNat) 0 else Mem.read s.lz.lzCode a := by
    rw [hlz]
    exact read_writeRun h.code _ bytes a
  have hends := h.ends
  have hspans := h.spans
  have hbound := recordsSpan_le s s.lz.lzOpCount.toNat 0 0
  obtain ⟨hlen, hops⟩ := hroom
  obtain ⟨hend, hspan⟩ := records_congr (s := s) (t := t) (n := s.lz.lzOpCount.toNat)
    (fun k hk => by rw [hflags, if_neg hk.ne]) fun a ha => by rw [hcode, if_neg (by omega)]
  have hops' : t.lz.lzOpCount.toNat = s.lz.lzOpCount.toNat + 1 := by
    rw [hlz]
    show (s.lz.lzOpCount + 1).toNat = _
    rw [BitVec.toNat_add, show (1 : BitVec 17).toNat = 1 from rfl]
    omega
  have hflag : recordFlag t (0 + s.lz.lzOpCount.toNat) = f := by rw [hflags, if_pos (Nat.zero_add _)]
  have hlength : recordLength t (0 + s.lz.lzOpCount.toNat) = bytes.length := by rw [recordLength, hflag, hbytes]
  have hfirst : Mem.read t.lz.lzCode s.lz.lzCodeLen.toNat = bytes.getD 0 0 := by
    have hsome : 0 < bytes.length := by
      rw [hbytes]
      split <;> decide
    rw [hcode, if_pos ⟨le_rfl, Nat.lt_add_of_pos_right hsome⟩, Nat.sub_self]
  have hcovered : recordCover t (0 + s.lz.lzOpCount.toNat) s.lz.lzCodeLen.toNat = n := by
    rw [recordCover, hflag, hfirst, hcover]
  have hfew : n ≤ 258 := by
    have := (bytes.getD 0 0).isLt
    rw [hcover]
    split <;> omega
  have hshort : bytes.length ≤ 3 := by
    rw [hbytes]
    split <;> decide
  refine ⟨?_, ?_, ?_, ?_⟩
  · rw [hlz]
    exact writeRun_wf h.code _ _
  · rw [hlz]
    exact flagWrite_wf h.flags _ _
  · rw [hops', recordsEnd_succ_right, hlength, hend, hends, hlz]
    show _ = (s.lz.lzCodeLen + BitVec.ofNat 17 bytes.length).toNat
    rw [BitVec.toNat_add, BitVec.toNat_ofNat]
    omega
  · rw [hops', recordsSpan_succ_right, hspan, hend, hends, hcovered, hspans, hlz]
    show _ = (s.lz.totalLzBytes + BitVec.ofNat 32 n).toNat
    rw [BitVec.toNat_add, BitVec.toNat_ofNat]
    omega

/-- No records are held by counters of zero (R163). -/
theorem recordsHeld_of_emptied {s : State} (hcode : Mem.wf s.lz.lzCode) (hflags : Mem.wf s.lz.lzFlags)
    (hlen : s.lz.lzCodeLen = 0) (hops : s.lz.lzOpCount = 0) (htotal : s.lz.totalLzBytes = 0) : RecordsHeld s :=
  ⟨hcode, hflags, by rw [hops, hlen]; rfl, by rw [hops, htotal]; rfl⟩

/-- The records are the recorder's. -/
theorem recordsHeld_of_lz {s t : State} (h : RecordsHeld s) (hlz : t.lz = s.lz) : RecordsHeld t := by
  obtain ⟨hend, hspan⟩ := records_congr (s := s) (t := t) (n := s.lz.lzOpCount.toNat)
    (fun k _ => by rw [recordFlag, recordFlag, hlz]) fun a _ => by rw [hlz]
  exact ⟨by rw [hlz]; exact h.code, by rw [hlz]; exact h.flags, by rw [hlz, hend]; exact h.ends,
    by rw [hlz, hspan]; exact h.spans⟩

end Sys2Proof.Proofs.RecorderUnit

/-! The whole machine: what single writes leave of the staging buffer, and of an instance that runs. -/

namespace Sys2Proof.Proofs.WholeMachine

open Sys2Proof Sys2Proof.Machine Sys2Proof.Laws Sys2Proof.Proofs.HostCalls

/-- The staged bytes fit `stage` and the accumulator is sound, while the instance runs (R33 items 7 and 8). -/
def Accumulated (s : State) : Prop := s.halt = none → s.enc.Sound ∧ s.enc.stagePos.toNat ≤ 85196

/-- The byte loop of ENC.PUT_BITS writes inside `stage` (R210). -/
theorem emitBytes_stagePos (k : Nat) {s : State} (h : s.enc.stagePos.toNat ≤ 85196) :
    (emitBytes k s).enc.stagePos.toNat ≤ 85196 := by
  induction k generalizing s with
  | zero => exact h
  | succ k ih =>
    unfold emitBytes
    split
    · exact h
    split
    case isTrue hroom =>
      simp only [Config.outStageSize] at hroom
      refine ih ?_
      show (s.enc.stagePos + 1).toNat ≤ 85196
      rw [BitVec.toNat_add, show (1 : BitVec 17).toNat = 1 from rfl]
      omega
    case isFalse =>
      rw [State.faulted, stop_enc]
      exact h

/-- No write stages beyond `stage` (R210). -/
theorem Write.stagePos {u : UnitName} {s t : State} (h : Write u s t) (hs : s.enc.stagePos.toNat ≤ 85196) :
    t.enc.stagePos.toNat ≤ 85196 := by
  by_cases hu : u = .enc
  · cases h with
    | field _ v n => exact emitBytes_stagePos 8 (by exact hs)
    | restaged => exact Nat.zero_le _
    | stopped => rwa [stop_enc]
    | _ => cases hu
  · rwa [h.onlyPart.enc hu]

theorem Writing.accumulated {us : List UnitName} {s t : State} (h : Writing us s t) (hs : Accumulated s) : Accumulated t :=
  h.invariant (P := Accumulated) (fun _ _ _ _ hw hx hrun =>
    have ⟨hsound, hfits⟩ := hx (hw.stays_stopped hrun)
    ⟨hw.sound hrun hsound, hw.stagePos hfits⟩) hs

/-- A running instance was running before it wrote (R303). -/
theorem Writing.running {us : List UnitName} {s t : State} (h : Writing us s t) (hrun : t.halt = none) : s.halt = none :=
  not_not.1 fun hstop => h.invariant (P := fun x => x.halt ≠ none) (fun _ _ _ _ hw hx hy => hx (hw.stays_stopped hy)) hstop hrun

/-- The parts of the state: those a COMPRESS may write. -/
def everyUnit : List UnitName := writes (.compressNone false false 0 0)

theorem mem_everyUnit (u : UnitName) : u ∈ everyUnit := mem_writes_of_compressParts rfl u

end Sys2Proof.Proofs.WholeMachine

/-! The driver family: what each micro-operation of a call keeps of the invariants of R33. -/

namespace Sys2Proof.Proofs.DriverUnit

open Sys2Proof Sys2Proof.Machine Sys2Proof.Laws Sys2Proof.Proofs.HostCalls Sys2Proof.Proofs.Dictionary
  Sys2Proof.Proofs.RecorderUnit Sys2Proof.Proofs.WholeMachine

/-- A parse step's record keeps the records of the block (R160, R161). -/
theorem Recorded.recordsHeld {s t : State} {n : Nat} (h : Recorded s.lz t.lz n) (hs : RecordsHeld s)
    (hroom : s.lz.lzCodeLen.toNat ≤ 65528 ∧ s.lz.lzOpCount.toNat ≤ s.lz.lzCodeLen.toNat) : RecordsHeld t := by
  generalize hlz : t.lz = r at h
  cases h with
  | none => exact recordsHeld_of_lz hs hlz
  | lit b => exact recordsHeld_appended hs hroom hlz rfl rfl
  | run _ dist hlen3 hlen258 _ =>
    refine recordsHeld_appended hs hroom hlz rfl ?_
    show n = (BitVec.ofNat 8 (n - 3)).toNat + 3
    rw [BitVec.toNat_ofNat]
    omega

/-! The invariants of the driver read few parts of the state. -/

/-- What the invariants of the driver do not read may change. -/
theorem driving_of_same {cap : Nat} {s t : State} (h : Driving cap s) (hdict : t.win.dict = s.win.dict) (hlz : t.lz = s.lz)
    (henc : t.enc = s.enc) (hdrv : t.drv = s.drv) (hflags : t.ctl.flags = s.ctl.flags)
    (hsink : t.ctl.sinkMode = s.ctl.sinkMode) : Driving cap t where
  canonical := by rw [hdict]; exact h.canonical
  window := by rw [hdrv]; exact h.window
  ahead := by rw [hdrv]; exact h.ahead
  mirror := by rw [hdict]; exact h.mirror
  recorded := by rw [hlz]; exact h.recorded
  span := by rw [hdrv, hlz]; exact h.span
  bits := by rw [henc]; exact h.bits
  staged := by rw [henc]; exact h.staged
  behind := by rw [lag, hdrv]; exact h.behind
  pending := by rw [hdrv, henc]; exact h.pending
  sink := by rw [hsink, hdrv]; exact h.sink
  held := by
    rw [hdrv, Control.greedyParsing, Control.rleMatches, Control.forceRaw, hflags]
    exact h.held

/-- A lower mark of the records, where the counters are below it. -/
theorem driving_of_recorded {cap cap' : Nat} {s : State} (h : Driving cap s) (hlen : s.lz.lzCodeLen.toNat ≤ cap') :
    Driving cap' s where
  canonical := h.canonical
  window := h.window
  ahead := h.ahead
  mirror := h.mirror
  recorded := ⟨hlen, h.recorded.2⟩
  span := h.span
  bits := h.bits
  staged := h.staged
  behind := h.behind
  pending := h.pending
  sink := h.sink
  held := h.held

/-! DRV.FILL and DRV.CATCHUP. -/

theorem windowFilled_wf {d : Mem 8} (h : Mem.wf d) (q : BitVec 32) (cs : List (BitVec 8)) : Mem.wf (windowFilled d q cs) := by
  induction cs generalizing d q with
  | nil => exact h
  | cons c cs ih => exact ih (windowWrite_wf h q c) (q + 1)

/-- DRV.FILL keeps the invariants: the history makes room for the lookahead (R256). -/
theorem driving_filled {cap : Nat} {s : State} (h : Driving cap s) : Driving cap (opDrvFill s) := by
  have hahead := h.ahead
  have hwindow := h.window
  simp only [Config.maxMatch, Config.windowSize] at hahead hwindow
  have hfits : fillCount s ≤ 258 - s.drv.lookaheadSize.toNat := Nat.min_le_right _ _
  have hsize : (BitVec.ofNat 9 (s.drv.lookaheadSize.toNat + fillCount s)).toNat = s.drv.lookaheadSize.toNat + fillCount s := by
    rw [BitVec.toNat_ofNat]
    omega
  rw [opDrvFill_eq]
  exact {
    canonical := windowFilled_wf h.canonical _ _
    window := by
      show (BitVec.ofNat 16 (min (32768 - (s.drv.lookaheadSize.toNat + fillCount s)) s.drv.dictSize.toNat)).toNat
        + (BitVec.ofNat 9 (s.drv.lookaheadSize.toNat + fillCount s)).toNat ≤ 32768
      rw [hsize, BitVec.toNat_ofNat]
      omega
    ahead := by
      show (BitVec.ofNat 9 (s.drv.lookaheadSize.toNat + fillCount s)).toNat ≤ 258
      omega
    mirror := windowFilled_mirrored h.canonical h.mirror _ _
    recorded := h.recorded
    span := h.span
    bits := h.bits
    staged := h.staged
    behind := h.behind
    pending := h.pending
    sink := h.sink
    held := fun hheld => by
      obtain ⟨hgreedy, hrle, hraw, hlen3, hlen, hdist1, hdist, hreach⟩ := h.held hheld
      refine ⟨hgreedy, hrle, hraw, hlen3, hlen, hdist1, hdist, ?_⟩
      show s.drv.savedLen.toNat - 1 ≤ (BitVec.ofNat 9 (s.drv.lookaheadSize.toNat + fillCount s)).toNat
      omega }

theorem insertRun_dict (n : Nat) (q : BitVec 32) (w : Window) : (insertRun n q w).dict = w.dict := by
  induction n generalizing q w with
  | zero => rfl
  | succ n ih => exact ih (q + 1) (chainInsert w q)

/-- Of a lag, `n` positions inserted leave the rest (R258). -/
theorem lag_insertedRun {n : Nat} {s : State} (h : n ≤ lag s) : lag (insertedRun n s) = lag s - n := by
  have := (s.drv.lookaheadPos - s.drv.insPos).isLt
  rw [lag] at h ⊢
  show (s.drv.lookaheadPos - (s.drv.insPos + BitVec.ofNat 32 n)).toNat = _
  rw [sub_add_eq_sub_sub, BitVec.toNat_sub, BitVec.toNat_ofNat]
  rw [lag]
  omega

/-- DRV.CATCHUP keeps the invariants, and leaves no position behind whose three bytes are there (R258, R33 item 9). -/
theorem driving_caughtUp {cap : Nat} {s : State} (h : Driving cap s) :
    Driving cap (opDrvCatchup s) ∧ lag (opDrvCatchup s) ≤ 2 - (opDrvCatchup s).drv.lookaheadSize.toNat := by
  have hbehind := h.behind
  have hlag := lag_insertedRun (s := s) (n := catchupCount s) (Nat.sub_le _ _)
  have hdict := insertRun_dict (catchupCount s) s.drv.insPos s.win
  rw [opDrvCatchup_eq hbehind]
  refine ⟨?_, ?_⟩
  · exact {
      canonical := by rw [insertedRun, setDrv_win, setWin_win, hdict]; exact h.canonical
      window := h.window
      ahead := h.ahead
      mirror := by rw [insertedRun, setDrv_win, setWin_win, hdict]; exact h.mirror
      recorded := h.recorded
      span := h.span
      bits := h.bits
      staged := h.staged
      behind := by omega
      pending := h.pending
      sink := h.sink
      held := h.held }
  · show _ ≤ 2 - s.drv.lookaheadSize.toNat
    rw [hlag, catchupCount]
    omega

/-! The pair of the pending bytes: the hand-over and DRV.DRAIN. -/

/-- Only the pair of the pending bytes changed, and it still points into the bytes staged (R33 items 10 and 11). -/
theorem driving_setPending {cap : Nat} {s : State} (h : Driving cap s) {ofs remaining : BitVec 17}
    (hpending : remaining ≠ 0 → ofs.toNat + remaining.toNat = s.enc.stagePos.toNat)
    (hsink : s.ctl.sinkMode = true → remaining = 0) :
    Driving cap (s.setDrv { s.drv with flushOfs := ofs, flushRemaining := remaining }) where
  canonical := h.canonical
  window := h.window
  ahead := h.ahead
  mirror := h.mirror
  recorded := h.recorded
  span := h.span
  bits := h.bits
  staged := h.staged
  behind := h.behind
  pending := hpending
  sink := hsink
  held := h.held

/-- The hand-over leaves the driver alone, or, in slice mode, suspends with the rest of the bytes pending (R266, R306). -/
theorem handOver_drv (s : State) : (handOver s).drv = s.drv ∨ s.ctl.sinkMode = false ∧ ∃ k < s.enc.stagePos.toNat,
    (handOver s).drv = { s.drv with
      flushOfs := BitVec.ofNat 17 k, flushRemaining := BitVec.ofNat 17 (s.enc.stagePos.toNat - k) } := by
  unfold handOver
  dsimp only
  split
  · exact Or.inl rfl
  split
  · split <;> exact Or.inl rfl
  case isFalse hslice =>
    split
    case isTrue hless => exact Or.inr ⟨by simpa using hslice, _, hless, rfl⟩
    case isFalse => exact Or.inl rfl

/-- The hand-over keeps the invariants (R266). -/
theorem driving_handedOver {cap : Nat} {s : State} (h : Driving cap s) : Driving cap (handOver s) := by
  have hover := handOver_frame s
  have hdict : (handOver s).win.dict = s.win.dict := by rw [hover.win]
  have hlz := (handOver_lz_huf s).1
  have henc := (EncoderUnit.handOver_enc_work_halt s).1
  have hflags : (handOver s).ctl.flags = s.ctl.flags := by rw [hover.ctl]
  have hsink : (handOver s).ctl.sinkMode = s.ctl.sinkMode := by rw [hover.ctl]
  rcases handOver_drv s with hdrv | ⟨hslice, k, hk, hdrv⟩
  · exact driving_of_same h hdict hlz henc hdrv hflags hsink
  · have hstage := s.enc.stagePos.isLt
    refine driving_of_same (driving_setPending h (ofs := BitVec.ofNat 17 k) (fun _ => ?_) fun hmode => ?_) hdict hlz henc hdrv
      hflags hsink
    · rw [BitVec.toNat_ofNat, BitVec.toNat_ofNat]
      omega
    · rw [hslice] at hmode
      cases hmode

/-- DRV.DRAIN keeps the invariants: the pair advances over the bytes delivered (R268). -/
theorem driving_drained {cap : Nat} {s : State} (h : Driving cap s) (hrun : (opDrvDrain s).halt = none) :
    Driving cap (opDrvDrain s) := by
  unfold opDrvDrain at hrun ⊢
  split at hrun
  case isTrue hsink => rwa [if_pos hsink]
  case isFalse hslice =>
    rw [if_neg hslice]
    rcases resume_cases s with ⟨-, hresume⟩ | ⟨-, hresume⟩
    case inr => exact absurd (hresume ▸ hrun) (stop_halt_ne s _)
    rw [hresume]
    have hk := Nat.min_le_right (outRoom s) s.drv.flushRemaining.toNat
    generalize min (outRoom s) s.drv.flushRemaining.toNat = k at hk
    have hofs := s.drv.flushOfs.isLt
    have hstage := h.staged
    simp only [Config.outStageSize] at hstage
    have hrest : (s.drv.flushRemaining - BitVec.ofNat 17 k).toNat = s.drv.flushRemaining.toNat - k := by
      rw [BitVec.toNat_sub, BitVec.toNat_ofNat]
      omega
    refine driving_of_same (driving_setPending h (ofs := s.drv.flushOfs + BitVec.ofNat 17 k)
      (remaining := s.drv.flushRemaining - BitVec.ofNat 17 k) (fun hsome => ?_) fun hmode => absurd hmode hslice)
      rfl rfl rfl rfl rfl rfl
    have hsum := h.pending fun hnone => hsome (BitVec.eq_of_toNat_eq (by
      rw [hrest, hnone]
      exact Nat.zero_sub k))
    rw [hrest, BitVec.toNat_add, BitVec.toNat_ofNat]
    omega

/-! DRV.CLOSE_BLOCK. -/

/-- A block staged leaves no record, and the next block starts behind its bytes (R163, R265). -/
theorem driving_stageBlock {cap : Nat} {s : State} (fl : FlushMode) (h : Driving cap s) (hnone : s.drv.flushRemaining = 0)
    (henc : (stageBlock fl s).enc.Sound ∧ (stageBlock fl s).enc.stagePos.toNat ≤ 85196) :
    Driving 65528 (stageBlock fl s) := by
  have hstage := stageBlock_staging fl s
  obtain ⟨hlz, hstart, -⟩ : (stageBlock fl s).lz = _ ∧ (stageBlock fl s).drv.blockStartPos = _
      ∧ (stageBlock fl s).ctl.blockIndex = _ := by simpa only [blockBooks, Prod.mk.injEq] using blockBooks_stageBlock fl s
  have hctl (f : Control → Bool) (hf : ∀ c n, f { c with blockIndex := n } = f c) :
      f (stageBlock fl s).ctl = f s.ctl := by rw [hstage.ctl, hf]
  exact {
    canonical := by rw [hstage.win]; exact h.canonical
    window := by rw [hstage.drv]; exact h.window
    ahead := by rw [hstage.drv]; exact h.ahead
    mirror := by rw [hstage.win]; exact h.mirror
    recorded := by rw [hlz]; exact ⟨Nat.zero_le _, le_rfl⟩
    span := by
      rw [hstart, hlz, hstage.drv, sub_add_eq_sub_sub, h.span, add_sub_cancel_left]
      exact (zero_add _).symm
    bits := henc.1
    staged := henc.2
    behind := by rw [lag, hstage.drv]; exact h.behind
    pending := fun hsome => absurd (by rw [hstage.drv]; exact hnone) hsome
    sink := fun _ => by rw [hstage.drv]; exact hnone
    held := by
      rw [hstage.drv, hctl Control.greedyParsing fun _ _ => rfl, hctl Control.rleMatches fun _ _ => rfl,
        hctl Control.forceRaw fun _ _ => rfl]
      exact h.held }

/-- DRV.CLOSE_BLOCK leaves the invariants, and no records (R163, R265). -/
theorem driving_closed {cap : Nat} {s : State} (fl : FlushMode) (h : Driving cap s)
    (hrun : (opDrvCloseBlock fl s).halt = none) :
    Driving 65528 (opDrvCloseBlock fl s) ∧ (RecordsHeld s → RecordsHeld (opDrvCloseBlock fl s)) := by
  have henc := (opDrvCloseBlock_writing (fun u _ => mem_everyUnit u) fl s).accumulated (fun _ =>
    ⟨h.bits, h.staged⟩) hrun
  have hclose := exec_drvCloseBlock_next (settle_of_running hrun)
  have hnone : s.drv.flushRemaining = 0 := by
    by_contra hsome
    rw [opDrvCloseBlock, if_neg hsome] at hrun
    exact stop_halt_ne s _ hrun
  rw [hclose] at henc ⊢
  rw [(EncoderUnit.handOver_enc_work_halt _).1] at henc
  have hlz : (stageBlock fl s).lz = { s.lz with lzCodeLen := 0, lzOpCount := 0, totalLzBytes := 0 } := by
    simpa only [blockBooks] using congrArg Prod.fst (blockBooks_stageBlock fl s)
  refine ⟨driving_handedOver (driving_stageBlock fl h hnone henc), fun hheld => ?_⟩
  refine recordsHeld_of_lz (recordsHeld_of_emptied (s := stageBlock fl s) ?_ ?_ ?_ ?_ ?_) (handOver_lz_huf _).1
  · rw [hlz]; exact hheld.code
  · rw [hlz]; exact hheld.flags
  all_goals rw [hlz]

/-- A parse step after the catch-up keeps the invariants, with the records up to the mark of R162 exceeded by one. -/
theorem driving_stepped {s : State} (h : Driving 65528 s) (hlag : lag s ≤ 2 - s.drv.lookaheadSize.toNat)
    (hrun : (opDrvParseStep s).halt = none) :
    Driving 65531 (opDrvParseStep s) ∧ (RecordsHeld s → RecordsHeld (opDrvParseStep s)) := by
  have hbefore := (opDrvParseStep_writing (mem_everyUnit _) (mem_everyUnit _) (mem_everyUnit _) (mem_everyUnit _)
    (mem_everyUnit _) s).running hrun
  have hsome : s.drv.lookaheadSize ≠ 0 := fun hempty => by
    rw [opDrvParseStep, if_pos hempty] at hrun
    exact stop_halt_ne s _ hrun
  obtain ⟨t, move, n, hexec, hmoved⟩ := exec_drvParseStep hbefore h hsome
  obtain ⟨-, rfl⟩ := settle_eq_next.1 hexec
  exact ⟨hmoved.driving hexec h hlag, fun hheld => hmoved.lz.recordsHeld hheld h.recorded⟩

/-! The commands: what holds of the driver and of the records from the beginning of a call on. -/

/-- In a call begun in `b`: the invariants of R33, and the records of the block if `b` held its own. -/
structure DrivingFrom (b s : State) : Prop where
  driving : Driving 65528 s
  records : RecordsHeld b → RecordsHeld s

namespace DrivingFrom

variable {b s t : State}

theorem of_same (h : DrivingFrom b s) (hdict : t.win.dict = s.win.dict) (hlz : t.lz = s.lz) (henc : t.enc = s.enc)
    (hdrv : t.drv = s.drv) (hflags : t.ctl.flags = s.ctl.flags) (hsink : t.ctl.sinkMode = s.ctl.sinkMode) : DrivingFrom b t :=
  ⟨driving_of_same h.driving hdict hlz henc hdrv hflags hsink, fun hb => recordsHeld_of_lz (h.records hb) hlz⟩

/-- A response and the status recorded with it (R268, R300 to R302). -/
theorem answered (h : DrivingFrom b s) (st : Status) : DrivingFrom b (raise st s) := by
  cases st <;> exact h.of_same rfl rfl rfl rfl rfl rfl

theorem closed (fl : FlushMode) {cap : Nat} (h : Driving cap s) (hrecords : RecordsHeld b → RecordsHeld s)
    (hrun : (opDrvCloseBlock fl s).halt = none) : DrivingFrom b (opDrvCloseBlock fl s) :=
  have ⟨hdriving, hheld⟩ := driving_closed fl h hrun
  ⟨hdriving, hheld ∘ hrecords⟩

/-- What follows the block of a flush (R145, R267). -/
theorem ended (fl : FlushMode) (h : DrivingFrom b s) : DrivingFrom b (afterFlush fl s) := by
  have hdriving := h.driving
  cases fl with
  | none | sync => exact h
  | finish => exact h.of_same rfl rfl rfl rfl rfl rfl
  | full =>
    refine ⟨?_, fun hb => recordsHeld_of_lz (h.records hb) rfl⟩
    exact {
      canonical := hdriving.canonical
      window := (Nat.add_le_add_right (Nat.zero_le _) _).trans hdriving.window
      ahead := hdriving.ahead
      mirror := hdriving.mirror
      recorded := hdriving.recorded
      span := hdriving.span
      bits := hdriving.bits
      staged := hdriving.staged
      behind := by
        show (s.drv.lookaheadPos - s.drv.lookaheadPos).toNat ≤ 258
        rw [sub_self]
        exact Nat.zero_le _
      pending := hdriving.pending
      sink := hdriving.sink
      held := hdriving.held }

end DrivingFrom

/-- Where the parse loop ends running, it began so (R303). -/
theorem running_of_parseLoop {fl : FlushMode} {k : Nat} {s : State} (h : (parseLoop fl k s).halt = none) : s.halt = none :=
  ((callInvariant_writing mem_everyUnit s).parseLoop fl k .refl).running h

/-- The parse loop keeps the invariants (R255): a round steps only after the catch-up, and closes the block where the mark
of R162 was passed. -/
theorem drivingFrom_parseLoop {b s : State} (fl : FlushMode) (k : Nat) (h : DrivingFrom b s)
    (hrun : (parseLoop fl k s).halt = none) : DrivingFrom b (parseLoop fl k s) := by
  induction k generalizing s with
  | zero => exact h
  | succ k ih =>
    obtain ⟨hcaught, hlag⟩ := driving_caughtUp (driving_filled h.driving)
    have hlz : (opDrvCatchup (opDrvFill s)).lz = s.lz := by
      rw [opDrvCatchup_eq (driving_filled h.driving).behind, opDrvFill_eq]
      rfl
    have hu : DrivingFrom b (opDrvCatchup (opDrvFill s)) := ⟨hcaught, fun hb => recordsHeld_of_lz (h.records hb) hlz⟩
    unfold parseLoop at hrun ⊢
    dsimp only at hrun ⊢
    generalize opDrvCatchup (opDrvFill s) = u at hrun hu hlag ⊢
    have hstep (hv : (opDrvParseStep u).halt = none) := driving_stepped hu.driving hlag hv
    by_cases hmore : parseMore fl s = true
    case neg => rwa [if_neg hmore]
    rw [if_pos hmore] at hrun ⊢
    by_cases hshort : fl = .none ∧ u.drv.lookaheadSize.toNat < Config.maxMatch
    case pos => rwa [if_pos hshort]
    rw [if_neg hshort] at hrun ⊢
    generalize opDrvParseStep u = v at hrun hstep ⊢
    by_cases hdue : closeDue v = true
    case neg =>
      rw [if_neg hdue] at hrun ⊢
      obtain ⟨hdriving, hrecords⟩ := hstep (running_of_parseLoop hrun)
      have hlen : v.lz.lzCodeLen.toNat ≤ 65528 := by
        rw [closeDue_iff, BlockFull, not_or] at hdue
        exact Nat.not_lt.1 hdue.1
      exact ih ⟨driving_of_recorded hdriving hlen, hrecords ∘ hu.records⟩ hrun
    rw [if_pos hdue] at hrun ⊢
    have hclosed (hw : (opDrvCloseBlock .none v).halt = none) : DrivingFrom b (opDrvCloseBlock .none v) := by
      have hv := (opDrvCloseBlock_writing (fun u _ => mem_everyUnit u) .none v).running hw
      obtain ⟨hdriving, hrecords⟩ := hstep hv
      exact .closed .none hdriving (hrecords ∘ hu.records) hw
    split at hrun
    case isTrue hleave =>
      rw [if_pos hleave]
      exact hclosed hrun
    case isFalse hgo =>
      rw [if_neg hgo]
      exact ih (hclosed (running_of_parseLoop hrun)) hrun

/-- The flush at the end of a call keeps the invariants (R267). -/
theorem drivingFrom_endFlush {b s : State} (fl : FlushMode) (h : DrivingFrom b s) (hrun : (endFlush fl s).halt = none) :
    DrivingFrom b (endFlush fl s) := by
  by_cases hdue : fl ≠ .none ∧ s.drv.lookaheadSize = 0 ∧ srcLeft s = 0 ∧ s.drv.flushRemaining = 0
  case neg => rwa [endFlush, if_neg hdue]
  obtain ⟨hfl, hempty, hread, hnone⟩ := hdue
  rw [endFlush_eq hfl hempty hread hnone] at hrun ⊢
  split at hrun
  case isTrue hraised =>
    rw [if_pos hraised]
    exact .closed fl h.driving h.records hrun
  case isFalse hok =>
    rw [if_neg hok]
    have hclosed : (opDrvCloseBlock fl s).halt = none := by cases fl <;> exact hrun
    exact (DrivingFrom.closed fl h.driving h.records hclosed).ended fl

/-- The last step of a call keeps the invariants (R268). -/
theorem drivingFrom_finishCall {b s : State} (h : DrivingFrom b s) (hrun : (finishCall s).halt = none) :
    DrivingFrom b (finishCall s) := by
  have hdrained := (raise_writing (mem_everyUnit _) (mem_everyUnit _) _ _).running hrun
  have hlz : (opDrvDrain s).lz = s.lz := by
    refine (opDrvDrain_writing (us := [.drv, .call, .host]) (by decide) (by decide) (by decide) s).unchanged ?_
    exact fun u hu _ _ hw => hw.onlyPart.lz (by rintro rfl; revert hu; decide)
  exact DrivingFrom.answered ⟨driving_drained h.driving hdrained, fun hb => recordsHeld_of_lz (h.records hb) hlz⟩ _

/-- Where the end of a call runs, the flush before it ran (R303). -/
theorem running_of_finishCall {s : State} (h : (finishCall s).halt = none) : s.halt = none :=
  Writing.running ((opDrvDrain_writing (mem_everyUnit _) (mem_everyUnit _) (mem_everyUnit _) s).trans
    (raise_writing (mem_everyUnit _) (mem_everyUnit _) _ _)) h

/-- The steps of an accepted call keep the invariants (R251). -/
theorem drivingFrom_callBody {b s : State} (fl : FlushMode) (h : DrivingFrom b s) (hrun : (callBody fl s).halt = none) :
    DrivingFrom b (callBody fl s) := by
  unfold callBody at hrun ⊢
  dsimp only at hrun ⊢
  by_cases hdrain : s.drv.flushRemaining ≠ 0 ∨ s.ctl.finished = true
  case pos =>
    rw [if_pos hdrain] at hrun ⊢
    exact drivingFrom_finishCall h hrun
  rw [if_neg hdrain] at hrun ⊢
  have hparsed := drivingFrom_parseLoop fl (parseBound s) h
  generalize parseLoop fl (parseBound s) s = u at hrun hparsed ⊢
  by_cases hraised : raised u = true
  case pos =>
    rw [if_pos hraised] at hrun ⊢
    exact hparsed hrun
  rw [if_neg hraised] at hrun ⊢
  have hflushed (hw : (endFlush fl u).halt = none) : DrivingFrom b (endFlush fl u) :=
    drivingFrom_endFlush fl (hparsed (((callInvariant_writing mem_everyUnit u).endFlush fl .refl).running hw)) hw
  generalize endFlush fl u = w at hrun hflushed ⊢
  by_cases hrefused : raised w = true
  case pos =>
    rw [if_pos hrefused] at hrun ⊢
    exact hflushed hrun
  rw [if_neg hrefused] at hrun ⊢
  exact drivingFrom_finishCall (hflushed (running_of_finishCall hrun)) hrun

/-- COMPRESS keeps the invariants, accepted or rejected (R251, R252). -/
theorem drivingFrom_compressCall {b s : State} (f : BitVec 3) (ip op : Bool) (il oc : BitVec 32) (h : DrivingFrom b s)
    (hrun : (compressCall f ip op il oc s).halt = none) : DrivingFrom b (compressCall f ip op il oc s) := by
  unfold compressCall at hrun ⊢
  by_cases hbad : badParam f ip op il s = true
  case pos =>
    rw [if_pos hbad]
    exact h.answered .badParam
  rw [if_neg hbad] at hrun ⊢
  cases hmode : flushMode f with
  | none => exact h.answered .badParam
  | some fl =>
    rw [hmode] at hrun
    exact drivingFrom_callBody fl (h.of_same rfl rfl rfl rfl rfl rfl) hrun

/-- INIT leaves the invariants of an empty stream (R34, R331). -/
theorem drivingFrom_inited {b s : State} (flags : BitVec 20) (sink : Bool) (h : DrivingFrom b s) :
    DrivingFrom b (opInit flags sink s) where
  driving := {
    canonical := h.driving.canonical
    window := Nat.zero_le _
    ahead := Nat.zero_le _
    mirror := h.driving.mirror
    recorded := ⟨Nat.zero_le _, le_rfl⟩
    span := by
      show (0 : BitVec 32) - 0 = 0 + if (0 : BitVec 9) = 0 then 0 else 1
      decide
    bits := ⟨Nat.zero_le _, Nat.one_pos⟩
    staged := Nat.zero_le _
    behind := by
      show ((0 : BitVec 32) - 0).toNat ≤ 258
      decide
    pending := fun h => absurd rfl h
    sink := fun _ => rfl
    held := fun h => absurd rfl h }
  records hb := recordsHeld_of_emptied (h.records hb).code (h.records hb).flags rfl rfl rfl

/-- A command word is an INIT or a COMPRESS (R90, R93). -/
theorem decode_command_cases {ws : List (BitVec 32)} {i : Instr} (h : decode .command ws = .ok i) :
    (∃ flags sink, i = .init flags sink) ∨ ∃ p, compressParts i = some p := by
  change decodeCommand ws = .ok i at h
  unfold decodeCommand at h
  dsimp only at h
  split at h
  · cases h
    exact Or.inl ⟨_, _, rfl⟩
  · split at h <;> cases h <;> exact Or.inr ⟨_, rfl⟩
  · cases h

/-- A host command that completes keeps the invariants. -/
theorem drivingFrom_command {b s t : State} {ws : List (BitVec 32)} {i : Instr} (h : DrivingFrom b s)
    (hdecode : decode .command ws = .ok i) (hexec : exec i s = .next t) : DrivingFrom b t := by
  obtain ⟨flags, sink, rfl⟩ | ⟨⟨f, ip, op, il, oc⟩, hparts⟩ := decode_command_cases hdecode
  · obtain ⟨-, rfl⟩ := settle_eq_next.1 hexec
    exact drivingFrom_inited flags sink h
  · rw [exec_of_compressParts hparts] at hexec
    obtain ⟨hrun, rfl⟩ := settle_eq_next.1 hexec
    exact drivingFrom_compressCall f ip op il oc h hrun

/-- Settles O56: each micro-operation of a call keeps the invariants, or stops; the records grow by whole records, or are
dropped. -/
theorem commandKeepsDriving : Obligations.CommandKeepsDriving := by
  unfold Obligations.CommandKeepsDriving
  intro s t hdriving hcommand hstep
  have hs : DrivingFrom s s := ⟨hdriving, id⟩
  suffices h : DrivingFrom s t from ⟨h.driving, h.records⟩
  obtain ⟨-, ⟨-, rfl⟩ | ⟨r, x, hfetch, hran⟩⟩ := step_cases hstep
  · exact hs
  obtain ⟨hmem, v, rfl⟩ := fetch_eq hfetch
  have hx : DrivingFrom s (s.setHost v) := hs.of_same rfl rfl rfl rfl rfl rfl
  rcases hran with ⟨i, hdecode, hexec⟩ | hrejected
  · rw [hcommand r hmem] at hdecode
    exact drivingFrom_command hx hdecode hexec
  · obtain ⟨-, rfl⟩ := settle_eq_next.1 hrejected
    exact hx.answered .badParam

end Sys2Proof.Proofs.DriverUnit
